-- ==== Sys2Proof/Word.lean ====
section
/-! DEFINITION. The word types of the machine (spec 00_scope.md rule R8). -/

namespace Sys2Proof

/-- A word: 32 bits, the width of every register and of an address (R8, parameters XLEN and ALEN of R6). -/
abbrev Word := BitVec 32

/-- A half-word: 16 bits (R8). -/
abbrev Half := BitVec 16

/-- A byte: 8 bits, the unit of memory (R8, 20_memory.md R60). -/
abbrev Byte := BitVec 8

end Sys2Proof
end

