-- ==== Sys2Proof/Syntax.lean ====
section
/-! DEFINITION. The instructions: one constructor of `Instr` per row of spec/opcode_table.json, its arguments the fields
of the row's format (spec 30_encoding.md rules R101 to R119). -/

namespace Sys2Proof

/-- The fifteen conditions of 40_conditional_execution.md R140; the sixteenth value, NV, is no condition (R143). -/
inductive Cond where
  | eq | ne | cs | cc | mi | pl | vs | vc | hi | ls | ge | lt | gt | le | al
deriving DecidableEq, Repr

/-- A register number, 0 to 15 (10_state.md R21); 15 is the pc. -/
abbrev RegNum := Fin 16

/-- The shift types of 30_encoding.md R111. -/
inductive ShiftType where
  | lsl | lsr | asr | ror
deriving DecidableEq, Repr

/-- The sixteen data processing operations of 43_data_processing.md R170, in the order of their opcode field. -/
inductive DpOp where
  | and | eor | sub | rsb | add | adc | sbc | rsc | tst | teq | cmp | cmn | orr | mov | bic | mvn
deriving DecidableEq, Repr

/-- The instructions of the opcode table, one constructor per row. -/
inductive Instr where
  /-- AND, rotated immediate (R185). -/
  | andImm (cond : Cond) (s : Bool) (rn rd : RegNum) (rot : BitVec 4) (imm8 : BitVec 8)
  /-- AND, register shifted by an immediate amount (R185). -/
  | andReg (cond : Cond) (s : Bool) (rn rd : RegNum) (amount : BitVec 5) (sh : ShiftType) (rm : RegNum)
  /-- AND, register shifted by a register (R185). -/
  | andRsr (cond : Cond) (s : Bool) (rn rd rs : RegNum) (sh : ShiftType) (rm : RegNum)
  /-- EOR, rotated immediate (R186). -/
  | eorImm (cond : Cond) (s : Bool) (rn rd : RegNum) (rot : BitVec 4) (imm8 : BitVec 8)
  /-- EOR, register shifted by an immediate amount (R186). -/
  | eorReg (cond : Cond) (s : Bool) (rn rd : RegNum) (amount : BitVec 5) (sh : ShiftType) (rm : RegNum)
  /-- EOR, register shifted by a register (R186). -/
  | eorRsr (cond : Cond) (s : Bool) (rn rd rs : RegNum) (sh : ShiftType) (rm : RegNum)
  /-- SUB, rotated immediate (R187). -/
  | subImm (cond : Cond) (s : Bool) (rn rd : RegNum) (rot : BitVec 4) (imm8 : BitVec 8)
  /-- SUB, register shifted by an immediate amount (R187). -/
  | subReg (cond : Cond) (s : Bool) (rn rd : RegNum) (amount : BitVec 5) (sh : ShiftType) (rm : RegNum)
  /-- SUB, register shifted by a register (R187). -/
  | subRsr (cond : Cond) (s : Bool) (rn rd rs : RegNum) (sh : ShiftType) (rm : RegNum)
  /-- RSB, rotated immediate (R188). -/
  | rsbImm (cond : Cond) (s : Bool) (rn rd : RegNum) (rot : BitVec 4) (imm8 : BitVec 8)
  /-- RSB, register shifted by an immediate amount (R188). -/
  | rsbReg (cond : Cond) (s : Bool) (rn rd : RegNum) (amount : BitVec 5) (sh : ShiftType) (rm : RegNum)
  /-- RSB, register shifted by a register (R188). -/
  | rsbRsr (cond : Cond) (s : Bool) (rn rd rs : RegNum) (sh : ShiftType) (rm : RegNum)
  /-- ADD, rotated immediate (R189). -/
  | addImm (cond : Cond) (s : Bool) (rn rd : RegNum) (rot : BitVec 4) (imm8 : BitVec 8)
  /-- ADD, register shifted by an immediate amount (R189). -/
  | addReg (cond : Cond) (s : Bool) (rn rd : RegNum) (amount : BitVec 5) (sh : ShiftType) (rm : RegNum)
  /-- ADD, register shifted by a register (R189). -/
  | addRsr (cond : Cond) (s : Bool) (rn rd rs : RegNum) (sh : ShiftType) (rm : RegNum)
  /-- ADC, rotated immediate (R190). -/
  | adcImm (cond : Cond) (s : Bool) (rn rd : RegNum) (rot : BitVec 4) (imm8 : BitVec 8)
  /-- ADC, register shifted by an immediate amount (R190). -/
  | adcReg (cond : Cond) (s : Bool) (rn rd : RegNum) (amount : BitVec 5) (sh : ShiftType) (rm : RegNum)
  /-- ADC, register shifted by a register (R190). -/
  | adcRsr (cond : Cond) (s : Bool) (rn rd rs : RegNum) (sh : ShiftType) (rm : RegNum)
  /-- SBC, rotated immediate (R191). -/
  | sbcImm (cond : Cond) (s : Bool) (rn rd : RegNum) (rot : BitVec 4) (imm8 : BitVec 8)
  /-- SBC, register shifted by an immediate amount (R191). -/
  | sbcReg (cond : Cond) (s : Bool) (rn rd : RegNum) (amount : BitVec 5) (sh : ShiftType) (rm : RegNum)
  /-- SBC, register shifted by a register (R191). -/
  | sbcRsr (cond : Cond) (s : Bool) (rn rd rs : RegNum) (sh : ShiftType) (rm : RegNum)
  /-- RSC, rotated immediate (R192). -/
  | rscImm (cond : Cond) (s : Bool) (rn rd : RegNum) (rot : BitVec 4) (imm8 : BitVec 8)
  /-- RSC, register shifted by an immediate amount (R192). -/
  | rscReg (cond : Cond) (s : Bool) (rn rd : RegNum) (amount : BitVec 5) (sh : ShiftType) (rm : RegNum)
  /-- RSC, register shifted by a register (R192). -/
  | rscRsr (cond : Cond) (s : Bool) (rn rd rs : RegNum) (sh : ShiftType) (rm : RegNum)
  /-- TST, rotated immediate (R193). The Rd field is ignored (R127). -/
  | tstImm (cond : Cond) (rn rd : RegNum) (rot : BitVec 4) (imm8 : BitVec 8)
  /-- TST, register shifted by an immediate amount (R193). The Rd field is ignored (R127). -/
  | tstReg (cond : Cond) (rn rd : RegNum) (amount : BitVec 5) (sh : ShiftType) (rm : RegNum)
  /-- TST, register shifted by a register (R193). The Rd field is ignored (R127). -/
  | tstRsr (cond : Cond) (rn rd rs : RegNum) (sh : ShiftType) (rm : RegNum)
  /-- TEQ, rotated immediate (R194). The Rd field is ignored (R127). -/
  | teqImm (cond : Cond) (rn rd : RegNum) (rot : BitVec 4) (imm8 : BitVec 8)
  /-- TEQ, register shifted by an immediate amount (R194). The Rd field is ignored (R127). -/
  | teqReg (cond : Cond) (rn rd : RegNum) (amount : BitVec 5) (sh : ShiftType) (rm : RegNum)
  /-- TEQ, register shifted by a register (R194). The Rd field is ignored (R127). -/
  | teqRsr (cond : Cond) (rn rd rs : RegNum) (sh : ShiftType) (rm : RegNum)
  /-- CMP, rotated immediate (R195). The Rd field is ignored (R127). -/
  | cmpImm (cond : Cond) (rn rd : RegNum) (rot : BitVec 4) (imm8 : BitVec 8)
  /-- CMP, register shifted by an immediate amount (R195). The Rd field is ignored (R127). -/
  | cmpReg (cond : Cond) (rn rd : RegNum) (amount : BitVec 5) (sh : ShiftType) (rm : RegNum)
  /-- CMP, register shifted by a register (R195). The Rd field is ignored (R127). -/
  | cmpRsr (cond : Cond) (rn rd rs : RegNum) (sh : ShiftType) (rm : RegNum)
  /-- CMN, rotated immediate (R196). The Rd field is ignored (R127). -/
  | cmnImm (cond : Cond) (rn rd : RegNum) (rot : BitVec 4) (imm8 : BitVec 8)
  /-- CMN, register shifted by an immediate amount (R196). The Rd field is ignored (R127). -/
  | cmnReg (cond : Cond) (rn rd : RegNum) (amount : BitVec 5) (sh : ShiftType) (rm : RegNum)
  /-- CMN, register shifted by a register (R196). The Rd field is ignored (R127). -/
  | cmnRsr (cond : Cond) (rn rd rs : RegNum) (sh : ShiftType) (rm : RegNum)
  /-- ORR, rotated immediate (R197). -/
  | orrImm (cond : Cond) (s : Bool) (rn rd : RegNum) (rot : BitVec 4) (imm8 : BitVec 8)
  /-- ORR, register shifted by an immediate amount (R197). -/
  | orrReg (cond : Cond) (s : Bool) (rn rd : RegNum) (amount : BitVec 5) (sh : ShiftType) (rm : RegNum)
  /-- ORR, register shifted by a register (R197). -/
  | orrRsr (cond : Cond) (s : Bool) (rn rd rs : RegNum) (sh : ShiftType) (rm : RegNum)
  /-- MOV, rotated immediate (R198). The Rn field is ignored (R127). -/
  | movImm (cond : Cond) (s : Bool) (rn rd : RegNum) (rot : BitVec 4) (imm8 : BitVec 8)
  /-- MOV, register shifted by an immediate amount (R198). The Rn field is ignored (R127). -/
  | movReg (cond : Cond) (s : Bool) (rn rd : RegNum) (amount : BitVec 5) (sh : ShiftType) (rm : RegNum)
  /-- MOV, register shifted by a register (R198). The Rn field is ignored (R127). -/
  | movRsr (cond : Cond) (s : Bool) (rn rd rs : RegNum) (sh : ShiftType) (rm : RegNum)
  /-- BIC, rotated immediate (R199). -/
  | bicImm (cond : Cond) (s : Bool) (rn rd : RegNum) (rot : BitVec 4) (imm8 : BitVec 8)
  /-- BIC, register shifted by an immediate amount (R199). -/
  | bicReg (cond : Cond) (s : Bool) (rn rd : RegNum) (amount : BitVec 5) (sh : ShiftType) (rm : RegNum)
  /-- BIC, register shifted by a register (R199). -/
  | bicRsr (cond : Cond) (s : Bool) (rn rd rs : RegNum) (sh : ShiftType) (rm : RegNum)
  /-- MVN, rotated immediate (R200). The Rn field is ignored (R127). -/
  | mvnImm (cond : Cond) (s : Bool) (rn rd : RegNum) (rot : BitVec 4) (imm8 : BitVec 8)
  /-- MVN, register shifted by an immediate amount (R200). The Rn field is ignored (R127). -/
  | mvnReg (cond : Cond) (s : Bool) (rn rd : RegNum) (amount : BitVec 5) (sh : ShiftType) (rm : RegNum)
  /-- MVN, register shifted by a register (R200). The Rn field is ignored (R127). -/
  | mvnRsr (cond : Cond) (s : Bool) (rn rd rs : RegNum) (sh : ShiftType) (rm : RegNum)
  /-- B, branch (R150). -/
  | b (cond : Cond) (offset24 : BitVec 24)
  /-- BL, branch with link (R151). -/
  | bl (cond : Cond) (offset24 : BitVec 24)
  /-- BX, branch and exchange (R152). -/
  | bx (cond : Cond) (rm : RegNum)
  /-- BLX format (1), branch with link and exchange, register (R153). -/
  | blxReg (cond : Cond) (rm : RegNum)
  /-- BLX format (2), branch with link and exchange, immediate, unconditional (R154). -/
  | blxImm (h : Bool) (offset24 : BitVec 24)
  /-- SWI, software interrupt (R165). -/
  | swi (cond : Cond) (imm24 : BitVec 24)
  /-- MUL (R224). -/
  | mul (cond : Cond) (s : Bool) (rd rs rm : RegNum)
  /-- MLA (R225). -/
  | mla (cond : Cond) (s : Bool) (rd rn rs rm : RegNum)
  /-- UMULL (R226). -/
  | umull (cond : Cond) (s : Bool) (rdHi rdLo rs rm : RegNum)
  /-- UMLAL (R227). -/
  | umlal (cond : Cond) (s : Bool) (rdHi rdLo rs rm : RegNum)
  /-- SMULL (R228). -/
  | smull (cond : Cond) (s : Bool) (rdHi rdLo rs rm : RegNum)
  /-- SMLAL (R229). -/
  | smlal (cond : Cond) (s : Bool) (rdHi rdLo rs rm : RegNum)
  /-- CLZ (R230). -/
  | clz (cond : Cond) (rd rm : RegNum)
  /-- LDR, immediate offset, pre-indexed (R244). -/
  | ldrImmPre (cond : Cond) (u w : Bool) (rn rd : RegNum) (imm12 : BitVec 12)
  /-- LDR, immediate offset, post-indexed (R244). -/
  | ldrImmPost (cond : Cond) (u : Bool) (rn rd : RegNum) (imm12 : BitVec 12)
  /-- LDR, register offset, pre-indexed (R244). -/
  | ldrRegPre (cond : Cond) (u w : Bool) (rn rd : RegNum) (amount : BitVec 5) (sh : ShiftType) (rm : RegNum)
  /-- LDR, register offset, post-indexed (R244). -/
  | ldrRegPost (cond : Cond) (u : Bool) (rn rd : RegNum) (amount : BitVec 5) (sh : ShiftType) (rm : RegNum)
  /-- LDRT, immediate offset (R251). -/
  | ldrtImm (cond : Cond) (u : Bool) (rn rd : RegNum) (imm12 : BitVec 12)
  /-- LDRT, register offset (R251). -/
  | ldrtReg (cond : Cond) (u : Bool) (rn rd : RegNum) (amount : BitVec 5) (sh : ShiftType) (rm : RegNum)
  /-- LDRB, immediate offset, pre-indexed (R245). -/
  | ldrbImmPre (cond : Cond) (u w : Bool) (rn rd : RegNum) (imm12 : BitVec 12)
  /-- LDRB, immediate offset, post-indexed (R245). -/
  | ldrbImmPost (cond : Cond) (u : Bool) (rn rd : RegNum) (imm12 : BitVec 12)
  /-- LDRB, register offset, pre-indexed (R245). -/
  | ldrbRegPre (cond : Cond) (u w : Bool) (rn rd : RegNum) (amount : BitVec 5) (sh : ShiftType) (rm : RegNum)
  /-- LDRB, register offset, post-indexed (R245). -/
  | ldrbRegPost (cond : Cond) (u : Bool) (rn rd : RegNum) (amount : BitVec 5) (sh : ShiftType) (rm : RegNum)
  /-- LDRBT, immediate offset (R253). -/
  | ldrbtImm (cond : Cond) (u : Bool) (rn rd : RegNum) (imm12 : BitVec 12)
  /-- LDRBT, register offset (R253). -/
  | ldrbtReg (cond : Cond) (u : Bool) (rn rd : RegNum) (amount : BitVec 5) (sh : ShiftType) (rm : RegNum)
  /-- STR, immediate offset, pre-indexed (R246). -/
  | strImmPre (cond : Cond) (u w : Bool) (rn rd : RegNum) (imm12 : BitVec 12)
  /-- STR, immediate offset, post-indexed (R246). -/
  | strImmPost (cond : Cond) (u : Bool) (rn rd : RegNum) (imm12 : BitVec 12)
  /-- STR, register offset, pre-indexed (R246). -/
  | strRegPre (cond : Cond) (u w : Bool) (rn rd : RegNum) (amount : BitVec 5) (sh : ShiftType) (rm : RegNum)
  /-- STR, register offset, post-indexed (R246). -/
  | strRegPost (cond : Cond) (u : Bool) (rn rd : RegNum) (amount : BitVec 5) (sh : ShiftType) (rm : RegNum)
  /-- STRT, immediate offset (R252). -/
  | strtImm (cond : Cond) (u : Bool) (rn rd : RegNum) (imm12 : BitVec 12)
  /-- STRT, register offset (R252). -/
  | strtReg (cond : Cond) (u : Bool) (rn rd : RegNum) (amount : BitVec 5) (sh : ShiftType) (rm : RegNum)
  /-- STRB, immediate offset, pre-indexed (R247). -/
  | strbImmPre (cond : Cond) (u w : Bool) (rn rd : RegNum) (imm12 : BitVec 12)
  /-- STRB, immediate offset, post-indexed (R247). -/
  | strbImmPost (cond : Cond) (u : Bool) (rn rd : RegNum) (imm12 : BitVec 12)
  /-- STRB, register offset, pre-indexed (R247). -/
  | strbRegPre (cond : Cond) (u w : Bool) (rn rd : RegNum) (amount : BitVec 5) (sh : ShiftType) (rm : RegNum)
  /-- STRB, register offset, post-indexed (R247). -/
  | strbRegPost (cond : Cond) (u : Bool) (rn rd : RegNum) (amount : BitVec 5) (sh : ShiftType) (rm : RegNum)
  /-- STRBT, immediate offset (R254). -/
  | strbtImm (cond : Cond) (u : Bool) (rn rd : RegNum) (imm12 : BitVec 12)
  /-- STRBT, register offset (R254). -/
  | strbtReg (cond : Cond) (u : Bool) (rn rd : RegNum) (amount : BitVec 5) (sh : ShiftType) (rm : RegNum)
  /-- LDRH, immediate offset immH : immL (R270). -/
  | ldrhImm (cond : Cond) (p u w : Bool) (rn rd : RegNum) (imm8 : BitVec 8)
  /-- LDRH, register offset (R270). -/
  | ldrhReg (cond : Cond) (p u w : Bool) (rn rd rm : RegNum)
  /-- LDRSB, immediate offset immH : immL (R271). -/
  | ldrsbImm (cond : Cond) (p u w : Bool) (rn rd : RegNum) (imm8 : BitVec 8)
  /-- LDRSB, register offset (R271). -/
  | ldrsbReg (cond : Cond) (p u w : Bool) (rn rd rm : RegNum)
  /-- LDRSH, immediate offset immH : immL (R272). -/
  | ldrshImm (cond : Cond) (p u w : Bool) (rn rd : RegNum) (imm8 : BitVec 8)
  /-- LDRSH, register offset (R272). -/
  | ldrshReg (cond : Cond) (p u w : Bool) (rn rd rm : RegNum)
  /-- STRH, immediate offset immH : immL (R273). -/
  | strhImm (cond : Cond) (p u w : Bool) (rn rd : RegNum) (imm8 : BitVec 8)
  /-- STRH, register offset (R273). -/
  | strhReg (cond : Cond) (p u w : Bool) (rn rd rm : RegNum)
  /-- STM, normal form (R284). -/
  | stm (cond : Cond) (p u w : Bool) (rn : RegNum) (list : BitVec 16)
  /-- LDM, normal form (R285). -/
  | ldm (cond : Cond) (p u w : Bool) (rn : RegNum) (list : BitVec 16)
  /-- LDM, exception return form: S = 1 and the pc in the list (R286). -/
  | ldmReturn (cond : Cond) (p u w : Bool) (rn : RegNum) (list : BitVec 16)
  /-- LDM, user bank form: S = 1 and the pc not in the list (R287). -/
  | ldmUser (cond : Cond) (p u w : Bool) (rn : RegNum) (list : BitVec 16)
  /-- STM, user bank form: S = 1 (R288). -/
  | stmUser (cond : Cond) (p u w : Bool) (rn : RegNum) (list : BitVec 16)
  /-- SWP, swap word (R301). -/
  | swp (cond : Cond) (rn rd rm : RegNum)
  /-- SWPB, swap unsigned byte (R302). -/
  | swpb (cond : Cond) (rn rd rm : RegNum)
  /-- MRS (R310). -/
  | mrs (cond : Cond) (r : Bool) (rd : RegNum)
  /-- MSR, register operand (R313). -/
  | msrReg (cond : Cond) (r : Bool) (fieldMask : BitVec 4) (rm : RegNum)
  /-- MSR, immediate operand (R313). -/
  | msrImm (cond : Cond) (r : Bool) (fieldMask rot : BitVec 4) (imm8 : BitVec 8)
  /-- The undefined instruction space, bits 24:5 and 3:0 uninterpreted (R125, R343). -/
  | undefinedSpace (cond : Cond) (hi20 : BitVec 20) (lo4 : BitVec 4)
  /-- Coprocessor load or store, coprocessor absent (R125, R343). -/
  | coprocLdcStc (cond : Cond) (rest : BitVec 25)
  /-- Coprocessor data operation or register transfer, coprocessor absent (R125, R343). -/
  | coprocCdpMrcMcr (cond : Cond) (rest : BitVec 24)
deriving DecidableEq, Repr

end Sys2Proof
end

