-- ==== Sys2Proof/WellFormed.lean ====
section
/-! DEFINITION. Which instruction terms stand for an encoding of their own (spec 47_multiple_transfer.md R280): every field
has the width of its encoding by its type, so only the two load multiple forms that bit 15 of the list tells apart need a
check. Restrictions on operands of an instruction that runs (r15 in a multiply, say) are no part of this: they are checked
when its condition has passed (decision D18). -/

namespace Sys2Proof

/-- `i` has an encoding that decodes to `i` itself. -/
def Instr.wellFormed : Instr → Bool
  | .andImm .. => true
  | .andReg .. => true
  | .andRsr .. => true
  | .eorImm .. => true
  | .eorReg .. => true
  | .eorRsr .. => true
  | .subImm .. => true
  | .subReg .. => true
  | .subRsr .. => true
  | .rsbImm .. => true
  | .rsbReg .. => true
  | .rsbRsr .. => true
  | .addImm .. => true
  | .addReg .. => true
  | .addRsr .. => true
  | .adcImm .. => true
  | .adcReg .. => true
  | .adcRsr .. => true
  | .sbcImm .. => true
  | .sbcReg .. => true
  | .sbcRsr .. => true
  | .rscImm .. => true
  | .rscReg .. => true
  | .rscRsr .. => true
  | .tstImm .. => true
  | .tstReg .. => true
  | .tstRsr .. => true
  | .teqImm .. => true
  | .teqReg .. => true
  | .teqRsr .. => true
  | .cmpImm .. => true
  | .cmpReg .. => true
  | .cmpRsr .. => true
  | .cmnImm .. => true
  | .cmnReg .. => true
  | .cmnRsr .. => true
  | .orrImm .. => true
  | .orrReg .. => true
  | .orrRsr .. => true
  | .movImm .. => true
  | .movReg .. => true
  | .movRsr .. => true
  | .bicImm .. => true
  | .bicReg .. => true
  | .bicRsr .. => true
  | .mvnImm .. => true
  | .mvnReg .. => true
  | .mvnRsr .. => true
  | .b .. => true
  | .bl .. => true
  | .bx .. => true
  | .blxReg .. => true
  | .blxImm .. => true
  | .swi .. => true
  | .mul .. => true
  | .mla .. => true
  | .umull .. => true
  | .umlal .. => true
  | .smull .. => true
  | .smlal .. => true
  | .clz .. => true
  | .ldrImmPre .. => true
  | .ldrImmPost .. => true
  | .ldrRegPre .. => true
  | .ldrRegPost .. => true
  | .ldrtImm .. => true
  | .ldrtReg .. => true
  | .ldrbImmPre .. => true
  | .ldrbImmPost .. => true
  | .ldrbRegPre .. => true
  | .ldrbRegPost .. => true
  | .ldrbtImm .. => true
  | .ldrbtReg .. => true
  | .strImmPre .. => true
  | .strImmPost .. => true
  | .strRegPre .. => true
  | .strRegPost .. => true
  | .strtImm .. => true
  | .strtReg .. => true
  | .strbImmPre .. => true
  | .strbImmPost .. => true
  | .strbRegPre .. => true
  | .strbRegPost .. => true
  | .strbtImm .. => true
  | .strbtReg .. => true
  | .ldrhImm .. => true
  | .ldrhReg .. => true
  | .ldrsbImm .. => true
  | .ldrsbReg .. => true
  | .ldrshImm .. => true
  | .ldrshReg .. => true
  | .strhImm .. => true
  | .strhReg .. => true
  | .stm .. => true
  | .ldm .. => true
  | .ldmReturn _ _ _ _ _ list => list.getLsbD 15
  | .ldmUser _ _ _ _ _ list => !list.getLsbD 15
  | .stmUser .. => true
  | .swp .. => true
  | .swpb .. => true
  | .mrs .. => true
  | .msrReg .. => true
  | .msrImm .. => true
  | .undefinedSpace .. => true
  | .coprocLdcStc .. => true
  | .coprocCdpMrcMcr .. => true

end Sys2Proof
end

