-- ==== Sys2Proof/Decode.lean ====
section
/-! DEFINITION. The decoder (spec 30_encoding.md R130, in its order) and the encoder (R103 to R119). The decoder is total:
a word it gives no instruction for is rejected by name. The fixed bits and field places are those of R102 to R119. -/

namespace Sys2Proof

/-! ### Fields -/

/-- The `len` bits of `w` from bit `lo` up (R7). -/
def field (w : Word) (lo len : Nat) : BitVec len := w.extractLsb' lo len

/-- Bit `i` of `w` (R7). -/
def bitAt (w : Word) (i : Nat) : Bool := w.getLsbD i

/-- The register named by the four bits from `lo` up. -/
def regAt (w : Word) (lo : Nat) : RegNum := (field w lo 4).toFin

/-- The four bits that name a register. -/
def regBits (r : RegNum) : BitVec 4 := BitVec.ofFin r

/-- One bit of an encoding. -/
def boolBit (b : Bool) : BitVec 1 := BitVec.ofBool b

/-- The condition field's value (40_conditional_execution.md R140). -/
def Cond.bits : Cond → BitVec 4
  | .eq => 0 | .ne => 1 | .cs => 2 | .cc => 3 | .mi => 4 | .pl => 5 | .vs => 6 | .vc => 7
  | .hi => 8 | .ls => 9 | .ge => 10 | .lt => 11 | .gt => 12 | .le => 13 | .al => 14

/-- The condition a field value names; 0b1111 names none (R143). -/
def Cond.ofBits (b : BitVec 4) : Option Cond :=
  match b.toNat with
  | 0 => some .eq | 1 => some .ne | 2 => some .cs | 3 => some .cc
  | 4 => some .mi | 5 => some .pl | 6 => some .vs | 7 => some .vc
  | 8 => some .hi | 9 => some .ls | 10 => some .ge | 11 => some .lt
  | 12 => some .gt | 13 => some .le | 14 => some .al
  | _ => none

/-- The field value of a shift type (R111). -/
def ShiftType.bits : ShiftType → BitVec 2
  | .lsl => 0 | .lsr => 1 | .asr => 2 | .ror => 3

/-- The shift type a field value names (R111). -/
def ShiftType.ofBits (b : BitVec 2) : ShiftType :=
  match b.toNat with
  | 0 => .lsl
  | 1 => .lsr
  | 2 => .asr
  | _ => .ror

/-- The opcode field's value (43_data_processing.md R170). -/
def DpOp.bits : DpOp → BitVec 4
  | .and => 0 | .eor => 1 | .sub => 2 | .rsb => 3 | .add => 4 | .adc => 5 | .sbc => 6 | .rsc => 7
  | .tst => 8 | .teq => 9 | .cmp => 10 | .cmn => 11 | .orr => 12 | .mov => 13 | .bic => 14 | .mvn => 15

/-- The operation an opcode field names (43_data_processing.md R170). -/
def DpOp.ofBits (b : BitVec 4) : DpOp :=
  match b.toNat with
  | 0 => .and | 1 => .eor | 2 => .sub | 3 => .rsb | 4 => .add | 5 => .adc | 6 => .sbc | 7 => .rsc
  | 8 => .tst | 9 => .teq | 10 => .cmp | 11 => .cmn | 12 => .orr | 13 => .mov | 14 => .bic | _ => .mvn

/-! ### Byte order (20_memory.md R62 to R64) -/

/-- The word whose bytes stand at four rising addresses. -/
def joinWord (bigEndian : Bool) (b0 b1 b2 b3 : Byte) : Word :=
  if bigEndian then b0 ++ b1 ++ b2 ++ b3 else b3 ++ b2 ++ b1 ++ b0

/-- The half-word whose bytes stand at two rising addresses. -/
def joinHalf (bigEndian : Bool) (b0 b1 : Byte) : Half :=
  if bigEndian then b0 ++ b1 else b1 ++ b0

/-- The byte of `v` that a word store puts at the word's address plus `k`. -/
def wordByte (bigEndian : Bool) (v : Word) (k : Nat) : Byte :=
  if bigEndian then field v (24 - 8 * k) 8 else field v (8 * k) 8

/-- The byte of `v` that a half-word store puts at the half-word's address plus `k`. -/
def halfByte (bigEndian : Bool) (v : Half) (k : Nat) : Byte :=
  if bigEndian then v.extractLsb' (8 - 8 * k) 8 else v.extractLsb' (8 * k) 8

/-! ### Decoding -/

/-- Why a word is no instruction. -/
inductive DecodeReject where
  /-- Condition field 0b1111 on anything but BLX format (2) (R126). -/
  | neverCondition
  /-- No instruction of the spec (R130 "unallocated"). -/
  | unallocated
  /-- Fewer than four bytes were given. -/
  | truncated
deriving DecidableEq, Repr

/-- The data processing instruction with a rotated immediate (R109, DP-imm). The tests have no S bit of their own. -/
def dpImm (op : DpOp) (cond : Cond) (s : Bool) (rn rd : RegNum) (rot : BitVec 4) (imm8 : BitVec 8) : Instr :=
  match op with
  | .and => .andImm cond s rn rd rot imm8
  | .eor => .eorImm cond s rn rd rot imm8
  | .sub => .subImm cond s rn rd rot imm8
  | .rsb => .rsbImm cond s rn rd rot imm8
  | .add => .addImm cond s rn rd rot imm8
  | .adc => .adcImm cond s rn rd rot imm8
  | .sbc => .sbcImm cond s rn rd rot imm8
  | .rsc => .rscImm cond s rn rd rot imm8
  | .tst => .tstImm cond rn rd rot imm8
  | .teq => .teqImm cond rn rd rot imm8
  | .cmp => .cmpImm cond rn rd rot imm8
  | .cmn => .cmnImm cond rn rd rot imm8
  | .orr => .orrImm cond s rn rd rot imm8
  | .mov => .movImm cond s rn rd rot imm8
  | .bic => .bicImm cond s rn rd rot imm8
  | .mvn => .mvnImm cond s rn rd rot imm8

/-- The data processing instruction with a register shifted by an immediate amount (R109, DP-reg). The tests have no S bit of their own. -/
def dpReg (op : DpOp) (cond : Cond) (s : Bool) (rn rd : RegNum) (amount : BitVec 5) (sh : ShiftType) (rm : RegNum) : Instr :=
  match op with
  | .and => .andReg cond s rn rd amount sh rm
  | .eor => .eorReg cond s rn rd amount sh rm
  | .sub => .subReg cond s rn rd amount sh rm
  | .rsb => .rsbReg cond s rn rd amount sh rm
  | .add => .addReg cond s rn rd amount sh rm
  | .adc => .adcReg cond s rn rd amount sh rm
  | .sbc => .sbcReg cond s rn rd amount sh rm
  | .rsc => .rscReg cond s rn rd amount sh rm
  | .tst => .tstReg cond rn rd amount sh rm
  | .teq => .teqReg cond rn rd amount sh rm
  | .cmp => .cmpReg cond rn rd amount sh rm
  | .cmn => .cmnReg cond rn rd amount sh rm
  | .orr => .orrReg cond s rn rd amount sh rm
  | .mov => .movReg cond s rn rd amount sh rm
  | .bic => .bicReg cond s rn rd amount sh rm
  | .mvn => .mvnReg cond s rn rd amount sh rm

/-- The data processing instruction with a register shifted by a register (R109, DP-rsr). The tests have no S bit of their own. -/
def dpRsr (op : DpOp) (cond : Cond) (s : Bool) (rn rd : RegNum) (rs : RegNum) (sh : ShiftType) (rm : RegNum) : Instr :=
  match op with
  | .and => .andRsr cond s rn rd rs sh rm
  | .eor => .eorRsr cond s rn rd rs sh rm
  | .sub => .subRsr cond s rn rd rs sh rm
  | .rsb => .rsbRsr cond s rn rd rs sh rm
  | .add => .addRsr cond s rn rd rs sh rm
  | .adc => .adcRsr cond s rn rd rs sh rm
  | .sbc => .sbcRsr cond s rn rd rs sh rm
  | .rsc => .rscRsr cond s rn rd rs sh rm
  | .tst => .tstRsr cond rn rd rs sh rm
  | .teq => .teqRsr cond rn rd rs sh rm
  | .cmp => .cmpRsr cond rn rd rs sh rm
  | .cmn => .cmnRsr cond rn rd rs sh rm
  | .orr => .orrRsr cond s rn rd rs sh rm
  | .mov => .movRsr cond s rn rd rs sh rm
  | .bic => .bicRsr cond s rn rd rs sh rm
  | .mvn => .mvnRsr cond s rn rd rs sh rm

/-- The word or byte transfer selected by L, B, P and W (R114, R130 lines 7 and 8; 45_single_transfer.md R250). -/
def lsImm (cond : Cond) (p u b w l : Bool) (rn rd : RegNum) (imm12 : BitVec 12) : Instr :=
  match l, b, p, w with
  | true, false, true, w => .ldrImmPre cond u w rn rd imm12
  | true, false, false, false => .ldrImmPost cond u rn rd imm12
  | true, false, false, true => .ldrtImm cond u rn rd imm12
  | true, true, true, w => .ldrbImmPre cond u w rn rd imm12
  | true, true, false, false => .ldrbImmPost cond u rn rd imm12
  | true, true, false, true => .ldrbtImm cond u rn rd imm12
  | false, false, true, w => .strImmPre cond u w rn rd imm12
  | false, false, false, false => .strImmPost cond u rn rd imm12
  | false, false, false, true => .strtImm cond u rn rd imm12
  | false, true, true, w => .strbImmPre cond u w rn rd imm12
  | false, true, false, false => .strbImmPost cond u rn rd imm12
  | false, true, false, true => .strbtImm cond u rn rd imm12

/-- The word or byte transfer selected by L, B, P and W (R114, R130 lines 7 and 8; 45_single_transfer.md R250). -/
def lsReg (cond : Cond) (p u b w l : Bool) (rn rd : RegNum) (amount : BitVec 5) (sh : ShiftType) (rm : RegNum) : Instr :=
  match l, b, p, w with
  | true, false, true, w => .ldrRegPre cond u w rn rd amount sh rm
  | true, false, false, false => .ldrRegPost cond u rn rd amount sh rm
  | true, false, false, true => .ldrtReg cond u rn rd amount sh rm
  | true, true, true, w => .ldrbRegPre cond u w rn rd amount sh rm
  | true, true, false, false => .ldrbRegPost cond u rn rd amount sh rm
  | true, true, false, true => .ldrbtReg cond u rn rd amount sh rm
  | false, false, true, w => .strRegPre cond u w rn rd amount sh rm
  | false, false, false, false => .strRegPost cond u rn rd amount sh rm
  | false, false, false, true => .strtReg cond u rn rd amount sh rm
  | false, true, true, w => .strbRegPre cond u w rn rd amount sh rm
  | false, true, false, false => .strbRegPost cond u rn rd amount sh rm
  | false, true, false, true => .strbtReg cond u rn rd amount sh rm

/-- R130 line 2: bits 27:25 = 000 with bits 7 and 4 set: multiplies, swaps, half-word and signed byte transfers. -/
def decodeMultiplySwapHalf (cond : Cond) (w : Word) : Except DecodeReject Instr :=
  if field w 5 2 = 0#2 then
    if field w 22 3 = 0#3 then
      if bitAt w 21 then
        .ok (.mla cond (bitAt w 20) (regAt w 16) (regAt w 12) (regAt w 8) (regAt w 0))
      else if field w 12 4 = 0#4 then
        .ok (.mul cond (bitAt w 20) (regAt w 16) (regAt w 8) (regAt w 0))
      else .error .unallocated
    else if field w 23 2 = 1#2 then
      match bitAt w 22, bitAt w 21 with
      | false, false => .ok (.umull cond (bitAt w 20) (regAt w 16) (regAt w 12) (regAt w 8) (regAt w 0))
      | false, true => .ok (.umlal cond (bitAt w 20) (regAt w 16) (regAt w 12) (regAt w 8) (regAt w 0))
      | true, false => .ok (.smull cond (bitAt w 20) (regAt w 16) (regAt w 12) (regAt w 8) (regAt w 0))
      | true, true => .ok (.smlal cond (bitAt w 20) (regAt w 16) (regAt w 12) (regAt w 8) (regAt w 0))
    else if field w 23 2 = 2#2 ∧ field w 20 2 = 0#2 ∧ field w 8 4 = 0#4 then
      if bitAt w 22 then .ok (.swpb cond (regAt w 16) (regAt w 12) (regAt w 0))
      else .ok (.swp cond (regAt w 16) (regAt w 12) (regAt w 0))
    else .error .unallocated
  else if bitAt w 22 then
    match bitAt w 20, bitAt w 6, bitAt w 5 with
    | true, false, _ => .ok (.ldrhImm cond (bitAt w 24) (bitAt w 23) (bitAt w 21) (regAt w 16) (regAt w 12) (field w 8 4 ++ field w 0 4))
    | true, true, false => .ok (.ldrsbImm cond (bitAt w 24) (bitAt w 23) (bitAt w 21) (regAt w 16) (regAt w 12) (field w 8 4 ++ field w 0 4))
    | true, true, true => .ok (.ldrshImm cond (bitAt w 24) (bitAt w 23) (bitAt w 21) (regAt w 16) (regAt w 12) (field w 8 4 ++ field w 0 4))
    | false, false, _ => .ok (.strhImm cond (bitAt w 24) (bitAt w 23) (bitAt w 21) (regAt w 16) (regAt w 12) (field w 8 4 ++ field w 0 4))
    | false, true, _ => .error .unallocated
  else if field w 8 4 = 0#4 then
    match bitAt w 20, bitAt w 6, bitAt w 5 with
    | true, false, _ => .ok (.ldrhReg cond (bitAt w 24) (bitAt w 23) (bitAt w 21) (regAt w 16) (regAt w 12) (regAt w 0))
    | true, true, false => .ok (.ldrsbReg cond (bitAt w 24) (bitAt w 23) (bitAt w 21) (regAt w 16) (regAt w 12) (regAt w 0))
    | true, true, true => .ok (.ldrshReg cond (bitAt w 24) (bitAt w 23) (bitAt w 21) (regAt w 16) (regAt w 12) (regAt w 0))
    | false, false, _ => .ok (.strhReg cond (bitAt w 24) (bitAt w 23) (bitAt w 21) (regAt w 16) (regAt w 12) (regAt w 0))
    | false, true, _ => .error .unallocated
  else .error .unallocated

/-- R130 line 3: bits 27:25 = 000, 24:23 = 10, bit 20 clear, not line 2: MRS, MSR register, BX, BLX register, CLZ. -/
def decodeMiscellaneous (cond : Cond) (w : Word) : Except DecodeReject Instr :=
  if field w 20 2 = 0#2 ∧ field w 16 4 = 15#4 ∧ field w 0 12 = 0#12 then
    .ok (.mrs cond (bitAt w 22) (regAt w 12))
  else if field w 20 2 = 2#2 ∧ field w 12 4 = 15#4 ∧ field w 4 8 = 0#8 then
    .ok (.msrReg cond (bitAt w 22) (field w 16 4) (regAt w 0))
  else if field w 4 24 = 0x12FFF1#24 then .ok (.bx cond (regAt w 0))
  else if field w 4 24 = 0x12FFF3#24 then .ok (.blxReg cond (regAt w 0))
  else if field w 20 8 = 0x16#8 ∧ field w 16 4 = 15#4 ∧ field w 4 8 = 0xF1#8 then
    .ok (.clz cond (regAt w 12) (regAt w 0))
  else .error .unallocated

/-- R130 line 10: the block transfer forms of 47_multiple_transfer.md R280, by L, S and bit 15 of the list. -/
def decodeBlock (cond : Cond) (w : Word) : Instr :=
  match bitAt w 20, bitAt w 22, bitAt w 15 with
  | true, false, _ => .ldm cond (bitAt w 24) (bitAt w 23) (bitAt w 21) (regAt w 16) (field w 0 16)
  | false, false, _ => .stm cond (bitAt w 24) (bitAt w 23) (bitAt w 21) (regAt w 16) (field w 0 16)
  | true, true, true => .ldmReturn cond (bitAt w 24) (bitAt w 23) (bitAt w 21) (regAt w 16) (field w 0 16)
  | true, true, false => .ldmUser cond (bitAt w 24) (bitAt w 23) (bitAt w 21) (regAt w 16) (field w 0 16)
  | false, true, _ => .stmUser cond (bitAt w 24) (bitAt w 23) (bitAt w 21) (regAt w 16) (field w 0 16)

/-- R130 lines 2 to 14: a word whose condition field is not 0b1111, by its class, bits 27:25 (R102). -/
def decodeConditional (cond : Cond) (w : Word) : Except DecodeReject Instr :=
  match (field w 25 3).toNat with
  | 0 =>
    if bitAt w 7 && bitAt w 4 then decodeMultiplySwapHalf cond w
    else if field w 23 2 = 2#2 ∧ bitAt w 20 = false then decodeMiscellaneous cond w
    else if bitAt w 4 then
      .ok (dpRsr (DpOp.ofBits (field w 21 4)) cond (bitAt w 20) (regAt w 16) (regAt w 12)
        (regAt w 8) (ShiftType.ofBits (field w 5 2)) (regAt w 0))
    else
      .ok (dpReg (DpOp.ofBits (field w 21 4)) cond (bitAt w 20) (regAt w 16) (regAt w 12)
        (field w 7 5) (ShiftType.ofBits (field w 5 2)) (regAt w 0))
  | 1 =>
    if field w 23 2 = 2#2 ∧ bitAt w 20 = false then
      if bitAt w 21 = true ∧ field w 12 4 = 15#4 then
        .ok (.msrImm cond (bitAt w 22) (field w 16 4) (field w 8 4) (field w 0 8))
      else .error .unallocated
    else
      .ok (dpImm (DpOp.ofBits (field w 21 4)) cond (bitAt w 20) (regAt w 16) (regAt w 12)
        (field w 8 4) (field w 0 8))
  | 2 =>
    .ok (lsImm cond (bitAt w 24) (bitAt w 23) (bitAt w 22) (bitAt w 21) (bitAt w 20)
      (regAt w 16) (regAt w 12) (field w 0 12))
  | 3 =>
    if bitAt w 4 then .ok (.undefinedSpace cond (field w 5 20) (field w 0 4))
    else
      .ok (lsReg cond (bitAt w 24) (bitAt w 23) (bitAt w 22) (bitAt w 21) (bitAt w 20)
        (regAt w 16) (regAt w 12) (field w 7 5) (ShiftType.ofBits (field w 5 2)) (regAt w 0))
  | 4 => .ok (decodeBlock cond w)
  | 5 => .ok (if bitAt w 24 then .bl cond (field w 0 24) else .b cond (field w 0 24))
  | 6 => .ok (.coprocLdcStc cond (field w 0 25))
  | _ => .ok (if bitAt w 24 then .swi cond (field w 0 24) else .coprocCdpMrcMcr cond (field w 0 24))

/-- The instruction of a word in ARM state (R130). Feature parameters are tested when the instruction runs (R131). -/
def decode (w : Word) : Except DecodeReject Instr :=
  match Cond.ofBits (field w 28 4) with
  | none =>
    if field w 25 3 = 5#3 then .ok (.blxImm (bitAt w 24) (field w 0 24)) else .error .neverCondition
  | some cond => decodeConditional cond w

/-- The instruction whose bytes stand first in a list of bytes, with the rest of the list. -/
def decodeBytes (bigEndian : Bool) : List Byte → Except DecodeReject (Instr × List Byte)
  | b0 :: b1 :: b2 :: b3 :: rest =>
    match decode (joinWord bigEndian b0 b1 b2 b3) with
    | .ok i => .ok (i, rest)
    | .error e => .error e
  | _ => .error .truncated

/-- The instruction the decoder reads from the `nbits` bits `w`, laid out as the reference configuration stores them:
the least significant byte at the lowest address, bits above `nbits` zero (20_memory.md R62). -/
def decodeTableWord (nbits w : Nat) : Option Instr :=
  let v : Word := BitVec.ofNat 32 (w % 2 ^ nbits)
  match decodeBytes false [wordByte false v 0, wordByte false v 1, wordByte false v 2, wordByte false v 3] with
  | .ok (i, _) => some i
  | .error _ => none

/-! ### Encoding -/

/-- DP-imm (R109, R110). -/
def encDpImm (op : DpOp) (cond : Cond) (s : Bool) (rn rd : RegNum) (rot : BitVec 4) (imm8 : BitVec 8) : Word :=
  cond.bits ++ 1#3 ++ op.bits ++ boolBit s ++ regBits rn ++ regBits rd ++ rot ++ imm8

/-- DP-reg (R109, R111). -/
def encDpReg (op : DpOp) (cond : Cond) (s : Bool) (rn rd : RegNum) (amount : BitVec 5) (sh : ShiftType) (rm : RegNum) : Word :=
  cond.bits ++ 0#3 ++ op.bits ++ boolBit s ++ regBits rn ++ regBits rd ++ amount ++ sh.bits ++ 0#1 ++ regBits rm

/-- DP-rsr (R109, R111). -/
def encDpRsr (op : DpOp) (cond : Cond) (s : Bool) (rn rd rs : RegNum) (sh : ShiftType) (rm : RegNum) : Word :=
  cond.bits ++ 0#3 ++ op.bits ++ boolBit s ++ regBits rn ++ regBits rd ++ regBits rs ++ 0#1 ++ sh.bits ++ 1#1 ++ regBits rm

/-- Format B (R103). -/
def encBranch (cond : Cond) (l : Bool) (offset24 : BitVec 24) : Word :=
  cond.bits ++ 5#3 ++ boolBit l ++ offset24

/-- Format BX (R104). -/
def encBx (cond : Cond) (l : Bool) (rm : RegNum) : Word :=
  cond.bits ++ 0x12#8 ++ 0xFFF#12 ++ 0#2 ++ boolBit l ++ 1#1 ++ regBits rm

/-- Formats MUL and MULL (R112): `mul` is bits 23:21. -/
def encMul (mul : BitVec 3) (cond : Cond) (s : Bool) (r19 r15 rs rm : RegNum) : Word :=
  cond.bits ++ 0#4 ++ mul ++ boolBit s ++ regBits r19 ++ regBits r15 ++ regBits rs ++ 9#4 ++ regBits rm

/-- Format LS, immediate offset (R114). -/
def encLsImm (cond : Cond) (p u b w l : Bool) (rn rd : RegNum) (imm12 : BitVec 12) : Word :=
  cond.bits ++ 2#3 ++ boolBit p ++ boolBit u ++ boolBit b ++ boolBit w ++ boolBit l ++ regBits rn ++ regBits rd ++ imm12

/-- Format LS, register offset (R114). -/
def encLsReg (cond : Cond) (p u b w l : Bool) (rn rd : RegNum) (amount : BitVec 5) (sh : ShiftType) (rm : RegNum) : Word :=
  cond.bits ++ 3#3 ++ boolBit p ++ boolBit u ++ boolBit b ++ boolBit w ++ boolBit l ++ regBits rn ++ regBits rd ++ amount
    ++ sh.bits ++ 0#1 ++ regBits rm

/-- Format LSH, immediate offset (R115): `sh` is the bits S and H. -/
def encLshImm (cond : Cond) (p u w l : Bool) (sh : BitVec 2) (rn rd : RegNum) (imm8 : BitVec 8) : Word :=
  cond.bits ++ 0#3 ++ boolBit p ++ boolBit u ++ 1#1 ++ boolBit w ++ boolBit l ++ regBits rn ++ regBits rd
    ++ imm8.extractLsb' 4 4 ++ 1#1 ++ sh ++ 1#1 ++ imm8.extractLsb' 0 4

/-- Format LSH, register offset (R115). -/
def encLshReg (cond : Cond) (p u w l : Bool) (sh : BitVec 2) (rn rd rm : RegNum) : Word :=
  cond.bits ++ 0#3 ++ boolBit p ++ boolBit u ++ 0#1 ++ boolBit w ++ boolBit l ++ regBits rn ++ regBits rd
    ++ 0#4 ++ 1#1 ++ sh ++ 1#1 ++ regBits rm

/-- Format LSM (R116). -/
def encBlock (cond : Cond) (p u s w l : Bool) (rn : RegNum) (list : BitVec 16) : Word :=
  cond.bits ++ 4#3 ++ boolBit p ++ boolBit u ++ boolBit s ++ boolBit w ++ boolBit l ++ regBits rn ++ list

/-- Format SWP (R117). -/
def encSwap (cond : Cond) (b : Bool) (rn rd rm : RegNum) : Word :=
  cond.bits ++ 2#5 ++ boolBit b ++ 0#2 ++ regBits rn ++ regBits rd ++ 0#4 ++ 9#4 ++ regBits rm

/-- The word of an instruction (R103 to R119, R125). -/
def encode : Instr → Word
  | .andImm cond s rn rd rot imm8 => encDpImm .and cond s rn rd rot imm8
  | .andReg cond s rn rd amount sh rm => encDpReg .and cond s rn rd amount sh rm
  | .andRsr cond s rn rd rs sh rm => encDpRsr .and cond s rn rd rs sh rm
  | .eorImm cond s rn rd rot imm8 => encDpImm .eor cond s rn rd rot imm8
  | .eorReg cond s rn rd amount sh rm => encDpReg .eor cond s rn rd amount sh rm
  | .eorRsr cond s rn rd rs sh rm => encDpRsr .eor cond s rn rd rs sh rm
  | .subImm cond s rn rd rot imm8 => encDpImm .sub cond s rn rd rot imm8
  | .subReg cond s rn rd amount sh rm => encDpReg .sub cond s rn rd amount sh rm
  | .subRsr cond s rn rd rs sh rm => encDpRsr .sub cond s rn rd rs sh rm
  | .rsbImm cond s rn rd rot imm8 => encDpImm .rsb cond s rn rd rot imm8
  | .rsbReg cond s rn rd amount sh rm => encDpReg .rsb cond s rn rd amount sh rm
  | .rsbRsr cond s rn rd rs sh rm => encDpRsr .rsb cond s rn rd rs sh rm
  | .addImm cond s rn rd rot imm8 => encDpImm .add cond s rn rd rot imm8
  | .addReg cond s rn rd amount sh rm => encDpReg .add cond s rn rd amount sh rm
  | .addRsr cond s rn rd rs sh rm => encDpRsr .add cond s rn rd rs sh rm
  | .adcImm cond s rn rd rot imm8 => encDpImm .adc cond s rn rd rot imm8
  | .adcReg cond s rn rd amount sh rm => encDpReg .adc cond s rn rd amount sh rm
  | .adcRsr cond s rn rd rs sh rm => encDpRsr .adc cond s rn rd rs sh rm
  | .sbcImm cond s rn rd rot imm8 => encDpImm .sbc cond s rn rd rot imm8
  | .sbcReg cond s rn rd amount sh rm => encDpReg .sbc cond s rn rd amount sh rm
  | .sbcRsr cond s rn rd rs sh rm => encDpRsr .sbc cond s rn rd rs sh rm
  | .rscImm cond s rn rd rot imm8 => encDpImm .rsc cond s rn rd rot imm8
  | .rscReg cond s rn rd amount sh rm => encDpReg .rsc cond s rn rd amount sh rm
  | .rscRsr cond s rn rd rs sh rm => encDpRsr .rsc cond s rn rd rs sh rm
  | .tstImm cond rn rd rot imm8 => encDpImm .tst cond true rn rd rot imm8
  | .tstReg cond rn rd amount sh rm => encDpReg .tst cond true rn rd amount sh rm
  | .tstRsr cond rn rd rs sh rm => encDpRsr .tst cond true rn rd rs sh rm
  | .teqImm cond rn rd rot imm8 => encDpImm .teq cond true rn rd rot imm8
  | .teqReg cond rn rd amount sh rm => encDpReg .teq cond true rn rd amount sh rm
  | .teqRsr cond rn rd rs sh rm => encDpRsr .teq cond true rn rd rs sh rm
  | .cmpImm cond rn rd rot imm8 => encDpImm .cmp cond true rn rd rot imm8
  | .cmpReg cond rn rd amount sh rm => encDpReg .cmp cond true rn rd amount sh rm
  | .cmpRsr cond rn rd rs sh rm => encDpRsr .cmp cond true rn rd rs sh rm
  | .cmnImm cond rn rd rot imm8 => encDpImm .cmn cond true rn rd rot imm8
  | .cmnReg cond rn rd amount sh rm => encDpReg .cmn cond true rn rd amount sh rm
  | .cmnRsr cond rn rd rs sh rm => encDpRsr .cmn cond true rn rd rs sh rm
  | .orrImm cond s rn rd rot imm8 => encDpImm .orr cond s rn rd rot imm8
  | .orrReg cond s rn rd amount sh rm => encDpReg .orr cond s rn rd amount sh rm
  | .orrRsr cond s rn rd rs sh rm => encDpRsr .orr cond s rn rd rs sh rm
  | .movImm cond s rn rd rot imm8 => encDpImm .mov cond s rn rd rot imm8
  | .movReg cond s rn rd amount sh rm => encDpReg .mov cond s rn rd amount sh rm
  | .movRsr cond s rn rd rs sh rm => encDpRsr .mov cond s rn rd rs sh rm
  | .bicImm cond s rn rd rot imm8 => encDpImm .bic cond s rn rd rot imm8
  | .bicReg cond s rn rd amount sh rm => encDpReg .bic cond s rn rd amount sh rm
  | .bicRsr cond s rn rd rs sh rm => encDpRsr .bic cond s rn rd rs sh rm
  | .mvnImm cond s rn rd rot imm8 => encDpImm .mvn cond s rn rd rot imm8
  | .mvnReg cond s rn rd amount sh rm => encDpReg .mvn cond s rn rd amount sh rm
  | .mvnRsr cond s rn rd rs sh rm => encDpRsr .mvn cond s rn rd rs sh rm
  | .b cond offset24 => encBranch cond false offset24
  | .bl cond offset24 => encBranch cond true offset24
  | .bx cond rm => encBx cond false rm
  | .blxReg cond rm => encBx cond true rm
  | .blxImm h offset24 => 0xF#4 ++ 5#3 ++ boolBit h ++ offset24
  | .swi cond imm24 => cond.bits ++ 0xF#4 ++ imm24
  | .mul cond s rd rs rm => encMul 0#3 cond s rd 0 rs rm
  | .mla cond s rd rn rs rm => encMul 1#3 cond s rd rn rs rm
  | .umull cond s rdHi rdLo rs rm => encMul 4#3 cond s rdHi rdLo rs rm
  | .umlal cond s rdHi rdLo rs rm => encMul 5#3 cond s rdHi rdLo rs rm
  | .smull cond s rdHi rdLo rs rm => encMul 6#3 cond s rdHi rdLo rs rm
  | .smlal cond s rdHi rdLo rs rm => encMul 7#3 cond s rdHi rdLo rs rm
  | .clz cond rd rm => cond.bits ++ 0x16#8 ++ 0xF#4 ++ regBits rd ++ 0xF#4 ++ 1#4 ++ regBits rm
  | .ldrImmPre cond u w rn rd imm12 => encLsImm cond true u false w true rn rd imm12
  | .ldrImmPost cond u rn rd imm12 => encLsImm cond false u false false true rn rd imm12
  | .ldrRegPre cond u w rn rd amount sh rm => encLsReg cond true u false w true rn rd amount sh rm
  | .ldrRegPost cond u rn rd amount sh rm => encLsReg cond false u false false true rn rd amount sh rm
  | .ldrtImm cond u rn rd imm12 => encLsImm cond false u false true true rn rd imm12
  | .ldrtReg cond u rn rd amount sh rm => encLsReg cond false u false true true rn rd amount sh rm
  | .ldrbImmPre cond u w rn rd imm12 => encLsImm cond true u true w true rn rd imm12
  | .ldrbImmPost cond u rn rd imm12 => encLsImm cond false u true false true rn rd imm12
  | .ldrbRegPre cond u w rn rd amount sh rm => encLsReg cond true u true w true rn rd amount sh rm
  | .ldrbRegPost cond u rn rd amount sh rm => encLsReg cond false u true false true rn rd amount sh rm
  | .ldrbtImm cond u rn rd imm12 => encLsImm cond false u true true true rn rd imm12
  | .ldrbtReg cond u rn rd amount sh rm => encLsReg cond false u true true true rn rd amount sh rm
  | .strImmPre cond u w rn rd imm12 => encLsImm cond true u false w false rn rd imm12
  | .strImmPost cond u rn rd imm12 => encLsImm cond false u false false false rn rd imm12
  | .strRegPre cond u w rn rd amount sh rm => encLsReg cond true u false w false rn rd amount sh rm
  | .strRegPost cond u rn rd amount sh rm => encLsReg cond false u false false false rn rd amount sh rm
  | .strtImm cond u rn rd imm12 => encLsImm cond false u false true false rn rd imm12
  | .strtReg cond u rn rd amount sh rm => encLsReg cond false u false true false rn rd amount sh rm
  | .strbImmPre cond u w rn rd imm12 => encLsImm cond true u true w false rn rd imm12
  | .strbImmPost cond u rn rd imm12 => encLsImm cond false u true false false rn rd imm12
  | .strbRegPre cond u w rn rd amount sh rm => encLsReg cond true u true w false rn rd amount sh rm
  | .strbRegPost cond u rn rd amount sh rm => encLsReg cond false u true false false rn rd amount sh rm
  | .strbtImm cond u rn rd imm12 => encLsImm cond false u true true false rn rd imm12
  | .strbtReg cond u rn rd amount sh rm => encLsReg cond false u true true false rn rd amount sh rm
  | .ldrhImm cond p u w rn rd imm8 => encLshImm cond p u w true 1#2 rn rd imm8
  | .ldrhReg cond p u w rn rd rm => encLshReg cond p u w true 1#2 rn rd rm
  | .ldrsbImm cond p u w rn rd imm8 => encLshImm cond p u w true 2#2 rn rd imm8
  | .ldrsbReg cond p u w rn rd rm => encLshReg cond p u w true 2#2 rn rd rm
  | .ldrshImm cond p u w rn rd imm8 => encLshImm cond p u w true 3#2 rn rd imm8
  | .ldrshReg cond p u w rn rd rm => encLshReg cond p u w true 3#2 rn rd rm
  | .strhImm cond p u w rn rd imm8 => encLshImm cond p u w false 1#2 rn rd imm8
  | .strhReg cond p u w rn rd rm => encLshReg cond p u w false 1#2 rn rd rm
  | .stm cond p u w rn list => encBlock cond p u false w false rn list
  | .ldm cond p u w rn list => encBlock cond p u false w true rn list
  | .ldmReturn cond p u w rn list => encBlock cond p u true w true rn list
  | .ldmUser cond p u w rn list => encBlock cond p u true w true rn list
  | .stmUser cond p u w rn list => encBlock cond p u true w false rn list
  | .swp cond rn rd rm => encSwap cond false rn rd rm
  | .swpb cond rn rd rm => encSwap cond true rn rd rm
  | .mrs cond r rd => cond.bits ++ 2#5 ++ boolBit r ++ 0#2 ++ 0xF#4 ++ regBits rd ++ 0#12
  | .msrReg cond r fieldMask rm => cond.bits ++ 2#5 ++ boolBit r ++ 2#2 ++ fieldMask ++ 0xF#4 ++ 0#4 ++ 0#4 ++ regBits rm
  | .msrImm cond r fieldMask rot imm8 => cond.bits ++ 6#5 ++ boolBit r ++ 2#2 ++ fieldMask ++ 0xF#4 ++ rot ++ imm8
  | .undefinedSpace cond hi20 lo4 => cond.bits ++ 3#3 ++ hi20 ++ 1#1 ++ lo4
  | .coprocLdcStc cond rest => cond.bits ++ 6#3 ++ rest
  | .coprocCdpMrcMcr cond rest => cond.bits ++ 0xE#4 ++ rest

end Sys2Proof
end

