-- ==== Sys2Proof/Config.lean ====
section
/-! DEFINITION. What an implementation or its platform fixes (spec 00_scope.md rule R6), and the free values the spec
leaves open (`DRAW`, rule R9; `STORE_PC_OFFSET`, decision D4). The parameters are plain data that State carries, so that a
statement holds for every configuration (DESIGN CHOICE, log 10). -/

namespace Sys2Proof

/-- The kind of a memory access, as `MemFault` receives it (20_memory.md R75). -/
inductive AccessKind where
  | fetch
  | read
  | write
deriving DecidableEq, Repr

/-- The privilege an access presents to the memory system (20_memory.md R78). -/
inductive Privilege where
  | user
  | privileged
deriving DecidableEq, Repr

/-- A range of byte addresses; the memory system refuses the accesses made at one of them of the marked sizes, kinds and
privileges. One piece of the oracle `MemFault(addr, n, kind, priv)` (20_memory.md R75, decision D5): every function of these
four arguments is a list of such pieces (log 11). -/
structure FaultRegion where
  /-- The first byte address of the range. -/
  base : Nat
  /-- Its length in bytes. -/
  size : Nat
  /-- Accesses of one byte. -/
  forBytes : Bool
  /-- Accesses of two bytes. -/
  forHalves : Bool
  /-- Accesses of four bytes. -/
  forWords : Bool
  onFetch : Bool
  onRead : Bool
  onWrite : Bool
  forUser : Bool
  forPrivileged : Bool
deriving DecidableEq, Repr

/-- The implementation parameters of rule R6. HAS_26BIT and COPROC_PRESENT are false for every machine of the spec (decisions
D1, D6) and have no field; STORE_PC_OFFSET is `Config.storePcOffset` below. -/
structure Config where
  /-- HAS_HALFWORD. -/
  hasHalfword : Bool
  /-- HAS_LONG_MUL. -/
  hasLongMul : Bool
  /-- HAS_THUMB. -/
  hasThumb : Bool
  /-- The v5T additions are present; HAS_V5T is this together with HAS_THUMB, see `Config.hasV5T`. -/
  v5tAdditions : Bool
  /-- HAS_SYSTEM_MODE. -/
  hasSystemMode : Bool
  /-- BIGEND. -/
  bigEndian : Bool
  /-- ALIGN_FAULT. -/
  alignFault : Bool
  /-- IFETCH_COHERENT. -/
  ifetchCoherent : Bool
  /-- UNDEF_TRAPS_BX, consulted only when HAS_THUMB is false. -/
  undefTrapsBx : Bool
  /-- The oracle `MemFault`, as the list of what it refuses. -/
  faultRegions : List FaultRegion
deriving DecidableEq, Repr

namespace Config

/-- HAS_V5T, which "implies `HAS_THUMB`" (R6). -/
def hasV5T (c : Config) : Bool := c.hasThumb && c.v5tAdditions

/-- The reference configuration: the column "this spec" of R6 (decisions D1, D2, D3, D15), with the simplest platform of
decision D5, where no access faults. -/
def reference : Config where
  hasHalfword := true
  hasLongMul := true
  hasThumb := true
  v5tAdditions := true
  hasSystemMode := true
  bigEndian := false
  alignFault := false
  ifetchCoherent := false
  undefTrapsBx := true
  faultRegions := []

/-- The values of `DRAW` (R9), as one stream: the n-th free value the machine uses. It has no body, so nothing can be proved
of a value of it; a narrower draw takes its low bits (log 6). -/
opaque draw : Nat → Word

/-- Whether this implementation stores the pc as `ia + 12` rather than `ia + 8`. It has no body: the parameter
STORE_PC_OFFSET is open (decision D4; log 7). -/
opaque storesPcPlusTwelve : Bool

/-- STORE_PC_OFFSET, 8 or 12 and nothing else is known of it (R6, decision D4). -/
def storePcOffset : Word := if storesPcPlusTwelve then 12#32 else 8#32

end Config

end Sys2Proof
end

