-- ==== Sys2Proof/Machine/State.lean ====
section
/-! DEFINITION. The state of the machine as plain data (spec 10_state.md R20 to R45), how a step can stop, and the state
after reset. INVENTORY.md lists every field with its rule and reset value. -/

namespace Sys2Proof.Machine

/-- The seven operating modes (R34). -/
inductive Mode where
  | user
  | fiq
  | irq
  | svc
  | abort
  | undef
  | system
deriving DecidableEq, Repr

/-- The twelve bits of a Saved Program Status Register (R35, R36); its mode field may hold any five bits (decision D10). -/
structure Psr where
  n : Bool
  z : Bool
  c : Bool
  v : Bool
  i : Bool
  f : Bool
  t : Bool
  m : BitVec 5
deriving DecidableEq, Repr

/-- The Current Program Status Register (R30): as `Psr`, but its mode field always names a mode (R34). -/
structure Cpsr where
  /-- Negative, bit 31. -/
  n : Bool
  /-- Zero, bit 30. -/
  z : Bool
  /-- Carry, bit 29. -/
  c : Bool
  /-- Overflow, bit 28. -/
  v : Bool
  /-- IRQ disable, bit 7. -/
  i : Bool
  /-- FIQ disable, bit 6. -/
  f : Bool
  /-- Thumb state, bit 5. -/
  t : Bool
  /-- Operating mode, bits 4 to 0. -/
  mode : Mode
deriving DecidableEq, Repr

/-- The names of the thirty-one general registers, the cells of the table of R22. -/
inductive Cell where
  | r0 | r1 | r2 | r3 | r4 | r5 | r6 | r7
  | r8 | r9 | r10 | r11 | r12
  | r13 | r14
  | r8_fiq | r9_fiq | r10_fiq | r11_fiq | r12_fiq | r13_fiq | r14_fiq
  | r13_irq | r14_irq
  | r13_svc | r14_svc
  | r13_abt | r14_abt
  | r13_und | r14_und
  | pc
deriving DecidableEq, Repr

/-- The thirty general registers other than the pc (R21, R22). -/
structure GenRegs where
  -- r0 to r7, shared by all modes.
  (r0 r1 r2 r3 r4 r5 r6 r7 : Word)
  -- r8 to r12 of every mode but FIQ.
  (r8 r9 r10 r11 r12 : Word)
  -- r13 and r14 of User and System mode.
  (r13 r14 : Word)
  -- The FIQ bank, r8 to r14.
  (r8_fiq r9_fiq r10_fiq r11_fiq r12_fiq r13_fiq r14_fiq : Word)
  -- The IRQ bank.
  (r13_irq r14_irq : Word)
  -- The SVC bank.
  (r13_svc r14_svc : Word)
  -- The Abort bank.
  (r13_abt r14_abt : Word)
  -- The Undef bank.
  (r13_und r14_und : Word)
deriving DecidableEq, Repr

/-- The five Saved Program Status Registers (R36). -/
structure Spsrs where
  fiq : Psr
  irq : Psr
  svc : Psr
  abt : Psr
  und : Psr
deriving DecidableEq, Repr

/-- Memory, 2^32 bytes (R39, 20_memory.md R60): the bytes that are not `Memory.blank`, addresses rising. -/
abbrev Memory := List Host.Cell

/-- What a byte of memory that nothing has written reads as (DESIGN CHOICE, unsafe, log 5: the spec gives memory no content
at reset). -/
def Memory.blank : Byte := 0#8

/-- The levels of the three lines at one step (R40, 60_exceptions.md R350; log 8). -/
structure Inputs where
  resetLine : Bool
  fiqLine : Bool
  irqLine : Bool
deriving DecidableEq, Repr

/-- The bytes that other agents write to memory between two accesses of the processor, the first first (20_memory.md R74, R80;
log 9). -/
abbrev BusWrites := List (Word × Byte)

/-- The state of the machine. The first five fields are the spec's (R20); the others are the model's own (log 6, 8, 9, 10, 12). -/
structure State where
  /-- The general registers (R21, R22). -/
  regs : GenRegs
  /-- The address of the next instruction, `ia` while it runs (R25). -/
  pc : Word
  /-- The Current Program Status Register (R30). -/
  cpsr : Cpsr
  /-- The Saved Program Status Registers (R36). -/
  spsr : Spsrs
  /-- Memory (R39). -/
  mem : Memory
  /-- The parameters of 00_scope.md R6; no instruction changes them. -/
  cfg : Config
  /-- The levels of the lines to come, the next step's entry first; past the end the lines are low. -/
  inputs : List Inputs
  /-- What other agents will write before each coming access of the processor, the next access's entry first; past the end
  nothing. -/
  bus : List BusWrites
  /-- The word addresses this processor has written since reset, strictly rising (20_memory.md R82). -/
  written : List Nat
  /-- How many values of `Config.draw` have been used (00_scope.md R9). -/
  draws : Nat
deriving DecidableEq, Repr

/-- How a step can stop with a fault. -/
inductive Fault where
  /-- A fetch in ARM state from a pc that is not word-aligned, a state the spec says does not arise (R25, 20_memory.md R71).
  Raised by `step`. Safe: no state that a run from a good state reaches raises it (log 14). -/
  | misalignedFetch
deriving DecidableEq, Repr

/-- How a step can be refused: the spec's `REFUSE` cases (00_scope.md R9; 93_implementation_defined.md part 1), each under a
name of its own. A refusal is safe: the spec gives no meaning there. -/
inductive Refusal where
  /-- An instruction that has no meaning in this model yet. Raised by `exec`. Safe. -/
  | notModelled (mnemonic : String)
  /-- R106: a step with CPSR.T = 1. Raised by `step`. Safe. -/
  | thumbState
  /-- R126: condition field 0b1111 on anything but BLX format (2). Raised by `step`. Safe. -/
  | neverCondition
  /-- R130, decision D17: a word that is no instruction of the spec and in no trapping set. Raised by `step`. Safe. -/
  | unallocated
  /-- R131: an instruction whose feature parameter is false. Raised by the gated meanings. Safe. -/
  | featureAbsent
  /-- R82, decision D15: the fetch of a word this processor has written since reset, without IFETCH_COHERENT. Raised by `step`.
  Safe. -/
  | fetchOfWrittenWord
  /-- R29 (b), decision D9: sequential advance from 0xFFFFFFFC. Raised by every instruction that does not write the pc. Safe. -/
  | pastEndOfAddressSpace
  /-- R29 (a), R150, R151, R154: a branch target below 0 or not below 2^32. Raised by B, BL, BLX immediate. Safe. -/
  | branchOutOfAddressSpace
  /-- R153: BLX with Rm = r15. Safe. -/
  | blxOfPc
  /-- R175: r15 as a register of a data processing instruction whose shift amount is in a register. Safe. -/
  | r15WithRegisterShift
  /-- R28, R178, R244, R285, R286, decision D8: a value that is not aligned for the instruction set, written to the pc. Safe. -/
  | misalignedPcWrite
  /-- R36, R178, R286, R310, R313: the current SPSR named in User or System mode. Safe. -/
  | noSpsr
  /-- R34, R178, R286, R313, decision D10: a mode field that names no mode, about to enter the CPSR. Safe. -/
  | illegalMode
  /-- R223: r15 in a multiply. Safe. -/
  | r15InMultiply
  /-- R223: Rd = Rm, or RdHi, RdLo and Rm not distinct. Safe. -/
  | multiplyRegisterOverlap
  /-- R230: r15 in CLZ. Safe. -/
  | r15InClz
  /-- R242, R243, R267, R268: the pc as offset register. Safe. -/
  | pcAsOffset
  /-- R243, R268: the pc as base with auto-indexing. Safe. -/
  | pcBaseAutoIndex
  /-- R243, R268: Rd = Rn with auto-indexing. Safe. -/
  | destinationIsIndexedBase
  /-- R243, R268: Rm = Rn with auto-indexing. Safe. -/
  | offsetIsIndexedBase
  /-- R245: a byte load into the pc. Safe. -/
  | byteLoadIntoPc
  /-- R247: a byte store of the pc. Safe. -/
  | byteStoreOfPc
  /-- R268: the pc as the transferred register of a half-word or signed byte transfer. Safe. -/
  | halfwordTransferOfPc
  /-- R66, decision D2: an unaligned word load in a big-endian configuration. Safe. -/
  | bigEndianUnalignedLoad
  /-- R68, R268: a half-word access at an odd address without ALIGN_FAULT. Safe. -/
  | oddHalfwordAddress
  /-- R267: a post-indexed half-word or signed byte transfer with W = 1. Safe. -/
  | postIndexedHalfwordW
  /-- R283: an empty register list. Safe. -/
  | emptyRegisterList
  /-- R283: the pc as base of LDM or STM. Safe. -/
  | pcBaseOfBlock
  /-- R283: write-back with the base in the list. Safe. -/
  | writeBackBaseInList
  /-- R61, R282, decision D9: a block that leaves the address space. Safe. -/
  | blockLeavesAddressSpace
  /-- R287, R288: write-back in a user bank form. Safe. -/
  | userBankWriteBack
  /-- R287, R288: a user bank form in User mode. Safe. -/
  | userBankInUserMode
  /-- R288: the pc in the list of a user bank STM. Safe. -/
  | userBankStoreOfPc
  /-- R300: the pc in a swap. Safe. -/
  | pcInSwap
  /-- R300: base equal to source or destination in a swap. Safe. -/
  | swapBaseOverlap
  /-- R310: MRS into the pc. Safe. -/
  | mrsIntoPc
  /-- R313: MSR from the pc. Safe. -/
  | msrFromPc
  /-- R313: an immediate MSR that selects a field other than the flags. Safe. -/
  | msrImmediateField
  /-- R315: an MSR that would change CPSR.T. Safe. -/
  | msrChangesT
deriving DecidableEq, Repr

/-- All twelve bits zero: what the model gives an SPSR at reset (DESIGN CHOICE, unsafe, log 2). -/
def Psr.zero : Psr where
  n := false
  z := false
  c := false
  v := false
  i := false
  f := false
  t := false
  m := 0#5

/-- Every general register zero: what the model gives them at reset (DESIGN CHOICE, unsafe, log 1). -/
def GenRegs.zero : GenRegs where
  r0 := 0#32
  r1 := 0#32
  r2 := 0#32
  r3 := 0#32
  r4 := 0#32
  r5 := 0#32
  r6 := 0#32
  r7 := 0#32
  r8 := 0#32
  r9 := 0#32
  r10 := 0#32
  r11 := 0#32
  r12 := 0#32
  r13 := 0#32
  r14 := 0#32
  r8_fiq := 0#32
  r9_fiq := 0#32
  r10_fiq := 0#32
  r11_fiq := 0#32
  r12_fiq := 0#32
  r13_fiq := 0#32
  r14_fiq := 0#32
  r13_irq := 0#32
  r14_irq := 0#32
  r13_svc := 0#32
  r14_svc := 0#32
  r13_abt := 0#32
  r14_abt := 0#32
  r13_und := 0#32
  r14_und := 0#32

/-- The machine right after reset (R45, 70_reset_and_hazards.md R381): SVC mode, IRQ and FIQ disabled, ARM state, pc 0.
The flags, registers and SPSRs that R45 leaves unspecified are zero (DESIGN CHOICE, log 1, 2, 3); memory lists nothing;
the configuration is the reference one. -/
def State.reset : State where
  regs := GenRegs.zero
  pc := 0#32
  cpsr :=
    { n := false, z := false, c := false, v := false, i := true, f := true, t := false, mode := .svc }
  spsr := { fiq := Psr.zero, irq := Psr.zero, svc := Psr.zero, abt := Psr.zero, und := Psr.zero }
  mem := []
  cfg := Config.reference
  inputs := []
  bus := []
  written := []
  draws := 0

end Sys2Proof.Machine
end

