-- ==== Sys2Proof/Machine/Flags.lean ====
section
/-! DEFINITION. The condition test (spec 40_conditional_execution.md R141), the adder (00_scope.md R10) and every way an
instruction computes the flags N, Z, C and V (43_data_processing.md R176, 44_multiply_clz.md R222). -/

namespace Sys2Proof.Machine

/-- `ConditionPassed` (R140, R141), on the flags at the start of the instruction. -/
def conditionPassed (cond : Cond) (p : Cpsr) : Bool :=
  match cond with
  | .eq => p.z
  | .ne => !p.z
  | .cs => p.c
  | .cc => !p.c
  | .mi => p.n
  | .pl => !p.n
  | .vs => p.v
  | .vc => !p.v
  | .hi => p.c && !p.z
  | .ls => !p.c || p.z
  | .ge => p.n == p.v
  | .lt => p.n != p.v
  | .gt => !p.z && (p.n == p.v)
  | .le => p.z || (p.n != p.v)
  | .al => true

/-- What the adder gives: the 32-bit result, the carry out of bit 31, the signed overflow (00_scope.md R10). -/
structure Sum where
  result : Word
  carry : Bool
  overflow : Bool
deriving DecidableEq, Repr

/-- `AddWithCarry` (00_scope.md R10): the sums are exact, unsigned and signed, and narrowed at the end. -/
def addWithCarry (a b : Word) (cin : Bool) : Sum :=
  let usum : Nat := a.toNat + b.toNat + cin.toNat
  let ssum : Int := a.toInt + b.toInt + (cin.toNat : Int)
  let result : Word := BitVec.ofNat 32 usum
  { result := result, carry := decide (2 ^ 32 ≤ usum), overflow := decide (result.toInt ≠ ssum) }

/-- Bit 31 of a result, the N flag it gives (R176). -/
def negative (result : Word) : Bool := result.getLsbD 31

/-- N, Z, C and V written together; nothing else of the CPSR changes. -/
def Cpsr.withFlags (p : Cpsr) (n z c v : Bool) : Cpsr := { p with n := n, z := z, c := c, v := v }

/-- `SetFlagsLogical` (R176): N and Z from the result, C from the shifter, V unchanged. -/
def setFlagsLogical (result : Word) (shifterCarry : Bool) (p : Cpsr) : Cpsr :=
  p.withFlags (negative result) (decide (result = 0#32)) shifterCarry p.v

/-- `SetFlagsArith` (R176): N and Z from the result, C and V from the adder. -/
def setFlagsArith (r : Sum) (p : Cpsr) : Cpsr :=
  p.withFlags (negative r.result) (decide (r.result = 0#32)) r.carry r.overflow

/-- `SetFlagsMul32` (R222): N and Z from the result, C the free value `free`, V unchanged. -/
def setFlagsMul32 (result : Word) (free : Bool) (p : Cpsr) : Cpsr :=
  p.withFlags (negative result) (decide (result = 0#32)) free p.v

/-- `SetFlagsMul64` (R222): N is bit 63 and Z tests all sixty-four bits; C the free value `free`, V unchanged. -/
def setFlagsMul64 (result : BitVec 64) (free : Bool) (p : Cpsr) : Cpsr :=
  p.withFlags (result.getLsbD 63) (decide (result = 0#64)) free p.v

end Sys2Proof.Machine
end

