-- ==== Sys2Proof/Machine/Ops.lean ====
section
/-! DEFINITION. The named operations over memory, registers, status registers and free values, and the taking of an exception
and the return from one (spec 60_exceptions.md R340, R360). Every meaning is written over these. -/

namespace Sys2Proof.Machine

/-- What a meaning answers. -/
abbrev Result := Host.Outcome State Fault Refusal

/-! ### Memory as a list of bytes (20_memory.md R60 to R64) -/

/-- The byte at address `a`. -/
def Memory.read : Memory → Nat → Byte
  | [], _ => Memory.blank
  | (k, b) :: rest, a => if k = a then b else Memory.read rest a

/-- Memory with `v` at address `a`; a byte that reads as an unlisted one is not listed. -/
def Memory.write : Memory → Nat → Byte → Memory
  | [], a, v => if v = Memory.blank then [] else [(a, v)]
  | (k, b) :: rest, a, v =>
    if a < k then
      if v = Memory.blank then (k, b) :: rest else (a, v) :: (k, b) :: rest
    else if a = k then
      if v = Memory.blank then rest else (a, v) :: rest
    else (k, b) :: Memory.write rest a v

/-- The list has the canonical form from address `lo` on: addresses strictly rising, inside the address space, no byte listed
that an unlisted address reads as. -/
def Memory.wfFrom : Nat → Memory → Bool
  | _, [] => true
  | lo, (k, b) :: rest =>
    decide (lo ≤ k) && decide (k < 2 ^ 32) && decide (b ≠ Memory.blank) && Memory.wfFrom (k + 1) rest

/-- The canonical form: equal memories are equal lists. -/
def Memory.wf (m : Memory) : Bool := Memory.wfFrom 0 m

/-- `MemRead(a, 4)` for a word-aligned `a` (R62, R63). -/
def Memory.readWord (bigEndian : Bool) (m : Memory) (a : Nat) : Word :=
  joinWord bigEndian (m.read a) (m.read (a + 1)) (m.read (a + 2)) (m.read (a + 3))

/-- `MemRead(a, 2)` for a half-word aligned `a` (R62, R63). -/
def Memory.readHalf (bigEndian : Bool) (m : Memory) (a : Nat) : Half :=
  joinHalf bigEndian (m.read a) (m.read (a + 1))

/-- `MemWrite(a, 4, v)` for a word-aligned `a` (R62, R63). -/
def Memory.writeWord (bigEndian : Bool) (m : Memory) (a : Nat) (v : Word) : Memory :=
  (((m.write a (wordByte bigEndian v 0)).write (a + 1) (wordByte bigEndian v 1)).write (a + 2)
    (wordByte bigEndian v 2)).write (a + 3) (wordByte bigEndian v 3)

/-- `MemWrite(a, 2, v)` for a half-word aligned `a` (R62, R63). -/
def Memory.writeHalf (bigEndian : Bool) (m : Memory) (a : Nat) (v : Half) : Memory :=
  (m.write a (halfByte bigEndian v 0)).write (a + 1) (halfByte bigEndian v 1)

/-- Memory after other agents have written some bytes, the first first (R80). -/
def Memory.afterBus (m : Memory) : BusWrites → Memory
  | [] => m
  | (a, v) :: rest => Memory.afterBus (m.write a.toNat v) rest

/-- An address with its two low bits cleared (R66, R67, R69). -/
def alignWord (a : Word) : Word := a &&& 0xFFFFFFFC#32

/-- An address with its low bit cleared (41_branch.md R152). -/
def alignHalf (a : Word) : Word := a &&& 0xFFFFFFFE#32

/-- The words this processor has written, with the one at `a` added, kept strictly rising (R82). -/
def noteWritten : Nat → List Nat → List Nat
  | a, [] => [a]
  | a, k :: rest => if a < k then a :: k :: rest else if a = k then k :: rest else k :: noteWritten a rest

/-- The list is strictly rising from `lo` on, and holds only word addresses of the address space. -/
def writtenWfFrom : Nat → List Nat → Bool
  | _, [] => true
  | lo, k :: rest => decide (lo ≤ k) && decide (k < 2 ^ 32) && decide (k % 4 = 0) && writtenWfFrom (k + 1) rest

/-! ### Plain updates of the state -/

/-- The state with other general registers. -/
def State.setRegs (s : State) (r : GenRegs) : State := { s with regs := r }

/-- The state with another pc. -/
def State.setPc (s : State) (a : Word) : State := { s with pc := a }

/-- The state with another CPSR. -/
def State.setCpsr (s : State) (p : Cpsr) : State := { s with cpsr := p }

/-- The state with other SPSRs. -/
def State.setSpsrs (s : State) (p : Spsrs) : State := { s with spsr := p }

/-- The state with another memory. -/
def State.setMem (s : State) (m : Memory) : State := { s with mem := m }

/-- The state with another list of coming inputs. -/
def State.setInputs (s : State) (l : List Inputs) : State := { s with inputs := l }

/-- The state with another list of what other agents will write. -/
def State.setBus (s : State) (l : List BusWrites) : State := { s with bus := l }

/-- The state with another list of written words. -/
def State.setWritten (s : State) (l : List Nat) : State := { s with written := l }

/-- The state with another count of used free values. -/
def State.setDraws (s : State) (n : Nat) : State := { s with draws := n }

/-! ### Modes (10_state.md R34, 00_scope.md R10) -/

/-- The five bits of a mode (R34, Table 5.1). -/
def Mode.bits : Mode → BitVec 5
  | .user => 0b10000#5
  | .fiq => 0b10001#5
  | .irq => 0b10010#5
  | .svc => 0b10011#5
  | .abort => 0b10111#5
  | .undef => 0b11011#5
  | .system => 0b11111#5

/-- The mode that five bits name on this processor, if they name one (R34; System only with HAS_SYSTEM_MODE). -/
def Mode.ofBits (cfg : Config) (b : BitVec 5) : Option Mode :=
  if b = 0b10000#5 then some .user
  else if b = 0b10001#5 then some .fiq
  else if b = 0b10010#5 then some .irq
  else if b = 0b10011#5 then some .svc
  else if b = 0b10111#5 then some .abort
  else if b = 0b11011#5 then some .undef
  else if b = 0b11111#5 ∧ cfg.hasSystemMode = true then some .system
  else none

/-- `IsPrivileged` (00_scope.md R10). -/
def Mode.privileged : Mode → Bool
  | .user => false
  | _ => true

/-! ### General registers (10_state.md R22, R23, R27) -/

/-- `bank(m, i)`: the cell that register number `i` denotes in mode `m`, the table of R22. -/
def bank (m : Mode) (i : RegNum) : Cell :=
  match i.val with
  | 0 => .r0 | 1 => .r1 | 2 => .r2 | 3 => .r3 | 4 => .r4 | 5 => .r5 | 6 => .r6 | 7 => .r7
  | 8 => match m with | .fiq => .r8_fiq | _ => .r8
  | 9 => match m with | .fiq => .r9_fiq | _ => .r9
  | 10 => match m with | .fiq => .r10_fiq | _ => .r10
  | 11 => match m with | .fiq => .r11_fiq | _ => .r11
  | 12 => match m with | .fiq => .r12_fiq | _ => .r12
  | 13 =>
    match m with
    | .user | .system => .r13
    | .fiq => .r13_fiq
    | .irq => .r13_irq
    | .svc => .r13_svc
    | .abort => .r13_abt
    | .undef => .r13_und
  | 14 =>
    match m with
    | .user | .system => .r14
    | .fiq => .r14_fiq
    | .irq => .r14_irq
    | .svc => .r14_svc
    | .abort => .r14_abt
    | .undef => .r14_und
  | _ => .pc

/-- The contents of a cell. -/
def State.cell (s : State) : Cell → Word
  | .r0 => s.regs.r0
  | .r1 => s.regs.r1
  | .r2 => s.regs.r2
  | .r3 => s.regs.r3
  | .r4 => s.regs.r4
  | .r5 => s.regs.r5
  | .r6 => s.regs.r6
  | .r7 => s.regs.r7
  | .r8 => s.regs.r8
  | .r9 => s.regs.r9
  | .r10 => s.regs.r10
  | .r11 => s.regs.r11
  | .r12 => s.regs.r12
  | .r13 => s.regs.r13
  | .r14 => s.regs.r14
  | .r8_fiq => s.regs.r8_fiq
  | .r9_fiq => s.regs.r9_fiq
  | .r10_fiq => s.regs.r10_fiq
  | .r11_fiq => s.regs.r11_fiq
  | .r12_fiq => s.regs.r12_fiq
  | .r13_fiq => s.regs.r13_fiq
  | .r14_fiq => s.regs.r14_fiq
  | .r13_irq => s.regs.r13_irq
  | .r14_irq => s.regs.r14_irq
  | .r13_svc => s.regs.r13_svc
  | .r14_svc => s.regs.r14_svc
  | .r13_abt => s.regs.r13_abt
  | .r14_abt => s.regs.r14_abt
  | .r13_und => s.regs.r13_und
  | .r14_und => s.regs.r14_und
  | .pc => s.pc

/-- The state with a cell written. -/
def State.setCell (s : State) (c : Cell) (v : Word) : State :=
  match c with
  | .r0 => s.setRegs ({ s.regs with r0 := v })
  | .r1 => s.setRegs ({ s.regs with r1 := v })
  | .r2 => s.setRegs ({ s.regs with r2 := v })
  | .r3 => s.setRegs ({ s.regs with r3 := v })
  | .r4 => s.setRegs ({ s.regs with r4 := v })
  | .r5 => s.setRegs ({ s.regs with r5 := v })
  | .r6 => s.setRegs ({ s.regs with r6 := v })
  | .r7 => s.setRegs ({ s.regs with r7 := v })
  | .r8 => s.setRegs ({ s.regs with r8 := v })
  | .r9 => s.setRegs ({ s.regs with r9 := v })
  | .r10 => s.setRegs ({ s.regs with r10 := v })
  | .r11 => s.setRegs ({ s.regs with r11 := v })
  | .r12 => s.setRegs ({ s.regs with r12 := v })
  | .r13 => s.setRegs ({ s.regs with r13 := v })
  | .r14 => s.setRegs ({ s.regs with r14 := v })
  | .r8_fiq => s.setRegs ({ s.regs with r8_fiq := v })
  | .r9_fiq => s.setRegs ({ s.regs with r9_fiq := v })
  | .r10_fiq => s.setRegs ({ s.regs with r10_fiq := v })
  | .r11_fiq => s.setRegs ({ s.regs with r11_fiq := v })
  | .r12_fiq => s.setRegs ({ s.regs with r12_fiq := v })
  | .r13_fiq => s.setRegs ({ s.regs with r13_fiq := v })
  | .r14_fiq => s.setRegs ({ s.regs with r14_fiq := v })
  | .r13_irq => s.setRegs ({ s.regs with r13_irq := v })
  | .r14_irq => s.setRegs ({ s.regs with r14_irq := v })
  | .r13_svc => s.setRegs ({ s.regs with r13_svc := v })
  | .r14_svc => s.setRegs ({ s.regs with r14_svc := v })
  | .r13_abt => s.setRegs ({ s.regs with r13_abt := v })
  | .r14_abt => s.setRegs ({ s.regs with r14_abt := v })
  | .r13_und => s.setRegs ({ s.regs with r13_und := v })
  | .r14_und => s.setRegs ({ s.regs with r14_und := v })
  | .pc => s.setPc v

/-- `x[i]` as an operand: register `i` of the current mode's view, and `ia + 8` for the pc (R23, R27). -/
def State.reg (s : State) (i : RegNum) : Word :=
  if i = 15 then s.pc + 8#32 else s.cell (bank s.cpsr.mode i)

/-- `x[i] <- v`: register `i` of the current mode's view (R23). -/
def State.setReg (s : State) (i : RegNum) (v : Word) : State := s.setCell (bank s.cpsr.mode i) v

/-- Several cells written, the first pair first. -/
def State.setCells (s : State) : List (Cell × Word) → State
  | [] => s
  | (c, v) :: rest => (s.setCell c v).setCells rest

/-! ### Status registers (10_state.md R30 to R37) -/

/-- The twelve bits of the CPSR as an SPSR holds them. -/
def Cpsr.saved (p : Cpsr) : Psr where
  n := p.n
  z := p.z
  c := p.c
  v := p.v
  i := p.i
  f := p.f
  t := p.t
  m := p.mode.bits

/-- The CPSR that twelve bits give, if their mode field names a mode of this processor (R34, decision D10). -/
def Psr.restored (cfg : Config) (p : Psr) : Option Cpsr :=
  match Mode.ofBits cfg p.m with
  | none => none
  | some mode =>
    some { n := p.n, z := p.z, c := p.c, v := p.v, i := p.i, f := p.f, t := p.t, mode := mode }

/-- The CPSR with T as this processor can hold it: without HAS_THUMB it "is always 0" (R33; log 16). -/
def Cpsr.limitT (cfg : Config) (p : Cpsr) : Cpsr := { p with t := p.t && cfg.hasThumb }

/-- The SPSR of a mode; User and System have none (R36). -/
def State.spsrOf (s : State) : Mode → Option Psr
  | .user => none
  | .system => none
  | .fiq => some s.spsr.fiq
  | .irq => some s.spsr.irq
  | .svc => some s.spsr.svc
  | .abort => some s.spsr.abt
  | .undef => some s.spsr.und

/-- The SPSR of a mode written; nothing where the mode has none (R36). -/
def State.setSpsrOf (s : State) (m : Mode) (p : Psr) : State :=
  match m with
  | .user => s
  | .system => s
  | .fiq => s.setSpsrs { s.spsr with fiq := p }
  | .irq => s.setSpsrs { s.spsr with irq := p }
  | .svc => s.setSpsrs { s.spsr with svc := p }
  | .abort => s.setSpsrs { s.spsr with abt := p }
  | .undef => s.setSpsrs { s.spsr with und := p }

/-! ### Free values (00_scope.md R9 `DRAW`; log 6) -/

/-- The next free word of the state. -/
def State.freeWord (s : State) : Word := Config.draw s.draws

/-- The next free bit of the state. -/
def State.freeBit (s : State) : Bool := (Config.draw s.draws).getLsbD 0

/-- The state whose next free value is another one. -/
def State.drawn (s : State) : State := s.setDraws (s.draws + 1)

/-- Each of some cells given a free value of its own. -/
def State.freeCells (s : State) : List Cell → State
  | [] => s
  | c :: rest => ((s.setCell c s.freeWord).drawn).freeCells rest

/-- Twelve free bits. -/
def freePsr (w : Word) : Psr where
  n := w.getLsbD 31
  z := w.getLsbD 30
  c := w.getLsbD 29
  v := w.getLsbD 28
  i := w.getLsbD 7
  f := w.getLsbD 6
  t := w.getLsbD 5
  m := w.extractLsb' 0 5

/-! ### Other agents (20_memory.md R74, R80; log 9) -/

/-- The state in which the processor makes its next access to memory: what other agents write before it is in memory. -/
def State.atAccess (s : State) : State := (s.setBus s.bus.tail).setMem (s.mem.afterBus (s.bus.headD []))

/-- The state in which it makes the `n`-th access from here, if none of them writes; the state itself for 0. -/
def State.atAccessNo : Nat → State → State
  | 0, s => s
  | n + 1, s => State.atAccessNo n s.atAccess

/-! ### Data accesses (20_memory.md R65 to R78) -/

/-- The privilege the current mode's accesses present (R78). -/
def State.privilege (s : State) : Privilege := if s.cpsr.mode.privileged then .privileged else .user

/-- The region holds the address `addr` and refuses accesses of `n` bytes of this kind and privilege. -/
def regionRefuses (r : FaultRegion) (addr : Word) (n : Nat) (kind : AccessKind) (priv : Privilege) : Bool :=
  decide (r.base ≤ addr.toNat) && decide (addr.toNat < r.base + r.size)
    && (if n = 1 then r.forBytes else if n = 2 then r.forHalves else r.forWords)
    && (match kind with | .fetch => r.onFetch | .read => r.onRead | .write => r.onWrite)
    && (match priv with | .user => r.forUser | .privileged => r.forPrivileged)

/-- `MemFault(addr, n, kind, priv)` (R75, decision D5). -/
def memFault (cfg : Config) (addr : Word) (n : Nat) (kind : AccessKind) (priv : Privilege) : Bool :=
  cfg.faultRegions.any fun r => regionRefuses r addr n kind priv

/-- A word access at `addr` raises DataAbort: misaligned with ALIGN_FAULT (R70), or refused by the memory system at the
aligned address it uses (R75). -/
def State.wordFaults (s : State) (addr : Word) (kind : AccessKind) (priv : Privilege) : Bool :=
  (s.cfg.alignFault && decide (addr.extractLsb' 0 2 ≠ 0#2)) || memFault s.cfg (alignWord addr) 4 kind priv

/-- A half-word access at `addr` raises DataAbort (R70, R75). -/
def State.halfFaults (s : State) (addr : Word) (kind : AccessKind) (priv : Privilege) : Bool :=
  (s.cfg.alignFault && addr.getLsbD 0) || memFault s.cfg addr 2 kind priv

/-- A byte access at `addr` raises DataAbort (R75). -/
def State.byteFaults (s : State) (addr : Word) (kind : AccessKind) (priv : Privilege) : Bool :=
  memFault s.cfg addr 1 kind priv

/-- `ROR32` (00_scope.md R10), for any amount below 32. -/
def ror32 (v : Word) (n : Nat) : Word := if n = 0 then v else (v >>> n) ||| (v <<< (32 - n))

/-- The word at the word address that holds `addr`, not rotated (R69). -/
def State.wordAt (s : State) (addr : Word) : Word :=
  s.mem.readWord s.cfg.bigEndian (alignWord addr).toNat

/-- `LoadWord(addr)` (R66): the aligned word, rotated so that the addressed byte is lowest. -/
def State.loadWord (s : State) (addr : Word) : Word :=
  ror32 (s.wordAt addr) (8 * (addr.extractLsb' 0 2).toNat)

/-- `MemRead(addr, 2)` for an even `addr`. -/
def State.loadHalf (s : State) (addr : Word) : Half := s.mem.readHalf s.cfg.bigEndian addr.toNat

/-- `MemRead(addr, 1)`. -/
def State.loadByte (s : State) (addr : Word) : Byte := s.mem.read addr.toNat

/-- A data write has reached the word that holds `addr` (R82). -/
def State.noteStore (s : State) (addr : Word) : State := s.setWritten (noteWritten (alignWord addr).toNat s.written)

/-- `StoreWord(addr, v)` (R67): the low two bits of the address are ignored. -/
def State.storeWord (s : State) (addr v : Word) : State :=
  (s.setMem (s.mem.writeWord s.cfg.bigEndian (alignWord addr).toNat v)).noteStore addr

/-- `MemWrite(addr, 2, v)` for an even `addr`. -/
def State.storeHalf (s : State) (addr : Word) (v : Half) : State :=
  (s.setMem (s.mem.writeHalf s.cfg.bigEndian addr.toNat v)).noteStore addr

/-- `MemWrite(addr, 1, v)`. -/
def State.storeByte (s : State) (addr : Word) (v : Byte) : State :=
  (s.setMem (s.mem.write addr.toNat v)).noteStore addr

/-! ### Exceptions (60_exceptions.md R331, R340) -/

/-- The exceptions that share the entry sequence of R340; reset has its own event (70_reset_and_hazards.md R380). -/
inductive Exception where
  | undefined
  | softwareInterrupt
  | prefetchAbort
  | dataAbort
  | irq
  | fiq
deriving DecidableEq, Repr

/-- The mode an exception enters (R331, Table 5.2). -/
def Exception.mode : Exception → Mode
  | .undefined => .undef
  | .softwareInterrupt => .svc
  | .prefetchAbort => .abort
  | .dataAbort => .abort
  | .irq => .irq
  | .fiq => .fiq

/-- The vector address of an exception (R331, Table 5.2; 20_memory.md R73). -/
def Exception.vector : Exception → Word
  | .undefined => 0x00000004#32
  | .softwareInterrupt => 0x00000008#32
  | .prefetchAbort => 0x0000000C#32
  | .dataAbort => 0x00000010#32
  | .irq => 0x00000018#32
  | .fiq => 0x0000001C#32

/-- An exception sets F as well as I (R331, R340): FIQ does. -/
def Exception.masksFiq : Exception → Bool
  | .fiq => true
  | _ => false

/-- The CPSR of a handler (R340): the exception's mode, ARM state, IRQ disabled, FIQ disabled as well by an FIQ, the flags
and otherwise F as they were. -/
def handlerCpsr (e : Exception) (p : Cpsr) : Cpsr :=
  { p with i := true, f := p.f || e.masksFiq, t := false, mode := e.mode }

/-- `ExceptionEntry` (R340): r14 of the new mode receives `link`, the SPSR of the new mode the old CPSR, the CPSR the handler's,
the pc the vector. -/
def takeException (e : Exception) (link : Word) (s : State) : State :=
  (((s.setCell (bank e.mode 14) link).setSpsrOf e.mode s.cpsr.saved).setCpsr (handlerCpsr e s.cpsr)).setPc e.vector

/-- The data abort of the instruction at the pc (R345): link `ia + 8`. What the abandoned instruction leaves is in `s`. -/
def dataAbort (s : State) : Result := .next (takeException .dataAbort (s.pc + 8#32) s)

/-- The undefined instruction trap of the instruction at the pc (R343): link `ia + 4`. -/
def undefinedTrap (s : State) : Result := .next (takeException .undefined (s.pc + 4#32) s)

/-! ### How an instruction ends -/

/-- Sequential advance (10_state.md R26, R29 (b)): the next instruction is at `ia + 4`, which 0xFFFFFFFC does not have. -/
def advance (s : State) : Result :=
  if s.pc = 0xFFFFFFFC#32 then .refused .pastEndOfAddressSpace else .next (s.setPc (s.pc + 4#32))

/-- Go on unless a check refuses. -/
def unlessRefused (check : Option Refusal) (k : Result) : Result :=
  match check with
  | some r => .refused r
  | none => k

/-- The frame of a conditional instruction (00_scope.md R11 step 4, R142): skipped unless its condition passes. -/
def conditional (cond : Cond) (s : State) (k : Result) : Result :=
  if conditionPassed cond s.cpsr then k else advance s

/-- An instruction of an optional group (R131): refused, whatever its condition, where the group is absent (log 21). -/
def gated (feature : Bool) (k : Result) : Result := if feature then k else .refused .featureAbsent

/-- A word written to the pc in ARM state by an instruction that changes nothing else (R28, R178): it must be word-aligned. -/
def branchAligned (target : Word) (s : State) : Result :=
  if target.extractLsb' 0 2 ≠ 0#2 then .refused .misalignedPcWrite else .next (s.setPc target)

/-- A word loaded into the pc by LDR or LDM (R28, R244, R285): with HAS_V5T bit 0 goes to T. -/
def loadPc (v : Word) (s : State) : Result :=
  if v.extractLsb' 0 2 = 0#2 then
    .next ((if s.cfg.hasV5T then s.setCpsr { s.cpsr with t := false } else s).setPc v)
  else if s.cfg.hasV5T && v.getLsbD 0 then
    .next ((s.setCpsr { s.cpsr with t := true }).setPc (alignHalf v))
  else .refused .misalignedPcWrite

/-- The current SPSR (R36), or the refusal of a form that needs one. -/
def needsSpsr (s : State) : Option Refusal :=
  match s.spsrOf s.cpsr.mode with
  | none => some .noSpsr
  | some _ => none

/-- The return from an exception (60_exceptions.md R360, R178, R286): the CPSR from the current SPSR and the pc from `target`,
together. -/
def exceptionReturn (target : Word) (s : State) : Result :=
  match s.spsrOf s.cpsr.mode with
  | none => .refused .noSpsr
  | some p =>
    match p.restored s.cfg with
    | none => .refused .illegalMode
    | some restored =>
      let new := restored.limitT s.cfg
      if !new.t && decide (target.extractLsb' 0 2 ≠ 0#2) then .refused .misalignedPcWrite
      else if new.t && target.getLsbD 0 then .refused .misalignedPcWrite
      else .next ((s.setCpsr new).setPc target)

end Sys2Proof.Machine
end

