-- ==== Sys2Proof/Machine/Branch.lean ====
section
/-! DEFINITION. Branches and the software interrupt (spec 41_branch.md R150 to R154, 42_software_interrupt.md R165). -/

namespace Sys2Proof.Machine

/-- The target of a branch, exact: `ia + 8` plus the sign-extended word offset plus `extra` (30_encoding.md R120, R150, R154). -/
def branchTarget (pc : Word) (offset24 : BitVec 24) (extra : Int) : Int :=
  (pc.toNat : Int) + 8 + 4 * offset24.toInt + extra

/-- Go on with a branch target if it lies in the address space (10_state.md R29 (a)). -/
def withTarget (target : Int) (k : Word → Result) : Result :=
  if target < 0 ∨ 2 ^ 32 ≤ target then .refused .branchOutOfAddressSpace else k (BitVec.ofInt 32 target)

/-- The link register of the current mode receives `ia + 4` (R151). -/
def State.link (s : State) : State := s.setReg 14 (s.pc + 4#32)

/-- The branch and exchange to `v` (R152): bit 0 goes to T, the rest to the pc, aligned for the instruction set. -/
def exchange (v : Word) (s : State) : State :=
  (s.setCpsr { s.cpsr with t := v.getLsbD 0 }).setPc (if v.getLsbD 0 then alignHalf v else alignWord v)

/-- B (R150). -/
def execB (cond : Cond) (offset24 : BitVec 24) (s : State) : Result :=
  conditional cond s (withTarget (branchTarget s.pc offset24 0) fun a => .next (s.setPc a))

/-- BL (R151). -/
def execBl (cond : Cond) (offset24 : BitVec 24) (s : State) : Result :=
  conditional cond s (withTarget (branchTarget s.pc offset24 0) fun a => .next (s.link.setPc a))

/-- BX (R152); without HAS_THUMB the undefined instruction trap where the processor traps it (30_encoding.md R125, R131). -/
def execBx (cond : Cond) (rm : RegNum) (s : State) : Result :=
  if s.cfg.hasThumb then conditional cond s (.next (exchange (s.reg rm) s))
  else gated s.cfg.undefTrapsBx (conditional cond s (undefinedTrap s))

/-- BLX format (1) (R153): Rm is read before r14 is written. -/
def execBlxReg (cond : Cond) (rm : RegNum) (s : State) : Result :=
  gated s.cfg.hasV5T
    (conditional cond s (if rm = 15 then .refused .blxOfPc else .next (exchange (s.reg rm) s.link)))

/-- BLX format (2) (R154): unconditional, always into Thumb state. -/
def execBlxImm (h : Bool) (offset24 : BitVec 24) (s : State) : Result :=
  gated s.cfg.hasV5T
    (withTarget (branchTarget s.pc offset24 (if h then 2 else 0)) fun a =>
      .next ((s.link.setCpsr { s.cpsr with t := true }).setPc a))

/-- SWI (R165): the software interrupt exception; the immediate is not used by the processor. -/
def execSwi (cond : Cond) (s : State) : Result :=
  conditional cond s (.next (takeException .softwareInterrupt (s.pc + 4#32) s))

end Sys2Proof.Machine
end

