-- ==== Sys2Proof/Machine/Operands.lean ====
section
/-! DEFINITION. Every operand form: the shifter of data processing (spec 43_data_processing.md R172 to R175), the offsets and
addresses of single transfers (45_single_transfer.md R242, R243; 46_halfword_transfer.md R267, R268), the lists and addresses
of block transfers (47_multiple_transfer.md R282, R283). -/

namespace Sys2Proof.Machine

/-! ### Operand 2 -/

/-- What the shifter gives: the operand and its carry-out (R172). -/
structure Shifted where
  value : Word
  carry : Bool
deriving DecidableEq, Repr

/-- Thirty-two copies of a bit. -/
def copies (b : Bool) : Word := if b then 0xFFFFFFFF#32 else 0#32

/-- The rotated immediate (30_encoding.md R110). -/
def rotatedImmediate (rot : BitVec 4) (imm8 : BitVec 8) : Word := ror32 (imm8.setWidth 32) (2 * rot.toNat)

/-- DP-imm (R173): the carry-out is bit 31 of the operand, or `c` where nothing is rotated. -/
def immediateOperand (rot : BitVec 4) (imm8 : BitVec 8) (c : Bool) : Shifted :=
  let value := rotatedImmediate rot imm8
  { value := value, carry := if rot = 0#4 then c else value.getLsbD 31 }

/-- DP-reg (R173): `v` shifted by an immediate amount; the amount 0 means LSL #0, LSR #32, ASR #32 or RRX. -/
def shiftByImmediate (sh : ShiftType) (amount : BitVec 5) (v : Word) (c : Bool) : Shifted :=
  let n := amount.toNat
  match sh with
  | .lsl => if n = 0 then { value := v, carry := c } else { value := v <<< n, carry := v.getLsbD (32 - n) }
  | .lsr =>
    if n = 0 then { value := 0#32, carry := v.getLsbD 31 }
    else { value := v >>> n, carry := v.getLsbD (n - 1) }
  | .asr =>
    if n = 0 then { value := copies (v.getLsbD 31), carry := v.getLsbD 31 }
    else { value := v.sshiftRight n, carry := v.getLsbD (n - 1) }
  | .ror =>
    if n = 0 then { value := (v >>> 1) ||| (if c then 0x80000000#32 else 0#32), carry := v.getLsbD 0 }
    else { value := ror32 v n, carry := v.getLsbD (n - 1) }

/-- DP-rsr (R174): `v` shifted by `n`, the bottom byte of Rs. -/
def shiftByRegister (sh : ShiftType) (n : Nat) (v : Word) (c : Bool) : Shifted :=
  if n = 0 then { value := v, carry := c }
  else
    match sh with
    | .lsl =>
      if n < 32 then { value := v <<< n, carry := v.getLsbD (32 - n) }
      else if n = 32 then { value := 0#32, carry := v.getLsbD 0 }
      else { value := 0#32, carry := false }
    | .lsr =>
      if n < 32 then { value := v >>> n, carry := v.getLsbD (n - 1) }
      else if n = 32 then { value := 0#32, carry := v.getLsbD 31 }
      else { value := 0#32, carry := false }
    | .asr =>
      if n < 32 then { value := v.sshiftRight n, carry := v.getLsbD (n - 1) }
      else { value := copies (v.getLsbD 31), carry := v.getLsbD 31 }
    | .ror =>
      if n % 32 = 0 then { value := v, carry := v.getLsbD 31 }
      else { value := ror32 v (n % 32), carry := v.getLsbD (n % 32 - 1) }

/-- Operand 2 of the DP-imm form in a state. -/
def State.operandImm (s : State) (rot : BitVec 4) (imm8 : BitVec 8) : Shifted := immediateOperand rot imm8 s.cpsr.c

/-- Operand 2 of the DP-reg form in a state. -/
def State.operandReg (s : State) (amount : BitVec 5) (sh : ShiftType) (rm : RegNum) : Shifted :=
  shiftByImmediate sh amount (s.reg rm) s.cpsr.c

/-- Operand 2 of the DP-rsr form in a state: only the bottom byte of Rs counts. -/
def State.operandRsr (s : State) (rs : RegNum) (sh : ShiftType) (rm : RegNum) : Shifted :=
  shiftByRegister sh ((s.reg rs).extractLsb' 0 8).toNat (s.reg rm) s.cpsr.c

/-! ### Offsets and addresses of single transfers -/

/-- The address of a transfer, the computed address `ea`, and whether the base is written back (R242, R267). -/
structure Indexed where
  addr : Word
  ea : Word
  writeBack : Bool
deriving DecidableEq, Repr

/-- The addressing modes (R242, R256): pre-indexed (`p`) with write-back on `w`, or post-indexed, always with write-back. -/
def indexed (p u w : Bool) (base offset : Word) : Indexed :=
  let ea := if u then base + offset else base - offset
  if p then { addr := ea, ea := ea, writeBack := w } else { addr := base, ea := ea, writeBack := true }

/-- The offset of a word or byte transfer (R121, R242): an immediate, or a register shifted by an immediate amount, its
shifter carry discarded. -/
inductive LsOffset where
  | imm (imm12 : BitVec 12)
  | reg (amount : BitVec 5) (sh : ShiftType) (rm : RegNum)
deriving DecidableEq, Repr

/-- The register an offset names. -/
def LsOffset.rm : LsOffset → Option RegNum
  | .imm _ => none
  | .reg _ _ rm => some rm

/-- The magnitude of an offset (R242). -/
def LsOffset.value (o : LsOffset) (s : State) : Word :=
  match o with
  | .imm imm12 => imm12.setWidth 32
  | .reg amount sh rm => (shiftByImmediate sh amount (s.reg rm) s.cpsr.c).value

/-- The offset of a half-word or signed byte transfer (R121, R267): an immediate or an unshifted register. -/
inductive LshOffset where
  | imm (imm8 : BitVec 8)
  | reg (rm : RegNum)
deriving DecidableEq, Repr

/-- The register an offset names. -/
def LshOffset.rm : LshOffset → Option RegNum
  | .imm _ => none
  | .reg rm => some rm

/-- The magnitude of an offset (R267). -/
def LshOffset.value (o : LshOffset) (s : State) : Word :=
  match o with
  | .imm imm8 => imm8.setWidth 32
  | .reg rm => s.reg rm

/-- The register restrictions that word, byte and half-word transfers share (R243, R268): `writeBack` says that the base is
written, `rm` is the offset register if there is one. -/
def indexCheck (writeBack : Bool) (rn rd : RegNum) (rm : Option RegNum) : Option Refusal :=
  if rm = some 15 then some .pcAsOffset
  else if writeBack = true ∧ rn = 15 then some .pcBaseAutoIndex
  else if writeBack = true ∧ rn = rd then some .destinationIsIndexedBase
  else if writeBack = true ∧ rm = some rn then some .offsetIsIndexedBase
  else none

/-! ### Register lists and addresses of block transfers -/

/-- The sixteen register numbers, rising. -/
def allRegs : List RegNum := [0, 1, 2, 3, 4, 5, 6, 7, 8, 9, 10, 11, 12, 13, 14, 15]

/-- The registers of a list, lowest number first (30_encoding.md R116, R282). -/
def listedRegs (list : BitVec 16) : List RegNum := allRegs.filter fun r => list.getLsbD r.val

/-- The first address of a block of `n` words, exact (R282). -/
def blockStart (p u : Bool) (base : Word) (n : Nat) : Int :=
  let b : Int := base.toNat
  match p, u with
  | false, true => b
  | true, true => b + 4
  | false, false => b - 4 * n + 4
  | true, false => b - 4 * n

/-- The base after a block of `n` words (R282). -/
def blockWriteBack (u : Bool) (base : Word) (n : Nat) : Word :=
  if u then base + BitVec.ofNat 32 (4 * n) else base - BitVec.ofNat 32 (4 * n)

/-- The block leaves the address space (R61, R282, decision D9). -/
def blockLeaves (start : Int) (n : Nat) : Bool := decide (start < 0) || decide (2 ^ 32 < start + 4 * n)

/-- The addresses of the words of a block, rising, their low bits as the base gives them (R282). -/
def blockAddresses (start : Int) (n : Nat) : List Word :=
  (List.range n).map fun k : Nat => BitVec.ofInt 32 (start + 4 * (k : Int))

/-- The restrictions common to all block transfers (R283). -/
def blockCheck (w : Bool) (rn : RegNum) (list : BitVec 16) : Option Refusal :=
  if list = 0#16 then some .emptyRegisterList
  else if rn = 15 then some .pcBaseOfBlock
  else if w = true ∧ list.getLsbD rn.val = true then some .writeBackBaseInList
  else none

end Sys2Proof.Machine
end

