-- ==== Sys2Proof/Machine/DataProcessing.lean ====
section
/-! DEFINITION. The sixteen data processing instructions, each with its three operand forms (spec 43_data_processing.md R170 to R200). -/

namespace Sys2Proof.Machine

/-- What the ALU gives: a logical operation only a result, an arithmetic one the adder's result (R170). -/
inductive AluOut where
  | logical (result : Word)
  | arith (sum : Sum)
deriving DecidableEq, Repr

/-- The 32-bit result. -/
def AluOut.result : AluOut → Word
  | .logical r => r
  | .arith r => r.result

/-- The CPSR after the operation has set the flags (R176). -/
def AluOut.flags (o : AluOut) (shifterCarry : Bool) (p : Cpsr) : Cpsr :=
  match o with
  | .logical r => setFlagsLogical r shifterCarry p
  | .arith r => setFlagsArith r p

/-- The operations (R170, R177): `a` is Rn, `b` operand 2, `c` the carry flag before the instruction. -/
def alu (op : DpOp) (a b : Word) (c : Bool) : AluOut :=
  match op with
  | .and => .logical (a &&& b)
  | .eor => .logical (a ^^^ b)
  | .sub => .arith (addWithCarry a (~~~b) true)
  | .rsb => .arith (addWithCarry b (~~~a) true)
  | .add => .arith (addWithCarry a b false)
  | .adc => .arith (addWithCarry a b c)
  | .sbc => .arith (addWithCarry a (~~~b) c)
  | .rsc => .arith (addWithCarry b (~~~a) c)
  | .tst => .logical (a &&& b)
  | .teq => .logical (a ^^^ b)
  | .cmp => .arith (addWithCarry a (~~~b) true)
  | .cmn => .arith (addWithCarry a b false)
  | .orr => .logical (a ||| b)
  | .mov => .logical b
  | .bic => .logical (a &&& ~~~b)
  | .mvn => .logical (~~~b)

/-- The operation writes Rd: all but TST, TEQ, CMP, CMN (R178). -/
def writesRd : DpOp → Bool
  | .tst => false
  | .teq => false
  | .cmp => false
  | .cmn => false
  | _ => true

/-- The operation reads Rn: all but MOV and MVN (R179). -/
def readsRn : DpOp → Bool
  | .mov => false
  | .mvn => false
  | _ => true

/-- The result goes to Rd (R178, R179): to the pc as a branch, or with S as an exception return; to any other register with
the flags on S. -/
def writeResult (sf : Bool) (rd : RegNum) (out : AluOut) (shifterCarry : Bool) (s : State) : Result :=
  if rd = 15 then
    if sf then exceptionReturn out.result s else branchAligned out.result s
  else
    let s1 := s.setReg rd out.result
    advance (if sf then s1.setCpsr (out.flags shifterCarry s.cpsr) else s1)

/-- The common frame of R179, operand 2 at hand. -/
def dataProcessing (op : DpOp) (sf : Bool) (rn rd : RegNum) (operand : Shifted) (s : State) : Result :=
  let out := alu op (s.reg rn) operand.value s.cpsr.c
  if writesRd op then writeResult sf rd out operand.carry s
  else advance (s.setCpsr (out.flags operand.carry s.cpsr))

/-- r15 as a register the operation uses, with a shift amount in a register (R175). A field the operation ignores is no
register of it (R127; log 15). -/
def rsrCheck (op : DpOp) (rn rd rs rm : RegNum) : Option Refusal :=
  if rm = 15 ∨ rs = 15 ∨ (readsRn op = true ∧ rn = 15) ∨ (writesRd op = true ∧ rd = 15) then some .r15WithRegisterShift
  else none

/-- A data processing instruction of the DP-imm form. -/
def dpImmediate (op : DpOp) (cond : Cond) (sf : Bool) (rn rd : RegNum) (rot : BitVec 4) (imm8 : BitVec 8) (s : State) :
    Result :=
  conditional cond s (dataProcessing op sf rn rd (s.operandImm rot imm8) s)

/-- A data processing instruction of the DP-reg form. -/
def dpShiftedRegister (op : DpOp) (cond : Cond) (sf : Bool) (rn rd : RegNum) (amount : BitVec 5) (sh : ShiftType)
    (rm : RegNum) (s : State) : Result :=
  conditional cond s (dataProcessing op sf rn rd (s.operandReg amount sh rm) s)

/-- A data processing instruction of the DP-rsr form. -/
def dpRegisterShift (op : DpOp) (cond : Cond) (sf : Bool) (rn rd rs : RegNum) (sh : ShiftType) (rm : RegNum) (s : State) :
    Result :=
  conditional cond s
    (unlessRefused (rsrCheck op rn rd rs rm) (dataProcessing op sf rn rd (s.operandRsr rs sh rm) s))

/-- AND with an immediate (R185). -/
def execAndImm (cond : Cond) (sf : Bool) (rn rd : RegNum) (rot : BitVec 4) (imm8 : BitVec 8) (s : State) : Result :=
  dpImmediate .and cond sf rn rd rot imm8 s

/-- AND with a register shifted by an immediate amount (R185). -/
def execAndReg (cond : Cond) (sf : Bool) (rn rd : RegNum) (amount : BitVec 5) (sh : ShiftType) (rm : RegNum) (s : State) :
    Result :=
  dpShiftedRegister .and cond sf rn rd amount sh rm s

/-- AND with a register shifted by a register (R185). -/
def execAndRsr (cond : Cond) (sf : Bool) (rn rd rs : RegNum) (sh : ShiftType) (rm : RegNum) (s : State) : Result :=
  dpRegisterShift .and cond sf rn rd rs sh rm s

/-- EOR with an immediate (R186). -/
def execEorImm (cond : Cond) (sf : Bool) (rn rd : RegNum) (rot : BitVec 4) (imm8 : BitVec 8) (s : State) : Result :=
  dpImmediate .eor cond sf rn rd rot imm8 s

/-- EOR with a register shifted by an immediate amount (R186). -/
def execEorReg (cond : Cond) (sf : Bool) (rn rd : RegNum) (amount : BitVec 5) (sh : ShiftType) (rm : RegNum) (s : State) :
    Result :=
  dpShiftedRegister .eor cond sf rn rd amount sh rm s

/-- EOR with a register shifted by a register (R186). -/
def execEorRsr (cond : Cond) (sf : Bool) (rn rd rs : RegNum) (sh : ShiftType) (rm : RegNum) (s : State) : Result :=
  dpRegisterShift .eor cond sf rn rd rs sh rm s

/-- SUB with an immediate (R187). -/
def execSubImm (cond : Cond) (sf : Bool) (rn rd : RegNum) (rot : BitVec 4) (imm8 : BitVec 8) (s : State) : Result :=
  dpImmediate .sub cond sf rn rd rot imm8 s

/-- SUB with a register shifted by an immediate amount (R187). -/
def execSubReg (cond : Cond) (sf : Bool) (rn rd : RegNum) (amount : BitVec 5) (sh : ShiftType) (rm : RegNum) (s : State) :
    Result :=
  dpShiftedRegister .sub cond sf rn rd amount sh rm s

/-- SUB with a register shifted by a register (R187). -/
def execSubRsr (cond : Cond) (sf : Bool) (rn rd rs : RegNum) (sh : ShiftType) (rm : RegNum) (s : State) : Result :=
  dpRegisterShift .sub cond sf rn rd rs sh rm s

/-- RSB with an immediate (R188). -/
def execRsbImm (cond : Cond) (sf : Bool) (rn rd : RegNum) (rot : BitVec 4) (imm8 : BitVec 8) (s : State) : Result :=
  dpImmediate .rsb cond sf rn rd rot imm8 s

/-- RSB with a register shifted by an immediate amount (R188). -/
def execRsbReg (cond : Cond) (sf : Bool) (rn rd : RegNum) (amount : BitVec 5) (sh : ShiftType) (rm : RegNum) (s : State) :
    Result :=
  dpShiftedRegister .rsb cond sf rn rd amount sh rm s

/-- RSB with a register shifted by a register (R188). -/
def execRsbRsr (cond : Cond) (sf : Bool) (rn rd rs : RegNum) (sh : ShiftType) (rm : RegNum) (s : State) : Result :=
  dpRegisterShift .rsb cond sf rn rd rs sh rm s

/-- ADD with an immediate (R189). -/
def execAddImm (cond : Cond) (sf : Bool) (rn rd : RegNum) (rot : BitVec 4) (imm8 : BitVec 8) (s : State) : Result :=
  dpImmediate .add cond sf rn rd rot imm8 s

/-- ADD with a register shifted by an immediate amount (R189). -/
def execAddReg (cond : Cond) (sf : Bool) (rn rd : RegNum) (amount : BitVec 5) (sh : ShiftType) (rm : RegNum) (s : State) :
    Result :=
  dpShiftedRegister .add cond sf rn rd amount sh rm s

/-- ADD with a register shifted by a register (R189). -/
def execAddRsr (cond : Cond) (sf : Bool) (rn rd rs : RegNum) (sh : ShiftType) (rm : RegNum) (s : State) : Result :=
  dpRegisterShift .add cond sf rn rd rs sh rm s

/-- ADC with an immediate (R190). -/
def execAdcImm (cond : Cond) (sf : Bool) (rn rd : RegNum) (rot : BitVec 4) (imm8 : BitVec 8) (s : State) : Result :=
  dpImmediate .adc cond sf rn rd rot imm8 s

/-- ADC with a register shifted by an immediate amount (R190). -/
def execAdcReg (cond : Cond) (sf : Bool) (rn rd : RegNum) (amount : BitVec 5) (sh : ShiftType) (rm : RegNum) (s : State) :
    Result :=
  dpShiftedRegister .adc cond sf rn rd amount sh rm s

/-- ADC with a register shifted by a register (R190). -/
def execAdcRsr (cond : Cond) (sf : Bool) (rn rd rs : RegNum) (sh : ShiftType) (rm : RegNum) (s : State) : Result :=
  dpRegisterShift .adc cond sf rn rd rs sh rm s

/-- SBC with an immediate (R191). -/
def execSbcImm (cond : Cond) (sf : Bool) (rn rd : RegNum) (rot : BitVec 4) (imm8 : BitVec 8) (s : State) : Result :=
  dpImmediate .sbc cond sf rn rd rot imm8 s

/-- SBC with a register shifted by an immediate amount (R191). -/
def execSbcReg (cond : Cond) (sf : Bool) (rn rd : RegNum) (amount : BitVec 5) (sh : ShiftType) (rm : RegNum) (s : State) :
    Result :=
  dpShiftedRegister .sbc cond sf rn rd amount sh rm s

/-- SBC with a register shifted by a register (R191). -/
def execSbcRsr (cond : Cond) (sf : Bool) (rn rd rs : RegNum) (sh : ShiftType) (rm : RegNum) (s : State) : Result :=
  dpRegisterShift .sbc cond sf rn rd rs sh rm s

/-- RSC with an immediate (R192). -/
def execRscImm (cond : Cond) (sf : Bool) (rn rd : RegNum) (rot : BitVec 4) (imm8 : BitVec 8) (s : State) : Result :=
  dpImmediate .rsc cond sf rn rd rot imm8 s

/-- RSC with a register shifted by an immediate amount (R192). -/
def execRscReg (cond : Cond) (sf : Bool) (rn rd : RegNum) (amount : BitVec 5) (sh : ShiftType) (rm : RegNum) (s : State) :
    Result :=
  dpShiftedRegister .rsc cond sf rn rd amount sh rm s

/-- RSC with a register shifted by a register (R192). -/
def execRscRsr (cond : Cond) (sf : Bool) (rn rd rs : RegNum) (sh : ShiftType) (rm : RegNum) (s : State) : Result :=
  dpRegisterShift .rsc cond sf rn rd rs sh rm s

/-- TST with an immediate (R193). -/
def execTstImm (cond : Cond) (rn rd : RegNum) (rot : BitVec 4) (imm8 : BitVec 8) (s : State) : Result :=
  dpImmediate .tst cond true rn rd rot imm8 s

/-- TST with a register shifted by an immediate amount (R193). -/
def execTstReg (cond : Cond) (rn rd : RegNum) (amount : BitVec 5) (sh : ShiftType) (rm : RegNum) (s : State) :
    Result :=
  dpShiftedRegister .tst cond true rn rd amount sh rm s

/-- TST with a register shifted by a register (R193). -/
def execTstRsr (cond : Cond) (rn rd rs : RegNum) (sh : ShiftType) (rm : RegNum) (s : State) : Result :=
  dpRegisterShift .tst cond true rn rd rs sh rm s

/-- TEQ with an immediate (R194). -/
def execTeqImm (cond : Cond) (rn rd : RegNum) (rot : BitVec 4) (imm8 : BitVec 8) (s : State) : Result :=
  dpImmediate .teq cond true rn rd rot imm8 s

/-- TEQ with a register shifted by an immediate amount (R194). -/
def execTeqReg (cond : Cond) (rn rd : RegNum) (amount : BitVec 5) (sh : ShiftType) (rm : RegNum) (s : State) :
    Result :=
  dpShiftedRegister .teq cond true rn rd amount sh rm s

/-- TEQ with a register shifted by a register (R194). -/
def execTeqRsr (cond : Cond) (rn rd rs : RegNum) (sh : ShiftType) (rm : RegNum) (s : State) : Result :=
  dpRegisterShift .teq cond true rn rd rs sh rm s

/-- CMP with an immediate (R195). -/
def execCmpImm (cond : Cond) (rn rd : RegNum) (rot : BitVec 4) (imm8 : BitVec 8) (s : State) : Result :=
  dpImmediate .cmp cond true rn rd rot imm8 s

/-- CMP with a register shifted by an immediate amount (R195). -/
def execCmpReg (cond : Cond) (rn rd : RegNum) (amount : BitVec 5) (sh : ShiftType) (rm : RegNum) (s : State) :
    Result :=
  dpShiftedRegister .cmp cond true rn rd amount sh rm s

/-- CMP with a register shifted by a register (R195). -/
def execCmpRsr (cond : Cond) (rn rd rs : RegNum) (sh : ShiftType) (rm : RegNum) (s : State) : Result :=
  dpRegisterShift .cmp cond true rn rd rs sh rm s

/-- CMN with an immediate (R196). -/
def execCmnImm (cond : Cond) (rn rd : RegNum) (rot : BitVec 4) (imm8 : BitVec 8) (s : State) : Result :=
  dpImmediate .cmn cond true rn rd rot imm8 s

/-- CMN with a register shifted by an immediate amount (R196). -/
def execCmnReg (cond : Cond) (rn rd : RegNum) (amount : BitVec 5) (sh : ShiftType) (rm : RegNum) (s : State) :
    Result :=
  dpShiftedRegister .cmn cond true rn rd amount sh rm s

/-- CMN with a register shifted by a register (R196). -/
def execCmnRsr (cond : Cond) (rn rd rs : RegNum) (sh : ShiftType) (rm : RegNum) (s : State) : Result :=
  dpRegisterShift .cmn cond true rn rd rs sh rm s

/-- ORR with an immediate (R197). -/
def execOrrImm (cond : Cond) (sf : Bool) (rn rd : RegNum) (rot : BitVec 4) (imm8 : BitVec 8) (s : State) : Result :=
  dpImmediate .orr cond sf rn rd rot imm8 s

/-- ORR with a register shifted by an immediate amount (R197). -/
def execOrrReg (cond : Cond) (sf : Bool) (rn rd : RegNum) (amount : BitVec 5) (sh : ShiftType) (rm : RegNum) (s : State) :
    Result :=
  dpShiftedRegister .orr cond sf rn rd amount sh rm s

/-- ORR with a register shifted by a register (R197). -/
def execOrrRsr (cond : Cond) (sf : Bool) (rn rd rs : RegNum) (sh : ShiftType) (rm : RegNum) (s : State) : Result :=
  dpRegisterShift .orr cond sf rn rd rs sh rm s

/-- MOV with an immediate (R198). -/
def execMovImm (cond : Cond) (sf : Bool) (rn rd : RegNum) (rot : BitVec 4) (imm8 : BitVec 8) (s : State) : Result :=
  dpImmediate .mov cond sf rn rd rot imm8 s

/-- MOV with a register shifted by an immediate amount (R198). -/
def execMovReg (cond : Cond) (sf : Bool) (rn rd : RegNum) (amount : BitVec 5) (sh : ShiftType) (rm : RegNum) (s : State) :
    Result :=
  dpShiftedRegister .mov cond sf rn rd amount sh rm s

/-- MOV with a register shifted by a register (R198). -/
def execMovRsr (cond : Cond) (sf : Bool) (rn rd rs : RegNum) (sh : ShiftType) (rm : RegNum) (s : State) : Result :=
  dpRegisterShift .mov cond sf rn rd rs sh rm s

/-- BIC with an immediate (R199). -/
def execBicImm (cond : Cond) (sf : Bool) (rn rd : RegNum) (rot : BitVec 4) (imm8 : BitVec 8) (s : State) : Result :=
  dpImmediate .bic cond sf rn rd rot imm8 s

/-- BIC with a register shifted by an immediate amount (R199). -/
def execBicReg (cond : Cond) (sf : Bool) (rn rd : RegNum) (amount : BitVec 5) (sh : ShiftType) (rm : RegNum) (s : State) :
    Result :=
  dpShiftedRegister .bic cond sf rn rd amount sh rm s

/-- BIC with a register shifted by a register (R199). -/
def execBicRsr (cond : Cond) (sf : Bool) (rn rd rs : RegNum) (sh : ShiftType) (rm : RegNum) (s : State) : Result :=
  dpRegisterShift .bic cond sf rn rd rs sh rm s

/-- MVN with an immediate (R200). -/
def execMvnImm (cond : Cond) (sf : Bool) (rn rd : RegNum) (rot : BitVec 4) (imm8 : BitVec 8) (s : State) : Result :=
  dpImmediate .mvn cond sf rn rd rot imm8 s

/-- MVN with a register shifted by an immediate amount (R200). -/
def execMvnReg (cond : Cond) (sf : Bool) (rn rd : RegNum) (amount : BitVec 5) (sh : ShiftType) (rm : RegNum) (s : State) :
    Result :=
  dpShiftedRegister .mvn cond sf rn rd amount sh rm s

/-- MVN with a register shifted by a register (R200). -/
def execMvnRsr (cond : Cond) (sf : Bool) (rn rd rs : RegNum) (sh : ShiftType) (rm : RegNum) (s : State) : Result :=
  dpRegisterShift .mvn cond sf rn rd rs sh rm s

end Sys2Proof.Machine
end

