-- ==== Sys2Proof/Machine/SingleTransfer.lean ====
section
/-! DEFINITION. Word and unsigned byte transfers with their user-access forms (spec 45_single_transfer.md R240 to R254). -/

namespace Sys2Proof.Machine

/-- The base register after a transfer that completes (R248). -/
def State.indexBase (s : State) (rn : RegNum) (x : Indexed) : State := if x.writeBack then s.setReg rn x.ea else s

/-- What a transfer abandoned by a data abort leaves (20_memory.md R76): a base that would have been written back holds a free
value, and nothing else has changed. -/
def State.abortBase (s : State) (rn : RegNum) (x : Indexed) : State :=
  if x.writeBack then (s.setReg rn s.freeWord).drawn else s

/-- A word load at this address is the case the spec refuses: big-endian, unaligned and not trapped (20_memory.md R66). -/
def State.refusesWordLoad (s : State) (addr : Word) : Bool :=
  s.cfg.bigEndian && !s.cfg.alignFault && decide (addr.extractLsb' 0 2 ≠ 0#2)

/-- Word load (R244, R248) with the privilege `priv`. -/
def loadWordTransfer (cond : Cond) (p u w : Bool) (priv : Privilege) (rn rd : RegNum) (offset : LsOffset) (s : State) :
    Result :=
  conditional cond s <|
    let x := indexed p u w (s.reg rn) (offset.value s)
    unlessRefused (indexCheck x.writeBack rn rd offset.rm) <|
      if s.refusesWordLoad x.addr then .refused .bigEndianUnalignedLoad
      else
        let u := s.atAccess
        if u.wordFaults x.addr .read priv then dataAbort (u.abortBase rn x)
        else
          let v := u.loadWord x.addr
          if rd = 15 then loadPc v (u.indexBase rn x) else advance ((u.indexBase rn x).setReg rd v)

/-- Byte load (R245, R248) with the privilege `priv`. -/
def loadByteTransfer (cond : Cond) (p u w : Bool) (priv : Privilege) (rn rd : RegNum) (offset : LsOffset) (s : State) :
    Result :=
  conditional cond s <|
    let x := indexed p u w (s.reg rn) (offset.value s)
    unlessRefused (indexCheck x.writeBack rn rd offset.rm) <|
      if rd = 15 then .refused .byteLoadIntoPc
      else
        let u := s.atAccess
        if u.byteFaults x.addr .read priv then dataAbort (u.abortBase rn x)
        else advance ((u.indexBase rn x).setReg rd ((u.loadByte x.addr).setWidth 32))

/-- The value a word store or STM stores for a register: for the pc `ia + STORE_PC_OFFSET` (R246, 47_multiple_transfer.md R284;
log 7). -/
def State.storedReg (s : State) (r : RegNum) : Word := if r = 15 then s.pc + Config.storePcOffset else s.reg r

/-- Word store (R246, R248) with the privilege `priv`. -/
def storeWordTransfer (cond : Cond) (p u w : Bool) (priv : Privilege) (rn rd : RegNum) (offset : LsOffset) (s : State) :
    Result :=
  conditional cond s <|
    let x := indexed p u w (s.reg rn) (offset.value s)
    unlessRefused (indexCheck x.writeBack rn rd offset.rm) <|
      let u := s.atAccess
      if u.wordFaults x.addr .write priv then dataAbort (u.abortBase rn x)
      else advance ((u.storeWord x.addr (u.storedReg rd)).indexBase rn x)

/-- Byte store (R247, R248) with the privilege `priv`. -/
def storeByteTransfer (cond : Cond) (p u w : Bool) (priv : Privilege) (rn rd : RegNum) (offset : LsOffset) (s : State) :
    Result :=
  conditional cond s <|
    let x := indexed p u w (s.reg rn) (offset.value s)
    unlessRefused (indexCheck x.writeBack rn rd offset.rm) <|
      if rd = 15 then .refused .byteStoreOfPc
      else
        let u := s.atAccess
        if u.byteFaults x.addr .write priv then dataAbort (u.abortBase rn x)
        else advance ((u.storeByte x.addr ((u.reg rd).extractLsb' 0 8)).indexBase rn x)

/-- LDR, immediate offset, pre-indexed (R244). -/
def execLdrImmPre (cond : Cond) (u w : Bool) (rn rd : RegNum) (imm12 : BitVec 12) (s : State) : Result :=
  loadWordTransfer cond true u w s.privilege rn rd (.imm imm12) s

/-- LDR, immediate offset, post-indexed (R244). -/
def execLdrImmPost (cond : Cond) (u : Bool) (rn rd : RegNum) (imm12 : BitVec 12) (s : State) : Result :=
  loadWordTransfer cond false u false s.privilege rn rd (.imm imm12) s

/-- LDR, register offset, pre-indexed (R244). -/
def execLdrRegPre (cond : Cond) (u w : Bool) (rn rd : RegNum) (amount : BitVec 5) (sh : ShiftType) (rm : RegNum) (s : State) : Result :=
  loadWordTransfer cond true u w s.privilege rn rd (.reg amount sh rm) s

/-- LDR, register offset, post-indexed (R244). -/
def execLdrRegPost (cond : Cond) (u : Bool) (rn rd : RegNum) (amount : BitVec 5) (sh : ShiftType) (rm : RegNum) (s : State) : Result :=
  loadWordTransfer cond false u false s.privilege rn rd (.reg amount sh rm) s

/-- LDRT, immediate offset (R251): the access is made as User (R250). -/
def execLdrtImm (cond : Cond) (u : Bool) (rn rd : RegNum) (imm12 : BitVec 12) (s : State) : Result :=
  loadWordTransfer cond false u true .user rn rd (.imm imm12) s

/-- LDRT, register offset (R251): the access is made as User (R250). -/
def execLdrtReg (cond : Cond) (u : Bool) (rn rd : RegNum) (amount : BitVec 5) (sh : ShiftType) (rm : RegNum) (s : State) : Result :=
  loadWordTransfer cond false u true .user rn rd (.reg amount sh rm) s

/-- LDRB, immediate offset, pre-indexed (R245). -/
def execLdrbImmPre (cond : Cond) (u w : Bool) (rn rd : RegNum) (imm12 : BitVec 12) (s : State) : Result :=
  loadByteTransfer cond true u w s.privilege rn rd (.imm imm12) s

/-- LDRB, immediate offset, post-indexed (R245). -/
def execLdrbImmPost (cond : Cond) (u : Bool) (rn rd : RegNum) (imm12 : BitVec 12) (s : State) : Result :=
  loadByteTransfer cond false u false s.privilege rn rd (.imm imm12) s

/-- LDRB, register offset, pre-indexed (R245). -/
def execLdrbRegPre (cond : Cond) (u w : Bool) (rn rd : RegNum) (amount : BitVec 5) (sh : ShiftType) (rm : RegNum) (s : State) : Result :=
  loadByteTransfer cond true u w s.privilege rn rd (.reg amount sh rm) s

/-- LDRB, register offset, post-indexed (R245). -/
def execLdrbRegPost (cond : Cond) (u : Bool) (rn rd : RegNum) (amount : BitVec 5) (sh : ShiftType) (rm : RegNum) (s : State) : Result :=
  loadByteTransfer cond false u false s.privilege rn rd (.reg amount sh rm) s

/-- LDRBT, immediate offset (R253): the access is made as User (R250). -/
def execLdrbtImm (cond : Cond) (u : Bool) (rn rd : RegNum) (imm12 : BitVec 12) (s : State) : Result :=
  loadByteTransfer cond false u true .user rn rd (.imm imm12) s

/-- LDRBT, register offset (R253): the access is made as User (R250). -/
def execLdrbtReg (cond : Cond) (u : Bool) (rn rd : RegNum) (amount : BitVec 5) (sh : ShiftType) (rm : RegNum) (s : State) : Result :=
  loadByteTransfer cond false u true .user rn rd (.reg amount sh rm) s

/-- STR, immediate offset, pre-indexed (R246). -/
def execStrImmPre (cond : Cond) (u w : Bool) (rn rd : RegNum) (imm12 : BitVec 12) (s : State) : Result :=
  storeWordTransfer cond true u w s.privilege rn rd (.imm imm12) s

/-- STR, immediate offset, post-indexed (R246). -/
def execStrImmPost (cond : Cond) (u : Bool) (rn rd : RegNum) (imm12 : BitVec 12) (s : State) : Result :=
  storeWordTransfer cond false u false s.privilege rn rd (.imm imm12) s

/-- STR, register offset, pre-indexed (R246). -/
def execStrRegPre (cond : Cond) (u w : Bool) (rn rd : RegNum) (amount : BitVec 5) (sh : ShiftType) (rm : RegNum) (s : State) : Result :=
  storeWordTransfer cond true u w s.privilege rn rd (.reg amount sh rm) s

/-- STR, register offset, post-indexed (R246). -/
def execStrRegPost (cond : Cond) (u : Bool) (rn rd : RegNum) (amount : BitVec 5) (sh : ShiftType) (rm : RegNum) (s : State) : Result :=
  storeWordTransfer cond false u false s.privilege rn rd (.reg amount sh rm) s

/-- STRT, immediate offset (R252): the access is made as User (R250). -/
def execStrtImm (cond : Cond) (u : Bool) (rn rd : RegNum) (imm12 : BitVec 12) (s : State) : Result :=
  storeWordTransfer cond false u true .user rn rd (.imm imm12) s

/-- STRT, register offset (R252): the access is made as User (R250). -/
def execStrtReg (cond : Cond) (u : Bool) (rn rd : RegNum) (amount : BitVec 5) (sh : ShiftType) (rm : RegNum) (s : State) : Result :=
  storeWordTransfer cond false u true .user rn rd (.reg amount sh rm) s

/-- STRB, immediate offset, pre-indexed (R247). -/
def execStrbImmPre (cond : Cond) (u w : Bool) (rn rd : RegNum) (imm12 : BitVec 12) (s : State) : Result :=
  storeByteTransfer cond true u w s.privilege rn rd (.imm imm12) s

/-- STRB, immediate offset, post-indexed (R247). -/
def execStrbImmPost (cond : Cond) (u : Bool) (rn rd : RegNum) (imm12 : BitVec 12) (s : State) : Result :=
  storeByteTransfer cond false u false s.privilege rn rd (.imm imm12) s

/-- STRB, register offset, pre-indexed (R247). -/
def execStrbRegPre (cond : Cond) (u w : Bool) (rn rd : RegNum) (amount : BitVec 5) (sh : ShiftType) (rm : RegNum) (s : State) : Result :=
  storeByteTransfer cond true u w s.privilege rn rd (.reg amount sh rm) s

/-- STRB, register offset, post-indexed (R247). -/
def execStrbRegPost (cond : Cond) (u : Bool) (rn rd : RegNum) (amount : BitVec 5) (sh : ShiftType) (rm : RegNum) (s : State) : Result :=
  storeByteTransfer cond false u false s.privilege rn rd (.reg amount sh rm) s

/-- STRBT, immediate offset (R254): the access is made as User (R250). -/
def execStrbtImm (cond : Cond) (u : Bool) (rn rd : RegNum) (imm12 : BitVec 12) (s : State) : Result :=
  storeByteTransfer cond false u true .user rn rd (.imm imm12) s

/-- STRBT, register offset (R254): the access is made as User (R250). -/
def execStrbtReg (cond : Cond) (u : Bool) (rn rd : RegNum) (amount : BitVec 5) (sh : ShiftType) (rm : RegNum) (s : State) : Result :=
  storeByteTransfer cond false u true .user rn rd (.reg amount sh rm) s

end Sys2Proof.Machine
end

