-- ==== Sys2Proof/Machine/HalfwordTransfer.lean ====
section
/-! DEFINITION. Half-word and signed byte transfers (spec 46_halfword_transfer.md R265 to R273). -/

namespace Sys2Proof.Machine

/-- The restrictions of R267 and R268 other than alignment. -/
def halfwordCheck (p w writeBack : Bool) (rn rd : RegNum) (rm : Option RegNum) : Option Refusal :=
  if p = false ∧ w = true then some .postIndexedHalfwordW
  else if rd = 15 then some .halfwordTransferOfPc
  else indexCheck writeBack rn rd rm

/-- A half-word access at an odd address is refused where it is not trapped (20_memory.md R68, R268). -/
def State.refusesHalf (s : State) (addr : Word) : Bool := !s.cfg.alignFault && addr.getLsbD 0

/-- Half-word load (R270, R272): `extend` makes a word of the half-word. -/
def loadHalfTransfer (extend : Half → Word) (cond : Cond) (p u w : Bool) (rn rd : RegNum) (offset : LshOffset) (s : State) :
    Result :=
  conditional cond s <|
    let x := indexed p u w (s.reg rn) (offset.value s)
    unlessRefused (halfwordCheck p w x.writeBack rn rd offset.rm) <|
      if s.refusesHalf x.addr then .refused .oddHalfwordAddress
      else
        let u := s.atAccess
        if u.halfFaults x.addr .read u.privilege then dataAbort (u.abortBase rn x)
        else advance ((u.indexBase rn x).setReg rd (extend (u.loadHalf x.addr)))

/-- Signed byte load (R271). -/
def loadSignedByteTransfer (cond : Cond) (p u w : Bool) (rn rd : RegNum) (offset : LshOffset) (s : State) : Result :=
  conditional cond s <|
    let x := indexed p u w (s.reg rn) (offset.value s)
    unlessRefused (halfwordCheck p w x.writeBack rn rd offset.rm) <|
      let u := s.atAccess
      if u.byteFaults x.addr .read u.privilege then dataAbort (u.abortBase rn x)
      else advance ((u.indexBase rn x).setReg rd ((u.loadByte x.addr).signExtend 32))

/-- Half-word store (R273). -/
def storeHalfTransfer (cond : Cond) (p u w : Bool) (rn rd : RegNum) (offset : LshOffset) (s : State) : Result :=
  conditional cond s <|
    let x := indexed p u w (s.reg rn) (offset.value s)
    unlessRefused (halfwordCheck p w x.writeBack rn rd offset.rm) <|
      if s.refusesHalf x.addr then .refused .oddHalfwordAddress
      else
        let u := s.atAccess
        if u.halfFaults x.addr .write u.privilege then dataAbort (u.abortBase rn x)
        else advance ((u.storeHalf x.addr ((u.reg rd).extractLsb' 0 16)).indexBase rn x)

/-- LDRH, immediate offset immH : immL (R270). -/
def execLdrhImm (cond : Cond) (p u w : Bool) (rn rd : RegNum) (imm8 : BitVec 8) (s : State) : Result :=
  gated s.cfg.hasHalfword (loadHalfTransfer (fun h => h.setWidth 32) cond p u w rn rd (.imm imm8) s)

/-- LDRH, register offset (R270). -/
def execLdrhReg (cond : Cond) (p u w : Bool) (rn rd rm : RegNum) (s : State) : Result :=
  gated s.cfg.hasHalfword (loadHalfTransfer (fun h => h.setWidth 32) cond p u w rn rd (.reg rm) s)

/-- LDRSB, immediate offset immH : immL (R271). -/
def execLdrsbImm (cond : Cond) (p u w : Bool) (rn rd : RegNum) (imm8 : BitVec 8) (s : State) : Result :=
  gated s.cfg.hasHalfword (loadSignedByteTransfer cond p u w rn rd (.imm imm8) s)

/-- LDRSB, register offset (R271). -/
def execLdrsbReg (cond : Cond) (p u w : Bool) (rn rd rm : RegNum) (s : State) : Result :=
  gated s.cfg.hasHalfword (loadSignedByteTransfer cond p u w rn rd (.reg rm) s)

/-- LDRSH, immediate offset immH : immL (R272). -/
def execLdrshImm (cond : Cond) (p u w : Bool) (rn rd : RegNum) (imm8 : BitVec 8) (s : State) : Result :=
  gated s.cfg.hasHalfword (loadHalfTransfer (fun h => h.signExtend 32) cond p u w rn rd (.imm imm8) s)

/-- LDRSH, register offset (R272). -/
def execLdrshReg (cond : Cond) (p u w : Bool) (rn rd rm : RegNum) (s : State) : Result :=
  gated s.cfg.hasHalfword (loadHalfTransfer (fun h => h.signExtend 32) cond p u w rn rd (.reg rm) s)

/-- STRH, immediate offset immH : immL (R273). -/
def execStrhImm (cond : Cond) (p u w : Bool) (rn rd : RegNum) (imm8 : BitVec 8) (s : State) : Result :=
  gated s.cfg.hasHalfword (storeHalfTransfer cond p u w rn rd (.imm imm8) s)

/-- STRH, register offset (R273). -/
def execStrhReg (cond : Cond) (p u w : Bool) (rn rd rm : RegNum) (s : State) : Result :=
  gated s.cfg.hasHalfword (storeHalfTransfer cond p u w rn rd (.reg rm) s)

end Sys2Proof.Machine
end

