-- ==== Sys2Proof/Machine/MultipleTransfer.lean ====
section
/-! DEFINITION. Block transfers: LDM and STM in their five forms (spec 47_multiple_transfer.md R280 to R288). -/

namespace Sys2Proof.Machine

/-- A block transfer once its restrictions have passed: the first address, exact, and the number of words. Refused where the
block leaves the address space (R282). -/
def withBlock (p u : Bool) (rn : RegNum) (list : BitVec 16) (s : State) (k : List Word → Result) : Result :=
  let n := (listedRegs list).length
  let start := blockStart p u (s.reg rn) n
  if blockLeaves start n then .refused .blockLeavesAddressSpace else k (blockAddresses start n)

/-- The base after a block transfer that completes (R282, R284, R285). -/
def State.blockBase (s : State) (u w : Bool) (rn : RegNum) (list : BitVec 16) : State :=
  if w then s.setReg rn (blockWriteBack u (s.reg rn) (listedRegs list).length) else s

/-- Some word of the block faults (R285, 20_memory.md R75). -/
def State.blockFaults (s : State) (addrs : List Word) (kind : AccessKind) : Bool :=
  addrs.any fun a => s.wordFaults a kind s.privilege

/-- What an aborted LDM leaves (20_memory.md R76): free values in the loaded cells other than the pc and the base, and in the
base where write-back was asked for (log 18). -/
def abortedLoad (m : Mode) (w : Bool) (rn : RegNum) (list : BitVec 16) (s : State) : State :=
  let base := bank s.cpsr.mode rn
  let loaded := ((listedRegs list).map (bank m)).filter fun c => decide (c ≠ .pc ∧ c ≠ base)
  s.freeCells (if w then loaded ++ [base] else loaded)

/-- The words at some addresses, read one after the other: before each read other agents may have written (20_memory.md R74). -/
def State.readWords : List Word → State → List Word
  | [], _ => []
  | a :: rest, s => s.atAccess.wordAt a :: State.readWords rest s.atAccess

/-- The loaded words written to the listed registers of mode `m` other than the pc (R285, R287). -/
def State.loadRegs (s : State) (m : Mode) (list : BitVec 16) (values : List Word) : State :=
  s.setCells (((listedRegs list).zip values).filterMap fun (r, v) => if r = 15 then none else some (bank m r, v))

/-- The word loaded for the pc, the last of the block (R285). -/
def loadedPc (values : List Word) : Word := values.getLastD 0#32

/-- The stores of an STM in ascending order (R284), before each of which other agents may write (20_memory.md R74). From a
faulting word on nothing more is certain: it is not written, and of each later word a free bit says whether it is, unless it
faults too (20_memory.md R76; log 19). The Bool says a word faulted. -/
def storeBlock (priv : Privilege) : List (Word × Word) → Bool → State → State × Bool
  | [], faulted, s => (s, faulted)
  | (a, v) :: rest, faulted, s =>
    let u := s.atAccess
    if u.wordFaults a .write priv then storeBlock priv rest true u
    else if faulted then storeBlock priv rest true (if u.freeBit then u.drawn.storeWord a v else u.drawn)
    else storeBlock priv rest false (u.storeWord a v)

/-- The stores of an STM and its end: a data abort with a free value in a base that was to be written back, or the write-back
(R284, R288, 20_memory.md R76). -/
def finishStore (u w : Bool) (rn : RegNum) (list : BitVec 16) (stores : List (Word × Word)) (s : State) : Result :=
  match storeBlock s.privilege stores false s with
  | (s1, true) => dataAbort (if w then s1.freeCells [bank s.cpsr.mode rn] else s1)
  | (s1, false) => advance (s1.blockBase u w rn list)

/-- STM, normal form (R284): every register is read before the base is written back. -/
def execStm (cond : Cond) (p u w : Bool) (rn : RegNum) (list : BitVec 16) (s : State) : Result :=
  conditional cond s <| unlessRefused (blockCheck w rn list) <| withBlock p u rn list s fun addrs =>
    finishStore u w rn list (addrs.zip ((listedRegs list).map s.storedReg)) s

/-- LDM, normal form (R285): the base is written back first, so that a loaded base keeps the loaded value. -/
def execLdm (cond : Cond) (p u w : Bool) (rn : RegNum) (list : BitVec 16) (s : State) : Result :=
  conditional cond s <| unlessRefused (blockCheck w rn list) <| withBlock p u rn list s fun addrs =>
    let t := s.atAccessNo addrs.length
    if t.blockFaults addrs .read then dataAbort (abortedLoad t.cpsr.mode w rn list t)
    else
      let values := s.readWords addrs
      let s1 := (t.blockBase u w rn list).loadRegs t.cpsr.mode list values
      if list.getLsbD 15 then loadPc (loadedPc values) s1 else advance s1

/-- LDM, exception return form (R286): the registers are the handler mode's, the CPSR comes from its SPSR with the pc. -/
def execLdmReturn (cond : Cond) (p u w : Bool) (rn : RegNum) (list : BitVec 16) (s : State) : Result :=
  conditional cond s <| unlessRefused (blockCheck w rn list) <| unlessRefused (needsSpsr s) <|
    withBlock p u rn list s fun addrs =>
      let t := s.atAccessNo addrs.length
      if t.blockFaults addrs .read then dataAbort (abortedLoad t.cpsr.mode w rn list t)
      else
        let values := s.readWords addrs
        exceptionReturn (loadedPc values) ((t.blockBase u w rn list).loadRegs t.cpsr.mode list values)

/-- The restrictions of the user bank forms (R287, R288). -/
def userBankCheck (w : Bool) (s : State) : Option Refusal :=
  if w then some .userBankWriteBack else if s.cpsr.mode = .user then some .userBankInUserMode else none

/-- LDM, user bank form (R287): the base is the current mode's, the registers the User mode's. -/
def execLdmUser (cond : Cond) (p u w : Bool) (rn : RegNum) (list : BitVec 16) (s : State) : Result :=
  conditional cond s <| unlessRefused (blockCheck w rn list) <| unlessRefused (userBankCheck w s) <|
    withBlock p u rn list s fun addrs =>
      let t := s.atAccessNo addrs.length
      if t.blockFaults addrs .read then dataAbort (abortedLoad .user false rn list t)
      else advance (t.loadRegs .user list (s.readWords addrs))

/-- STM, user bank form (R288). -/
def execStmUser (cond : Cond) (p u w : Bool) (rn : RegNum) (list : BitVec 16) (s : State) : Result :=
  conditional cond s <| unlessRefused (blockCheck w rn list) <|
    if list.getLsbD 15 then .refused .userBankStoreOfPc
    else unlessRefused (userBankCheck w s) <| withBlock p u rn list s fun addrs =>
      finishStore u false rn list (addrs.zip ((listedRegs list).map fun r => s.cell (bank .user r))) s

end Sys2Proof.Machine
end

