-- ==== Sys2Proof/Machine/Multiply.lean ====
section
/-! DEFINITION. Multiplies and count leading zeros (spec 44_multiply_clz.md R220 to R230). -/

namespace Sys2Proof.Machine

/-- `MulCheck32` (R223); `rn` is the accumulator register where there is one. -/
def multiplyCheck32 (rd rm rs : RegNum) (rn : Option RegNum) : Option Refusal :=
  if rd = 15 ∨ rm = 15 ∨ rs = 15 ∨ rn = some 15 then some .r15InMultiply
  else if rd = rm then some .multiplyRegisterOverlap
  else none

/-- `MulCheck64` (R223). -/
def multiplyCheck64 (rdHi rdLo rm rs : RegNum) : Option Refusal :=
  if rdHi = 15 ∨ rdLo = 15 ∨ rm = 15 ∨ rs = 15 then some .r15InMultiply
  else if rdHi = rdLo ∨ rdHi = rm ∨ rdLo = rm then some .multiplyRegisterOverlap
  else none

/-- The end of MUL and MLA (R222): the result to Rd and, on S, the flags with a free C. -/
def finishMultiply32 (sf : Bool) (rd : RegNum) (result : Word) (s : State) : Result :=
  let s1 := s.setReg rd result
  advance (if sf then (s1.setCpsr (setFlagsMul32 result s.freeBit s.cpsr)).drawn else s1)

/-- The end of the long multiplies (R222): the result to RdHi and RdLo and, on S, the flags with a free C. -/
def finishMultiply64 (sf : Bool) (rdHi rdLo : RegNum) (result : BitVec 64) (s : State) : Result :=
  let s1 := (s.setReg rdLo (result.extractLsb' 0 32)).setReg rdHi (result.extractLsb' 32 32)
  advance (if sf then (s1.setCpsr (setFlagsMul64 result s.freeBit s.cpsr)).drawn else s1)

/-- The 64-bit number RdHi : RdLo (R220, R227). -/
def State.accumulator (s : State) (rdHi rdLo : RegNum) : Nat := (s.reg rdHi).toNat * 2 ^ 32 + (s.reg rdLo).toNat

/-- MUL (R224). -/
def execMul (cond : Cond) (sf : Bool) (rd rs rm : RegNum) (s : State) : Result :=
  conditional cond s (unlessRefused (multiplyCheck32 rd rm rs none)
    (finishMultiply32 sf rd (BitVec.ofNat 32 ((s.reg rm).toNat * (s.reg rs).toNat)) s))

/-- MLA (R225). -/
def execMla (cond : Cond) (sf : Bool) (rd rn rs rm : RegNum) (s : State) : Result :=
  conditional cond s (unlessRefused (multiplyCheck32 rd rm rs (some rn))
    (finishMultiply32 sf rd (BitVec.ofNat 32 ((s.reg rm).toNat * (s.reg rs).toNat + (s.reg rn).toNat)) s))

/-- UMULL (R226). -/
def execUmull (cond : Cond) (sf : Bool) (rdHi rdLo rs rm : RegNum) (s : State) : Result :=
  gated s.cfg.hasLongMul (conditional cond s (unlessRefused (multiplyCheck64 rdHi rdLo rm rs)
    (finishMultiply64 sf rdHi rdLo (BitVec.ofNat 64 ((s.reg rm).toNat * (s.reg rs).toNat)) s)))

/-- UMLAL (R227): the sum wraps at 64 bits. -/
def execUmlal (cond : Cond) (sf : Bool) (rdHi rdLo rs rm : RegNum) (s : State) : Result :=
  gated s.cfg.hasLongMul (conditional cond s (unlessRefused (multiplyCheck64 rdHi rdLo rm rs)
    (finishMultiply64 sf rdHi rdLo
      (BitVec.ofNat 64 ((s.reg rm).toNat * (s.reg rs).toNat + s.accumulator rdHi rdLo)) s)))

/-- SMULL (R228). -/
def execSmull (cond : Cond) (sf : Bool) (rdHi rdLo rs rm : RegNum) (s : State) : Result :=
  gated s.cfg.hasLongMul (conditional cond s (unlessRefused (multiplyCheck64 rdHi rdLo rm rs)
    (finishMultiply64 sf rdHi rdLo (BitVec.ofInt 64 ((s.reg rm).toInt * (s.reg rs).toInt)) s)))

/-- SMLAL (R229): the sum wraps at 64 bits. -/
def execSmlal (cond : Cond) (sf : Bool) (rdHi rdLo rs rm : RegNum) (s : State) : Result :=
  gated s.cfg.hasLongMul (conditional cond s (unlessRefused (multiplyCheck64 rdHi rdLo rm rs)
    (finishMultiply64 sf rdHi rdLo
      (BitVec.ofInt 64 ((s.reg rm).toInt * (s.reg rs).toInt + (s.accumulator rdHi rdLo : Int))) s)))

/-- The number of zero bits above the most significant 1 among the `k` low bits of `v`. -/
def leadingZeros (v : Word) : Nat → Nat
  | 0 => 0
  | k + 1 => if v.getLsbD k then 0 else leadingZeros v k + 1

/-- `CountLeadingZeros` (00_scope.md R10): 32 for zero. -/
def countLeadingZeros (v : Word) : Nat := leadingZeros v 32

/-- CLZ (R230; 90_conflicts.md C1). -/
def execClz (cond : Cond) (rd rm : RegNum) (s : State) : Result :=
  gated s.cfg.hasV5T (conditional cond s
    (if rd = 15 ∨ rm = 15 then .refused .r15InClz
     else advance (s.setReg rd (BitVec.ofNat 32 (countLeadingZeros (s.reg rm))))))

end Sys2Proof.Machine
end

