-- ==== Sys2Proof/Machine/StatusRegister.lean ====
section
/-! DEFINITION. Status register transfers and the undefined instruction trap (spec 49_status_register.md R310 to R315, 30_encoding.md R125). -/

namespace Sys2Proof.Machine

/-- The word MRS reads (R310): the twelve bits of the register, and `free` in the twenty unused ones (10_state.md R35). -/
def psrWord (p : Psr) (free : BitVec 20) : Word :=
  BitVec.ofBool p.n ++ BitVec.ofBool p.z ++ BitVec.ofBool p.c ++ BitVec.ofBool p.v ++ free
    ++ BitVec.ofBool p.i ++ BitVec.ofBool p.f ++ BitVec.ofBool p.t ++ p.m

/-- The register MRS reads: the CPSR, or the current SPSR with R = 1 (R310). -/
def State.statusSource (s : State) (r : Bool) : Option Psr :=
  if r then s.spsrOf s.cpsr.mode else some s.cpsr.saved

/-- MRS (R310). -/
def execMrs (cond : Cond) (r : Bool) (rd : RegNum) (s : State) : Result :=
  conditional cond s <|
    if rd = 15 then .refused .mrsIntoPc
    else
      match s.statusSource r with
      | none => .refused .noSpsr
      | some p => advance (s.setReg rd (psrWord p (s.freeWord.extractLsb' 0 20))).drawn

/-- The twelve bits with the flags field and the control field taken from `v` where selected (R312, R313). -/
def Psr.merge (p : Psr) (flags control : Bool) (v : Word) : Psr where
  n := if flags then v.getLsbD 31 else p.n
  z := if flags then v.getLsbD 30 else p.z
  c := if flags then v.getLsbD 29 else p.c
  v := if flags then v.getLsbD 28 else p.v
  i := if control then v.getLsbD 7 else p.i
  f := if control then v.getLsbD 6 else p.f
  t := if control then v.getLsbD 5 else p.t
  m := if control then v.extractLsb' 0 5 else p.m

/-- MSR with its operand at hand (R313): bit 3 of the mask selects the flags field, bit 0 the control field, which User mode does
not write in the CPSR (R314). -/
def moveToStatus (r : Bool) (fieldMask : BitVec 4) (operand : Word) (s : State) : Result :=
  if r then
    match s.spsrOf s.cpsr.mode with
    | none => .refused .noSpsr
    | some p => advance (s.setSpsrOf s.cpsr.mode (p.merge (fieldMask.getLsbD 3) (fieldMask.getLsbD 0) operand))
  else
    let new := s.cpsr.saved.merge (fieldMask.getLsbD 3) (fieldMask.getLsbD 0 && s.cpsr.mode.privileged) operand
    if new.t ≠ s.cpsr.t then .refused .msrChangesT
    else
      match new.restored s.cfg with
      | none => .refused .illegalMode
      | some p => advance (s.setCpsr p)

/-- MSR, register operand (R313). -/
def execMsrReg (cond : Cond) (r : Bool) (fieldMask : BitVec 4) (rm : RegNum) (s : State) : Result :=
  conditional cond s (if rm = 15 then .refused .msrFromPc else moveToStatus r fieldMask (s.reg rm) s)

/-- MSR, immediate operand (R313): only the flags field may be selected. -/
def execMsrImm (cond : Cond) (r : Bool) (fieldMask rot : BitVec 4) (imm8 : BitVec 8) (s : State) : Result :=
  conditional cond s
    (if fieldMask.extractLsb' 0 3 ≠ 0#3 then .refused .msrImmediateField
     else moveToStatus r fieldMask (rotatedImmediate rot imm8) s)

/-- The undefined instruction space (30_encoding.md R125, 60_exceptions.md R343). -/
def execUndefinedSpace (cond : Cond) (s : State) : Result := conditional cond s (undefinedTrap s)

/-- Coprocessor load or store: no coprocessor is present (R125, R343, decision D6). -/
def execCoprocLdcStc (cond : Cond) (s : State) : Result := conditional cond s (undefinedTrap s)

/-- Coprocessor data operation or register transfer: no coprocessor is present (R125, R343, decision D6). -/
def execCoprocCdpMrcMcr (cond : Cond) (s : State) : Result := conditional cond s (undefinedTrap s)

end Sys2Proof.Machine
end

