-- ==== Sys2Proof/Machine/Swap.lean ====
section
/-! DEFINITION. Swap memory and register (spec 48_swap.md R300 to R302). -/

namespace Sys2Proof.Machine

/-- `SWPCheck` (R300). -/
def swapCheck (rn rd rm : RegNum) : Option Refusal :=
  if rd = 15 ∨ rm = 15 ∨ rn = 15 then some .pcInSwap
  else if rn = rm ∨ rn = rd then some .swapBaseOverlap
  else none

/-- SWP (R301): the load, then the store, with no other agent between them (20_memory.md R86); a fault of either leaves memory
and Rd as they were (20_memory.md R76). -/
def execSwp (cond : Cond) (rn rd rm : RegNum) (s : State) : Result :=
  conditional cond s <| unlessRefused (swapCheck rn rd rm) <|
    let addr := s.reg rn
    if s.refusesWordLoad addr then .refused .bigEndianUnalignedLoad
    else
      let u := s.atAccess
      if u.wordFaults addr .read u.privilege || u.wordFaults addr .write u.privilege then dataAbort u
      else advance ((u.storeWord addr (u.reg rm)).setReg rd (u.loadWord addr))

/-- SWPB (R302). -/
def execSwpb (cond : Cond) (rn rd rm : RegNum) (s : State) : Result :=
  conditional cond s <| unlessRefused (swapCheck rn rd rm) <|
    let addr := s.reg rn
    let u := s.atAccess
    if u.byteFaults addr .read u.privilege || u.byteFaults addr .write u.privilege then dataAbort u
    else advance ((u.storeByte addr ((u.reg rm).extractLsb' 0 8)).setReg rd ((u.loadByte addr).setWidth 32))

end Sys2Proof.Machine
end

