-- ==== Sys2Proof/Machine/Dispatch.lean ====
section
/-! DEFINITION. The meaning of every instruction: one arm per constructor of Instr. -/

namespace Sys2Proof.Machine

def exec (i : Instr) (s : State) : Host.Outcome State Fault Refusal :=
  match i with
  | .andImm cond sf rn rd rot imm8 => Sys2Proof.Machine.execAndImm cond sf rn rd rot imm8 s
  | .andReg cond sf rn rd amount sh rm => Sys2Proof.Machine.execAndReg cond sf rn rd amount sh rm s
  | .andRsr cond sf rn rd rs sh rm => Sys2Proof.Machine.execAndRsr cond sf rn rd rs sh rm s
  | .eorImm cond sf rn rd rot imm8 => Sys2Proof.Machine.execEorImm cond sf rn rd rot imm8 s
  | .eorReg cond sf rn rd amount sh rm => Sys2Proof.Machine.execEorReg cond sf rn rd amount sh rm s
  | .eorRsr cond sf rn rd rs sh rm => Sys2Proof.Machine.execEorRsr cond sf rn rd rs sh rm s
  | .subImm cond sf rn rd rot imm8 => Sys2Proof.Machine.execSubImm cond sf rn rd rot imm8 s
  | .subReg cond sf rn rd amount sh rm => Sys2Proof.Machine.execSubReg cond sf rn rd amount sh rm s
  | .subRsr cond sf rn rd rs sh rm => Sys2Proof.Machine.execSubRsr cond sf rn rd rs sh rm s
  | .rsbImm cond sf rn rd rot imm8 => Sys2Proof.Machine.execRsbImm cond sf rn rd rot imm8 s
  | .rsbReg cond sf rn rd amount sh rm => Sys2Proof.Machine.execRsbReg cond sf rn rd amount sh rm s
  | .rsbRsr cond sf rn rd rs sh rm => Sys2Proof.Machine.execRsbRsr cond sf rn rd rs sh rm s
  | .addImm cond sf rn rd rot imm8 => Sys2Proof.Machine.execAddImm cond sf rn rd rot imm8 s
  | .addReg cond sf rn rd amount sh rm => Sys2Proof.Machine.execAddReg cond sf rn rd amount sh rm s
  | .addRsr cond sf rn rd rs sh rm => Sys2Proof.Machine.execAddRsr cond sf rn rd rs sh rm s
  | .adcImm cond sf rn rd rot imm8 => Sys2Proof.Machine.execAdcImm cond sf rn rd rot imm8 s
  | .adcReg cond sf rn rd amount sh rm => Sys2Proof.Machine.execAdcReg cond sf rn rd amount sh rm s
  | .adcRsr cond sf rn rd rs sh rm => Sys2Proof.Machine.execAdcRsr cond sf rn rd rs sh rm s
  | .sbcImm cond sf rn rd rot imm8 => Sys2Proof.Machine.execSbcImm cond sf rn rd rot imm8 s
  | .sbcReg cond sf rn rd amount sh rm => Sys2Proof.Machine.execSbcReg cond sf rn rd amount sh rm s
  | .sbcRsr cond sf rn rd rs sh rm => Sys2Proof.Machine.execSbcRsr cond sf rn rd rs sh rm s
  | .rscImm cond sf rn rd rot imm8 => Sys2Proof.Machine.execRscImm cond sf rn rd rot imm8 s
  | .rscReg cond sf rn rd amount sh rm => Sys2Proof.Machine.execRscReg cond sf rn rd amount sh rm s
  | .rscRsr cond sf rn rd rs sh rm => Sys2Proof.Machine.execRscRsr cond sf rn rd rs sh rm s
  | .tstImm cond rn rd rot imm8 => Sys2Proof.Machine.execTstImm cond rn rd rot imm8 s
  | .tstReg cond rn rd amount sh rm => Sys2Proof.Machine.execTstReg cond rn rd amount sh rm s
  | .tstRsr cond rn rd rs sh rm => Sys2Proof.Machine.execTstRsr cond rn rd rs sh rm s
  | .teqImm cond rn rd rot imm8 => Sys2Proof.Machine.execTeqImm cond rn rd rot imm8 s
  | .teqReg cond rn rd amount sh rm => Sys2Proof.Machine.execTeqReg cond rn rd amount sh rm s
  | .teqRsr cond rn rd rs sh rm => Sys2Proof.Machine.execTeqRsr cond rn rd rs sh rm s
  | .cmpImm cond rn rd rot imm8 => Sys2Proof.Machine.execCmpImm cond rn rd rot imm8 s
  | .cmpReg cond rn rd amount sh rm => Sys2Proof.Machine.execCmpReg cond rn rd amount sh rm s
  | .cmpRsr cond rn rd rs sh rm => Sys2Proof.Machine.execCmpRsr cond rn rd rs sh rm s
  | .cmnImm cond rn rd rot imm8 => Sys2Proof.Machine.execCmnImm cond rn rd rot imm8 s
  | .cmnReg cond rn rd amount sh rm => Sys2Proof.Machine.execCmnReg cond rn rd amount sh rm s
  | .cmnRsr cond rn rd rs sh rm => Sys2Proof.Machine.execCmnRsr cond rn rd rs sh rm s
  | .orrImm cond sf rn rd rot imm8 => Sys2Proof.Machine.execOrrImm cond sf rn rd rot imm8 s
  | .orrReg cond sf rn rd amount sh rm => Sys2Proof.Machine.execOrrReg cond sf rn rd amount sh rm s
  | .orrRsr cond sf rn rd rs sh rm => Sys2Proof.Machine.execOrrRsr cond sf rn rd rs sh rm s
  | .movImm cond sf rn rd rot imm8 => Sys2Proof.Machine.execMovImm cond sf rn rd rot imm8 s
  | .movReg cond sf rn rd amount sh rm => Sys2Proof.Machine.execMovReg cond sf rn rd amount sh rm s
  | .movRsr cond sf rn rd rs sh rm => Sys2Proof.Machine.execMovRsr cond sf rn rd rs sh rm s
  | .bicImm cond sf rn rd rot imm8 => Sys2Proof.Machine.execBicImm cond sf rn rd rot imm8 s
  | .bicReg cond sf rn rd amount sh rm => Sys2Proof.Machine.execBicReg cond sf rn rd amount sh rm s
  | .bicRsr cond sf rn rd rs sh rm => Sys2Proof.Machine.execBicRsr cond sf rn rd rs sh rm s
  | .mvnImm cond sf rn rd rot imm8 => Sys2Proof.Machine.execMvnImm cond sf rn rd rot imm8 s
  | .mvnReg cond sf rn rd amount sh rm => Sys2Proof.Machine.execMvnReg cond sf rn rd amount sh rm s
  | .mvnRsr cond sf rn rd rs sh rm => Sys2Proof.Machine.execMvnRsr cond sf rn rd rs sh rm s
  | .b cond offset24 => Sys2Proof.Machine.execB cond offset24 s
  | .bl cond offset24 => Sys2Proof.Machine.execBl cond offset24 s
  | .bx cond rm => Sys2Proof.Machine.execBx cond rm s
  | .blxReg cond rm => Sys2Proof.Machine.execBlxReg cond rm s
  | .blxImm h offset24 => Sys2Proof.Machine.execBlxImm h offset24 s
  | .swi cond _ => Sys2Proof.Machine.execSwi cond s
  | .mul cond sf rd rs rm => Sys2Proof.Machine.execMul cond sf rd rs rm s
  | .mla cond sf rd rn rs rm => Sys2Proof.Machine.execMla cond sf rd rn rs rm s
  | .umull cond sf rdHi rdLo rs rm => Sys2Proof.Machine.execUmull cond sf rdHi rdLo rs rm s
  | .umlal cond sf rdHi rdLo rs rm => Sys2Proof.Machine.execUmlal cond sf rdHi rdLo rs rm s
  | .smull cond sf rdHi rdLo rs rm => Sys2Proof.Machine.execSmull cond sf rdHi rdLo rs rm s
  | .smlal cond sf rdHi rdLo rs rm => Sys2Proof.Machine.execSmlal cond sf rdHi rdLo rs rm s
  | .clz cond rd rm => Sys2Proof.Machine.execClz cond rd rm s
  | .ldrImmPre cond u w rn rd imm12 => Sys2Proof.Machine.execLdrImmPre cond u w rn rd imm12 s
  | .ldrImmPost cond u rn rd imm12 => Sys2Proof.Machine.execLdrImmPost cond u rn rd imm12 s
  | .ldrRegPre cond u w rn rd amount sh rm => Sys2Proof.Machine.execLdrRegPre cond u w rn rd amount sh rm s
  | .ldrRegPost cond u rn rd amount sh rm => Sys2Proof.Machine.execLdrRegPost cond u rn rd amount sh rm s
  | .ldrtImm cond u rn rd imm12 => Sys2Proof.Machine.execLdrtImm cond u rn rd imm12 s
  | .ldrtReg cond u rn rd amount sh rm => Sys2Proof.Machine.execLdrtReg cond u rn rd amount sh rm s
  | .ldrbImmPre cond u w rn rd imm12 => Sys2Proof.Machine.execLdrbImmPre cond u w rn rd imm12 s
  | .ldrbImmPost cond u rn rd imm12 => Sys2Proof.Machine.execLdrbImmPost cond u rn rd imm12 s
  | .ldrbRegPre cond u w rn rd amount sh rm => Sys2Proof.Machine.execLdrbRegPre cond u w rn rd amount sh rm s
  | .ldrbRegPost cond u rn rd amount sh rm => Sys2Proof.Machine.execLdrbRegPost cond u rn rd amount sh rm s
  | .ldrbtImm cond u rn rd imm12 => Sys2Proof.Machine.execLdrbtImm cond u rn rd imm12 s
  | .ldrbtReg cond u rn rd amount sh rm => Sys2Proof.Machine.execLdrbtReg cond u rn rd amount sh rm s
  | .strImmPre cond u w rn rd imm12 => Sys2Proof.Machine.execStrImmPre cond u w rn rd imm12 s
  | .strImmPost cond u rn rd imm12 => Sys2Proof.Machine.execStrImmPost cond u rn rd imm12 s
  | .strRegPre cond u w rn rd amount sh rm => Sys2Proof.Machine.execStrRegPre cond u w rn rd amount sh rm s
  | .strRegPost cond u rn rd amount sh rm => Sys2Proof.Machine.execStrRegPost cond u rn rd amount sh rm s
  | .strtImm cond u rn rd imm12 => Sys2Proof.Machine.execStrtImm cond u rn rd imm12 s
  | .strtReg cond u rn rd amount sh rm => Sys2Proof.Machine.execStrtReg cond u rn rd amount sh rm s
  | .strbImmPre cond u w rn rd imm12 => Sys2Proof.Machine.execStrbImmPre cond u w rn rd imm12 s
  | .strbImmPost cond u rn rd imm12 => Sys2Proof.Machine.execStrbImmPost cond u rn rd imm12 s
  | .strbRegPre cond u w rn rd amount sh rm => Sys2Proof.Machine.execStrbRegPre cond u w rn rd amount sh rm s
  | .strbRegPost cond u rn rd amount sh rm => Sys2Proof.Machine.execStrbRegPost cond u rn rd amount sh rm s
  | .strbtImm cond u rn rd imm12 => Sys2Proof.Machine.execStrbtImm cond u rn rd imm12 s
  | .strbtReg cond u rn rd amount sh rm => Sys2Proof.Machine.execStrbtReg cond u rn rd amount sh rm s
  | .ldrhImm cond p u w rn rd imm8 => Sys2Proof.Machine.execLdrhImm cond p u w rn rd imm8 s
  | .ldrhReg cond p u w rn rd rm => Sys2Proof.Machine.execLdrhReg cond p u w rn rd rm s
  | .ldrsbImm cond p u w rn rd imm8 => Sys2Proof.Machine.execLdrsbImm cond p u w rn rd imm8 s
  | .ldrsbReg cond p u w rn rd rm => Sys2Proof.Machine.execLdrsbReg cond p u w rn rd rm s
  | .ldrshImm cond p u w rn rd imm8 => Sys2Proof.Machine.execLdrshImm cond p u w rn rd imm8 s
  | .ldrshReg cond p u w rn rd rm => Sys2Proof.Machine.execLdrshReg cond p u w rn rd rm s
  | .strhImm cond p u w rn rd imm8 => Sys2Proof.Machine.execStrhImm cond p u w rn rd imm8 s
  | .strhReg cond p u w rn rd rm => Sys2Proof.Machine.execStrhReg cond p u w rn rd rm s
  | .stm cond p u w rn list => Sys2Proof.Machine.execStm cond p u w rn list s
  | .ldm cond p u w rn list => Sys2Proof.Machine.execLdm cond p u w rn list s
  | .ldmReturn cond p u w rn list => Sys2Proof.Machine.execLdmReturn cond p u w rn list s
  | .ldmUser cond p u w rn list => Sys2Proof.Machine.execLdmUser cond p u w rn list s
  | .stmUser cond p u w rn list => Sys2Proof.Machine.execStmUser cond p u w rn list s
  | .swp cond rn rd rm => Sys2Proof.Machine.execSwp cond rn rd rm s
  | .swpb cond rn rd rm => Sys2Proof.Machine.execSwpb cond rn rd rm s
  | .mrs cond r rd => Sys2Proof.Machine.execMrs cond r rd s
  | .msrReg cond r fieldMask rm => Sys2Proof.Machine.execMsrReg cond r fieldMask rm s
  | .msrImm cond r fieldMask rot imm8 => Sys2Proof.Machine.execMsrImm cond r fieldMask rot imm8 s
  | .undefinedSpace cond _ _ => Sys2Proof.Machine.execUndefinedSpace cond s
  | .coprocLdcStc cond _ => Sys2Proof.Machine.execCoprocLdcStc cond s
  | .coprocCdpMrcMcr cond _ => Sys2Proof.Machine.execCoprocCdpMrcMcr cond s

end Sys2Proof.Machine
end

