-- ==== Sys2Proof/Machine/Fetch.lean ====
section
/-! DEFINITION. What surrounds an instruction in a step: the environment's inputs, the fetch, the interrupts and the reset
event (spec 00_scope.md R11, 60_exceptions.md R341 to R350, 70_reset_and_hazards.md R380), and placing a word to be fetched. -/

namespace Sys2Proof.Machine

/-! ### Inputs -/

/-- The lines low. -/
def Inputs.quiet : Inputs where
  resetLine := false
  fiqLine := false
  irqLine := false

/-- The levels of the lines at this step: the first coming entry, or low where none is left (log 8). -/
def State.nextInputs (s : State) : Inputs := s.inputs.headD Inputs.quiet

/-- The state in which this step's events are examined and its instruction runs: the entry of the lines is used up. -/
def State.afterInputs (s : State) : State := s.setInputs s.inputs.tail

/-! ### Fetch -/

/-- The fetch at the pc is refused by the memory system (R342, 20_memory.md R75). -/
def State.fetchFaults (s : State) : Bool := memFault s.cfg s.pc 4 .fetch s.privilege

/-- The word at the pc was written by this processor, and the platform does not keep fetch and data coherent
(20_memory.md R82). -/
def State.fetchIncoherent (s : State) : Bool := !s.cfg.ifetchCoherent && s.written.contains s.pc.toNat

/-- The refusal of a word that is no instruction (30_encoding.md R126, R130). -/
def refusalOf : DecodeReject → Refusal
  | .neverCondition => .neverCondition
  | .unallocated => .unallocated
  | .truncated => .unallocated

/-- The word at the pc, fetched, decoded and executed, in the state in which the fetch is made (R11 steps 2 to 5). -/
def fetchAndRun (s : State) : Result :=
  if s.fetchFaults then .next (takeException .prefetchAbort (s.pc + 4#32) s)
  else if s.fetchIncoherent then .refused .fetchOfWrittenWord
  else
    match decode (s.wordAt s.pc) with
    | .error e => .refused (refusalOf e)
    | .ok i => exec i s

/-- The instruction at the pc (00_scope.md R11 steps 2 to 5): no fetch is made in Thumb state or at a misaligned pc, and other
agents may write before the fetch (20_memory.md R80). -/
def runInstruction (s : State) : Result :=
  if s.cpsr.t then .refused .thumbState
  else if s.pc.extractLsb' 0 2 ≠ 0#2 then .fault .misalignedFetch
  else fetchAndRun s.atAccess

/-! ### Reset and interrupts -/

/-- Every general register but the pc. -/
def resetCells : List Cell :=
  [.r0, .r1, .r2, .r3, .r4, .r5, .r6, .r7, .r8, .r9, .r10, .r11, .r12, .r13, .r14,
    .r8_fiq, .r9_fiq, .r10_fiq, .r11_fiq, .r12_fiq, .r13_fiq, .r14_fiq,
    .r13_irq, .r14_irq, .r13_svc, .r14_svc, .r13_abt, .r14_abt, .r13_und, .r14_und]

/-- Memory of `s` in which each byte that differs from `new` at the given addresses has, on a free bit, the new value. -/
def mixBytes (new : Memory) : List Nat → State → State
  | [], s => s
  | a :: rest, s =>
    mixBytes new rest
      (if s.mem.read a = new.read a then s
       else if s.freeBit then s.drawn.setMem (s.mem.write a (new.read a)) else s.drawn)

/-- What the instruction that a reset cuts short would have done, no other agent writing while it runs. -/
def runAlone (s : State) : Result := runInstruction (s.setBus [])

/-- The bytes that the instruction a reset cuts short might have been writing: each is written or not (R380, decision D21;
log 13). -/
def cutShort (s : State) : State :=
  match runAlone s with
  | .next t => mixBytes t.mem ((s.mem ++ t.mem).map Prod.fst) (s.setDraws t.draws)
  | _ => s

/-- Every SPSR holding free bits. -/
def State.freeSpsrs (s : State) : State :=
  (s.setSpsrs
    { fiq := freePsr (Config.draw s.draws), irq := freePsr (Config.draw (s.draws + 1)),
      svc := freePsr (Config.draw (s.draws + 2)), abt := freePsr (Config.draw (s.draws + 3)),
      und := freePsr (Config.draw (s.draws + 4)) }).setDraws (s.draws + 5)

/-- The CPSR that a reset leaves (10_state.md R45, R380): SVC mode, IRQ and FIQ disabled, ARM state, the flags free. -/
def resetCpsr (free : Word) : Cpsr where
  n := free.getLsbD 31
  z := free.getLsbD 30
  c := free.getLsbD 29
  v := free.getLsbD 28
  i := true
  f := true
  t := false
  mode := .svc

/-- `ResetEvent` (70_reset_and_hazards.md R380): nothing survives but memory, of which the cut-short instruction's stores are
open, and nothing has been written since. -/
def resetEvent (s : State) : State :=
  let s1 := ((cutShort s.atAccess).freeCells resetCells).freeSpsrs
  (((s1.setCpsr (resetCpsr s1.freeWord)).drawn).setWritten []).setPc 0x00000000#32

/-- `StepEvents` and then the instruction (60_exceptions.md R350, R352): reset, FIQ, IRQ, in this order, each the whole step. -/
def stepEvents (x : Inputs) (s : State) : Result :=
  if x.resetLine then .next (resetEvent s)
  else if x.fiqLine && !s.cpsr.f then .next (takeException .fiq (s.pc + 4#32) s)
  else if x.irqLine && !s.cpsr.i then .next (takeException .irq (s.pc + 4#32) s)
  else runInstruction s

/-! ### Placing a word to be fetched (log 25) -/

/-- The word written at the pc by a loader outside the processor, with all that its fetch takes: ARM state, an aligned pc, no
line raised at the coming step, no other agent writing before the fetch, no refusing region on the fetch, the word not one the processor wrote. -/
def State.placeWord (s : State) (w : Word) : State :=
  let pc := alignWord s.pc
  let cfg : Config :=
    { s.cfg with
      faultRegions := s.cfg.faultRegions.filter fun r => !regionRefuses r pc 4 .fetch s.privilege }
  { s with
    pc := pc
    cpsr := { s.cpsr with t := false }
    mem := s.mem.writeWord s.cfg.bigEndian pc.toNat w
    cfg := cfg
    inputs := match s.inputs with | [] => [] | _ :: rest => Inputs.quiet :: rest
    bus := match s.bus with | [] => [] | _ :: rest => [] :: rest
    written := s.written.filter fun a => decide (a ≠ pc.toNat) }

end Sys2Proof.Machine
end

