-- ==== Sys2Proof/Machine/Step.lean ====
section
/-! DEFINITION. One step of the machine (spec 00_scope.md R11), and placing a word where the next step fetches. -/

namespace Sys2Proof.Machine

/-- One step: the environment's input is taken, the external events are examined, and if none is taken the instruction at the
pc runs (R11). -/
def step (s : State) : Host.Outcome State Fault Refusal := stepEvents s.nextInputs s.afterInputs

/-- `s` with the instruction whose bits are `w` placed where the next step fetches, so that the next step runs it; every
instruction is one word, and bits from `nbits` on are zero. -/
def State.withFetchWord (s : State) (nbits w : Nat) : State := s.placeWord (BitVec.ofNat 32 (w % 2 ^ nbits))

end Sys2Proof.Machine
end

