-- ==== Sys2Proof/Safety.lean ====
section
/-! DEFINITION. The terms the statements use: what counts as a good state and a safe run, which instructions are conditional
and which are present, and what an instruction leaves unchanged and does, in the words of the spec's rules. -/

namespace Sys2Proof.Machine

/-! ### Good states and safe runs -/

/-- The pc is aligned for the instruction set in use (10_state.md R25, R33). -/
abbrev State.PcAligned (s : State) : Prop :=
  if s.cpsr.t then s.pc.getLsbD 0 = false else s.pc.extractLsb' 0 2 = 0#2

/-- What holds of every state a run can reach: memory and the list of written words keep their canonical form, the pc is
aligned (20_memory.md R71), T is set only with Thumb (10_state.md R33), System mode is in use only where it is a mode (R34). -/
abbrev State.Inv (s : State) : Prop :=
  s.mem.wf = true ∧ writtenWfFrom 0 s.written = true ∧ s.PcAligned
    ∧ (s.cpsr.t = true → s.cfg.hasThumb = true) ∧ (s.cpsr.mode = .system → s.cfg.hasSystemMode = true)

/-- No run from the state stops with a fault. -/
def State.Safe (s : State) : Prop := ∀ (k : Nat) (f : Fault), Host.Core.run Sys2Proof.core k s ≠ .fault f

/-- No reset, FIQ or IRQ is taken at the next step (60_exceptions.md R350). -/
abbrev State.NoEvent (s : State) : Prop :=
  s.nextInputs.resetLine = false ∧ (s.nextInputs.fiqLine = true → s.cpsr.f = true)
    ∧ (s.nextInputs.irqLine = true → s.cpsr.i = true)

/-- The state in which the next step makes its fetch: the entry of the lines is used up, and what other agents write before the
fetch is in memory (00_scope.md R11, 20_memory.md R80). -/
abbrev State.atFetch (s : State) : State := s.afterInputs.atAccess

/-- The next step fetches the word `w` in ARM state: no event is taken, the pc is aligned, the fetch is neither refused by the
memory system nor of a word this processor wrote (00_scope.md R11 steps 1 and 2, 20_memory.md R75, R82). -/
abbrev State.Fetches (s : State) (w : Word) : Prop :=
  s.NoEvent ∧ s.cpsr.t = false ∧ s.pc.extractLsb' 0 2 = 0#2 ∧ s.atFetch.fetchFaults = false
    ∧ s.atFetch.fetchIncoherent = false ∧ s.atFetch.wordAt s.pc = w

/-- The general registers that User mode does not see (10_state.md R22). -/
def privilegedCells : List Cell :=
  [.r8_fiq, .r9_fiq, .r10_fiq, .r11_fiq, .r12_fiq, .r13_fiq, .r14_fiq, .r13_irq, .r14_irq, .r13_svc, .r14_svc, .r13_abt,
    .r14_abt, .r13_und, .r14_und]

end Sys2Proof.Machine

namespace Sys2Proof

/-! ### Conditions and features of instructions -/

/-- The condition under which an instruction executes (30_encoding.md R101); BLX format (2) has none. -/
def Instr.condition : Instr → Option Cond
  | .andImm cond .. => some cond
  | .andReg cond .. => some cond
  | .andRsr cond .. => some cond
  | .eorImm cond .. => some cond
  | .eorReg cond .. => some cond
  | .eorRsr cond .. => some cond
  | .subImm cond .. => some cond
  | .subReg cond .. => some cond
  | .subRsr cond .. => some cond
  | .rsbImm cond .. => some cond
  | .rsbReg cond .. => some cond
  | .rsbRsr cond .. => some cond
  | .addImm cond .. => some cond
  | .addReg cond .. => some cond
  | .addRsr cond .. => some cond
  | .adcImm cond .. => some cond
  | .adcReg cond .. => some cond
  | .adcRsr cond .. => some cond
  | .sbcImm cond .. => some cond
  | .sbcReg cond .. => some cond
  | .sbcRsr cond .. => some cond
  | .rscImm cond .. => some cond
  | .rscReg cond .. => some cond
  | .rscRsr cond .. => some cond
  | .tstImm cond .. => some cond
  | .tstReg cond .. => some cond
  | .tstRsr cond .. => some cond
  | .teqImm cond .. => some cond
  | .teqReg cond .. => some cond
  | .teqRsr cond .. => some cond
  | .cmpImm cond .. => some cond
  | .cmpReg cond .. => some cond
  | .cmpRsr cond .. => some cond
  | .cmnImm cond .. => some cond
  | .cmnReg cond .. => some cond
  | .cmnRsr cond .. => some cond
  | .orrImm cond .. => some cond
  | .orrReg cond .. => some cond
  | .orrRsr cond .. => some cond
  | .movImm cond .. => some cond
  | .movReg cond .. => some cond
  | .movRsr cond .. => some cond
  | .bicImm cond .. => some cond
  | .bicReg cond .. => some cond
  | .bicRsr cond .. => some cond
  | .mvnImm cond .. => some cond
  | .mvnReg cond .. => some cond
  | .mvnRsr cond .. => some cond
  | .b cond .. => some cond
  | .bl cond .. => some cond
  | .bx cond .. => some cond
  | .blxReg cond .. => some cond
  | .blxImm .. => none
  | .swi cond .. => some cond
  | .mul cond .. => some cond
  | .mla cond .. => some cond
  | .umull cond .. => some cond
  | .umlal cond .. => some cond
  | .smull cond .. => some cond
  | .smlal cond .. => some cond
  | .clz cond .. => some cond
  | .ldrImmPre cond .. => some cond
  | .ldrImmPost cond .. => some cond
  | .ldrRegPre cond .. => some cond
  | .ldrRegPost cond .. => some cond
  | .ldrtImm cond .. => some cond
  | .ldrtReg cond .. => some cond
  | .ldrbImmPre cond .. => some cond
  | .ldrbImmPost cond .. => some cond
  | .ldrbRegPre cond .. => some cond
  | .ldrbRegPost cond .. => some cond
  | .ldrbtImm cond .. => some cond
  | .ldrbtReg cond .. => some cond
  | .strImmPre cond .. => some cond
  | .strImmPost cond .. => some cond
  | .strRegPre cond .. => some cond
  | .strRegPost cond .. => some cond
  | .strtImm cond .. => some cond
  | .strtReg cond .. => some cond
  | .strbImmPre cond .. => some cond
  | .strbImmPost cond .. => some cond
  | .strbRegPre cond .. => some cond
  | .strbRegPost cond .. => some cond
  | .strbtImm cond .. => some cond
  | .strbtReg cond .. => some cond
  | .ldrhImm cond .. => some cond
  | .ldrhReg cond .. => some cond
  | .ldrsbImm cond .. => some cond
  | .ldrsbReg cond .. => some cond
  | .ldrshImm cond .. => some cond
  | .ldrshReg cond .. => some cond
  | .strhImm cond .. => some cond
  | .strhReg cond .. => some cond
  | .stm cond .. => some cond
  | .ldm cond .. => some cond
  | .ldmReturn cond .. => some cond
  | .ldmUser cond .. => some cond
  | .stmUser cond .. => some cond
  | .swp cond .. => some cond
  | .swpb cond .. => some cond
  | .mrs cond .. => some cond
  | .msrReg cond .. => some cond
  | .msrImm cond .. => some cond
  | .undefinedSpace cond .. => some cond
  | .coprocLdcStc cond .. => some cond
  | .coprocCdpMrcMcr cond .. => some cond

/-- The instruction's feature parameter is true, or the instruction has none (30_encoding.md R131; BX also where a processor
without Thumb traps it, R125). -/
def Instr.present (cfg : Config) : Instr → Bool
  | .andImm .. => true
  | .andReg .. => true
  | .andRsr .. => true
  | .eorImm .. => true
  | .eorReg .. => true
  | .eorRsr .. => true
  | .subImm .. => true
  | .subReg .. => true
  | .subRsr .. => true
  | .rsbImm .. => true
  | .rsbReg .. => true
  | .rsbRsr .. => true
  | .addImm .. => true
  | .addReg .. => true
  | .addRsr .. => true
  | .adcImm .. => true
  | .adcReg .. => true
  | .adcRsr .. => true
  | .sbcImm .. => true
  | .sbcReg .. => true
  | .sbcRsr .. => true
  | .rscImm .. => true
  | .rscReg .. => true
  | .rscRsr .. => true
  | .tstImm .. => true
  | .tstReg .. => true
  | .tstRsr .. => true
  | .teqImm .. => true
  | .teqReg .. => true
  | .teqRsr .. => true
  | .cmpImm .. => true
  | .cmpReg .. => true
  | .cmpRsr .. => true
  | .cmnImm .. => true
  | .cmnReg .. => true
  | .cmnRsr .. => true
  | .orrImm .. => true
  | .orrReg .. => true
  | .orrRsr .. => true
  | .movImm .. => true
  | .movReg .. => true
  | .movRsr .. => true
  | .bicImm .. => true
  | .bicReg .. => true
  | .bicRsr .. => true
  | .mvnImm .. => true
  | .mvnReg .. => true
  | .mvnRsr .. => true
  | .b .. => true
  | .bl .. => true
  | .bx .. => cfg.hasThumb || cfg.undefTrapsBx
  | .blxReg .. => cfg.hasV5T
  | .blxImm .. => cfg.hasV5T
  | .swi .. => true
  | .mul .. => true
  | .mla .. => true
  | .umull .. => cfg.hasLongMul
  | .umlal .. => cfg.hasLongMul
  | .smull .. => cfg.hasLongMul
  | .smlal .. => cfg.hasLongMul
  | .clz .. => cfg.hasV5T
  | .ldrImmPre .. => true
  | .ldrImmPost .. => true
  | .ldrRegPre .. => true
  | .ldrRegPost .. => true
  | .ldrtImm .. => true
  | .ldrtReg .. => true
  | .ldrbImmPre .. => true
  | .ldrbImmPost .. => true
  | .ldrbRegPre .. => true
  | .ldrbRegPost .. => true
  | .ldrbtImm .. => true
  | .ldrbtReg .. => true
  | .strImmPre .. => true
  | .strImmPost .. => true
  | .strRegPre .. => true
  | .strRegPost .. => true
  | .strtImm .. => true
  | .strtReg .. => true
  | .strbImmPre .. => true
  | .strbImmPost .. => true
  | .strbRegPre .. => true
  | .strbRegPost .. => true
  | .strbtImm .. => true
  | .strbtReg .. => true
  | .ldrhImm .. => cfg.hasHalfword
  | .ldrhReg .. => cfg.hasHalfword
  | .ldrsbImm .. => cfg.hasHalfword
  | .ldrsbReg .. => cfg.hasHalfword
  | .ldrshImm .. => cfg.hasHalfword
  | .ldrshReg .. => cfg.hasHalfword
  | .strhImm .. => cfg.hasHalfword
  | .strhReg .. => cfg.hasHalfword
  | .stm .. => true
  | .ldm .. => true
  | .ldmReturn .. => true
  | .ldmUser .. => true
  | .stmUser .. => true
  | .swp .. => true
  | .swpb .. => true
  | .mrs .. => true
  | .msrReg .. => true
  | .msrImm .. => true
  | .undefinedSpace .. => true
  | .coprocLdcStc .. => true
  | .coprocCdpMrcMcr .. => true

end Sys2Proof

namespace Sys2Proof.Machine

/-! ### Frames -/

/-- Every general register but the pc and those listed keeps its value. -/
def SameRegistersBut (cells : List Cell) (s t : State) : Prop := ∀ c, c ≠ .pc → c ∉ cells → t.cell c = s.cell c

/-- No byte of memory has changed, and no word counts as newly written. -/
def SameMemory (s t : State) : Prop := (∀ a, t.mem.read a = s.mem.read a) ∧ t.written = s.written

/-- No byte of memory outside the `n` bytes from `lo` up has changed. -/
def SameMemoryOutside (lo n : Nat) (s t : State) : Prop := ∀ a, a < lo ∨ lo + n ≤ a → t.mem.read a = s.mem.read a

/-- The configuration, the coming levels of the lines and what other agents will write: no instruction changes the first two,
and an access to memory uses up one entry of the last. -/
def SamePlatform (s t : State) : Prop := t.cfg = s.cfg ∧ t.inputs = s.inputs ∧ t.bus = s.bus

/-- The frame of an instruction that stores nothing: only the listed registers, the CPSR and the pc may have changed. -/
def RegisterFrame (cells : List Cell) (s t : State) : Prop :=
  SameRegistersBut cells s t ∧ t.spsr = s.spsr ∧ SameMemory s t ∧ SamePlatform s t

/-- The frame of an instruction that stores `n` bytes from `lo` up: only these, the listed registers, the CPSR and the pc may
have changed. -/
def StoreFrame (lo n : Nat) (cells : List Cell) (s t : State) : Prop :=
  SameRegistersBut cells s t ∧ t.spsr = s.spsr ∧ SameMemoryOutside lo n s t ∧ SamePlatform s t

/-- The instruction completes in the sequence (10_state.md R26, R29 (b)): unless it is the last word of the address space it
goes on at `ia + 4`, in a state of which `P` holds. -/
def Continues (i : Instr) (s : State) (P : State → Prop) : Prop :=
  (s.pc ≠ 0xFFFFFFFC#32 → ∃ t, exec i s = .next t ∧ t.pc = s.pc + 4#32 ∧ P t)
    ∧ (s.pc = 0xFFFFFFFC#32 → exec i s = .refused .pastEndOfAddressSpace)

/-! ### Data processing (43_data_processing.md) -/

/-- A condition on the instruction and on operand 2 holds for the three forms of a data processing instruction, and the
form that shifts by a register is refused where one of the registers it uses, `named` among them, is r15 (R175). -/
def EveryOperand2 (imm : BitVec 4 → BitVec 8 → Instr) (reg : BitVec 5 → ShiftType → RegNum → Instr)
    (rsr : RegNum → ShiftType → RegNum → Instr) (named : List RegNum) (s : State) (P : Instr → Shifted → Prop) : Prop :=
  (∀ rot imm8, P (imm rot imm8) (s.operandImm rot imm8))
    ∧ (∀ amount sh rm, P (reg amount sh rm) (s.operandReg amount sh rm))
    ∧ (∀ rs sh rm, 15 ∉ rs :: rm :: named → P (rsr rs sh rm) (s.operandRsr rs sh rm))
    ∧ (∀ rs sh rm, 15 ∈ rs :: rm :: named → exec (rsr rs sh rm) s = .refused .r15WithRegisterShift)

/-- A target that is aligned for the instruction set the T bit `t` selects (R178, 47_multiple_transfer.md R286). -/
def alignedFor (t : Bool) (target : Word) : Bool :=
  if t then !target.getLsbD 0 else decide (target.extractLsb' 0 2 = 0#2)

/-- The CPSR with the fields of an SPSR and the mode its mode field names. -/
def Psr.withMode (p : Psr) (m : Mode) : Cpsr where
  n := p.n
  z := p.z
  c := p.c
  v := p.v
  i := p.i
  f := p.f
  t := p.t
  mode := m

/-- The exception return (R178 with S = 1, 47_multiple_transfer.md R286, 60_exceptions.md R360): refused without an SPSR, for a mode field that is no mode
and for a misaligned target; otherwise the CPSR is the current SPSR and the pc the target, and `P` holds of the state. A
saved T bit on a processor without Thumb is another statement's case. -/
def ReturnsTo (i : Instr) (target : Word) (s : State) (P : State → Prop) : Prop :=
  (s.cpsr.mode = .user ∨ s.cpsr.mode = .system → exec i s = .refused .noSpsr)
    ∧ ∀ p, s.spsrOf s.cpsr.mode = some p →
      (Mode.ofBits s.cfg p.m = none → exec i s = .refused .illegalMode)
        ∧ ∀ m, Mode.ofBits s.cfg p.m = some m → (p.t = true → s.cfg.hasThumb = true) →
          (alignedFor p.t target = false → exec i s = .refused .misalignedPcWrite)
            ∧ (alignedFor p.t target = true → ∃ t, exec i s = .next t ∧ t.cpsr = p.withMode m ∧ t.pc = target ∧ P t)

/-- What a data processing instruction that writes Rd does with its result and, on S, with the flags `flags` (R178, R179). -/
def ResultGoesTo (i : Instr) (sf : Bool) (rd : RegNum) (result : Word) (flags : Cpsr) (s : State) : Prop :=
  (rd ≠ 15 → Continues i s fun t =>
      t.cell (bank s.cpsr.mode rd) = result ∧ t.cpsr = (if sf then flags else s.cpsr)
        ∧ RegisterFrame [bank s.cpsr.mode rd] s t)
    ∧ (rd = 15 → sf = false → result.extractLsb' 0 2 = 0#2 →
        ∃ t, exec i s = .next t ∧ t.pc = result ∧ t.cpsr = s.cpsr ∧ RegisterFrame [] s t)
    ∧ (rd = 15 → sf = false → result.extractLsb' 0 2 ≠ 0#2 → exec i s = .refused .misalignedPcWrite)
    ∧ (rd = 15 → sf = true → ReturnsTo i result s fun t => RegisterFrame [] s t)

/-- The flags of a logical operation (R176): C from the shifter, V unchanged. -/
def logicalFlags (result : Word) (shifterCarry : Bool) (p : Cpsr) : Cpsr :=
  { p with n := result.getLsbD 31, z := decide (result = 0#32), c := shifterCarry }

/-- The flags of an arithmetic operation (R176, R177): V says that the exact signed result does not fit in 32 bits. -/
def arithFlags (result : Word) (carry : Bool) (exact : Int) (p : Cpsr) : Cpsr :=
  { p with
    n := result.getLsbD 31
    z := decide (result = 0#32)
    c := carry
    v := decide (exact < -2 ^ 31 ∨ 2 ^ 31 ≤ exact) }

/-- A test or comparison (R179): only the flags and the pc change. -/
def OnlyFlags (i : Instr) (flags : Cpsr) (s : State) : Prop :=
  Continues i s fun t => t.cpsr = flags ∧ RegisterFrame [] s t

/-- The end of a long multiply (44_multiply_clz.md R222, R226 to R229): RdHi : RdLo is `value` modulo 2^64 and, on S, N is its
bit 63, Z tests all 64 bits, V is unchanged and C is any value. -/
def LongResult (s : State) (sf : Bool) (rdHi rdLo : RegNum) (value : Int) (t : State) : Prop :=
  t.cell (bank s.cpsr.mode rdHi) ++ t.cell (bank s.cpsr.mode rdLo) = BitVec.ofInt 64 value
    ∧ (sf = false → t.cpsr = s.cpsr)
    ∧ (sf = true → t.cpsr = { s.cpsr with
        n := (BitVec.ofInt 64 value).getLsbD 63
        z := decide (BitVec.ofInt 64 value = 0#64)
        c := t.cpsr.c })
    ∧ RegisterFrame [bank s.cpsr.mode rdHi, bank s.cpsr.mode rdLo] s t

/-- The return of an exception handler on a processor without Thumb whose SPSR `p` has the T bit set and names mode `m` (R178, 47_multiple_transfer.md R286):
T is 0, as it always is there (10_state.md R33; log 16), everything else of the CPSR is the SPSR's, and the target must be
word-aligned. -/
def ReturnsWithoutThumb (i : Instr) (target : Word) (p : Psr) (m : Mode) (s : State) (P : State → Prop) : Prop :=
  (target.extractLsb' 0 2 = 0#2 →
      ∃ t, exec i s = .next t ∧ t.cpsr = { p.withMode m with t := false } ∧ t.pc = target ∧ P t)
    ∧ (target.extractLsb' 0 2 ≠ 0#2 → exec i s = .refused .misalignedPcWrite)

/-- A condition on the instruction and on operand 2 holds for the two forms of a data processing instruction that may have the
pc as destination (R175, R178). -/
def BothPcForms (imm : BitVec 4 → BitVec 8 → Instr) (reg : BitVec 5 → ShiftType → RegNum → Instr) (s : State)
    (P : Instr → Word → Prop) : Prop :=
  (∀ rot imm8, P (imm rot imm8) (s.operandImm rot imm8).value)
    ∧ (∀ amount sh rm, P (reg amount sh rm) (s.operandReg amount sh rm).value)

/-! ### Data transfers (45_single_transfer.md to 48_swap.md) -/

/-- The register restrictions of single transfers (R243, 46_halfword_transfer.md R268). -/
def IndexRestricted (writeBack : Bool) (rn rd : RegNum) (rm : Option RegNum) : Prop :=
  rm = some 15 ∨ (writeBack = true ∧ (rn = 15 ∨ rn = rd ∨ rm = some rn))

/-- The registers a single transfer may change: `cells`, and the base where it is written back. -/
def State.touched (s : State) (rn : RegNum) (x : Indexed) (cells : List Cell) : List Cell :=
  if x.writeBack then bank s.cpsr.mode rn :: cells else cells

/-- The data abort of the instruction at the pc (60_exceptions.md R345, R340), after which the registers `cells` are open
and of memory `P` says what has become; `u` is the state at its last access. -/
def Aborts (i : Instr) (cells : List Cell) (s u : State) (P : State → Prop) : Prop :=
  ∃ t, exec i s = .next t
    ∧ t.cell .r14_abt = s.pc + 8#32
    ∧ t.spsr = { s.spsr with abt := s.cpsr.saved }
    ∧ t.cpsr = { s.cpsr with i := true, t := false, mode := .abort }
    ∧ t.pc = 0x00000010#32
    ∧ SameRegistersBut (.r14_abt :: cells) s t
    ∧ SamePlatform u t
    ∧ P t

/-- What becomes of a word `v` loaded into the pc in ARM state (R244, 47_multiple_transfer.md R285), `P` saying the rest. -/
def LoadsPc (i : Instr) (v : Word) (s : State) (P : State → Prop) : Prop :=
  (v.extractLsb' 0 2 = 0#2 → ∃ t, exec i s = .next t ∧ t.pc = v ∧ t.cpsr = s.cpsr ∧ P t)
    ∧ (v.getLsbD 0 = true → s.cfg.hasV5T = true →
        ∃ t, exec i s = .next t ∧ t.pc = v &&& 0xFFFFFFFE#32 ∧ t.cpsr = { s.cpsr with t := true } ∧ P t)
    ∧ (v.extractLsb' 0 2 ≠ 0#2 → (v.getLsbD 0 = true → s.cfg.hasV5T = false) → exec i s = .refused .misalignedPcWrite)

/-- A load of `v` into a register that completes (R248): base write-back, then the destination, nothing else but what other
agents wrote before the access. -/
def LoadCompletes (i : Instr) (rn rd : RegNum) (x : Indexed) (v : Word) (s : State) : Prop :=
  Continues i s fun t =>
    t.cell (bank s.cpsr.mode rd) = v ∧ (x.writeBack = true → t.cell (bank s.cpsr.mode rn) = x.ea) ∧ t.cpsr = s.cpsr
      ∧ RegisterFrame (s.touched rn x [bank s.cpsr.mode rd]) s.atAccess t

/-- A store of some bytes from address `lo` up that completes (R248): the bytes, then base write-back, nothing else but what
other agents wrote before the access. The word at `lo` counts as written (20_memory.md R82). -/
def StoreCompletes (i : Instr) (rn : RegNum) (x : Indexed) (lo : Nat) (bytes : List Byte) (s : State) : Prop :=
  Continues i s fun t =>
    (∀ k b, bytes[k]? = some b → t.mem.read (lo + k) = b)
      ∧ (x.writeBack = true → t.cell (bank s.cpsr.mode rn) = x.ea) ∧ t.cpsr = s.cpsr
      ∧ StoreFrame lo bytes.length (s.touched rn x []) s.atAccess t
      ∧ (∀ a, a ∈ t.written ↔ a = lo - lo % 4 ∨ a ∈ s.written)

/-- A single transfer abandoned by a data abort (20_memory.md R76): only a base that was to be written back is open. -/
def TransferAborts (i : Instr) (rn : RegNum) (x : Indexed) (s : State) : Prop :=
  Aborts i (s.touched rn x []) s s.atAccess (SameMemory s.atAccess)

/-- The four bytes of a word in the configured byte order, lowest address first (20_memory.md R62, R63). -/
def wordBytes (bigEndian : Bool) (v : Word) : List Byte :=
  let low := [v.extractLsb' 0 8, v.extractLsb' 8 8, v.extractLsb' 16 8, v.extractLsb' 24 8]
  if bigEndian then low.reverse else low

/-- The two bytes of a half-word in the configured byte order, lowest address first (20_memory.md R62, R63). -/
def halfBytes (bigEndian : Bool) (v : Half) : List Byte :=
  let low := [v.extractLsb' 0 8, v.extractLsb' 8 8]
  if bigEndian then low.reverse else low

/-- LDR and LDRT as a whole (R244, R248, R251). -/
def WordLoad (i : Instr) (rn rd : RegNum) (rm : Option RegNum) (x : Indexed) (priv : Privilege) (s : State) : Prop :=
  (IndexRestricted x.writeBack rn rd rm → ∃ r, exec i s = .refused r)
    ∧ (¬ IndexRestricted x.writeBack rn rd rm →
      (s.cfg.bigEndian = true → s.cfg.alignFault = false → x.addr.extractLsb' 0 2 ≠ 0#2 →
          exec i s = .refused .bigEndianUnalignedLoad)
        ∧ ((s.cfg.bigEndian = true → s.cfg.alignFault = false → x.addr.extractLsb' 0 2 = 0#2) →
          (s.wordFaults x.addr .read priv = true → TransferAborts i rn x s)
            ∧ (s.wordFaults x.addr .read priv = false →
              (rd ≠ 15 → LoadCompletes i rn rd x (s.atAccess.loadWord x.addr) s)
                ∧ (rd = 15 → s.cpsr.t = false → LoadsPc i (s.atAccess.loadWord x.addr) s fun t =>
                    (x.writeBack = true → t.cell (bank s.cpsr.mode rn) = x.ea)
                      ∧ RegisterFrame (s.touched rn x []) s.atAccess t))))

/-- LDRB and LDRBT as a whole (R245, R248, R253). -/
def ByteLoad (i : Instr) (rn rd : RegNum) (rm : Option RegNum) (x : Indexed) (priv : Privilege) (s : State) : Prop :=
  (IndexRestricted x.writeBack rn rd rm ∨ rd = 15 → ∃ r, exec i s = .refused r)
    ∧ (¬ IndexRestricted x.writeBack rn rd rm → rd ≠ 15 →
      (s.byteFaults x.addr .read priv = true → TransferAborts i rn x s)
        ∧ (s.byteFaults x.addr .read priv = false →
          LoadCompletes i rn rd x ((s.atAccess.mem.read x.addr.toNat).setWidth 32) s))

/-- STR and STRT as a whole (R246, R248, R252), `v` the value for Rd. -/
def WordStore (i : Instr) (rn rd : RegNum) (rm : Option RegNum) (x : Indexed) (priv : Privilege) (v : Word) (s : State) :
    Prop :=
  (IndexRestricted x.writeBack rn rd rm → ∃ r, exec i s = .refused r)
    ∧ (¬ IndexRestricted x.writeBack rn rd rm →
      (s.wordFaults x.addr .write priv = true → TransferAborts i rn x s)
        ∧ (s.wordFaults x.addr .write priv = false →
          StoreCompletes i rn x (alignWord x.addr).toNat (wordBytes s.cfg.bigEndian v) s))

/-- STRB and STRBT as a whole (R247, R248, R254). -/
def ByteStore (i : Instr) (rn rd : RegNum) (rm : Option RegNum) (x : Indexed) (priv : Privilege) (s : State) : Prop :=
  (IndexRestricted x.writeBack rn rd rm ∨ rd = 15 → ∃ r, exec i s = .refused r)
    ∧ (¬ IndexRestricted x.writeBack rn rd rm → rd ≠ 15 →
      (s.byteFaults x.addr .write priv = true → TransferAborts i rn x s)
        ∧ (s.byteFaults x.addr .write priv = false →
          StoreCompletes i rn x x.addr.toNat [(s.reg rd).extractLsb' 0 8] s))

/-- The restrictions of half-word and signed byte transfers other than alignment (46_halfword_transfer.md R267, R268). -/
def HalfRestricted (p w writeBack : Bool) (rn rd : RegNum) (rm : Option RegNum) : Prop :=
  (p = false ∧ w = true) ∨ rd = 15 ∨ IndexRestricted writeBack rn rd rm

/-- LDRH and LDRSH as a whole (46_halfword_transfer.md R270, R272), `v` the extended value. -/
def HalfLoad (i : Instr) (p w : Bool) (rn rd : RegNum) (rm : Option RegNum) (x : Indexed) (v : Word) (s : State) : Prop :=
  (HalfRestricted p w x.writeBack rn rd rm → ∃ r, exec i s = .refused r)
    ∧ (¬ HalfRestricted p w x.writeBack rn rd rm →
      (x.addr.getLsbD 0 = true → s.cfg.alignFault = false → exec i s = .refused .oddHalfwordAddress)
        ∧ ((x.addr.getLsbD 0 = true → s.cfg.alignFault = true) →
          (s.halfFaults x.addr .read s.privilege = true → TransferAborts i rn x s)
            ∧ (s.halfFaults x.addr .read s.privilege = false → LoadCompletes i rn rd x v s)))

/-- LDRSB as a whole (46_halfword_transfer.md R271). -/
def SignedByteLoad (i : Instr) (p w : Bool) (rn rd : RegNum) (rm : Option RegNum) (x : Indexed) (s : State) : Prop :=
  (HalfRestricted p w x.writeBack rn rd rm → ∃ r, exec i s = .refused r)
    ∧ (¬ HalfRestricted p w x.writeBack rn rd rm →
      (s.byteFaults x.addr .read s.privilege = true → TransferAborts i rn x s)
        ∧ (s.byteFaults x.addr .read s.privilege = false →
          LoadCompletes i rn rd x ((s.atAccess.mem.read x.addr.toNat).signExtend 32) s))

/-- STRH as a whole (46_halfword_transfer.md R273). -/
def HalfStore (i : Instr) (p w : Bool) (rn rd : RegNum) (rm : Option RegNum) (x : Indexed) (s : State) : Prop :=
  (HalfRestricted p w x.writeBack rn rd rm → ∃ r, exec i s = .refused r)
    ∧ (¬ HalfRestricted p w x.writeBack rn rd rm →
      (x.addr.getLsbD 0 = true → s.cfg.alignFault = false → exec i s = .refused .oddHalfwordAddress)
        ∧ ((x.addr.getLsbD 0 = true → s.cfg.alignFault = true) →
          (s.halfFaults x.addr .write s.privilege = true → TransferAborts i rn x s)
            ∧ (s.halfFaults x.addr .write s.privilege = false →
              StoreCompletes i rn x x.addr.toNat (halfBytes s.cfg.bigEndian ((s.reg rd).extractLsb' 0 16)) s)))

/-! ### Status register transfers (49_status_register.md) -/

/-- A status register's twelve bits after a move of `v` (R312, R313): the flags from bits 31 to 28 where the flags field is
selected, I, F, T and the mode field from bits 7 to 0 where the control field is. -/
def Psr.moved (p : Psr) (flags control : Bool) (v : Word) : Psr where
  n := if flags then v.getLsbD 31 else p.n
  z := if flags then v.getLsbD 30 else p.z
  c := if flags then v.getLsbD 29 else p.c
  v := if flags then v.getLsbD 28 else p.v
  i := if control then v.getLsbD 7 else p.i
  f := if control then v.getLsbD 6 else p.f
  t := if control then v.getLsbD 5 else p.t
  m := if control then v.extractLsb' 0 5 else p.m

/-- MSR once its operand `v` is at hand (R313 to R315): `r` selects the current SPSR, `flags` and `control` the fields. -/
def MovesToStatus (i : Instr) (r flags control : Bool) (v : Word) (s : State) : Prop :=
  (r = true → s.cpsr.mode = .user ∨ s.cpsr.mode = .system → exec i s = .refused .noSpsr)
    ∧ (r = true → ∀ q, s.spsrOf s.cpsr.mode = some q → Continues i s fun t =>
        t.spsrOf s.cpsr.mode = some (q.moved flags control v) ∧ (∀ m, m ≠ s.cpsr.mode → t.spsrOf m = s.spsrOf m)
          ∧ t.cpsr = s.cpsr ∧ SameRegistersBut [] s t ∧ SameMemory s t ∧ SamePlatform s t)
    ∧ (r = false → ∀ q, q = s.cpsr.saved.moved flags (control && decide (s.cpsr.mode ≠ .user)) v →
        (q.t ≠ s.cpsr.t → exec i s = .refused .msrChangesT)
          ∧ (q.t = s.cpsr.t → Mode.ofBits s.cfg q.m = none → exec i s = .refused .illegalMode)
          ∧ (q.t = s.cpsr.t → ∀ m, Mode.ofBits s.cfg q.m = some m → Continues i s fun t =>
              t.cpsr = q.withMode m ∧ RegisterFrame [] s t))

/-! ### Block transfers (47_multiple_transfer.md) -/

/-- The first address of a block, exact, from the base in a state (R282). -/
def State.blockFrom (s : State) (p u : Bool) (rn : RegNum) (list : BitVec 16) : Int :=
  blockStart p u (s.reg rn) (listedRegs list).length

/-- The block stays in the address space (R282, 20_memory.md R61). -/
def State.BlockFits (s : State) (p u : Bool) (rn : RegNum) (list : BitVec 16) : Prop :=
  0 ≤ s.blockFrom p u rn list ∧ s.blockFrom p u rn list + 4 * (listedRegs list).length ≤ 2 ^ 32

/-- The address of the k-th word of a block, its low two bits ignored (R282). -/
def State.blockWord (s : State) (p u : Bool) (rn : RegNum) (list : BitVec 16) (k : Nat) : Word :=
  BitVec.ofInt 32 (s.blockFrom p u rn list + 4 * k)

/-- Some word of the block raises a data abort (R285, 20_memory.md R70, R75). -/
def State.BlockFaults (s : State) (p u : Bool) (rn : RegNum) (list : BitVec 16) (kind : AccessKind) : Prop :=
  ∃ k, k < (listedRegs list).length ∧ s.wordFaults (s.blockWord p u rn list k) kind s.privilege = true

/-- The restrictions common to all block transfers (R283). -/
def BlockRestricted (w : Bool) (rn : RegNum) (list : BitVec 16) : Prop :=
  list = 0#16 ∨ rn = 15 ∨ (w = true ∧ list.getLsbD rn.val = true)

/-- The registers of mode `m` in a list, other than the pc. -/
def listedCells (m : Mode) (list : BitVec 16) : List Cell := ((listedRegs list).filter fun r => r ≠ 15).map (bank m)

/-- The base register where a block transfer writes it back. -/
def State.blockBaseCells (s : State) (w : Bool) (rn : RegNum) : List Cell := if w then [bank s.cpsr.mode rn] else []

/-- The k-th word of a block as an LDM reads it: in ascending order, other agents writing before each (20_memory.md R74). -/
def State.blockValue (s : State) (p u : Bool) (rn : RegNum) (list : BitVec 16) (k : Nat) : Word :=
  (s.atAccessNo (k + 1)).wordAt (s.blockWord p u rn list k)

/-- The state at the last access of a block transfer, as far as other agents have made it. -/
def State.atBlockEnd (s : State) (list : BitVec 16) : State := s.atAccessNo (listedRegs list).length

/-- What a byte at address `a` holds after the writes of other agents, if it held `b` before. -/
def byteAfterBus (a : Nat) (b : Byte) : BusWrites → Byte
  | [] => b
  | (d, v) :: rest => byteAfterBus a (if d.toNat = a then v else b) rest

/-- What other agents write after the k-th access of a block of `n` words and before its last. -/
def State.busBetween (s : State) (k n : Nat) : BusWrites := ((s.bus.take n).drop (k + 1)).flatten

/-- The words of the block have gone to the listed registers of mode `m` other than the pc, the first word to the lowest
register (R282, R285). -/
def WordsLoaded (m : Mode) (p u : Bool) (rn : RegNum) (list : BitVec 16) (s t : State) : Prop :=
  ∀ k r, (listedRegs list)[k]? = some r → r ≠ 15 → t.cell (bank m r) = s.blockValue p u rn list k

/-- The word at `lo`, the k-th of a block of `n`, has been written: each of its bytes holds the one `v` gives it in the
configured byte order, unless another agent has written it later in the block; it counts as written (20_memory.md R74, R82). -/
def WordWritten (s t : State) (k n lo : Nat) (v : Word) : Prop :=
  (∀ j b, (wordBytes s.cfg.bigEndian v)[j]? = some b → t.mem.read (lo + j) = byteAfterBus (lo + j) b (s.busBetween k n))
    ∧ lo ∈ t.written

/-- The word at `lo` has not been written by the processor: its four bytes are as other agents left them in `u`. -/
def WordKept (u t : State) (lo : Nat) : Prop :=
  (∀ j, j < 4 → t.mem.read (lo + j) = u.mem.read (lo + j)) ∧ (lo ∈ t.written ↔ lo ∈ u.written)

/-- No byte outside the block is other than in `u`, and no word outside it counts as newly written. -/
def SameOutsideBlock (p u : Bool) (rn : RegNum) (list : BitVec 16) (s v t : State) : Prop :=
  SameMemoryOutside (alignWord (s.blockWord p u rn list 0)).toNat (4 * (listedRegs list).length) v t
    ∧ ∀ a, (∀ k, k < (listedRegs list).length → a ≠ (alignWord (s.blockWord p u rn list k)).toNat) →
      (a ∈ t.written ↔ a ∈ v.written)

/-- The bytes of the block hold the values `value` gives the listed registers, the lowest register's at the lowest word,
and no other byte has changed (R282, R284) but by other agents. -/
def WordsStored (value : RegNum → Word) (p u : Bool) (rn : RegNum) (list : BitVec 16) (s t : State) : Prop :=
  (∀ k r, (listedRegs list)[k]? = some r →
      WordWritten s t k (listedRegs list).length (alignWord (s.blockWord p u rn list k)).toNat (value r))
    ∧ SameOutsideBlock p u rn list s (s.atBlockEnd list) t

/-- An STM abandoned by a data abort (20_memory.md R76): words below the first faulting one are written, a faulting word is
not, every other word is written or not, and nothing outside the block has changed but by other agents. -/
def PartlyStored (value : RegNum → Word) (p u : Bool) (rn : RegNum) (list : BitVec 16) (s t : State) : Prop :=
  (∀ k r lo, (listedRegs list)[k]? = some r → lo = (alignWord (s.blockWord p u rn list k)).toNat →
    ((∀ q, q ≤ k → s.wordFaults (s.blockWord p u rn list q) .write s.privilege = false) →
        WordWritten s t k (listedRegs list).length lo (value r))
      ∧ (s.wordFaults (s.blockWord p u rn list k) .write s.privilege = true → WordKept (s.atBlockEnd list) t lo)
      ∧ (WordWritten s t k (listedRegs list).length lo (value r) ∨ WordKept (s.atBlockEnd list) t lo))
    ∧ SameOutsideBlock p u rn list s (s.atBlockEnd list) t

/-- What an STM or the user bank STM does once its restrictions hold (R284, R288): refused where the block leaves the address
space, a data abort if a word faults, otherwise the words stored and the base written back. -/
def BlockStore (i : Instr) (value : RegNum → Word) (p u w : Bool) (rn : RegNum) (list : BitVec 16) (s : State) : Prop :=
  (¬ s.BlockFits p u rn list → exec i s = .refused .blockLeavesAddressSpace)
    ∧ (s.BlockFits p u rn list → s.BlockFaults p u rn list .write →
        Aborts i (s.blockBaseCells w rn) s (s.atBlockEnd list) (PartlyStored value p u rn list s))
    ∧ (s.BlockFits p u rn list → ¬ s.BlockFaults p u rn list .write →
        Continues i s fun t =>
          WordsStored value p u rn list s t
            ∧ (w = true → t.cell (bank s.cpsr.mode rn) = blockWriteBack u (s.reg rn) (listedRegs list).length)
            ∧ t.cpsr = s.cpsr ∧ SameRegistersBut (s.blockBaseCells w rn) s t ∧ t.spsr = s.spsr
            ∧ SamePlatform (s.atBlockEnd list) t)

/-- What an LDM into the registers of mode `m` does once its restrictions hold, but for its end `P` (R285 to R287): refused
where the block leaves the address space, a data abort if a word faults (20_memory.md R76: the base is open only where it was to
be written back), otherwise `P`. -/
def BlockLoad (i : Instr) (m : Mode) (p u w : Bool) (rn : RegNum) (list : BitVec 16) (s : State) (P : Prop) : Prop :=
  (¬ s.BlockFits p u rn list → exec i s = .refused .blockLeavesAddressSpace)
    ∧ (s.BlockFits p u rn list → s.BlockFaults p u rn list .read →
        Aborts i (s.blockBaseCells w rn ++ listedCells m list) s (s.atBlockEnd list) fun t =>
          SameMemory (s.atBlockEnd list) t
            ∧ (w = false → bank s.cpsr.mode rn ≠ .r14_abt → t.cell (bank s.cpsr.mode rn) = s.cell (bank s.cpsr.mode rn)))
    ∧ (s.BlockFits p u rn list → ¬ s.BlockFaults p u rn list .read → P)

/-- What an LDM of mode `m` leaves besides the CPSR and the pc (R285 to R287). -/
def BlockLoaded (m : Mode) (p u w : Bool) (rn : RegNum) (list : BitVec 16) (s t : State) : Prop :=
  WordsLoaded m p u rn list s t
    ∧ (w = true → t.cell (bank s.cpsr.mode rn) = blockWriteBack u (s.reg rn) (listedRegs list).length)
    ∧ RegisterFrame (s.blockBaseCells w rn ++ listedCells m list) (s.atBlockEnd list) t

end Sys2Proof.Machine
end

