-- ==== Sys2Proof/Certificates/Slice0/Obligations.lean ====
section
/-! DEFINITION. The statements for the provers, from the numbered rules of spec/. The terms they use are in Safety.lean. -/

open Sys2Proof Sys2Proof.Machine

/-- A few words written out by the spec decode to the instructions it names. (R185, R150, R225, R244, R272, R286, R302, R313) -/
def Obligations.DecodeKnownWords : Prop :=
  decode 0xE0010002#32 = .ok (.andReg .al false 1 0 0 .lsl 2)
    ∧ decode 0xE2500001#32 = .ok (.subImm .al true 0 0 0 1)
    ∧ decode 0xE1B01022#32 = .ok (.movReg .al true 0 1 0 .lsr 2)
    ∧ decode 0xEA000002#32 = .ok (.b .al 2)
    ∧ decode 0xFB000001#32 = .ok (.blxImm true 1)
    ∧ decode 0xE02AA190#32 = .ok (.mla .al false 10 10 1 0)
    ∧ decode 0xE71100C2#32 = .ok (.ldrRegPre .al false false 1 0 1 .asr 2)
    ∧ decode 0xE0D100F2#32 = .ok (.ldrshImm .al false true false 1 0 2)
    ∧ decode 0xE8FD800F#32 = .ok (.ldmReturn .al false true true 13 0x800F)
    ∧ decode 0xE1401091#32 = .ok (.swpb .al 0 1 1)
    ∧ decode 0xE368F202#32 = .ok (.msrImm .al true 8 2 2)

/-- Every well-formed instruction is what its own encoding decodes to. (R102, R103, R104, R107, R108, R109, R112, R114, R115, R116, R119, R130) -/
def Obligations.DecodeOfEncodeIsTheInstruction : Prop :=
  ∀ i : Instr, i.wellFormed = true → decode (encode i) = .ok i

/-- Decoding drops no bit of a word. (R102, R127, R130) -/
def Obligations.EncodeOfDecodeIsTheWord : Prop :=
  ∀ (w : Word) (i : Instr), decode w = .ok i → encode i = w ∧ i.wellFormed = true

/-- A word with condition field 0b1111 is BLX format (2) or refused, never skipped. (R126, R143) -/
def Obligations.NeverConditionIsRefused : Prop :=
  ∀ (s : State) (w : Word), s.Fetches w → w.extractLsb' 28 4 = 15#4 →
    (w.extractLsb' 25 3 = 5#3 ∧ s.cfg.hasV5T = true →
        decode w = .ok (.blxImm (w.getLsbD 24) (w.extractLsb' 0 24)))
      ∧ (¬ (w.extractLsb' 25 3 = 5#3 ∧ s.cfg.hasV5T = true) → ∃ r, step s = .refused r)

/-- A step runs the instruction the fetched word decodes to, and is refused where it decodes to none. (R11, R64, R130) That other agents' writes are a list, of which every access uses up the next entry, is the model's form of 20_memory.md R74 and R80 (DESIGN CHOICE, log 9). -/
def Obligations.StepRunsDecodedInstruction : Prop :=
  ∀ (s : State) (w : Word), s.Fetches w →
    (∀ i, decode w = .ok i → step s = exec i s.atFetch)
      ∧ (decode w = .error .neverCondition → step s = .refused .neverCondition)
      ∧ (∀ e, decode w = .error e → e ≠ .neverCondition → step s = .refused .unallocated)

/-- Reset, then FIQ, then IRQ, is taken before the fetch, and then it is the whole step. (R350, R346, R347) -/
def Obligations.EventsComeBeforeTheInstruction : Prop :=
  ∀ s : State,
    (s.nextInputs.resetLine = true → ∃ t, step s = .next t ∧ t.cpsr.mode = .svc ∧ t.pc = 0x00000000#32)
      ∧ (s.nextInputs.resetLine = false → s.nextInputs.fiqLine = true → s.cpsr.f = false →
          ∃ t, step s = .next t ∧ t.cell .r14_fiq = s.pc + 4#32 ∧ t.spsr = { s.spsr with fiq := s.cpsr.saved }
            ∧ t.cpsr = { s.cpsr with i := true, f := true, t := false, mode := .fiq } ∧ t.pc = 0x0000001C#32
            ∧ SameRegistersBut [.r14_fiq] s t ∧ SameMemory s.afterInputs t ∧ SamePlatform s.afterInputs t)
      ∧ (s.nextInputs.resetLine = false → (s.nextInputs.fiqLine = true → s.cpsr.f = true) →
          s.nextInputs.irqLine = true → s.cpsr.i = false →
          ∃ t, step s = .next t ∧ t.cell .r14_irq = s.pc + 4#32 ∧ t.spsr = { s.spsr with irq := s.cpsr.saved }
            ∧ t.cpsr = { s.cpsr with i := true, t := false, mode := .irq } ∧ t.pc = 0x00000018#32
            ∧ SameRegistersBut [.r14_irq] s t ∧ SameMemory s.afterInputs t ∧ SamePlatform s.afterInputs t)
      ∧ (s.NoEvent → step s = runInstruction s.afterInputs)

/-- What is known after a reset (70_reset_and_hazards.md R381). That memory keeps its bytes but for those the cut-short instruction was writing is the model's reading of decision D21 (log 13), and that no word then counts as written is log 12. That other agents' writes are a list, of which every access uses up the next entry, is the model's form of 20_memory.md R74 and R80 (DESIGN CHOICE, log 9). -/
def Obligations.ResetEventLeavesKnownState : Prop :=
  ∀ s : State, s.nextInputs.resetLine = true → s.mem.wf = true →
    ∃ t, step s = .next t ∧ t.cpsr.mode = .svc ∧ t.cpsr.i = true ∧ t.cpsr.f = true ∧ t.cpsr.t = false
      ∧ t.pc = 0x00000000#32 ∧ t.written = [] ∧ t.cfg = s.cfg
      ∧ ∀ a, t.mem.read a = s.atFetch.mem.read a
        ∨ ∃ u, runAlone s.atFetch = .next u ∧ t.mem.read a = u.mem.read a

/-- State.reset has the values the spec gives for reset. (R45, R381) -/
def Obligations.ResetStateHasTheSpecsValues : Prop :=
  State.reset.cpsr.mode = .svc ∧ State.reset.cpsr.i = true ∧ State.reset.cpsr.f = true ∧ State.reset.cpsr.t = false
    ∧ State.reset.pc = 0x00000000#32

/-- Every exception entry saves the CPSR and the link and goes to its vector. (R340) -/
def Obligations.ExceptionEntrySavesAndSwitches : Prop :=
  (∀ (e : Exception) (link : Word) (s : State),
    (takeException e link s).cell (bank e.mode 14) = link
      ∧ (takeException e link s).spsrOf e.mode = some s.cpsr.saved
      ∧ (takeException e link s).cpsr.mode = e.mode
      ∧ (takeException e link s).cpsr.i = true
      ∧ (takeException e link s).cpsr.t = false
      ∧ ((takeException e link s).cpsr.f = true ↔ s.cpsr.f = true ∨ e = .fiq)
      ∧ (takeException e link s).cpsr.n = s.cpsr.n ∧ (takeException e link s).cpsr.z = s.cpsr.z
      ∧ (takeException e link s).cpsr.c = s.cpsr.c ∧ (takeException e link s).cpsr.v = s.cpsr.v
      ∧ (takeException e link s).pc = e.vector
      ∧ SameRegistersBut [bank e.mode 14] s (takeException e link s)
      ∧ (∀ m, m ≠ e.mode → (takeException e link s).spsrOf m = s.spsrOf m)
      ∧ SameMemory s (takeException e link s) ∧ SamePlatform s (takeException e link s))
    ∧ Exception.undefined.mode = .undef ∧ Exception.undefined.vector = 0x00000004#32
    ∧ Exception.softwareInterrupt.mode = .svc ∧ Exception.softwareInterrupt.vector = 0x00000008#32
    ∧ Exception.prefetchAbort.mode = .abort ∧ Exception.prefetchAbort.vector = 0x0000000C#32
    ∧ Exception.dataAbort.mode = .abort ∧ Exception.dataAbort.vector = 0x00000010#32
    ∧ Exception.irq.mode = .irq ∧ Exception.irq.vector = 0x00000018#32
    ∧ Exception.fiq.mode = .fiq ∧ Exception.fiq.vector = 0x0000001C#32

/-- A fetch the memory system refuses takes the prefetch abort (60_exceptions.md R342). That it does so for a word this processor has written as well, where 20_memory.md R82 refuses the fetch, is the model's reading (DEDUCED, log 27). That other agents' writes are a list, of which every access uses up the next entry, is the model's form of 20_memory.md R74 and R80 (DESIGN CHOICE, log 9). -/
def Obligations.RefusedFetchTakesPrefetchAbort : Prop :=
  ∀ s : State, s.NoEvent → s.cpsr.t = false → s.pc.extractLsb' 0 2 = 0#2 → s.atFetch.fetchFaults = true →
    ∃ t, step s = .next t ∧ t.cell .r14_abt = s.pc + 4#32 ∧ t.spsr = { s.spsr with abt := s.cpsr.saved }
      ∧ t.cpsr = { s.cpsr with i := true, t := false, mode := .abort } ∧ t.pc = 0x0000000C#32
      ∧ SameRegistersBut [.r14_abt] s t ∧ SameMemory s.atFetch t ∧ SamePlatform s.atFetch t

/-- A step in Thumb state is refused unless an exception is entered, which clears T. (R106) -/
def Obligations.ThumbStateIsRefused : Prop :=
  ∀ s : State, s.cpsr.t = true →
    (s.NoEvent → step s = .refused .thumbState) ∧ (¬ s.NoEvent → ∃ t, step s = .next t ∧ t.cpsr.t = false)

/-- A word this processor has written is not executed unless fetch and data are coherent (20_memory.md R82). That a store of a half-word or a byte marks the whole word is the model's reading (DEDUCED, log 12), and so is that a refused fetch comes first (DEDUCED, log 27). That other agents' writes are a list, of which every access uses up the next entry, is the model's form of 20_memory.md R74 and R80 (DESIGN CHOICE, log 9). -/
def Obligations.FetchOfAWrittenWordIsRefused : Prop :=
  (∀ (s : State) (a v : Word) (b : Byte) (h : Half) (x : Nat),
    (x ∈ (s.storeWord a v).written ↔ x = (alignWord a).toNat ∨ x ∈ s.written)
      ∧ (x ∈ (s.storeHalf a h).written ↔ x = (alignWord a).toNat ∨ x ∈ s.written)
      ∧ (x ∈ (s.storeByte a b).written ↔ x = (alignWord a).toNat ∨ x ∈ s.written))
    ∧ ∀ s : State, s.NoEvent → s.cpsr.t = false → s.pc.extractLsb' 0 2 = 0#2 → s.atFetch.fetchFaults = false →
      s.pc.toNat ∈ s.written →
        (s.cfg.ifetchCoherent = false → step s = .refused .fetchOfWrittenWord)
          ∧ (s.cfg.ifetchCoherent = true → ∀ i, decode (s.atFetch.wordAt s.pc) = .ok i → step s = exec i s.atFetch)

/-- State.reset meets the invariant. (R45, R25, R33, R34) -/
def Obligations.ResetMeetsTheInvariant : Prop :=
  State.reset.Inv

/-- Every step keeps the invariant. (R25, R28, R33, R34, R71) -/
def Obligations.StepKeepsTheInvariant : Prop :=
  ∀ s t : State, s.Inv → step s = .next t → t.Inv

/-- No run from a state that meets the invariant ever faults. (R25, R71) -/
def Obligations.GoodStatesNeverFault : Prop :=
  ∀ s : State, s.Inv → s.Safe

/-- No step changes the configuration (00_scope.md R6, 20_memory.md R63: the byte order is constant for a run). That the configuration is a field of the state is the model's choice (DESIGN CHOICE, log 10), and so is that the levels of the lines are a list of which a step uses up one entry (DESIGN CHOICE, log 8). -/
def Obligations.StepKeepsTheConfiguration : Prop :=
  ∀ s t : State, step s = .next t → t.cfg = s.cfg ∧ t.inputs = s.inputs.tail

/-- From User mode only an exception leads to a privileged mode. (R366, R314) -/
def Obligations.UserModeIsLeftOnlyByExceptions : Prop :=
  ∀ s t : State, s.cpsr.mode = .user → step s = .next t → t.cpsr.mode ≠ .user →
    (s.nextInputs.resetLine = true ∧ t.cpsr.mode = .svc ∧ t.pc = 0x00000000#32)
      ∨ ∃ e : Exception, t.cpsr.mode = e.mode ∧ t.pc = e.vector ∧ t.cpsr.i = true ∧ t.cpsr.t = false
          ∧ t.spsrOf e.mode = some s.cpsr.saved

/-- A step of a User program changes no interrupt mask, no SPSR and no banked register. (R32, R23, R365) -/
def Obligations.UserProgramsKeepPrivilegedState : Prop :=
  ∀ s t : State, s.cpsr.mode = .user → step s = .next t → t.cpsr.mode = .user →
    t.cpsr.i = s.cpsr.i ∧ t.cpsr.f = s.cpsr.f ∧ t.spsr = s.spsr ∧ ∀ c ∈ privilegedCells, t.cell c = s.cell c

/-- The fifteen conditions test the flags as Table 5.3 says. (R141) -/
def Obligations.ConditionTable : Prop :=
  ∀ p : Cpsr,
    (conditionPassed .eq p = true ↔ p.z = true) ∧ (conditionPassed .ne p = true ↔ p.z = false)
      ∧ (conditionPassed .cs p = true ↔ p.c = true) ∧ (conditionPassed .cc p = true ↔ p.c = false)
      ∧ (conditionPassed .mi p = true ↔ p.n = true) ∧ (conditionPassed .pl p = true ↔ p.n = false)
      ∧ (conditionPassed .vs p = true ↔ p.v = true) ∧ (conditionPassed .vc p = true ↔ p.v = false)
      ∧ (conditionPassed .hi p = true ↔ p.c = true ∧ p.z = false)
      ∧ (conditionPassed .ls p = true ↔ p.c = false ∨ p.z = true)
      ∧ (conditionPassed .ge p = true ↔ p.n = p.v) ∧ (conditionPassed .lt p = true ↔ p.n ≠ p.v)
      ∧ (conditionPassed .gt p = true ↔ p.z = false ∧ p.n = p.v)
      ∧ (conditionPassed .le p = true ↔ p.z = true ∨ p.n ≠ p.v) ∧ conditionPassed .al p = true

/-- After CMP a, b the conditions compare a and b, unsigned and signed. (R145) -/
def Obligations.ConditionsAfterCompare : Prop :=
  ∀ (s t : State) (rn rd : RegNum) (i : Instr) (b : Word),
    ((∃ rot imm8, i = .cmpImm .al rn rd rot imm8 ∧ b = (s.operandImm rot imm8).value)
      ∨ (∃ amount sh rm, i = .cmpReg .al rn rd amount sh rm ∧ b = (s.operandReg amount sh rm).value)
      ∨ (∃ rs sh rm, i = .cmpRsr .al rn rd rs sh rm ∧ b = (s.operandRsr rs sh rm).value)) →
    exec i s = .next t →
      (conditionPassed .eq t.cpsr = true ↔ s.reg rn = b) ∧ (conditionPassed .ne t.cpsr = true ↔ s.reg rn ≠ b)
        ∧ (conditionPassed .cs t.cpsr = true ↔ b.toNat ≤ (s.reg rn).toNat)
        ∧ (conditionPassed .cc t.cpsr = true ↔ (s.reg rn).toNat < b.toNat)
        ∧ (conditionPassed .hi t.cpsr = true ↔ b.toNat < (s.reg rn).toNat)
        ∧ (conditionPassed .ls t.cpsr = true ↔ (s.reg rn).toNat ≤ b.toNat)
        ∧ (conditionPassed .ge t.cpsr = true ↔ b.toInt ≤ (s.reg rn).toInt)
        ∧ (conditionPassed .lt t.cpsr = true ↔ (s.reg rn).toInt < b.toInt)
        ∧ (conditionPassed .gt t.cpsr = true ↔ b.toInt < (s.reg rn).toInt)
        ∧ (conditionPassed .le t.cpsr = true ↔ (s.reg rn).toInt ≤ b.toInt)
        ∧ (conditionPassed .mi t.cpsr = true ↔ (s.reg rn - b).getLsbD 31 = true)
        ∧ (conditionPassed .pl t.cpsr = true ↔ (s.reg rn - b).getLsbD 31 = false)
        ∧ (conditionPassed .vs t.cpsr = true ↔
            ¬ (-2 ^ 31 ≤ (s.reg rn).toInt - b.toInt ∧ (s.reg rn).toInt - b.toInt < 2 ^ 31))
        ∧ (conditionPassed .vc t.cpsr = true ↔
            -2 ^ 31 ≤ (s.reg rn).toInt - b.toInt ∧ (s.reg rn).toInt - b.toInt < 2 ^ 31)

/-- An instruction whose condition fails changes nothing but the pc. (R142) -/
def Obligations.FailedConditionSkips : Prop :=
  ∀ (i : Instr) (c : Cond) (s : State), i.condition = some c → conditionPassed c s.cpsr = false →
    i.present s.cfg = true → Continues i s fun t => t.cpsr = s.cpsr ∧ RegisterFrame [] s t

/-- An instruction of an absent group is refused (30_encoding.md R131). That this comes before the condition test is the model's reading (log 21). -/
def Obligations.AbsentFeatureIsRefused : Prop :=
  ∀ (i : Instr) (s : State), i.present s.cfg = false → exec i s = .refused .featureAbsent

/-- Operand 2 as an immediate or shifted by an immediate amount, bit by bit. (R173) -/
def Obligations.OperandShiftedByImmediate : Prop :=
  (∀ (s : State) (rot : BitVec 4) (imm8 : BitVec 8),
    (∀ i, i < 32 → (s.operandImm rot imm8).value.getLsbD i = (imm8.setWidth 32).getLsbD ((i + 2 * rot.toNat) % 32))
      ∧ (s.operandImm rot imm8).carry = if rot = 0#4 then s.cpsr.c else (s.operandImm rot imm8).value.getLsbD 31)
    ∧ ∀ (s : State) (rm : RegNum) (v : Word),
      v = (if rm = 15 then s.pc + 8#32 else s.cell (bank s.cpsr.mode rm)) →
      s.operandReg 0 .lsl rm = { value := v, carry := s.cpsr.c }
        ∧ s.operandReg 0 .lsr rm = { value := 0#32, carry := v.getLsbD 31 }
        ∧ ((∀ i, i < 32 → (s.operandReg 0 .asr rm).value.getLsbD i = v.getLsbD 31)
          ∧ (s.operandReg 0 .asr rm).carry = v.getLsbD 31)
        ∧ ((∀ i, i < 32 → (s.operandReg 0 .ror rm).value.getLsbD i = if i = 31 then s.cpsr.c else v.getLsbD (i + 1))
          ∧ (s.operandReg 0 .ror rm).carry = v.getLsbD 0)
        ∧ ∀ n : BitVec 5, n ≠ 0#5 →
          ((∀ i, i < 32 → (s.operandReg n .lsl rm).value.getLsbD i = (decide (n.toNat ≤ i) && v.getLsbD (i - n.toNat)))
            ∧ (s.operandReg n .lsl rm).carry = v.getLsbD (32 - n.toNat))
          ∧ ((∀ i, i < 32 → (s.operandReg n .lsr rm).value.getLsbD i = v.getLsbD (i + n.toNat))
            ∧ (s.operandReg n .lsr rm).carry = v.getLsbD (n.toNat - 1))
          ∧ ((∀ i, i < 32 → (s.operandReg n .asr rm).value.getLsbD i = v.getLsbD (min (i + n.toNat) 31))
            ∧ (s.operandReg n .asr rm).carry = v.getLsbD (n.toNat - 1))
          ∧ ((∀ i, i < 32 → (s.operandReg n .ror rm).value.getLsbD i = v.getLsbD ((i + n.toNat) % 32))
            ∧ (s.operandReg n .ror rm).carry = v.getLsbD (n.toNat - 1))

/-- Operand 2 shifted by the bottom byte of a register, bit by bit. (R174) -/
def Obligations.OperandShiftedByRegister : Prop :=
  ∀ (s : State) (rs rm : RegNum) (v : Word) (n : Nat), rs ≠ 15 → rm ≠ 15 →
    v = s.cell (bank s.cpsr.mode rm) → n = (s.cell (bank s.cpsr.mode rs)).toNat % 256 →
    (n = 0 → ∀ sh, s.operandRsr rs sh rm = { value := v, carry := s.cpsr.c })
      ∧ (1 ≤ n → n ≤ 31 →
        (∀ i, i < 32 → (s.operandRsr rs .lsl rm).value.getLsbD i = (decide (n ≤ i) && v.getLsbD (i - n)))
          ∧ (s.operandRsr rs .lsl rm).carry = v.getLsbD (32 - n)
          ∧ (∀ i, i < 32 → (s.operandRsr rs .lsr rm).value.getLsbD i = v.getLsbD (i + n))
          ∧ (s.operandRsr rs .lsr rm).carry = v.getLsbD (n - 1)
          ∧ (∀ i, i < 32 → (s.operandRsr rs .asr rm).value.getLsbD i = v.getLsbD (min (i + n) 31))
          ∧ (s.operandRsr rs .asr rm).carry = v.getLsbD (n - 1))
      ∧ (32 ≤ n →
        s.operandRsr rs .lsl rm = { value := 0#32, carry := decide (n = 32) && v.getLsbD 0 }
          ∧ s.operandRsr rs .lsr rm = { value := 0#32, carry := decide (n = 32) && v.getLsbD 31 }
          ∧ (∀ i, i < 32 → (s.operandRsr rs .asr rm).value.getLsbD i = v.getLsbD 31)
          ∧ (s.operandRsr rs .asr rm).carry = v.getLsbD 31)
      ∧ (n ≠ 0 → n % 32 = 0 → s.operandRsr rs .ror rm = { value := v, carry := v.getLsbD 31 })
      ∧ (n % 32 ≠ 0 →
        (∀ i, i < 32 → (s.operandRsr rs .ror rm).value.getLsbD i = v.getLsbD ((i + n % 32) % 32))
          ∧ (s.operandRsr rs .ror rm).carry = v.getLsbD (n % 32 - 1))

/-- AND, EOR, ORR and BIC in all three forms: result, flags and frame. (R185, R186, R197, R199) -/
def Obligations.LogicalOperationsResultAndFlags : Prop :=
  ∀ (s : State) (cond : Cond) (sf : Bool) (rn rd : RegNum), conditionPassed cond s.cpsr = true →
    (EveryOperand2 (.andImm cond sf rn rd) (.andReg cond sf rn rd) (.andRsr cond sf rn rd) [rd, rn] s fun i b =>
        ResultGoesTo i sf rd (s.reg rn &&& b.value) (logicalFlags (s.reg rn &&& b.value) b.carry s.cpsr) s)
      ∧ (EveryOperand2 (.eorImm cond sf rn rd) (.eorReg cond sf rn rd) (.eorRsr cond sf rn rd) [rd, rn] s fun i b =>
        ResultGoesTo i sf rd (s.reg rn ^^^ b.value) (logicalFlags (s.reg rn ^^^ b.value) b.carry s.cpsr) s)
      ∧ (EveryOperand2 (.orrImm cond sf rn rd) (.orrReg cond sf rn rd) (.orrRsr cond sf rn rd) [rd, rn] s fun i b =>
        ResultGoesTo i sf rd (s.reg rn ||| b.value) (logicalFlags (s.reg rn ||| b.value) b.carry s.cpsr) s)
      ∧ (EveryOperand2 (.bicImm cond sf rn rd) (.bicReg cond sf rn rd) (.bicRsr cond sf rn rd) [rd, rn] s fun i b =>
        ResultGoesTo i sf rd (s.reg rn &&& ~~~ b.value) (logicalFlags (s.reg rn &&& ~~~ b.value) b.carry s.cpsr) s)

/-- MOV and MVN (43_data_processing.md R198, R200). That an Rn field of 15, which both ignore (R127), does not make the form that shifts by a register one of R175 is the model's reading (log 15). -/
def Obligations.MovesResultAndFlags : Prop :=
  ∀ (s : State) (cond : Cond) (sf : Bool) (rn rd : RegNum), conditionPassed cond s.cpsr = true →
    (EveryOperand2 (.movImm cond sf rn rd) (.movReg cond sf rn rd) (.movRsr cond sf rn rd) [rd] s fun i b =>
        ResultGoesTo i sf rd (b.value) (logicalFlags (b.value) b.carry s.cpsr) s)
      ∧ (EveryOperand2 (.mvnImm cond sf rn rd) (.mvnReg cond sf rn rd) (.mvnRsr cond sf rn rd) [rd] s fun i b =>
        ResultGoesTo i sf rd (~~~ b.value) (logicalFlags (~~~ b.value) b.carry s.cpsr) s)

/-- ADD and ADC in all three forms: result, flags and frame. (R189, R190) -/
def Obligations.AdditionsResultAndFlags : Prop :=
  ∀ (s : State) (cond : Cond) (sf : Bool) (rn rd : RegNum), conditionPassed cond s.cpsr = true →
    (EveryOperand2 (.addImm cond sf rn rd) (.addReg cond sf rn rd) (.addRsr cond sf rn rd) [rd, rn] s fun i b =>
        ResultGoesTo i sf rd (s.reg rn + b.value)
          (arithFlags (s.reg rn + b.value) (decide (2 ^ 32 ≤ (s.reg rn).toNat + b.value.toNat)) ((s.reg rn).toInt + b.value.toInt) s.cpsr) s)
      ∧ (EveryOperand2 (.adcImm cond sf rn rd) (.adcReg cond sf rn rd) (.adcRsr cond sf rn rd) [rd, rn] s fun i b =>
        ResultGoesTo i sf rd (s.reg rn + b.value + (BitVec.ofBool s.cpsr.c).setWidth 32)
          (arithFlags (s.reg rn + b.value + (BitVec.ofBool s.cpsr.c).setWidth 32) (decide (2 ^ 32 ≤ (s.reg rn).toNat + b.value.toNat + s.cpsr.c.toNat)) ((s.reg rn).toInt + b.value.toInt + (s.cpsr.c.toNat : Int)) s.cpsr) s)

/-- SUB and SBC in all three forms: result, flags and frame. (R187, R191) -/
def Obligations.SubtractionsResultAndFlags : Prop :=
  ∀ (s : State) (cond : Cond) (sf : Bool) (rn rd : RegNum), conditionPassed cond s.cpsr = true →
    (EveryOperand2 (.subImm cond sf rn rd) (.subReg cond sf rn rd) (.subRsr cond sf rn rd) [rd, rn] s fun i b =>
        ResultGoesTo i sf rd (s.reg rn - b.value)
          (arithFlags (s.reg rn - b.value) (decide (b.value.toNat ≤ (s.reg rn).toNat)) ((s.reg rn).toInt - b.value.toInt) s.cpsr) s)
      ∧ (EveryOperand2 (.sbcImm cond sf rn rd) (.sbcReg cond sf rn rd) (.sbcRsr cond sf rn rd) [rd, rn] s fun i b =>
        ResultGoesTo i sf rd (s.reg rn - b.value - (BitVec.ofBool (!s.cpsr.c)).setWidth 32)
          (arithFlags (s.reg rn - b.value - (BitVec.ofBool (!s.cpsr.c)).setWidth 32) (decide (b.value.toNat + (!s.cpsr.c).toNat ≤ (s.reg rn).toNat)) ((s.reg rn).toInt - b.value.toInt - ((!s.cpsr.c).toNat : Int)) s.cpsr) s)

/-- RSB and RSC in all three forms: result, flags and frame. (R188, R192) -/
def Obligations.ReverseSubtractionsResultAndFlags : Prop :=
  ∀ (s : State) (cond : Cond) (sf : Bool) (rn rd : RegNum), conditionPassed cond s.cpsr = true →
    (EveryOperand2 (.rsbImm cond sf rn rd) (.rsbReg cond sf rn rd) (.rsbRsr cond sf rn rd) [rd, rn] s fun i b =>
        ResultGoesTo i sf rd (b.value - s.reg rn)
          (arithFlags (b.value - s.reg rn) (decide ((s.reg rn).toNat ≤ b.value.toNat)) (b.value.toInt - (s.reg rn).toInt) s.cpsr) s)
      ∧ (EveryOperand2 (.rscImm cond sf rn rd) (.rscReg cond sf rn rd) (.rscRsr cond sf rn rd) [rd, rn] s fun i b =>
        ResultGoesTo i sf rd (b.value - s.reg rn - (BitVec.ofBool (!s.cpsr.c)).setWidth 32)
          (arithFlags (b.value - s.reg rn - (BitVec.ofBool (!s.cpsr.c)).setWidth 32) (decide ((s.reg rn).toNat + (!s.cpsr.c).toNat ≤ b.value.toNat)) (b.value.toInt - (s.reg rn).toInt - ((!s.cpsr.c).toNat : Int)) s.cpsr) s)

/-- TST and TEQ (43_data_processing.md R193, R194). That an Rd field of 15, which both ignore (R127, R178), does not make the form that shifts by a register one of R175 is the model's reading (log 15). -/
def Obligations.TestsSetOnlyFlags : Prop :=
  ∀ (s : State) (cond : Cond) (rn rd : RegNum), conditionPassed cond s.cpsr = true →
    (EveryOperand2 (.tstImm cond rn rd) (.tstReg cond rn rd) (.tstRsr cond rn rd) [rn] s fun i b =>
        OnlyFlags i (logicalFlags (s.reg rn &&& b.value) b.carry s.cpsr) s)
      ∧ (EveryOperand2 (.teqImm cond rn rd) (.teqReg cond rn rd) (.teqRsr cond rn rd) [rn] s fun i b =>
        OnlyFlags i (logicalFlags (s.reg rn ^^^ b.value) b.carry s.cpsr) s)

/-- CMP and CMN (43_data_processing.md R195, R196). That an Rd field of 15, which both ignore (R127, R178), does not make the form that shifts by a register one of R175 is the model's reading (log 15). -/
def Obligations.ComparesSetOnlyFlags : Prop :=
  ∀ (s : State) (cond : Cond) (rn rd : RegNum), conditionPassed cond s.cpsr = true →
    (EveryOperand2 (.cmpImm cond rn rd) (.cmpReg cond rn rd) (.cmpRsr cond rn rd) [rn] s fun i b =>
        OnlyFlags i (arithFlags (s.reg rn - b.value) (decide (b.value.toNat ≤ (s.reg rn).toNat)) ((s.reg rn).toInt - b.value.toInt) s.cpsr) s)
      ∧ (EveryOperand2 (.cmnImm cond rn rd) (.cmnReg cond rn rd) (.cmnRsr cond rn rd) [rn] s fun i b =>
        OnlyFlags i (arithFlags (s.reg rn + b.value) (decide (2 ^ 32 ≤ (s.reg rn).toNat + b.value.toNat)) ((s.reg rn).toInt + b.value.toInt) s.cpsr) s)

/-- An exception return on a processor without Thumb (43_data_processing.md R178, 47_multiple_transfer.md R286). The spec copies the whole SPSR and says that T is then always 0 (10_state.md R33); that a saved T bit therefore does not reach the CPSR, and that the target must be word-aligned, is the model's reading (DEDUCED, log 16). -/
def Obligations.ReturnWithoutThumbLeavesTZero : Prop :=
  ∀ (s : State) (cond : Cond) (q : Psr) (m : Mode) (p u w : Bool) (rn : RegNum) (list : BitVec 16),
    s.cfg.hasThumb = false → conditionPassed cond s.cpsr = true → s.spsrOf s.cpsr.mode = some q →
    Mode.ofBits s.cfg q.m = some m → q.t = true →
    (BothPcForms (.andImm cond true rn 15) (.andReg cond true rn 15) s fun i b =>
        ReturnsWithoutThumb i (s.reg rn &&& b) q m s fun t => RegisterFrame [] s t)
      ∧ (BothPcForms (.eorImm cond true rn 15) (.eorReg cond true rn 15) s fun i b =>
        ReturnsWithoutThumb i (s.reg rn ^^^ b) q m s fun t => RegisterFrame [] s t)
      ∧ (BothPcForms (.subImm cond true rn 15) (.subReg cond true rn 15) s fun i b =>
        ReturnsWithoutThumb i (s.reg rn - b) q m s fun t => RegisterFrame [] s t)
      ∧ (BothPcForms (.rsbImm cond true rn 15) (.rsbReg cond true rn 15) s fun i b =>
        ReturnsWithoutThumb i (b - s.reg rn) q m s fun t => RegisterFrame [] s t)
      ∧ (BothPcForms (.addImm cond true rn 15) (.addReg cond true rn 15) s fun i b =>
        ReturnsWithoutThumb i (s.reg rn + b) q m s fun t => RegisterFrame [] s t)
      ∧ (BothPcForms (.adcImm cond true rn 15) (.adcReg cond true rn 15) s fun i b =>
        ReturnsWithoutThumb i (s.reg rn + b + (BitVec.ofBool s.cpsr.c).setWidth 32) q m s fun t => RegisterFrame [] s t)
      ∧ (BothPcForms (.sbcImm cond true rn 15) (.sbcReg cond true rn 15) s fun i b =>
        ReturnsWithoutThumb i (s.reg rn - b - (BitVec.ofBool (!s.cpsr.c)).setWidth 32) q m s fun t => RegisterFrame [] s t)
      ∧ (BothPcForms (.rscImm cond true rn 15) (.rscReg cond true rn 15) s fun i b =>
        ReturnsWithoutThumb i (b - s.reg rn - (BitVec.ofBool (!s.cpsr.c)).setWidth 32) q m s fun t => RegisterFrame [] s t)
      ∧ (BothPcForms (.orrImm cond true rn 15) (.orrReg cond true rn 15) s fun i b =>
        ReturnsWithoutThumb i (s.reg rn ||| b) q m s fun t => RegisterFrame [] s t)
      ∧ (BothPcForms (.movImm cond true rn 15) (.movReg cond true rn 15) s fun i b =>
        ReturnsWithoutThumb i (b) q m s fun t => RegisterFrame [] s t)
      ∧ (BothPcForms (.bicImm cond true rn 15) (.bicReg cond true rn 15) s fun i b =>
        ReturnsWithoutThumb i (s.reg rn &&& ~~~ b) q m s fun t => RegisterFrame [] s t)
      ∧ (BothPcForms (.mvnImm cond true rn 15) (.mvnReg cond true rn 15) s fun i b =>
        ReturnsWithoutThumb i (~~~ b) q m s fun t => RegisterFrame [] s t)
      ∧ (list.getLsbD 15 = true → ¬ BlockRestricted w rn list → s.BlockFits p u rn list → ¬ s.BlockFaults p u rn list .read →
        ReturnsWithoutThumb (.ldmReturn cond p u w rn list) (s.blockValue p u rn list ((listedRegs list).length - 1)) q m s
          fun t => BlockLoaded s.cpsr.mode p u w rn list s t)

/-- B and BL go to pc + 8 plus four times the signed offset; BL leaves pc + 4 in r14. (R150, R151) -/
def Obligations.BranchTargetAndLink : Prop :=
  ∀ (s : State) (cond : Cond) (offset24 : BitVec 24) (target : Int), conditionPassed cond s.cpsr = true →
    target = (s.pc.toNat : Int) + 8 + 4 * offset24.toInt →
    (0 ≤ target → target < 2 ^ 32 →
      (∃ t, exec (.b cond offset24) s = .next t ∧ (t.pc.toNat : Int) = target ∧ t.cpsr = s.cpsr ∧ RegisterFrame [] s t)
        ∧ ∃ t, exec (.bl cond offset24) s = .next t ∧ (t.pc.toNat : Int) = target
          ∧ t.cell (bank s.cpsr.mode 14) = s.pc + 4#32 ∧ t.cpsr = s.cpsr
          ∧ RegisterFrame [bank s.cpsr.mode 14] s t)
      ∧ (¬ (0 ≤ target ∧ target < 2 ^ 32) →
        exec (.b cond offset24) s = .refused .branchOutOfAddressSpace
          ∧ exec (.bl cond offset24) s = .refused .branchOutOfAddressSpace)

/-- BX moves bit 0 of Rm to T and the rest to the pc, aligned. (R152) -/
def Obligations.BranchExchangeMovesBitZeroToT : Prop :=
  ∀ (s : State) (cond : Cond) (rm : RegNum), conditionPassed cond s.cpsr = true → s.cfg.hasThumb = true →
    ∃ t, exec (.bx cond rm) s = .next t ∧ t.cpsr = { s.cpsr with t := (s.reg rm).getLsbD 0 }
      ∧ t.pc = (if (s.reg rm).getLsbD 0 then s.reg rm &&& 0xFFFFFFFE#32 else s.reg rm &&& 0xFFFFFFFC#32)
      ∧ RegisterFrame [] s t

/-- BLX with a register links to pc + 4 and exchanges to the old Rm. (R153) -/
def Obligations.BranchLinkExchangeReadsRmFirst : Prop :=
  ∀ (s : State) (cond : Cond) (rm : RegNum), conditionPassed cond s.cpsr = true → s.cfg.hasV5T = true →
    (rm = 15 → exec (.blxReg cond rm) s = .refused .blxOfPc)
      ∧ (rm ≠ 15 → ∃ t, exec (.blxReg cond rm) s = .next t ∧ t.cell (bank s.cpsr.mode 14) = s.pc + 4#32
        ∧ t.cpsr = { s.cpsr with t := (s.reg rm).getLsbD 0 }
        ∧ t.pc = (if (s.reg rm).getLsbD 0 then s.reg rm &&& 0xFFFFFFFE#32 else s.reg rm &&& 0xFFFFFFFC#32)
        ∧ RegisterFrame [bank s.cpsr.mode 14] s t)

/-- BLX with an immediate links to pc + 4 and enters Thumb state, unconditionally. (R154) -/
def Obligations.BranchLinkExchangeImmediateEntersThumb : Prop :=
  ∀ (s : State) (h : Bool) (offset24 : BitVec 24) (target : Int), s.cfg.hasV5T = true →
    target = (s.pc.toNat : Int) + 8 + 4 * offset24.toInt + 2 * (h.toNat : Int) →
    (0 ≤ target → target < 2 ^ 32 →
      ∃ t, exec (.blxImm h offset24) s = .next t ∧ (t.pc.toNat : Int) = target
        ∧ t.cell (bank s.cpsr.mode 14) = s.pc + 4#32 ∧ t.cpsr = { s.cpsr with t := true }
        ∧ RegisterFrame [bank s.cpsr.mode 14] s t)
      ∧ (¬ (0 ≤ target ∧ target < 2 ^ 32) → exec (.blxImm h offset24) s = .refused .branchOutOfAddressSpace)

/-- SWI saves pc + 4 and the CPSR and enters SVC mode at 0x08. (R165) -/
def Obligations.SoftwareInterruptEntersSupervisorMode : Prop :=
  ∀ (s : State) (cond : Cond) (imm24 : BitVec 24), conditionPassed cond s.cpsr = true →
    ∃ t, exec (.swi cond imm24) s = .next t ∧ t.cell .r14_svc = s.pc + 4#32
      ∧ t.spsr = { s.spsr with svc := s.cpsr.saved }
      ∧ t.cpsr = { s.cpsr with i := true, t := false, mode := .svc } ∧ t.pc = 0x00000008#32
      ∧ SameRegistersBut [.r14_svc] s t ∧ SameMemory s t ∧ SamePlatform s t

/-- The undefined space, absent coprocessors and BX without Thumb take the undefined instruction trap. (R343) -/
def Obligations.UndefinedInstructionsTrap : Prop :=
  ∀ (s : State) (cond : Cond) (i : Instr), conditionPassed cond s.cpsr = true →
    ((∃ hi20 lo4, i = .undefinedSpace cond hi20 lo4) ∨ (∃ rest, i = .coprocLdcStc cond rest)
      ∨ (∃ rest, i = .coprocCdpMrcMcr cond rest)
      ∨ (s.cfg.hasThumb = false ∧ s.cfg.undefTrapsBx = true ∧ ∃ rm, i = .bx cond rm)) →
    ∃ t, exec i s = .next t ∧ t.cell .r14_und = s.pc + 4#32 ∧ t.spsr = { s.spsr with und := s.cpsr.saved }
      ∧ t.cpsr = { s.cpsr with i := true, t := false, mode := .undef } ∧ t.pc = 0x00000004#32
      ∧ SameRegistersBut [.r14_und] s t ∧ SameMemory s t ∧ SamePlatform s t

/-- MUL and MLA: the low 32 bits, N and Z on S, C open, V unchanged. (R224, R225) -/
def Obligations.MultiplyResultAndFlags : Prop :=
  ∀ (s : State) (cond : Cond) (sf : Bool) (rd rn rs rm : RegNum), conditionPassed cond s.cpsr = true →
    ((rd = 15 ∨ rm = 15 ∨ rs = 15 ∨ rd = rm) → ∃ r, exec (.mul cond sf rd rs rm) s = .refused r)
      ∧ (¬ (rd = 15 ∨ rm = 15 ∨ rs = 15 ∨ rd = rm) → Continues (.mul cond sf rd rs rm) s fun t =>
        (t.cell (bank s.cpsr.mode rd)).toNat = ((s.reg rm).toNat * (s.reg rs).toNat) % 2 ^ 32
          ∧ (sf = false → t.cpsr = s.cpsr)
          ∧ (sf = true → t.cpsr = { s.cpsr with
              n := (t.cell (bank s.cpsr.mode rd)).getLsbD 31
              z := decide (t.cell (bank s.cpsr.mode rd) = 0#32)
              c := t.cpsr.c })
          ∧ RegisterFrame [bank s.cpsr.mode rd] s t)
      ∧ ((rd = 15 ∨ rm = 15 ∨ rs = 15 ∨ rn = 15 ∨ rd = rm) → ∃ r, exec (.mla cond sf rd rn rs rm) s = .refused r)
      ∧ (¬ (rd = 15 ∨ rm = 15 ∨ rs = 15 ∨ rn = 15 ∨ rd = rm) → Continues (.mla cond sf rd rn rs rm) s fun t =>
        (t.cell (bank s.cpsr.mode rd)).toNat = ((s.reg rm).toNat * (s.reg rs).toNat + (s.reg rn).toNat) % 2 ^ 32
          ∧ (sf = false → t.cpsr = s.cpsr)
          ∧ (sf = true → t.cpsr = { s.cpsr with
              n := (t.cell (bank s.cpsr.mode rd)).getLsbD 31
              z := decide (t.cell (bank s.cpsr.mode rd) = 0#32)
              c := t.cpsr.c })
          ∧ RegisterFrame [bank s.cpsr.mode rd] s t)

/-- UMULL, UMLAL, SMULL and SMLAL: all 64 bits, N and Z on S, C open, V unchanged. (R226, R227, R228, R229) -/
def Obligations.LongMultiplyResultAndFlags : Prop :=
  ∀ (s : State) (cond : Cond) (sf : Bool) (rdHi rdLo rs rm : RegNum) (acc : Int) (r15OrOverlap : Prop),
    conditionPassed cond s.cpsr = true → s.cfg.hasLongMul = true →
    acc = ((s.reg rdHi).toNat : Int) * 2 ^ 32 + ((s.reg rdLo).toNat : Int) →
    (r15OrOverlap ↔ rdHi = 15 ∨ rdLo = 15 ∨ rm = 15 ∨ rs = 15 ∨ rdHi = rdLo ∨ rdHi = rm ∨ rdLo = rm) →
    (r15OrOverlap → ∃ r, exec (.umull cond sf rdHi rdLo rs rm) s = .refused r)
      ∧ (¬ r15OrOverlap → Continues (.umull cond sf rdHi rdLo rs rm) s (LongResult s sf rdHi rdLo (((s.reg rm).toNat : Int) * ((s.reg rs).toNat : Int))))
      ∧ (r15OrOverlap → ∃ r, exec (.umlal cond sf rdHi rdLo rs rm) s = .refused r)
      ∧ (¬ r15OrOverlap → Continues (.umlal cond sf rdHi rdLo rs rm) s (LongResult s sf rdHi rdLo (((s.reg rm).toNat : Int) * ((s.reg rs).toNat : Int) + acc)))
      ∧ (r15OrOverlap → ∃ r, exec (.smull cond sf rdHi rdLo rs rm) s = .refused r)
      ∧ (¬ r15OrOverlap → Continues (.smull cond sf rdHi rdLo rs rm) s (LongResult s sf rdHi rdLo ((s.reg rm).toInt * (s.reg rs).toInt)))
      ∧ (r15OrOverlap → ∃ r, exec (.smlal cond sf rdHi rdLo rs rm) s = .refused r)
      ∧ (¬ r15OrOverlap → Continues (.smlal cond sf rdHi rdLo rs rm) s (LongResult s sf rdHi rdLo ((s.reg rm).toInt * (s.reg rs).toInt + acc)))

/-- CLZ gives the number of zeros above the most significant 1, and 32 for 0. (R230) -/
def Obligations.CountLeadingZerosFindsTheTopBit : Prop :=
  ∀ (s : State) (cond : Cond) (rd rm : RegNum), conditionPassed cond s.cpsr = true → s.cfg.hasV5T = true →
    (rd = 15 ∨ rm = 15 → exec (.clz cond rd rm) s = .refused .r15InClz)
      ∧ (rd ≠ 15 → rm ≠ 15 → Continues (.clz cond rd rm) s fun t =>
        (s.reg rm = 0#32 → t.cell (bank s.cpsr.mode rd) = 32#32)
          ∧ (s.reg rm ≠ 0#32 → (t.cell (bank s.cpsr.mode rd)).toNat < 32
            ∧ (s.reg rm).getLsbD (31 - (t.cell (bank s.cpsr.mode rd)).toNat) = true
            ∧ ∀ j, 31 - (t.cell (bank s.cpsr.mode rd)).toNat < j → (s.reg rm).getLsbD j = false)
          ∧ t.cpsr = s.cpsr ∧ RegisterFrame [bank s.cpsr.mode rd] s t)

/-- The address a transfer uses and the base afterwards, by P, U and W. (R256) -/
def Obligations.AddressingModeTable : Prop :=
  ∀ (w : Bool) (base offset : Word),
    indexed true true w base offset = { addr := base + offset, ea := base + offset, writeBack := w }
      ∧ indexed true false w base offset = { addr := base - offset, ea := base - offset, writeBack := w }
      ∧ indexed false true w base offset = { addr := base, ea := base + offset, writeBack := true }
      ∧ indexed false false w base offset = { addr := base, ea := base - offset, writeBack := true }

/-- LDR and LDRT in all forms: the rotated word, base write-back, pc loads, aborts, frame. (R244, R251) That other agents' writes are a list, of which every access uses up the next entry, is the model's form of 20_memory.md R74 and R80 (DESIGN CHOICE, log 9). -/
def Obligations.WordLoadTransfers : Prop :=
  ∀ (s : State) (cond : Cond) (u w : Bool) (rn rd rm : RegNum) (imm12 : BitVec 12) (amount : BitVec 5) (sh : ShiftType),
    conditionPassed cond s.cpsr = true →
    WordLoad (.ldrImmPre cond u w rn rd imm12) rn rd none
        (indexed true u w (s.reg rn) (imm12.setWidth 32)) s.privilege s
      ∧ WordLoad (.ldrImmPost cond u rn rd imm12) rn rd none
        (indexed false u false (s.reg rn) (imm12.setWidth 32)) s.privilege s
      ∧ WordLoad (.ldrRegPre cond u w rn rd amount sh rm) rn rd (some rm)
        (indexed true u w (s.reg rn) (shiftByImmediate sh amount (s.reg rm) s.cpsr.c).value) s.privilege s
      ∧ WordLoad (.ldrRegPost cond u rn rd amount sh rm) rn rd (some rm)
        (indexed false u false (s.reg rn) (shiftByImmediate sh amount (s.reg rm) s.cpsr.c).value) s.privilege s
      ∧ WordLoad (.ldrtImm cond u rn rd imm12) rn rd none
        (indexed false u true (s.reg rn) (imm12.setWidth 32)) .user s
      ∧ WordLoad (.ldrtReg cond u rn rd amount sh rm) rn rd (some rm)
        (indexed false u true (s.reg rn) (shiftByImmediate sh amount (s.reg rm) s.cpsr.c).value) .user s

/-- LDRB and LDRBT in all forms: the zero-extended byte, base write-back, aborts, frame. (R245, R253) That other agents' writes are a list, of which every access uses up the next entry, is the model's form of 20_memory.md R74 and R80 (DESIGN CHOICE, log 9). -/
def Obligations.ByteLoadTransfers : Prop :=
  ∀ (s : State) (cond : Cond) (u w : Bool) (rn rd rm : RegNum) (imm12 : BitVec 12) (amount : BitVec 5) (sh : ShiftType),
    conditionPassed cond s.cpsr = true →
    ByteLoad (.ldrbImmPre cond u w rn rd imm12) rn rd none
        (indexed true u w (s.reg rn) (imm12.setWidth 32)) s.privilege s
      ∧ ByteLoad (.ldrbImmPost cond u rn rd imm12) rn rd none
        (indexed false u false (s.reg rn) (imm12.setWidth 32)) s.privilege s
      ∧ ByteLoad (.ldrbRegPre cond u w rn rd amount sh rm) rn rd (some rm)
        (indexed true u w (s.reg rn) (shiftByImmediate sh amount (s.reg rm) s.cpsr.c).value) s.privilege s
      ∧ ByteLoad (.ldrbRegPost cond u rn rd amount sh rm) rn rd (some rm)
        (indexed false u false (s.reg rn) (shiftByImmediate sh amount (s.reg rm) s.cpsr.c).value) s.privilege s
      ∧ ByteLoad (.ldrbtImm cond u rn rd imm12) rn rd none
        (indexed false u true (s.reg rn) (imm12.setWidth 32)) .user s
      ∧ ByteLoad (.ldrbtReg cond u rn rd amount sh rm) rn rd (some rm)
        (indexed false u true (s.reg rn) (shiftByImmediate sh amount (s.reg rm) s.cpsr.c).value) .user s

/-- STR and STRT in all forms (45_single_transfer.md R246, R252): the aligned word, base write-back, aborts, frame. That r15 is stored as ia + 8 or ia + 12 rather than refused is the model's reading of decision D4 (DEDUCED, log 7), and which word counts as written is log 12 (DEDUCED). That other agents' writes are a list, of which every access uses up the next entry, is the model's form of 20_memory.md R74 and R80 (DESIGN CHOICE, log 9). -/
def Obligations.WordStoreTransfers : Prop :=
  (∀ (s : State) (cond : Cond) (u w : Bool) (rn rd rm : RegNum) (imm12 : BitVec 12) (amount : BitVec 5) (sh : ShiftType) (v : Word),
    s.mem.wf = true → conditionPassed cond s.cpsr = true →
    (v = if rd = 15 then s.pc + Config.storePcOffset else s.reg rd) →
    WordStore (.strImmPre cond u w rn rd imm12) rn rd none
        (indexed true u w (s.reg rn) (imm12.setWidth 32)) s.privilege v s
      ∧ WordStore (.strImmPost cond u rn rd imm12) rn rd none
        (indexed false u false (s.reg rn) (imm12.setWidth 32)) s.privilege v s
      ∧ WordStore (.strRegPre cond u w rn rd amount sh rm) rn rd (some rm)
        (indexed true u w (s.reg rn) (shiftByImmediate sh amount (s.reg rm) s.cpsr.c).value) s.privilege v s
      ∧ WordStore (.strRegPost cond u rn rd amount sh rm) rn rd (some rm)
        (indexed false u false (s.reg rn) (shiftByImmediate sh amount (s.reg rm) s.cpsr.c).value) s.privilege v s
      ∧ WordStore (.strtImm cond u rn rd imm12) rn rd none
        (indexed false u true (s.reg rn) (imm12.setWidth 32)) .user v s
      ∧ WordStore (.strtReg cond u rn rd amount sh rm) rn rd (some rm)
        (indexed false u true (s.reg rn) (shiftByImmediate sh amount (s.reg rm) s.cpsr.c).value) .user v s)
    ∧ (Config.storePcOffset = 8#32 ∨ Config.storePcOffset = 12#32)

/-- STRB and STRBT in all forms (45_single_transfer.md R247, R254): one byte, base write-back, aborts, frame. That the whole word that holds the byte counts as written is the model's reading of 20_memory.md R82 (DEDUCED, log 12). That other agents' writes are a list, of which every access uses up the next entry, is the model's form of 20_memory.md R74 and R80 (DESIGN CHOICE, log 9). -/
def Obligations.ByteStoreTransfers : Prop :=
  ∀ (s : State) (cond : Cond) (u w : Bool) (rn rd rm : RegNum) (imm12 : BitVec 12) (amount : BitVec 5) (sh : ShiftType),
    s.mem.wf = true → conditionPassed cond s.cpsr = true →
    ByteStore (.strbImmPre cond u w rn rd imm12) rn rd none
        (indexed true u w (s.reg rn) (imm12.setWidth 32)) s.privilege s
      ∧ ByteStore (.strbImmPost cond u rn rd imm12) rn rd none
        (indexed false u false (s.reg rn) (imm12.setWidth 32)) s.privilege s
      ∧ ByteStore (.strbRegPre cond u w rn rd amount sh rm) rn rd (some rm)
        (indexed true u w (s.reg rn) (shiftByImmediate sh amount (s.reg rm) s.cpsr.c).value) s.privilege s
      ∧ ByteStore (.strbRegPost cond u rn rd amount sh rm) rn rd (some rm)
        (indexed false u false (s.reg rn) (shiftByImmediate sh amount (s.reg rm) s.cpsr.c).value) s.privilege s
      ∧ ByteStore (.strbtImm cond u rn rd imm12) rn rd none
        (indexed false u true (s.reg rn) (imm12.setWidth 32)) .user s
      ∧ ByteStore (.strbtReg cond u rn rd amount sh rm) rn rd (some rm)
        (indexed false u true (s.reg rn) (shiftByImmediate sh amount (s.reg rm) s.cpsr.c).value) .user s

/-- LDRH, LDRSH and LDRSB in both forms: extension, alignment, base write-back, aborts, frame. (R270, R271, R272) That other agents' writes are a list, of which every access uses up the next entry, is the model's form of 20_memory.md R74 and R80 (DESIGN CHOICE, log 9). -/
def Obligations.HalfwordLoadTransfers : Prop :=
  ∀ (s : State) (cond : Cond) (p u w : Bool) (rn rd rm : RegNum) (imm8 : BitVec 8),
    conditionPassed cond s.cpsr = true → s.cfg.hasHalfword = true →
    HalfLoad (.ldrhImm cond p u w rn rd imm8) p w rn rd none
        (indexed p u w (s.reg rn) (imm8.setWidth 32))
        ((s.atAccess.loadHalf (indexed p u w (s.reg rn) (imm8.setWidth 32)).addr).setWidth 32) s
      ∧ HalfLoad (.ldrhReg cond p u w rn rd rm) p w rn rd (some rm)
        (indexed p u w (s.reg rn) (s.reg rm))
        ((s.atAccess.loadHalf (indexed p u w (s.reg rn) (s.reg rm)).addr).setWidth 32) s
      ∧ HalfLoad (.ldrshImm cond p u w rn rd imm8) p w rn rd none
        (indexed p u w (s.reg rn) (imm8.setWidth 32))
        ((s.atAccess.loadHalf (indexed p u w (s.reg rn) (imm8.setWidth 32)).addr).signExtend 32) s
      ∧ HalfLoad (.ldrshReg cond p u w rn rd rm) p w rn rd (some rm)
        (indexed p u w (s.reg rn) (s.reg rm))
        ((s.atAccess.loadHalf (indexed p u w (s.reg rn) (s.reg rm)).addr).signExtend 32) s
      ∧ SignedByteLoad (.ldrsbImm cond p u w rn rd imm8) p w rn rd none
        (indexed p u w (s.reg rn) (imm8.setWidth 32)) s
      ∧ SignedByteLoad (.ldrsbReg cond p u w rn rd rm) p w rn rd (some rm)
        (indexed p u w (s.reg rn) (s.reg rm)) s

/-- STRH in both forms (46_halfword_transfer.md R273): two bytes, alignment, base write-back, aborts, frame. That the whole word that holds the half-word counts as written is the model's reading of 20_memory.md R82 (DEDUCED, log 12). That other agents' writes are a list, of which every access uses up the next entry, is the model's form of 20_memory.md R74 and R80 (DESIGN CHOICE, log 9). -/
def Obligations.HalfwordStoreTransfers : Prop :=
  ∀ (s : State) (cond : Cond) (p u w : Bool) (rn rd rm : RegNum) (imm8 : BitVec 8), s.mem.wf = true →
    conditionPassed cond s.cpsr = true → s.cfg.hasHalfword = true →
    HalfStore (.strhImm cond p u w rn rd imm8) p w rn rd none
        (indexed p u w (s.reg rn) (imm8.setWidth 32)) s
      ∧ HalfStore (.strhReg cond p u w rn rd rm) p w rn rd (some rm)
        (indexed p u w (s.reg rn) (s.reg rm)) s

/-- A word load puts the addressed byte in the lowest byte, the others of its word above it in turn. (R66) -/
def Obligations.UnalignedWordLoadRotates : Prop :=
  (∀ (s : State) (a : Word) (k : Nat), s.cfg.bigEndian = false → k < 4 →
    (s.loadWord a).extractLsb' (8 * k) 8 = s.mem.read ((alignWord a).toNat + (a.toNat + k) % 4))
    ∧ (∀ (s : State) (a : Word), a.extractLsb' 0 2 = 0#2 → s.loadWord a = s.wordAt a)
    ∧ ∀ (s : State) (cond : Cond) (u : Bool) (rn rd : RegNum), s.cfg.bigEndian = true → s.cfg.alignFault = false →
      conditionPassed cond s.cpsr = true → (s.reg rn).extractLsb' 0 2 ≠ 0#2 →
      exec (.ldrImmPre cond u false rn rd 0) s = .refused .bigEndianUnalignedLoad

/-- Bytes and half-words read back from a stored word, in both byte orders. (R64) -/
def Obligations.MixedWidthViewOfAStoredWord : Prop :=
  ∀ (m : Memory) (a : Nat) (v : Word), m.wf = true → a % 4 = 0 → a < 2 ^ 32 →
    (∀ be, (m.writeWord be a v).readWord be a = v)
      ∧ (∀ k, k < 4 → (m.writeWord false a v).read (a + k) = v.extractLsb' (8 * k) 8
        ∧ (m.writeWord true a v).read (a + k) = v.extractLsb' (24 - 8 * k) 8)
      ∧ ∀ j, j < 2 → (m.writeWord false a v).readHalf false (a + 2 * j) = v.extractLsb' (16 * j) 16
        ∧ (m.writeWord true a v).readHalf true (a + 2 * j) = v.extractLsb' (16 - 16 * j) 16

/-- The registers, the start and the write-back value of a block transfer. (R282, R116) -/
def Obligations.BlockLayout : Prop :=
  (∀ (list : BitVec 16) (r : RegNum), r ∈ listedRegs list ↔ list.getLsbD r.val = true)
    ∧ (∀ list : BitVec 16, (listedRegs list).Pairwise fun a b => a < b)
    ∧ ∀ (base : Word) (n : Nat),
      blockStart false true base n = base.toNat ∧ blockStart true true base n = base.toNat + 4
        ∧ blockStart false false base n = base.toNat - 4 * n + 4 ∧ blockStart true false base n = base.toNat - 4 * n
        ∧ blockWriteBack true base n = BitVec.ofInt 32 (base.toNat + 4 * n)
        ∧ blockWriteBack false base n = BitVec.ofInt 32 (base.toNat - 4 * n)

/-- STM (47_multiple_transfer.md R284): the listed registers in rising order at rising addresses, other agents writing between them (20_memory.md R74), then the base. That r15 is stored as ia + 8 or ia + 12 is log 7 (DEDUCED), that on an abort a later word that faults itself is kept and each word is written whole or not at all is log 19 (DEDUCED), and which words count as written is log 12 (DEDUCED). That other agents' writes are a list, of which every access uses up the next entry, is the model's form of 20_memory.md R74 and R80 (DESIGN CHOICE, log 9). -/
def Obligations.StoreMultipleStoresTheListedRegisters : Prop :=
  ∀ (s : State) (cond : Cond) (p u w : Bool) (rn : RegNum) (list : BitVec 16), s.mem.wf = true → conditionPassed cond s.cpsr = true →
    (BlockRestricted w rn list → ∃ r, exec (.stm cond p u w rn list) s = .refused r)
      ∧ (¬ BlockRestricted w rn list →
        BlockStore (.stm cond p u w rn list)
          (fun r => if r = 15 then s.pc + Config.storePcOffset else s.cell (bank s.cpsr.mode r)) p u w rn list s)

/-- LDM: the words of the block to the listed registers in rising order, then the pc. (R285) That an aborted load keeps the base by its physical register is log 18 (DEDUCED). That other agents' writes are a list, of which every access uses up the next entry, is the model's form of 20_memory.md R74 and R80 (DESIGN CHOICE, log 9). -/
def Obligations.LoadMultipleLoadsTheListedRegisters : Prop :=
  ∀ (s : State) (cond : Cond) (p u w : Bool) (rn : RegNum) (list : BitVec 16), conditionPassed cond s.cpsr = true → s.cpsr.t = false →
    (BlockRestricted w rn list → ∃ r, exec (.ldm cond p u w rn list) s = .refused r)
      ∧ (¬ BlockRestricted w rn list →
        BlockLoad (.ldm cond p u w rn list) s.cpsr.mode p u w rn list s
          ((list.getLsbD 15 = false → Continues (.ldm cond p u w rn list) s fun t =>
              t.cpsr = s.cpsr ∧ BlockLoaded s.cpsr.mode p u w rn list s t)
            ∧ (list.getLsbD 15 = true →
              LoadsPc (.ldm cond p u w rn list) (s.blockValue p u rn list ((listedRegs list).length - 1)) s fun t =>
                BlockLoaded s.cpsr.mode p u w rn list s t)))

/-- LDM, exception return form (47_multiple_transfer.md R286). A saved T bit on a processor without Thumb is the case of ReturnWithoutThumbLeavesTZero (log 16). That an aborted load keeps the base by its physical register is log 18 (DEDUCED). That other agents' writes are a list, of which every access uses up the next entry, is the model's form of 20_memory.md R74 and R80 (DESIGN CHOICE, log 9). -/
def Obligations.LoadMultipleReturnsFromException : Prop :=
  ∀ (s : State) (cond : Cond) (p u w : Bool) (rn : RegNum) (list : BitVec 16), list.getLsbD 15 = true → conditionPassed cond s.cpsr = true →
    (BlockRestricted w rn list → ∃ r, exec (.ldmReturn cond p u w rn list) s = .refused r)
      ∧ (¬ BlockRestricted w rn list → s.cpsr.mode = .user ∨ s.cpsr.mode = .system →
        exec (.ldmReturn cond p u w rn list) s = .refused .noSpsr)
      ∧ (¬ BlockRestricted w rn list → ¬ (s.cpsr.mode = .user ∨ s.cpsr.mode = .system) →
        BlockLoad (.ldmReturn cond p u w rn list) s.cpsr.mode p u w rn list s
          (ReturnsTo (.ldmReturn cond p u w rn list)
            (s.blockValue p u rn list ((listedRegs list).length - 1)) s fun t =>
              BlockLoaded s.cpsr.mode p u w rn list s t))

/-- LDM with S without the pc: the words go to the User registers, from the current mode's base. (R287) That an aborted load keeps the base by its physical register is log 18 (DEDUCED). That other agents' writes are a list, of which every access uses up the next entry, is the model's form of 20_memory.md R74 and R80 (DESIGN CHOICE, log 9). -/
def Obligations.LoadMultipleLoadsUserRegisters : Prop :=
  ∀ (s : State) (cond : Cond) (p u w : Bool) (rn : RegNum) (list : BitVec 16), list.getLsbD 15 = false → conditionPassed cond s.cpsr = true →
    (BlockRestricted w rn list ∨ w = true ∨ s.cpsr.mode = .user → ∃ r, exec (.ldmUser cond p u w rn list) s = .refused r)
      ∧ (¬ (BlockRestricted w rn list ∨ w = true ∨ s.cpsr.mode = .user) →
        BlockLoad (.ldmUser cond p u w rn list) .user p u w rn list s
          (Continues (.ldmUser cond p u w rn list) s fun t =>
            t.cpsr = s.cpsr ∧ BlockLoaded .user p u w rn list s t))

/-- STM with S (47_multiple_transfer.md R288): the User registers are stored, at the current mode's base, other agents writing between them (20_memory.md R74). That on an abort a later word that faults itself is kept and each word is written whole or not at all is log 19 (DEDUCED), and which words count as written is log 12 (DEDUCED). That other agents' writes are a list, of which every access uses up the next entry, is the model's form of 20_memory.md R74 and R80 (DESIGN CHOICE, log 9). -/
def Obligations.StoreMultipleStoresUserRegisters : Prop :=
  ∀ (s : State) (cond : Cond) (p u w : Bool) (rn : RegNum) (list : BitVec 16), s.mem.wf = true → conditionPassed cond s.cpsr = true →
    (BlockRestricted w rn list ∨ list.getLsbD 15 = true ∨ w = true ∨ s.cpsr.mode = .user →
        ∃ r, exec (.stmUser cond p u w rn list) s = .refused r)
      ∧ (¬ (BlockRestricted w rn list ∨ list.getLsbD 15 = true ∨ w = true ∨ s.cpsr.mode = .user) →
        BlockStore (.stmUser cond p u w rn list) (fun r => s.cell (bank .user r)) p u w rn list s)

/-- SWP and SWPB (48_swap.md R301, R302): Rd gets the old memory, memory gets Rm, or neither on an abort, as one pair that no other agent splits (20_memory.md R86). That the whole word counts as written, after SWPB too, is the model's reading of R82 (DEDUCED, log 12). That other agents' writes are a list, of which every access uses up the next entry, is the model's form of 20_memory.md R74 and R80 (DESIGN CHOICE, log 9). -/
def Obligations.SwapExchangesRegisterAndMemory : Prop :=
  ∀ (s : State) (cond : Cond) (rn rd rm : RegNum) (bad : Prop), s.mem.wf = true → conditionPassed cond s.cpsr = true →
    (bad ↔ rd = 15 ∨ rm = 15 ∨ rn = 15 ∨ rn = rm ∨ rn = rd) →
    (bad → (∃ r, exec (.swp cond rn rd rm) s = .refused r) ∧ ∃ r, exec (.swpb cond rn rd rm) s = .refused r)
      ∧ (¬ bad →
        ((s.cfg.bigEndian = true → s.cfg.alignFault = false → (s.reg rn).extractLsb' 0 2 ≠ 0#2 →
            exec (.swp cond rn rd rm) s = .refused .bigEndianUnalignedLoad)
          ∧ ((s.cfg.bigEndian = true → s.cfg.alignFault = false → (s.reg rn).extractLsb' 0 2 = 0#2) →
            (s.wordFaults (s.reg rn) .read s.privilege = true ∨ s.wordFaults (s.reg rn) .write s.privilege = true →
                Aborts (.swp cond rn rd rm) [] s s.atAccess (SameMemory s.atAccess))
              ∧ (¬ (s.wordFaults (s.reg rn) .read s.privilege = true ∨ s.wordFaults (s.reg rn) .write s.privilege = true) →
                Continues (.swp cond rn rd rm) s fun t =>
                  t.cell (bank s.cpsr.mode rd) = s.atAccess.loadWord (s.reg rn)
                    ∧ (∀ k b, (wordBytes s.cfg.bigEndian (s.reg rm))[k]? = some b →
                        t.mem.read ((alignWord (s.reg rn)).toNat + k) = b)
                    ∧ t.cpsr = s.cpsr ∧ StoreFrame (alignWord (s.reg rn)).toNat 4 [bank s.cpsr.mode rd] s.atAccess t
                    ∧ (∀ a, a ∈ t.written ↔ a = (alignWord (s.reg rn)).toNat ∨ a ∈ s.written))))
        ∧ ((s.byteFaults (s.reg rn) .read s.privilege = true ∨ s.byteFaults (s.reg rn) .write s.privilege = true →
              Aborts (.swpb cond rn rd rm) [] s s.atAccess (SameMemory s.atAccess))
          ∧ (¬ (s.byteFaults (s.reg rn) .read s.privilege = true ∨ s.byteFaults (s.reg rn) .write s.privilege = true) →
            Continues (.swpb cond rn rd rm) s fun t =>
              t.cell (bank s.cpsr.mode rd) = (s.atAccess.mem.read (s.reg rn).toNat).setWidth 32
                ∧ t.mem.read (s.reg rn).toNat = (s.reg rm).extractLsb' 0 8
                ∧ t.cpsr = s.cpsr ∧ StoreFrame (s.reg rn).toNat 1 [bank s.cpsr.mode rd] s.atAccess t
                ∧ (∀ a, a ∈ t.written ↔ a = (alignWord (s.reg rn)).toNat ∨ a ∈ s.written))))

/-- MRS copies the twelve bits of the CPSR or the current SPSR; bits 27:8 are open. (R310) -/
def Obligations.StatusRegisterReadGivesItsBits : Prop :=
  ∀ (s : State) (cond : Cond) (r : Bool) (rd : RegNum), conditionPassed cond s.cpsr = true →
    (rd = 15 → exec (.mrs cond r rd) s = .refused .mrsIntoPc)
      ∧ (rd ≠ 15 → r = true → s.cpsr.mode = .user ∨ s.cpsr.mode = .system → exec (.mrs cond r rd) s = .refused .noSpsr)
      ∧ (rd ≠ 15 → ∀ q : Psr, (if r then s.spsrOf s.cpsr.mode = some q else q = s.cpsr.saved) →
        Continues (.mrs cond r rd) s fun t =>
          ((t.cell (bank s.cpsr.mode rd)).getLsbD 31 = q.n ∧ (t.cell (bank s.cpsr.mode rd)).getLsbD 30 = q.z
            ∧ (t.cell (bank s.cpsr.mode rd)).getLsbD 29 = q.c ∧ (t.cell (bank s.cpsr.mode rd)).getLsbD 28 = q.v
            ∧ (t.cell (bank s.cpsr.mode rd)).getLsbD 7 = q.i ∧ (t.cell (bank s.cpsr.mode rd)).getLsbD 6 = q.f
            ∧ (t.cell (bank s.cpsr.mode rd)).getLsbD 5 = q.t
            ∧ (t.cell (bank s.cpsr.mode rd)).extractLsb' 0 5 = q.m)
            ∧ t.cpsr = s.cpsr ∧ RegisterFrame [bank s.cpsr.mode rd] s t)

/-- MSR in both forms: the selected fields of the CPSR or the current SPSR, and nothing else. (R313) -/
def Obligations.StatusRegisterWriteMovesSelectedFields : Prop :=
  ∀ (s : State) (cond : Cond) (r : Bool) (fieldMask rot : BitVec 4) (imm8 : BitVec 8) (rm : RegNum),
    conditionPassed cond s.cpsr = true →
    (rm = 15 → exec (.msrReg cond r fieldMask rm) s = .refused .msrFromPc)
      ∧ (fieldMask.extractLsb' 0 3 ≠ 0#3 → exec (.msrImm cond r fieldMask rot imm8) s = .refused .msrImmediateField)
      ∧ (rm ≠ 15 → MovesToStatus (.msrReg cond r fieldMask rm) r (fieldMask.getLsbD 3) (fieldMask.getLsbD 0) (s.reg rm) s)
      ∧ (fieldMask.extractLsb' 0 3 = 0#3 →
        MovesToStatus (.msrImm cond r fieldMask rot imm8) r (fieldMask.getLsbD 3) false (rotatedImmediate rot imm8) s)

/-- Two modes denote the same register only as the table of R22 says. (R22) -/
def Obligations.ModesShareRegistersAsTheBankTableSays : Prop :=
  ∀ (m m' : Mode) (r q : RegNum), bank m r = bank m' q ↔
    r = q ∧ (r ≤ 7 ∨ r = 15 ∨ (8 ≤ r ∧ r ≤ 12 ∧ (m = .fiq ↔ m' = .fiq))
      ∨ (13 ≤ r ∧ r ≤ 14 ∧ (m = m' ∨ ((m = .user ∨ m = .system) ∧ (m' = .user ∨ m' = .system)))))
end

