-- ==== Sys2Proof/Laws/Arithmetic.lean ====
section
/-! SUPPORT. The adder in terms of exact arithmetic: what `AddWithCarry` gives for sums and, with a complemented operand, for
differences (spec 00_scope.md R10, 43_data_processing.md R177). -/

namespace Sys2Proof.Machine

theorem addWithCarry_sub_result (a b : Word) : (addWithCarry a (~~~b) true).result = a - b := by
  apply BitVec.eq_of_toNat_eq
  simp [addWithCarry, BitVec.toNat_sub]
  have := a.isLt
  have := b.isLt
  omega

theorem addWithCarry_sub_carry (a b : Word) : (addWithCarry a (~~~b) true).carry =
    decide (b.toNat ≤ a.toNat) := by
  simp [addWithCarry]
  have := a.isLt
  have := b.isLt
  omega

theorem addWithCarry_add_result (a b : Word) : (addWithCarry a b false).result = a + b := by
  apply BitVec.eq_of_toNat_eq
  simp [addWithCarry, BitVec.toNat_add]

theorem addWithCarry_adc_result (a b : Word) (c : Bool) : (addWithCarry a b c).result =
    a + b + (BitVec.ofBool c).setWidth 32 := by
  apply BitVec.eq_of_toNat_eq
  cases c <;> simp [addWithCarry, BitVec.toNat_add] 

theorem addWithCarry_sbc_result (a b : Word) (c : Bool) : (addWithCarry a (~~~b) c).result =
    a - b - (BitVec.ofBool (!c)).setWidth 32 := by
  apply BitVec.eq_of_toNat_eq
  have := a.isLt
  have := b.isLt
  cases c <;> simp [addWithCarry, BitVec.toNat_sub] <;> omega

/-- C of a subtraction says that no borrow occurs. -/
theorem addWithCarry_sbc_carry (a b : Word) (c : Bool) : (addWithCarry a (~~~b) c).carry =
    decide (b.toNat + (!c).toNat ≤ a.toNat) := by
  have := a.isLt
  have := b.isLt
  cases c <;> simp [addWithCarry] <;> omega

theorem toInt_complement (b : Word) : (~~~b).toInt = - b.toInt - 1 := by
  simp [BitVec.toInt_not]
  have := b.isLt
  rw [BitVec.toInt_eq_toNat_bmod]
  simp only [Int.bmod]
  omega

/-- V says that the exact signed sum does not fit in 32 bits. -/
theorem addWithCarry_overflow (a b : Word) (c : Bool) : (addWithCarry a b c).overflow =
    decide (a.toInt + b.toInt + (c.toNat : Int) < -2 ^ 31 ∨ 2 ^ 31 ≤ a.toInt + b.toInt + (c.toNat : Int)) := by
  have ha := a.isLt
  have hb := b.isLt
  simp only [addWithCarry]
  rw [decide_eq_decide]
  simp only [BitVec.toInt_eq_toNat_cond, BitVec.toNat_ofNat]
  cases c <;> simp <;> split_ifs <;> omega

theorem addWithCarry_sbc_overflow (a b : Word) (c : Bool) : (addWithCarry a (~~~b) c).overflow =
    decide (a.toInt - b.toInt - ((!c).toNat : Int) < -2 ^ 31 ∨ 2 ^ 31 ≤ a.toInt - b.toInt - ((!c).toNat : Int)) := by
  rw [addWithCarry_overflow, toInt_complement, decide_eq_decide]
  cases c <;> simp <;> omega

theorem addWithCarry_sub_overflow (a b : Word) : (addWithCarry a (~~~b) true).overflow =
    decide (a.toInt - b.toInt < -2 ^ 31 ∨ 2 ^ 31 ≤ a.toInt - b.toInt) := by
  rw [addWithCarry_sbc_overflow]
  simp

theorem addWithCarry_add_overflow (a b : Word) : (addWithCarry a b false).overflow =
    decide (a.toInt + b.toInt < -2 ^ 31 ∨ 2 ^ 31 ≤ a.toInt + b.toInt) := by
  rw [addWithCarry_overflow]
  simp

theorem addWithCarry_add_carry (a b : Word) : (addWithCarry a b false).carry =
    decide (2 ^ 32 ≤ a.toNat + b.toNat) := by
  simp [addWithCarry]

theorem addWithCarry_carry (a b : Word) (c : Bool) : (addWithCarry a b c).carry =
    decide (2 ^ 32 ≤ a.toNat + b.toNat + c.toNat) := rfl

end Sys2Proof.Machine
end

