-- ==== Sys2Proof/Laws/State.lean ====
section
/-! SUPPORT. One lemma per field per update of the state, and what the register operations read and leave alone. -/

namespace Sys2Proof.Machine

/-! ### Plain updates -/

@[simp] theorem State.setRegs_regs (s : State) (r : GenRegs) : (s.setRegs r).regs = r := rfl
@[simp] theorem State.setRegs_pc (s : State) (r : GenRegs) : (s.setRegs r).pc = s.pc := rfl
@[simp] theorem State.setRegs_cpsr (s : State) (r : GenRegs) : (s.setRegs r).cpsr = s.cpsr := rfl
@[simp] theorem State.setRegs_spsr (s : State) (r : GenRegs) : (s.setRegs r).spsr = s.spsr := rfl
@[simp] theorem State.setRegs_mem (s : State) (r : GenRegs) : (s.setRegs r).mem = s.mem := rfl
@[simp] theorem State.setRegs_cfg (s : State) (r : GenRegs) : (s.setRegs r).cfg = s.cfg := rfl
@[simp] theorem State.setRegs_inputs (s : State) (r : GenRegs) : (s.setRegs r).inputs = s.inputs := rfl
@[simp] theorem State.setRegs_bus (s : State) (r : GenRegs) : (s.setRegs r).bus = s.bus := rfl
@[simp] theorem State.setRegs_written (s : State) (r : GenRegs) : (s.setRegs r).written = s.written := rfl
@[simp] theorem State.setRegs_draws (s : State) (r : GenRegs) : (s.setRegs r).draws = s.draws := rfl

@[simp] theorem State.setPc_regs (s : State) (a : Word) : (s.setPc a).regs = s.regs := rfl
@[simp] theorem State.setPc_pc (s : State) (a : Word) : (s.setPc a).pc = a := rfl
@[simp] theorem State.setPc_cpsr (s : State) (a : Word) : (s.setPc a).cpsr = s.cpsr := rfl
@[simp] theorem State.setPc_spsr (s : State) (a : Word) : (s.setPc a).spsr = s.spsr := rfl
@[simp] theorem State.setPc_mem (s : State) (a : Word) : (s.setPc a).mem = s.mem := rfl
@[simp] theorem State.setPc_cfg (s : State) (a : Word) : (s.setPc a).cfg = s.cfg := rfl
@[simp] theorem State.setPc_inputs (s : State) (a : Word) : (s.setPc a).inputs = s.inputs := rfl
@[simp] theorem State.setPc_bus (s : State) (a : Word) : (s.setPc a).bus = s.bus := rfl
@[simp] theorem State.setPc_written (s : State) (a : Word) : (s.setPc a).written = s.written := rfl
@[simp] theorem State.setPc_draws (s : State) (a : Word) : (s.setPc a).draws = s.draws := rfl

@[simp] theorem State.setCpsr_regs (s : State) (p : Cpsr) : (s.setCpsr p).regs = s.regs := rfl
@[simp] theorem State.setCpsr_pc (s : State) (p : Cpsr) : (s.setCpsr p).pc = s.pc := rfl
@[simp] theorem State.setCpsr_cpsr (s : State) (p : Cpsr) : (s.setCpsr p).cpsr = p := rfl
@[simp] theorem State.setCpsr_spsr (s : State) (p : Cpsr) : (s.setCpsr p).spsr = s.spsr := rfl
@[simp] theorem State.setCpsr_mem (s : State) (p : Cpsr) : (s.setCpsr p).mem = s.mem := rfl
@[simp] theorem State.setCpsr_cfg (s : State) (p : Cpsr) : (s.setCpsr p).cfg = s.cfg := rfl
@[simp] theorem State.setCpsr_inputs (s : State) (p : Cpsr) : (s.setCpsr p).inputs = s.inputs := rfl
@[simp] theorem State.setCpsr_bus (s : State) (p : Cpsr) : (s.setCpsr p).bus = s.bus := rfl
@[simp] theorem State.setCpsr_written (s : State) (p : Cpsr) : (s.setCpsr p).written = s.written := rfl
@[simp] theorem State.setCpsr_draws (s : State) (p : Cpsr) : (s.setCpsr p).draws = s.draws := rfl

@[simp] theorem State.setSpsrs_regs (s : State) (p : Spsrs) : (s.setSpsrs p).regs = s.regs := rfl
@[simp] theorem State.setSpsrs_pc (s : State) (p : Spsrs) : (s.setSpsrs p).pc = s.pc := rfl
@[simp] theorem State.setSpsrs_cpsr (s : State) (p : Spsrs) : (s.setSpsrs p).cpsr = s.cpsr := rfl
@[simp] theorem State.setSpsrs_spsr (s : State) (p : Spsrs) : (s.setSpsrs p).spsr = p := rfl
@[simp] theorem State.setSpsrs_mem (s : State) (p : Spsrs) : (s.setSpsrs p).mem = s.mem := rfl
@[simp] theorem State.setSpsrs_cfg (s : State) (p : Spsrs) : (s.setSpsrs p).cfg = s.cfg := rfl
@[simp] theorem State.setSpsrs_inputs (s : State) (p : Spsrs) : (s.setSpsrs p).inputs = s.inputs := rfl
@[simp] theorem State.setSpsrs_bus (s : State) (p : Spsrs) : (s.setSpsrs p).bus = s.bus := rfl
@[simp] theorem State.setSpsrs_written (s : State) (p : Spsrs) : (s.setSpsrs p).written = s.written := rfl
@[simp] theorem State.setSpsrs_draws (s : State) (p : Spsrs) : (s.setSpsrs p).draws = s.draws := rfl

@[simp] theorem State.setMem_regs (s : State) (m : Memory) : (s.setMem m).regs = s.regs := rfl
@[simp] theorem State.setMem_pc (s : State) (m : Memory) : (s.setMem m).pc = s.pc := rfl
@[simp] theorem State.setMem_cpsr (s : State) (m : Memory) : (s.setMem m).cpsr = s.cpsr := rfl
@[simp] theorem State.setMem_spsr (s : State) (m : Memory) : (s.setMem m).spsr = s.spsr := rfl
@[simp] theorem State.setMem_mem (s : State) (m : Memory) : (s.setMem m).mem = m := rfl
@[simp] theorem State.setMem_cfg (s : State) (m : Memory) : (s.setMem m).cfg = s.cfg := rfl
@[simp] theorem State.setMem_inputs (s : State) (m : Memory) : (s.setMem m).inputs = s.inputs := rfl
@[simp] theorem State.setMem_bus (s : State) (m : Memory) : (s.setMem m).bus = s.bus := rfl
@[simp] theorem State.setMem_written (s : State) (m : Memory) : (s.setMem m).written = s.written := rfl
@[simp] theorem State.setMem_draws (s : State) (m : Memory) : (s.setMem m).draws = s.draws := rfl

@[simp] theorem State.setInputs_regs (s : State) (l : List Inputs) : (s.setInputs l).regs = s.regs := rfl
@[simp] theorem State.setInputs_pc (s : State) (l : List Inputs) : (s.setInputs l).pc = s.pc := rfl
@[simp] theorem State.setInputs_cpsr (s : State) (l : List Inputs) : (s.setInputs l).cpsr = s.cpsr := rfl
@[simp] theorem State.setInputs_spsr (s : State) (l : List Inputs) : (s.setInputs l).spsr = s.spsr := rfl
@[simp] theorem State.setInputs_mem (s : State) (l : List Inputs) : (s.setInputs l).mem = s.mem := rfl
@[simp] theorem State.setInputs_cfg (s : State) (l : List Inputs) : (s.setInputs l).cfg = s.cfg := rfl
@[simp] theorem State.setInputs_inputs (s : State) (l : List Inputs) : (s.setInputs l).inputs = l := rfl
@[simp] theorem State.setInputs_bus (s : State) (l : List Inputs) : (s.setInputs l).bus = s.bus := rfl
@[simp] theorem State.setInputs_written (s : State) (l : List Inputs) : (s.setInputs l).written = s.written := rfl
@[simp] theorem State.setInputs_draws (s : State) (l : List Inputs) : (s.setInputs l).draws = s.draws := rfl

@[simp] theorem State.setBus_regs (s : State) (l : List BusWrites) : (s.setBus l).regs = s.regs := rfl
@[simp] theorem State.setBus_pc (s : State) (l : List BusWrites) : (s.setBus l).pc = s.pc := rfl
@[simp] theorem State.setBus_cpsr (s : State) (l : List BusWrites) : (s.setBus l).cpsr = s.cpsr := rfl
@[simp] theorem State.setBus_spsr (s : State) (l : List BusWrites) : (s.setBus l).spsr = s.spsr := rfl
@[simp] theorem State.setBus_mem (s : State) (l : List BusWrites) : (s.setBus l).mem = s.mem := rfl
@[simp] theorem State.setBus_cfg (s : State) (l : List BusWrites) : (s.setBus l).cfg = s.cfg := rfl
@[simp] theorem State.setBus_inputs (s : State) (l : List BusWrites) : (s.setBus l).inputs = s.inputs := rfl
@[simp] theorem State.setBus_bus (s : State) (l : List BusWrites) : (s.setBus l).bus = l := rfl
@[simp] theorem State.setBus_written (s : State) (l : List BusWrites) : (s.setBus l).written = s.written := rfl
@[simp] theorem State.setBus_draws (s : State) (l : List BusWrites) : (s.setBus l).draws = s.draws := rfl

@[simp] theorem State.setWritten_regs (s : State) (l : List Nat) : (s.setWritten l).regs = s.regs := rfl
@[simp] theorem State.setWritten_pc (s : State) (l : List Nat) : (s.setWritten l).pc = s.pc := rfl
@[simp] theorem State.setWritten_cpsr (s : State) (l : List Nat) : (s.setWritten l).cpsr = s.cpsr := rfl
@[simp] theorem State.setWritten_spsr (s : State) (l : List Nat) : (s.setWritten l).spsr = s.spsr := rfl
@[simp] theorem State.setWritten_mem (s : State) (l : List Nat) : (s.setWritten l).mem = s.mem := rfl
@[simp] theorem State.setWritten_cfg (s : State) (l : List Nat) : (s.setWritten l).cfg = s.cfg := rfl
@[simp] theorem State.setWritten_inputs (s : State) (l : List Nat) : (s.setWritten l).inputs = s.inputs := rfl
@[simp] theorem State.setWritten_bus (s : State) (l : List Nat) : (s.setWritten l).bus = s.bus := rfl
@[simp] theorem State.setWritten_written (s : State) (l : List Nat) : (s.setWritten l).written = l := rfl
@[simp] theorem State.setWritten_draws (s : State) (l : List Nat) : (s.setWritten l).draws = s.draws := rfl

@[simp] theorem State.setDraws_regs (s : State) (n : Nat) : (s.setDraws n).regs = s.regs := rfl
@[simp] theorem State.setDraws_pc (s : State) (n : Nat) : (s.setDraws n).pc = s.pc := rfl
@[simp] theorem State.setDraws_cpsr (s : State) (n : Nat) : (s.setDraws n).cpsr = s.cpsr := rfl
@[simp] theorem State.setDraws_spsr (s : State) (n : Nat) : (s.setDraws n).spsr = s.spsr := rfl
@[simp] theorem State.setDraws_mem (s : State) (n : Nat) : (s.setDraws n).mem = s.mem := rfl
@[simp] theorem State.setDraws_cfg (s : State) (n : Nat) : (s.setDraws n).cfg = s.cfg := rfl
@[simp] theorem State.setDraws_inputs (s : State) (n : Nat) : (s.setDraws n).inputs = s.inputs := rfl
@[simp] theorem State.setDraws_bus (s : State) (n : Nat) : (s.setDraws n).bus = s.bus := rfl
@[simp] theorem State.setDraws_written (s : State) (n : Nat) : (s.setDraws n).written = s.written := rfl
@[simp] theorem State.setDraws_draws (s : State) (n : Nat) : (s.setDraws n).draws = n := rfl

/-! ### Cells -/

@[simp] theorem State.cell_pc (s : State) : s.cell .pc = s.pc := rfl

@[simp] theorem State.setCpsr_cell (s : State) (p : Cpsr) (c : Cell) : (s.setCpsr p).cell c = s.cell c := by
  cases c <;> rfl
@[simp] theorem State.setSpsrs_cell (s : State) (p : Spsrs) (c : Cell) : (s.setSpsrs p).cell c = s.cell c := by
  cases c <;> rfl
@[simp] theorem State.setMem_cell (s : State) (m : Memory) (c : Cell) : (s.setMem m).cell c = s.cell c := by
  cases c <;> rfl
@[simp] theorem State.setInputs_cell (s : State) (l : List Inputs) (c : Cell) : (s.setInputs l).cell c = s.cell c := by
  cases c <;> rfl
@[simp] theorem State.setBus_cell (s : State) (l : List BusWrites) (c : Cell) : (s.setBus l).cell c = s.cell c := by
  cases c <;> rfl
@[simp] theorem State.setWritten_cell (s : State) (l : List Nat) (c : Cell) : (s.setWritten l).cell c = s.cell c := by
  cases c <;> rfl
@[simp] theorem State.setDraws_cell (s : State) (n : Nat) (c : Cell) : (s.setDraws n).cell c = s.cell c := by
  cases c <;> rfl

theorem State.setPc_cell (s : State) (a : Word) {c : Cell} (h : c ≠ .pc) : (s.setPc a).cell c = s.cell c := by
  cases c <;> first | rfl | exact absurd rfl h

@[simp] theorem State.setCell_cell_same (s : State) (c : Cell) (v : Word) : (s.setCell c v).cell c = v := by
  cases c <;> rfl

theorem State.setCell_cell_ne (s : State) {c d : Cell} (v : Word) (h : d ≠ c) : (s.setCell c v).cell d = s.cell d := by
  cases c <;> cases d <;> first | rfl | exact absurd rfl h

theorem State.setCell_cell (s : State) (c d : Cell) (v : Word) :
    (s.setCell c v).cell d = if d = c then v else s.cell d := by
  by_cases h : d = c
  · simp [h]
  · simp [h, State.setCell_cell_ne]

@[simp] theorem State.setCell_cpsr (s : State) (c : Cell) (v : Word) : (s.setCell c v).cpsr = s.cpsr := by
  cases c <;> rfl
@[simp] theorem State.setCell_spsr (s : State) (c : Cell) (v : Word) : (s.setCell c v).spsr = s.spsr := by
  cases c <;> rfl
@[simp] theorem State.setCell_mem (s : State) (c : Cell) (v : Word) : (s.setCell c v).mem = s.mem := by
  cases c <;> rfl
@[simp] theorem State.setCell_cfg (s : State) (c : Cell) (v : Word) : (s.setCell c v).cfg = s.cfg := by
  cases c <;> rfl
@[simp] theorem State.setCell_inputs (s : State) (c : Cell) (v : Word) : (s.setCell c v).inputs = s.inputs := by
  cases c <;> rfl
@[simp] theorem State.setCell_bus (s : State) (c : Cell) (v : Word) : (s.setCell c v).bus = s.bus := by
  cases c <;> rfl
@[simp] theorem State.setCell_written (s : State) (c : Cell) (v : Word) : (s.setCell c v).written = s.written := by
  cases c <;> rfl
@[simp] theorem State.setCell_draws (s : State) (c : Cell) (v : Word) : (s.setCell c v).draws = s.draws := by
  cases c <;> rfl

theorem State.setCell_pc (s : State) {c : Cell} (v : Word) (h : c ≠ .pc) : (s.setCell c v).pc = s.pc := by
  cases c <;> first | rfl | exact absurd rfl h

@[simp] theorem State.setReg_cpsr (s : State) (r : RegNum) (v : Word) : (s.setReg r v).cpsr = s.cpsr := by
  simp [State.setReg]
@[simp] theorem State.setReg_spsr (s : State) (r : RegNum) (v : Word) : (s.setReg r v).spsr = s.spsr := by
  simp [State.setReg]
@[simp] theorem State.setReg_mem (s : State) (r : RegNum) (v : Word) : (s.setReg r v).mem = s.mem := by
  simp [State.setReg]
@[simp] theorem State.setReg_cfg (s : State) (r : RegNum) (v : Word) : (s.setReg r v).cfg = s.cfg := by
  simp [State.setReg]
@[simp] theorem State.setReg_inputs (s : State) (r : RegNum) (v : Word) : (s.setReg r v).inputs = s.inputs := by
  simp [State.setReg]
@[simp] theorem State.setReg_bus (s : State) (r : RegNum) (v : Word) : (s.setReg r v).bus = s.bus := by
  simp [State.setReg]
@[simp] theorem State.setReg_written (s : State) (r : RegNum) (v : Word) : (s.setReg r v).written = s.written := by
  simp [State.setReg]
@[simp] theorem State.setReg_draws (s : State) (r : RegNum) (v : Word) : (s.setReg r v).draws = s.draws := by
  simp [State.setReg]

/-! ### The register view -/

/-- A register number below 15 denotes no pc, in any mode (10_state.md R22). -/
theorem bank_ne_pc (m : Mode) {r : RegNum} (h : r ≠ 15) : bank m r ≠ .pc := by
  revert h; cases m <;> revert r <;> decide

@[simp] theorem bank_pc (m : Mode) : bank m 15 = .pc := by cases m <;> rfl

theorem bank_eq_pc (m : Mode) (r : RegNum) : bank m r = .pc ↔ r = 15 := by
  cases m <;> revert r <;> decide

/-- In one mode different numbers denote different registers (10_state.md R22). -/
theorem bank_injective (m : Mode) {r q : RegNum} : bank m r = bank m q ↔ r = q := by
  cases m <;> revert r q <;> decide

theorem State.reg_of_ne (s : State) {r : RegNum} (h : r ≠ 15) : s.reg r = s.cell (bank s.cpsr.mode r) := by
  simp [State.reg, h]

@[simp] theorem State.reg_pc (s : State) : s.reg 15 = s.pc + 8#32 := rfl

theorem State.setReg_pc (s : State) {r : RegNum} (v : Word) (h : r ≠ 15) : (s.setReg r v).pc = s.pc :=
  State.setCell_pc s v (bank_ne_pc _ h)

theorem State.setReg_cell (s : State) (r : RegNum) (v : Word) (d : Cell) :
    (s.setReg r v).cell d = if d = bank s.cpsr.mode r then v else s.cell d := State.setCell_cell s _ d v

/-! ### Status registers -/

@[simp] theorem State.setSpsrOf_regs (s : State) (m : Mode) (p : Psr) : (s.setSpsrOf m p).regs = s.regs := by cases m <;> rfl
@[simp] theorem State.setSpsrOf_pc (s : State) (m : Mode) (p : Psr) : (s.setSpsrOf m p).pc = s.pc := by cases m <;> rfl
@[simp] theorem State.setSpsrOf_cpsr (s : State) (m : Mode) (p : Psr) : (s.setSpsrOf m p).cpsr = s.cpsr := by cases m <;> rfl
@[simp] theorem State.setSpsrOf_mem (s : State) (m : Mode) (p : Psr) : (s.setSpsrOf m p).mem = s.mem := by cases m <;> rfl
@[simp] theorem State.setSpsrOf_cfg (s : State) (m : Mode) (p : Psr) : (s.setSpsrOf m p).cfg = s.cfg := by cases m <;> rfl
@[simp] theorem State.setSpsrOf_inputs (s : State) (m : Mode) (p : Psr) : (s.setSpsrOf m p).inputs = s.inputs := by
  cases m <;> rfl
@[simp] theorem State.setSpsrOf_bus (s : State) (m : Mode) (p : Psr) : (s.setSpsrOf m p).bus = s.bus := by
  cases m <;> rfl
@[simp] theorem State.setSpsrOf_written (s : State) (m : Mode) (p : Psr) : (s.setSpsrOf m p).written = s.written := by
  cases m <;> rfl
@[simp] theorem State.setSpsrOf_draws (s : State) (m : Mode) (p : Psr) : (s.setSpsrOf m p).draws = s.draws := by
  cases m <;> rfl
@[simp] theorem State.setSpsrOf_cell (s : State) (m : Mode) (p : Psr) (c : Cell) : (s.setSpsrOf m p).cell c = s.cell c := by
  cases m <;> cases c <;> rfl

/-- Five bits that name a mode are that mode's bits (10_state.md R34). -/
theorem Mode.ofBits_bits {cfg : Config} {b : BitVec 5} {m : Mode} (h : Mode.ofBits cfg b = some m) : m.bits = b := by
  unfold Mode.ofBits at h
  split_ifs at h <;> cases h <;> simp_all [Mode.bits]

/-- System mode is a mode only with HAS_SYSTEM_MODE (10_state.md R34). -/
theorem Mode.ofBits_system {cfg : Config} {b : BitVec 5} (h : Mode.ofBits cfg b = some .system) : cfg.hasSystemMode = true := by
  unfold Mode.ofBits at h
  split_ifs at h <;> simp_all

/-- What `Psr.restored` can answer: the fields as they are, the mode that the mode field names. -/
theorem Psr.restored_cases {cfg : Config} {p : Psr} {q : Cpsr} (h : p.restored cfg = some q) :
    ∃ m, Mode.ofBits cfg p.m = some m ∧ q = { n := p.n, z := p.z, c := p.c, v := p.v, i := p.i, f := p.f, t := p.t, mode := m } := by
  unfold Psr.restored at h
  split at h
  · cases h
  · next m hm => exact ⟨m, hm, by simpa using h.symm⟩

end Sys2Proof.Machine
end

