-- ==== Sys2Proof/Laws/Memory.lean ====
section
/-! SUPPORT. Memory as a list of bytes: reading after writing, and that every operation keeps the canonical form. -/

namespace Sys2Proof.Machine

/-! ### One byte -/

theorem Memory.wfFrom_mono {lo lo' : Nat} {m : Memory} (h : Memory.wfFrom lo m = true) (hl : lo' ≤ lo) :
    Memory.wfFrom lo' m = true := by
  cases m with
  | nil => rfl
  | cons x rest =>
    obtain ⟨k, b⟩ := x
    simp only [Memory.wfFrom, Bool.and_eq_true, decide_eq_true_eq] at h ⊢
    exact ⟨⟨⟨by omega, h.1.1.2⟩, h.1.2⟩, h.2⟩

/-- Below the first listed address every byte reads as an unlisted one. -/
theorem Memory.read_below {lo a : Nat} {m : Memory} (h : Memory.wfFrom lo m = true) (ha : a < lo) : m.read a = Memory.blank := by
  induction m generalizing lo with
  | nil => rfl
  | cons x rest ih =>
    obtain ⟨k, b⟩ := x
    simp only [Memory.wfFrom, Bool.and_eq_true, decide_eq_true_eq] at h
    have hk : k ≠ a := by omega
    simpa [Memory.read, hk] using ih h.2 (by omega)

theorem Memory.read_write_same_from {lo a : Nat} {m : Memory} (v : Byte) (h : Memory.wfFrom lo m = true) :
    (m.write a v).read a = v := by
  induction m generalizing lo with
  | nil => by_cases hv : v = Memory.blank <;> simp [Memory.write, Memory.read, hv]
  | cons x rest ih =>
    obtain ⟨k, b⟩ := x
    have hw := h
    simp only [Memory.wfFrom, Bool.and_eq_true, decide_eq_true_eq] at h
    by_cases h1 : a < k
    · by_cases hv : v = Memory.blank
      · have hk : k ≠ a := by omega
        simpa [Memory.write, Memory.read, h1, hv, hk] using Memory.read_below h.2 (by omega : a < k + 1)
      · simp [Memory.write, Memory.read, h1, hv]
    · by_cases h2 : a = k
      · by_cases hv : v = Memory.blank
        · simpa [Memory.write, h2, hv] using Memory.read_below h.2 (by omega : k < k + 1)
        · simp [Memory.write, Memory.read, h2, hv]
      · have hk : ¬ k = a := by omega
        simpa [Memory.write, Memory.read, h1, h2, hk] using ih h.2

/-- A byte reads as it was last written. -/
theorem Memory.read_write_same {m : Memory} (a : Nat) (v : Byte) (h : m.wf = true) : (m.write a v).read a = v :=
  Memory.read_write_same_from v h

/-- A write leaves every other byte alone. -/
theorem Memory.read_write_ne (m : Memory) {a d : Nat} (v : Byte) (h : d ≠ a) : (m.write a v).read d = m.read d := by
  have hd : ¬ a = d := fun e => h e.symm
  induction m with
  | nil => by_cases hv : v = Memory.blank <;> simp [Memory.write, Memory.read, hv, hd]
  | cons x rest ih =>
    obtain ⟨k, b⟩ := x
    by_cases h1 : a < k
    · by_cases hv : v = Memory.blank <;> simp [Memory.write, Memory.read, h1, hv, hd]
    · by_cases h2 : a = k
      · have hk : ¬ k = d := by omega
        by_cases hv : v = Memory.blank <;> simp [Memory.write, Memory.read, h2, hv, hk]
      · simp [Memory.write, Memory.read, h1, h2, ih]

theorem Memory.read_write {m : Memory} (h : m.wf = true) (a d : Nat) (v : Byte) :
    (m.write a v).read d = if d = a then v else m.read d := by
  by_cases hd : d = a
  · simp [hd, Memory.read_write_same _ _ h]
  · simp [hd, Memory.read_write_ne]

theorem Memory.wfFrom_write {lo a : Nat} {m : Memory} (v : Byte) (h : Memory.wfFrom lo m = true) (hl : lo ≤ a)
    (ha : a < 2 ^ 32) : Memory.wfFrom lo (m.write a v) = true := by
  induction m generalizing lo with
  | nil => by_cases hv : v = Memory.blank <;> simp [Memory.write, Memory.wfFrom, hv]; omega
  | cons x rest ih =>
    obtain ⟨k, b⟩ := x
    have hw := h
    simp only [Memory.wfFrom, Bool.and_eq_true, decide_eq_true_eq] at h
    obtain ⟨⟨⟨hlo, hk⟩, hb⟩, hr⟩ := h
    by_cases h1 : a < k
    · by_cases hv : v = Memory.blank
      · simpa [Memory.write, h1, hv] using hw
      · have : a + 1 ≤ k := h1
        simp [Memory.write, Memory.wfFrom, h1, hv, hr, hb]
        omega
    · by_cases h2 : a = k
      · by_cases hv : v = Memory.blank
        · simpa [Memory.write, h2, hv] using Memory.wfFrom_mono hr (by omega : lo ≤ k + 1)
        · simp [Memory.write, Memory.wfFrom, h2, hv, hr]
          omega
      · simp [Memory.write, Memory.wfFrom, h1, h2, hb, ih hr (by omega)]
        omega

/-- A write inside the address space keeps the canonical form. -/
theorem Memory.wf_write {m : Memory} {a : Nat} (v : Byte) (h : m.wf = true) (ha : a < 2 ^ 32) : (m.write a v).wf = true :=
  Memory.wfFrom_write v h (Nat.zero_le a) ha

/-- Every listed address lies in the address space. -/
theorem Memory.key_lt {lo : Nat} {m : Memory} (h : Memory.wfFrom lo m = true) {x : Host.Cell} (hx : x ∈ m) : x.1 < 2 ^ 32 := by
  induction m generalizing lo with
  | nil => cases hx
  | cons y rest ih =>
    obtain ⟨k, b⟩ := y
    simp only [Memory.wfFrom, Bool.and_eq_true, decide_eq_true_eq] at h
    rcases List.mem_cons.1 hx with e | e
    · subst e; exact h.1.1.2
    · exact ih h.2 e

/-- Memories of canonical form that read alike everywhere are equal. -/
theorem Memory.ext_from {lo : Nat} {m m' : Memory} (h : Memory.wfFrom lo m = true) (h' : Memory.wfFrom lo m' = true)
    (e : ∀ a, m.read a = m'.read a) : m = m' := by
  induction m generalizing lo m' with
  | nil =>
    cases m' with
    | nil => rfl
    | cons y rest =>
      obtain ⟨k, b⟩ := y
      simp only [Memory.wfFrom, Bool.and_eq_true, decide_eq_true_eq] at h'
      have := e k
      simp [Memory.read] at this
      exact absurd this.symm h'.1.2
  | cons x rest ih =>
    obtain ⟨k, b⟩ := x
    cases m' with
    | nil =>
      simp only [Memory.wfFrom, Bool.and_eq_true, decide_eq_true_eq] at h
      have := e k
      simp [Memory.read] at this
      exact absurd this h.1.2
    | cons y rest' =>
      obtain ⟨k', b'⟩ := y
      simp only [Memory.wfFrom, Bool.and_eq_true, decide_eq_true_eq] at h h'
      have hkk : k = k' := by
        rcases Nat.lt_trichotomy k k' with hlt | heq | hgt
        · have := e k
          have hr : Memory.read rest' k = Memory.blank := Memory.read_below h'.2 (by omega)
          simp [Memory.read, hr, Nat.ne_of_gt hlt] at this
          exact absurd this h.1.2
        · exact heq
        · have := e k'
          have hr : Memory.read rest k' = Memory.blank := Memory.read_below h.2 (by omega)
          simp [Memory.read, hr, Nat.ne_of_gt hgt] at this
          exact absurd this.symm h'.1.2
      subst hkk
      have hb : b = b' := by simpa [Memory.read] using e k
      subst hb
      congr 1
      refine ih h.2 h'.2 fun a => ?_
      by_cases ha : k = a
      · subst ha
        rw [Memory.read_below h.2 (by omega), Memory.read_below h'.2 (by omega)]
      · simpa [Memory.read, ha] using e a

/-! ### Words and half-words -/

theorem Memory.wf_writeWord {m : Memory} {a : Nat} (be : Bool) (v : Word) (h : m.wf = true) (ha : a + 3 < 2 ^ 32) :
    (m.writeWord be a v).wf = true :=
  Memory.wf_write _ (Memory.wf_write _ (Memory.wf_write _ (Memory.wf_write _ h (by omega)) (by omega)) (by omega)) ha

theorem Memory.wf_writeHalf {m : Memory} {a : Nat} (be : Bool) (v : Half) (h : m.wf = true) (ha : a + 1 < 2 ^ 32) :
    (m.writeHalf be a v).wf = true :=
  Memory.wf_write _ (Memory.wf_write _ h (by omega)) ha

theorem Memory.read_writeWord_outside (be : Bool) (m : Memory) (v : Word) {a d : Nat} (h : d < a ∨ a + 4 ≤ d) :
    (m.writeWord be a v).read d = m.read d := by
  simp only [Memory.writeWord]
  rw [Memory.read_write_ne _ _ (by omega), Memory.read_write_ne _ _ (by omega), Memory.read_write_ne _ _ (by omega),
    Memory.read_write_ne _ _ (by omega)]

theorem Memory.read_writeWord {m : Memory} (be : Bool) (v : Word) {a k : Nat} (h : m.wf = true) (ha : a + 3 < 2 ^ 32)
    (hk : k < 4) : (m.writeWord be a v).read (a + k) = wordByte be v k := by
  have h0 := Memory.wf_write (wordByte be v 0) h (by omega : a < 2 ^ 32)
  have h1 := Memory.wf_write (wordByte be v 1) h0 (by omega : a + 1 < 2 ^ 32)
  have h2 := Memory.wf_write (wordByte be v 2) h1 (by omega : a + 2 < 2 ^ 32)
  simp only [Memory.writeWord, Memory.read_write h2, Memory.read_write h1, Memory.read_write h0, Memory.read_write h]
  have : k = 0 ∨ k = 1 ∨ k = 2 ∨ k = 3 := by omega
  rcases this with rfl | rfl | rfl | rfl <;> simp

theorem Memory.read_writeHalf_outside (be : Bool) (m : Memory) (v : Half) {a d : Nat} (h : d < a ∨ a + 2 ≤ d) :
    (m.writeHalf be a v).read d = m.read d := by
  simp only [Memory.writeHalf]
  rw [Memory.read_write_ne _ _ (by omega), Memory.read_write_ne _ _ (by omega)]

theorem Memory.read_writeHalf {m : Memory} (be : Bool) (v : Half) {a k : Nat} (h : m.wf = true) (ha : a + 1 < 2 ^ 32)
    (hk : k < 2) : (m.writeHalf be a v).read (a + k) = halfByte be v k := by
  have h0 := Memory.wf_write (halfByte be v 0) h (by omega : a < 2 ^ 32)
  simp only [Memory.writeHalf, Memory.read_write h0, Memory.read_write h]
  have : k = 0 ∨ k = 1 := by omega
  rcases this with rfl | rfl <;> simp

/-! ### Alignment -/

theorem high_bits_set : ∀ j : Fin 32, ¬ j.val < 2 → (0xFFFFFFFC#32).getLsbD j.val = true := by decide

/-- Clearing the two low bits rounds down to a multiple of four. -/
theorem alignWord_toNat (a : Word) : (alignWord a).toNat = a.toNat - a.toNat % 4 := by
  have h : alignWord a = (a >>> 2) <<< 2 := by
    unfold alignWord
    ext i hi
    simp only [BitVec.getElem_and, BitVec.getElem_shiftLeft, BitVec.getElem_ushiftRight]
    by_cases h2 : i < 2
    · have : i = 0 ∨ i = 1 := by omega
      rcases this with rfl | rfl <;> simp
    · have e : (0xFFFFFFFC#32)[i] = true := high_bits_set ⟨i, hi⟩ h2
      simp only [e, h2, decide_false, Bool.not_false, Bool.true_and, Bool.and_true]
      have h3 : 2 + (i - 2) = i := by omega
      rw [h3, BitVec.getLsbD_eq_getElem]
  rw [h]
  have := a.isLt
  simp [BitVec.toNat_shiftLeft, BitVec.toNat_ushiftRight, Nat.shiftLeft_eq, Nat.shiftRight_eq_div_pow]
  omega

theorem alignWord_lt (a : Word) : (alignWord a).toNat + 3 < 2 ^ 32 := by
  rw [alignWord_toNat]
  have := a.isLt
  omega

theorem alignWord_mod (a : Word) : (alignWord a).toNat % 4 = 0 := by
  rw [alignWord_toNat]
  omega

theorem alignWord_of_aligned {a : Word} (h : a.extractLsb' 0 2 = 0#2) : alignWord a = a := by
  apply BitVec.eq_of_toNat_eq
  have h' := congrArg BitVec.toNat h
  simp [BitVec.extractLsb'_toNat] at h'
  rw [alignWord_toNat]
  omega

/-- The two low bits of an address as a number. -/
theorem low_bits_toNat (a : Word) : (a.extractLsb' 0 2).toNat = a.toNat % 4 := by
  simp [BitVec.extractLsb'_toNat]

/-! ### Stores and what they leave -/

theorem mem_noteWritten (x : Nat) (l : List Nat) (a : Nat) : a ∈ noteWritten x l ↔ a = x ∨ a ∈ l := by
  induction l with
  | nil => simp [noteWritten]
  | cons k rest ih =>
    simp only [noteWritten]
    split
    · simp
    · split
      · next h1 h2 => subst h2; simp
      · simp only [List.mem_cons, ih]
        tauto

theorem writtenWfFrom_mono {lo lo' : Nat} {l : List Nat} (h : writtenWfFrom lo l = true) (hl : lo' ≤ lo) :
    writtenWfFrom lo' l = true := by
  cases l with
  | nil => rfl
  | cons k rest =>
    simp only [writtenWfFrom, Bool.and_eq_true, decide_eq_true_eq] at h ⊢
    exact ⟨⟨⟨by omega, h.1.1.2⟩, h.1.2⟩, h.2⟩

theorem writtenWfFrom_note {lo a : Nat} {l : List Nat} (h : writtenWfFrom lo l = true) (hl : lo ≤ a) (ha : a < 2 ^ 32)
    (hm : a % 4 = 0) : writtenWfFrom lo (noteWritten a l) = true := by
  induction l generalizing lo with
  | nil => simp [noteWritten, writtenWfFrom, hm]; omega
  | cons k rest ih =>
    have hw := h
    simp only [writtenWfFrom, Bool.and_eq_true, decide_eq_true_eq] at h
    obtain ⟨⟨⟨h1, h2⟩, h3⟩, h4⟩ := h
    simp only [noteWritten]
    split
    · next hk =>
      have := writtenWfFrom_mono h4 (le_refl (k + 1))
      simp [writtenWfFrom, h3, h4, hm]
      omega
    · split
      · exact hw
      · next n1 n2 =>
        simp [writtenWfFrom, h3, ih h4 (by omega)]
        omega

@[simp] theorem State.noteStore_regs (s : State) (a : Word) : (s.noteStore a).regs = s.regs := rfl
@[simp] theorem State.noteStore_pc (s : State) (a : Word) : (s.noteStore a).pc = s.pc := rfl
@[simp] theorem State.noteStore_cpsr (s : State) (a : Word) : (s.noteStore a).cpsr = s.cpsr := rfl
@[simp] theorem State.noteStore_spsr (s : State) (a : Word) : (s.noteStore a).spsr = s.spsr := rfl
@[simp] theorem State.noteStore_mem (s : State) (a : Word) : (s.noteStore a).mem = s.mem := rfl
@[simp] theorem State.noteStore_cfg (s : State) (a : Word) : (s.noteStore a).cfg = s.cfg := rfl
@[simp] theorem State.noteStore_inputs (s : State) (a : Word) : (s.noteStore a).inputs = s.inputs := rfl
@[simp] theorem State.noteStore_bus (s : State) (a : Word) : (s.noteStore a).bus = s.bus := rfl
@[simp] theorem State.noteStore_draws (s : State) (a : Word) : (s.noteStore a).draws = s.draws := rfl
@[simp] theorem State.noteStore_cell (s : State) (a : Word) (c : Cell) : (s.noteStore a).cell c = s.cell c := by
  cases c <;> rfl
@[simp] theorem State.noteStore_written (s : State) (a : Word) :
    (s.noteStore a).written = noteWritten (alignWord a).toNat s.written := rfl
@[simp] theorem State.storeWord_regs (s : State) (a v : Word) : (s.storeWord a v).regs = s.regs := rfl
@[simp] theorem State.storeWord_pc (s : State) (a v : Word) : (s.storeWord a v).pc = s.pc := rfl
@[simp] theorem State.storeWord_cpsr (s : State) (a v : Word) : (s.storeWord a v).cpsr = s.cpsr := rfl
@[simp] theorem State.storeWord_spsr (s : State) (a v : Word) : (s.storeWord a v).spsr = s.spsr := rfl
@[simp] theorem State.storeWord_cfg (s : State) (a v : Word) : (s.storeWord a v).cfg = s.cfg := rfl
@[simp] theorem State.storeWord_inputs (s : State) (a v : Word) : (s.storeWord a v).inputs = s.inputs := rfl
@[simp] theorem State.storeWord_bus (s : State) (a v : Word) : (s.storeWord a v).bus = s.bus := rfl
@[simp] theorem State.storeWord_draws (s : State) (a v : Word) : (s.storeWord a v).draws = s.draws := rfl
@[simp] theorem State.storeWord_cell (s : State) (a v : Word) (c : Cell) : (s.storeWord a v).cell c = s.cell c := by
  cases c <;> rfl
@[simp] theorem State.storeWord_written (s : State) (a v : Word) :
    (s.storeWord a v).written = noteWritten (alignWord a).toNat s.written := rfl
@[simp] theorem State.storeHalf_regs (s : State) (a : Word) (v : Half) : (s.storeHalf a v).regs = s.regs := rfl
@[simp] theorem State.storeHalf_pc (s : State) (a : Word) (v : Half) : (s.storeHalf a v).pc = s.pc := rfl
@[simp] theorem State.storeHalf_cpsr (s : State) (a : Word) (v : Half) : (s.storeHalf a v).cpsr = s.cpsr := rfl
@[simp] theorem State.storeHalf_spsr (s : State) (a : Word) (v : Half) : (s.storeHalf a v).spsr = s.spsr := rfl
@[simp] theorem State.storeHalf_cfg (s : State) (a : Word) (v : Half) : (s.storeHalf a v).cfg = s.cfg := rfl
@[simp] theorem State.storeHalf_inputs (s : State) (a : Word) (v : Half) : (s.storeHalf a v).inputs = s.inputs := rfl
@[simp] theorem State.storeHalf_bus (s : State) (a : Word) (v : Half) : (s.storeHalf a v).bus = s.bus := rfl
@[simp] theorem State.storeHalf_draws (s : State) (a : Word) (v : Half) : (s.storeHalf a v).draws = s.draws := rfl
@[simp] theorem State.storeHalf_cell (s : State) (a : Word) (v : Half) (c : Cell) : (s.storeHalf a v).cell c = s.cell c := by
  cases c <;> rfl
@[simp] theorem State.storeHalf_written (s : State) (a : Word) (v : Half) :
    (s.storeHalf a v).written = noteWritten (alignWord a).toNat s.written := rfl
@[simp] theorem State.storeByte_regs (s : State) (a : Word) (v : Byte) : (s.storeByte a v).regs = s.regs := rfl
@[simp] theorem State.storeByte_pc (s : State) (a : Word) (v : Byte) : (s.storeByte a v).pc = s.pc := rfl
@[simp] theorem State.storeByte_cpsr (s : State) (a : Word) (v : Byte) : (s.storeByte a v).cpsr = s.cpsr := rfl
@[simp] theorem State.storeByte_spsr (s : State) (a : Word) (v : Byte) : (s.storeByte a v).spsr = s.spsr := rfl
@[simp] theorem State.storeByte_cfg (s : State) (a : Word) (v : Byte) : (s.storeByte a v).cfg = s.cfg := rfl
@[simp] theorem State.storeByte_inputs (s : State) (a : Word) (v : Byte) : (s.storeByte a v).inputs = s.inputs := rfl
@[simp] theorem State.storeByte_bus (s : State) (a : Word) (v : Byte) : (s.storeByte a v).bus = s.bus := rfl
@[simp] theorem State.storeByte_draws (s : State) (a : Word) (v : Byte) : (s.storeByte a v).draws = s.draws := rfl
@[simp] theorem State.storeByte_cell (s : State) (a : Word) (v : Byte) (c : Cell) : (s.storeByte a v).cell c = s.cell c := by
  cases c <;> rfl
@[simp] theorem State.storeByte_written (s : State) (a : Word) (v : Byte) :
    (s.storeByte a v).written = noteWritten (alignWord a).toNat s.written := rfl
@[simp] theorem State.storeWord_mem (s : State) (a v : Word) :
    (s.storeWord a v).mem = s.mem.writeWord s.cfg.bigEndian (alignWord a).toNat v := rfl
@[simp] theorem State.storeHalf_mem (s : State) (a : Word) (v : Half) :
    (s.storeHalf a v).mem = s.mem.writeHalf s.cfg.bigEndian a.toNat v := rfl
@[simp] theorem State.storeByte_mem (s : State) (a : Word) (v : Byte) : (s.storeByte a v).mem = s.mem.write a.toNat v := rfl

/-! ### Other agents (20_memory.md R74, R80) -/

@[simp] theorem State.atAccess_regs (s : State) : s.atAccess.regs = s.regs := rfl
@[simp] theorem State.atAccess_pc (s : State) : s.atAccess.pc = s.pc := rfl
@[simp] theorem State.atAccess_cpsr (s : State) : s.atAccess.cpsr = s.cpsr := rfl
@[simp] theorem State.atAccess_spsr (s : State) : s.atAccess.spsr = s.spsr := rfl
@[simp] theorem State.atAccess_cfg (s : State) : s.atAccess.cfg = s.cfg := rfl
@[simp] theorem State.atAccess_inputs (s : State) : s.atAccess.inputs = s.inputs := rfl
@[simp] theorem State.atAccess_written (s : State) : s.atAccess.written = s.written := rfl
@[simp] theorem State.atAccess_draws (s : State) : s.atAccess.draws = s.draws := rfl
theorem State.atAccess_mem (s : State) : s.atAccess.mem = s.mem.afterBus (s.bus.headD []) := rfl
@[simp] theorem State.atAccess_bus (s : State) : s.atAccess.bus = s.bus.tail := rfl
@[simp] theorem State.atAccess_cell (s : State) (c : Cell) : s.atAccess.cell c = s.cell c := by cases c <;> rfl
@[simp] theorem State.atAccess_reg (s : State) (r : RegNum) : s.atAccess.reg r = s.reg r := by simp [State.reg]

@[simp] theorem State.atAccess_privilege (s : State) : s.atAccess.privilege = s.privilege := rfl
@[simp] theorem State.atAccess_wordFaults (s : State) (a : Word) (k : AccessKind) (p : Privilege) :
    s.atAccess.wordFaults a k p = s.wordFaults a k p := rfl
@[simp] theorem State.atAccess_halfFaults (s : State) (a : Word) (k : AccessKind) (p : Privilege) :
    s.atAccess.halfFaults a k p = s.halfFaults a k p := rfl
@[simp] theorem State.atAccess_byteFaults (s : State) (a : Word) (k : AccessKind) (p : Privilege) :
    s.atAccess.byteFaults a k p = s.byteFaults a k p := rfl

/-- What other agents write keeps memory in its canonical form. -/
theorem Memory.wf_afterBus (l : BusWrites) (m : Memory) (h : m.wf = true) : (m.afterBus l).wf = true := by
  induction l generalizing m with
  | nil => exact h
  | cons x rest ih => exact ih _ (Memory.wf_write _ h x.1.isLt)

theorem Memory.afterBus_append (m : Memory) (l l' : BusWrites) : m.afterBus (l ++ l') = (m.afterBus l).afterBus l' := by
  induction l generalizing m with
  | nil => rfl
  | cons x rest ih => exact ih _

theorem State.atAccess_memoryWf {s : State} (h : s.mem.wf = true) : s.atAccess.mem.wf = true := Memory.wf_afterBus _ _ h

/-- What `n` accesses that write nothing leave: other agents' first `n` entries are used up and in memory. -/
theorem State.atAccessNo_eq (n : Nat) (s : State) :
    s.atAccessNo n = (s.setBus (s.bus.drop n)).setMem (s.mem.afterBus (s.bus.take n).flatten) := by
  induction n generalizing s with
  | zero => rfl
  | succ n ih =>
    rw [State.atAccessNo, ih]
    obtain ⟨r, p, c, sp, m, cf, i, b, w, d⟩ := s
    cases b with
    | nil => simp [State.atAccess, State.setBus, State.setMem, Memory.afterBus]
    | cons x rest => simp [State.atAccess, State.setBus, State.setMem, Memory.afterBus_append]

theorem State.atAccessNo_succ (n : Nat) (s : State) : s.atAccessNo (n + 1) = (s.atAccessNo n).atAccess := by
  induction n generalizing s with
  | zero => rfl
  | succ n ih => exact ih _

@[simp] theorem State.atAccessNo_regs (n : Nat) (s : State) : (s.atAccessNo n).regs = s.regs := by simp [State.atAccessNo_eq]
@[simp] theorem State.atAccessNo_pc (n : Nat) (s : State) : (s.atAccessNo n).pc = s.pc := by simp [State.atAccessNo_eq]
@[simp] theorem State.atAccessNo_cpsr (n : Nat) (s : State) : (s.atAccessNo n).cpsr = s.cpsr := by simp [State.atAccessNo_eq]
@[simp] theorem State.atAccessNo_spsr (n : Nat) (s : State) : (s.atAccessNo n).spsr = s.spsr := by simp [State.atAccessNo_eq]
@[simp] theorem State.atAccessNo_cfg (n : Nat) (s : State) : (s.atAccessNo n).cfg = s.cfg := by simp [State.atAccessNo_eq]
@[simp] theorem State.atAccessNo_inputs (n : Nat) (s : State) : (s.atAccessNo n).inputs = s.inputs := by simp [State.atAccessNo_eq]
@[simp] theorem State.atAccessNo_written (n : Nat) (s : State) : (s.atAccessNo n).written = s.written := by simp [State.atAccessNo_eq]
@[simp] theorem State.atAccessNo_draws (n : Nat) (s : State) : (s.atAccessNo n).draws = s.draws := by simp [State.atAccessNo_eq]
@[simp] theorem State.atAccessNo_cell (n : Nat) (s : State) (c : Cell) : (s.atAccessNo n).cell c = s.cell c := by
  simp [State.atAccessNo_eq]
@[simp] theorem State.atAccessNo_reg (n : Nat) (s : State) (r : RegNum) : (s.atAccessNo n).reg r = s.reg r := by simp [State.reg]
theorem State.atAccessNo_mem (n : Nat) (s : State) : (s.atAccessNo n).mem = s.mem.afterBus (s.bus.take n).flatten := by
  simp [State.atAccessNo_eq]
theorem State.atAccessNo_bus (n : Nat) (s : State) : (s.atAccessNo n).bus = s.bus.drop n := by simp [State.atAccessNo_eq]

/-- The two facts about memory that every store keeps. -/
def State.MemoryWf (s : State) : Prop := s.mem.wf = true ∧ writtenWfFrom 0 s.written = true

theorem State.storeWord_memoryWf {s : State} (a v : Word) (h : s.MemoryWf) : (s.storeWord a v).MemoryWf :=
  ⟨Memory.wf_writeWord _ _ h.1 (alignWord_lt a),
    writtenWfFrom_note h.2 (Nat.zero_le _) (alignWord a).isLt (alignWord_mod a)⟩

theorem State.storeByte_memoryWf {s : State} (a : Word) (v : Byte) (h : s.MemoryWf) : (s.storeByte a v).MemoryWf :=
  ⟨Memory.wf_write _ h.1 a.isLt, writtenWfFrom_note h.2 (Nat.zero_le _) (alignWord a).isLt (alignWord_mod a)⟩

/-- A half-word store keeps the canonical form; it is only made at even addresses (20_memory.md R68). -/
theorem State.storeHalf_memoryWf {s : State} {a : Word} (v : Half) (ha : a.getLsbD 0 = false) (h : s.MemoryWf) :
    (s.storeHalf a v).MemoryWf := by
  have hlt : a.toNat + 1 < 2 ^ 32 := by
    have := a.isLt
    simp [BitVec.getLsbD, Nat.testBit_zero] at ha
    omega
  exact ⟨Memory.wf_writeHalf _ _ h.1 hlt, writtenWfFrom_note h.2 (Nat.zero_le _) (alignWord a).isLt (alignWord_mod a)⟩

end Sys2Proof.Machine
end

