-- ==== Sys2Proof/Laws/Results.lean ====
section
/-! SUPPORT. What each shared way of ending an instruction can answer, said once: the cases of `advance`, `conditional`,
`unlessRefused`, `gated`, the writes of the pc, the exception entry and the exception return. -/

namespace Sys2Proof.Machine

/-! ### Sequence, conditions and checks -/

theorem advance_next {s t : State} (h : advance s = .next t) : s.pc ≠ 0xFFFFFFFC#32 ∧ t = s.setPc (s.pc + 4#32) := by
  unfold advance at h
  split at h
  · cases h
  · next hp => exact ⟨hp, by injection h with h; exact h.symm⟩

theorem advance_of_ne {s : State} (h : s.pc ≠ 0xFFFFFFFC#32) : advance s = .next (s.setPc (s.pc + 4#32)) := by
  simp [advance, h]

theorem advance_at_end {s : State} (h : s.pc = 0xFFFFFFFC#32) : advance s = .refused .pastEndOfAddressSpace := by
  simp [advance, h]

theorem advance_not_fault (s : State) (f : Fault) : advance s ≠ .fault f := by
  unfold advance
  split <;> simp

theorem conditional_passed {cond : Cond} {s : State} (h : conditionPassed cond s.cpsr = true) (k : Result) :
    conditional cond s k = k := by
  simp [conditional, h]

theorem conditional_failed {cond : Cond} {s : State} (h : conditionPassed cond s.cpsr = false) (k : Result) :
    conditional cond s k = advance s := by
  simp [conditional, h]

/-- A conditional instruction either does what it does or is skipped. -/
theorem conditional_cases (cond : Cond) (s : State) (k : Result) : conditional cond s k = k ∨ conditional cond s k = advance s := by
  unfold conditional
  split <;> simp

theorem unlessRefused_next {check : Option Refusal} {k : Result} {t : State} (h : unlessRefused check k = .next t) :
    check = none ∧ k = .next t := by
  cases check with
  | none => exact ⟨rfl, h⟩
  | some r => cases h

theorem unlessRefused_fault {check : Option Refusal} {k : Result} {f : Fault} (h : unlessRefused check k = .fault f) :
    check = none ∧ k = .fault f := by
  cases check with
  | none => exact ⟨rfl, h⟩
  | some r => cases h

@[simp] theorem unlessRefused_none (k : Result) : unlessRefused none k = k := rfl
@[simp] theorem unlessRefused_some (r : Refusal) (k : Result) : unlessRefused (some r) k = .refused r := rfl

theorem gated_next {feature : Bool} {k : Result} {t : State} (h : gated feature k = .next t) : feature = true ∧ k = .next t := by
  cases feature with
  | true => exact ⟨rfl, h⟩
  | false => cases h

theorem gated_fault {feature : Bool} {k : Result} {f : Fault} (h : gated feature k = .fault f) : k = .fault f := by
  cases feature with
  | true => exact h
  | false => cases h

@[simp] theorem gated_true (k : Result) : gated true k = k := rfl
@[simp] theorem gated_false (k : Result) : gated false k = .refused .featureAbsent := rfl

/-! ### Writes of the pc -/

theorem branchAligned_next {target : Word} {s t : State} (h : branchAligned target s = .next t) :
    target.extractLsb' 0 2 = 0#2 ∧ t = s.setPc target := by
  unfold branchAligned at h
  split at h
  · cases h
  · next hp => exact ⟨by simpa using hp, by injection h with h; exact h.symm⟩

/-- A word loaded into the pc: an ARM address, or with HAS_V5T a Thumb address (R244, R285). -/
theorem loadPc_next {v : Word} {s t : State} (h : loadPc v s = .next t) :
    (v.extractLsb' 0 2 = 0#2 ∧ t = (if s.cfg.hasV5T then s.setCpsr { s.cpsr with t := false } else s).setPc v)
      ∨ (s.cfg.hasV5T = true ∧ v.getLsbD 0 = true ∧ t = (s.setCpsr { s.cpsr with t := true }).setPc (alignHalf v)) := by
  unfold loadPc at h
  split at h
  · next hv => exact .inl ⟨hv, by injection h with h; exact h.symm⟩
  · split at h
    · next hc =>
      simp only [Bool.and_eq_true] at hc
      exact .inr ⟨hc.1, hc.2, by injection h with h; exact h.symm⟩
    · cases h

theorem loadPc_not_fault (v : Word) (s : State) (f : Fault) : loadPc v s ≠ .fault f := by
  unfold loadPc
  split
  · simp
  · split <;> simp

@[simp] theorem Cpsr.limitT_mode (cfg : Config) (p : Cpsr) : (p.limitT cfg).mode = p.mode := rfl

/-- T is set only with Thumb (10_state.md R33). -/
theorem Cpsr.limitT_t {cfg : Config} {p : Cpsr} (h : (p.limitT cfg).t = true) : cfg.hasThumb = true := by
  simp [Cpsr.limitT] at h
  exact h.2

/-- The exception return: there is an SPSR, its mode field names a mode, the target is aligned for the T bit it leaves (R178, R286). -/
theorem exceptionReturn_next {target : Word} {s t : State} (h : exceptionReturn target s = .next t) :
    ∃ p q, s.spsrOf s.cpsr.mode = some p ∧ p.restored s.cfg = some q
      ∧ ((q.limitT s.cfg).t = false → target.extractLsb' 0 2 = 0#2) ∧ ((q.limitT s.cfg).t = true → target.getLsbD 0 = false)
      ∧ t = (s.setCpsr (q.limitT s.cfg)).setPc target := by
  unfold exceptionReturn at h
  split at h
  · cases h
  · next p hp =>
    split at h
    · cases h
    · next q hq =>
      simp only at h
      split_ifs at h with h1 h2
      refine ⟨p, q, hp, hq, ?_, ?_, by injection h with h; exact h.symm⟩ <;> intro ht <;> simp_all

theorem exceptionReturn_not_fault (target : Word) (s : State) (f : Fault) : exceptionReturn target s ≠ .fault f := by
  unfold exceptionReturn
  split
  · simp
  · split
    · simp
    · simp only
      split_ifs <;> simp

/-! ### Taking an exception (60_exceptions.md R340) -/

theorem Exception.mode_ne_system (e : Exception) : e.mode ≠ .system := by cases e <;> simp [Exception.mode]
theorem Exception.mode_ne_user (e : Exception) : e.mode ≠ .user := by cases e <;> simp [Exception.mode]

theorem Exception.link_ne_pc (e : Exception) : bank e.mode 14 ≠ .pc := bank_ne_pc _ (by decide)

@[simp] theorem takeException_pc (e : Exception) (link : Word) (s : State) : (takeException e link s).pc = e.vector := rfl
@[simp] theorem takeException_cpsr (e : Exception) (link : Word) (s : State) :
    (takeException e link s).cpsr = handlerCpsr e s.cpsr := rfl
@[simp] theorem takeException_mem (e : Exception) (link : Word) (s : State) : (takeException e link s).mem = s.mem := by
  simp [takeException]
@[simp] theorem takeException_cfg (e : Exception) (link : Word) (s : State) : (takeException e link s).cfg = s.cfg := by
  simp [takeException]
@[simp] theorem takeException_inputs (e : Exception) (link : Word) (s : State) :
    (takeException e link s).inputs = s.inputs := by
  simp [takeException]
@[simp] theorem takeException_bus (e : Exception) (link : Word) (s : State) :
    (takeException e link s).bus = s.bus := by
  simp [takeException]
@[simp] theorem takeException_written (e : Exception) (link : Word) (s : State) :
    (takeException e link s).written = s.written := by
  simp [takeException]
@[simp] theorem takeException_draws (e : Exception) (link : Word) (s : State) : (takeException e link s).draws = s.draws := by
  simp [takeException]

/-- Of the general registers only r14 of the new mode changes. -/
theorem takeException_cell (e : Exception) (link : Word) (s : State) {c : Cell} (h : c ≠ .pc) :
    (takeException e link s).cell c = if c = bank e.mode 14 then link else s.cell c := by
  simp [takeException, State.setPc_cell _ _ h, State.setCell_cell]

/-- Every vector is word-aligned. -/
theorem Exception.vector_aligned (e : Exception) : e.vector.extractLsb' 0 2 = 0#2 := by cases e <;> rfl

end Sys2Proof.Machine
end

