-- ==== Sys2Proof/Laws/Frames.lean ====
section
/-! SUPPORT. How the frames and the shapes of Safety.lean are met: one lemma per update for the frames, one per shared way of
ending an instruction for the shapes. -/

namespace Sys2Proof.Machine

/-! ### Frames -/

theorem RegisterFrame.refl (l : List Cell) (s : State) : RegisterFrame l s s :=
  ⟨fun _ _ _ => rfl, rfl, ⟨fun _ => rfl, rfl⟩, rfl, rfl, rfl⟩

theorem RegisterFrame.setPc {l : List Cell} {s t : State} (h : RegisterFrame l s t) (a : Word) : RegisterFrame l s (t.setPc a) := by
  obtain ⟨h1, h2, h3, h4⟩ := h
  exact ⟨fun c hc hl => by rw [State.setPc_cell _ _ hc, h1 c hc hl], h2, h3, h4⟩

theorem RegisterFrame.setCpsr {l : List Cell} {s t : State} (h : RegisterFrame l s t) (p : Cpsr) :
    RegisterFrame l s (t.setCpsr p) := by
  obtain ⟨h1, h2, h3, h4⟩ := h
  exact ⟨fun c hc hl => by rw [State.setCpsr_cell, h1 c hc hl], h2, h3, h4⟩

theorem RegisterFrame.drawn {l : List Cell} {s t : State} (h : RegisterFrame l s t) : RegisterFrame l s t.drawn := by
  obtain ⟨h1, h2, h3, h4⟩ := h
  exact ⟨fun c hc hl => by rw [State.drawn, State.setDraws_cell, h1 c hc hl], h2, h3, h4⟩

theorem RegisterFrame.setCell {l : List Cell} {s t : State} (h : RegisterFrame l s t) {c : Cell} (v : Word) (hm : c ∈ l) :
    RegisterFrame l s (t.setCell c v) := by
  obtain ⟨h1, h2, ⟨h3, h3'⟩, h4, h5, h6⟩ := h
  refine ⟨fun d hd hl => ?_, by simpa using h2, ⟨by simpa using h3, by simpa using h3'⟩, by simpa using h4, by simpa using h5,
    by simpa using h6⟩
  have hne : d ≠ c := fun e => hl (e ▸ hm)
  rw [State.setCell_cell_ne _ _ hne, h1 d hd hl]

theorem RegisterFrame.setReg {l : List Cell} {s t : State} (h : RegisterFrame l s t) {r : RegNum} (v : Word)
    (hm : bank t.cpsr.mode r ∈ l) : RegisterFrame l s (t.setReg r v) := h.setCell v hm

theorem RegisterFrame.mono {l l' : List Cell} {s t : State} (h : RegisterFrame l s t) (hl : ∀ c ∈ l, c ∈ l') :
    RegisterFrame l' s t :=
  ⟨fun c hc hn => h.1 c hc fun hm => hn (hl c hm), h.2⟩

theorem RegisterFrame.trans {l : List Cell} {s t u : State} (h : RegisterFrame l s t) (h' : RegisterFrame l t u) :
    RegisterFrame l s u := by
  obtain ⟨a1, a2, ⟨a3, a4⟩, a5, a6, a7⟩ := h
  obtain ⟨b1, b2, ⟨b3, b4⟩, b5, b6, b7⟩ := h'
  exact ⟨fun c hc hn => (b1 c hc hn).trans (a1 c hc hn), b2.trans a2, ⟨fun a => (b3 a).trans (a3 a), b4.trans a4⟩, b5.trans a5,
    b6.trans a6, b7.trans a7⟩

/-! ### Ends of instructions -/

/-- An instruction that ends by the sequential advance completes in the sequence. -/
theorem continues_of_advance {i : Instr} {s u : State} {P : State → Prop} (h : exec i s = advance u) (hp : u.pc = s.pc)
    (hP : P (u.setPc (s.pc + 4#32))) : Continues i s P := by
  constructor
  · intro hne
    exact ⟨_, by rw [h, advance_of_ne (by rwa [hp])], by simp [hp], by rw [hp]; exact hP⟩
  · intro he
    rw [h, advance_at_end (by rwa [hp])]

/-- An instruction that ends by the exception return, in a state with the CPSR and SPSRs it started with. -/
theorem returnsTo_of_exceptionReturn {i : Instr} {target : Word} {s u : State} {P : State → Prop}
    (h : exec i s = exceptionReturn target u) (hm : u.cpsr = s.cpsr) (hs : u.spsr = s.spsr) (hcfg : u.cfg = s.cfg)
    (hP : ∀ q, P ((u.setCpsr q).setPc target)) : ReturnsTo i target s P := by
  have hsp : ∀ m, u.spsrOf m = s.spsrOf m := by intro m; cases m <;> simp [State.spsrOf, hs]
  constructor
  · intro hmode
    rw [h]
    unfold exceptionReturn
    rcases hmode with e | e <;> simp [hm, e, State.spsrOf]
  · intro p hp
    constructor
    · intro hn
      rw [h]
      unfold exceptionReturn
      simp [hm, hsp, hp, Psr.restored, hcfg, hn]
    · intro m hmm ht
      constructor
      · intro ha
        rw [h]
        unfold exceptionReturn
        simp only [hm, hsp, hp, Psr.restored, hcfg, hmm]
        cases hpt : p.t <;> simp_all [alignedFor, Cpsr.limitT]
      · intro ha
        refine ⟨(u.setCpsr (p.withMode m)).setPc target, ?_, rfl, rfl, hP _⟩
        rw [h]
        unfold exceptionReturn
        simp only [hm, hsp, hp, Psr.restored, hcfg, hmm]
        cases hpt : p.t <;> simp_all [alignedFor, Psr.withMode, Cpsr.limitT]

/-- The same where the SPSR has the T bit set and there is no Thumb. -/
theorem returnsWithoutThumb_of_exceptionReturn {i : Instr} {target : Word} {s u : State} {p : Psr} {m : Mode}
    {P : State → Prop} (h : exec i s = exceptionReturn target u) (hm : u.cpsr = s.cpsr) (hs : u.spsr = s.spsr)
    (hcfg : u.cfg = s.cfg) (ht : s.cfg.hasThumb = false) (hp : s.spsrOf s.cpsr.mode = some p)
    (hmm : Mode.ofBits s.cfg p.m = some m) (hP : ∀ q, P ((u.setCpsr q).setPc target)) :
    ReturnsWithoutThumb i target p m s P := by
  have hsp : ∀ m, u.spsrOf m = s.spsrOf m := by intro m; cases m <;> simp [State.spsrOf, hs]
  constructor
  · intro ha
    refine ⟨(u.setCpsr { p.withMode m with t := false }).setPc target, ?_, rfl, rfl, hP _⟩
    rw [h]
    unfold exceptionReturn
    simp [hm, hsp, hp, Psr.restored, hcfg, hmm, Cpsr.limitT, ht, ha, Psr.withMode]
  · intro ha
    rw [h]
    unfold exceptionReturn
    simp [hm, hsp, hp, Psr.restored, hcfg, hmm, Cpsr.limitT, ht, ha]

/-- A word loaded into the pc in ARM state. -/
theorem loadsPc_of_loadPc {i : Instr} {v : Word} {s u : State} {P : State → Prop} (h : exec i s = loadPc v u)
    (hm : u.cpsr = s.cpsr) (ht : s.cpsr.t = false) (hcfg : u.cfg = s.cfg)
    (hP : ∀ q a, P ((u.setCpsr q).setPc a)) (hP' : ∀ a, P (u.setPc a)) : LoadsPc i v s P := by
  have e : ({ s.cpsr with t := false } : Cpsr) = s.cpsr := by
    rw [← ht]
  refine ⟨fun hv => ?_, fun hv hc => ?_, fun hv hc => ?_⟩
  · by_cases h5 : s.cfg.hasV5T
    · exact ⟨(u.setCpsr s.cpsr).setPc v, by rw [h]; simp [loadPc, hv, hcfg, h5, hm, e], rfl, rfl, hP _ _⟩
    · exact ⟨u.setPc v, by rw [h]; simp [loadPc, hv, hcfg, h5], rfl, hm, hP' _⟩
  · have hv2 : v.extractLsb' 0 2 ≠ 0#2 := by
      intro e2
      have := congrArg (fun x => x.getLsbD 0) e2
      simp only [BitVec.getLsbD_extractLsb', Nat.zero_add, hv] at this
      simp at this
    exact ⟨(u.setCpsr { s.cpsr with t := true }).setPc (alignHalf v), by rw [h]; simp [loadPc, hv2, hcfg, hc, hv, hm], rfl, rfl,
      hP _ _⟩
  · rw [h]
    unfold loadPc
    rw [if_neg hv, hcfg]
    by_cases hb : v.getLsbD 0 = true
    · simp [hc hb]
    · simp only [Bool.not_eq_true] at hb
      rw [hb]
      simp

/-- The data abort taken in a state `u` that differs from the start only in the registers `cells` and where `P` allows, `v`
being the state at the last access. -/
theorem aborts_of_dataAbort {i : Instr} {s u v : State} {cells : List Cell} {P : State → Prop} (h : exec i s = dataAbort u)
    (hpc : u.pc = s.pc) (hm : u.cpsr = s.cpsr) (hs : u.spsr = s.spsr) (hr : SameRegistersBut cells s u)
    (hp : SamePlatform v u) (hP : P (takeException .dataAbort (s.pc + 8#32) u)) : Aborts i cells s v P := by
  refine ⟨takeException .dataAbort (s.pc + 8#32) u, by rw [h, dataAbort, hpc], ?_, ?_, ?_, rfl, ?_, ⟨by simpa using hp.1, by simpa using hp.2.1, by simpa using hp.2.2⟩, hP⟩
  · rw [takeException_cell _ _ _ (by decide)]
    rfl
  · simp [takeException, State.setSpsrOf, Exception.mode, hs, hm]
  · simp [handlerCpsr, hm, Exception.masksFiq, Exception.mode]
  · intro c hc hl
    simp only [List.mem_cons, not_or] at hl
    rw [takeException_cell _ _ _ hc]
    have : ¬ c = bank Exception.dataAbort.mode 14 := hl.1
    rw [if_neg this]
    exact hr c hc hl.2

/-! ### Data processing -/

/-- What `writeResult` does, all of it (43_data_processing.md R178, R179). -/
theorem resultGoesTo_of_writeResult {i : Instr} {sf : Bool} {rd : RegNum} {out : AluOut} {shc : Bool} {flags : Cpsr}
    {s : State} {r : Word} (h : exec i s = writeResult sf rd out shc s) (hr : out.result = r)
    (hf : out.flags shc s.cpsr = flags) : ResultGoesTo i sf rd r flags s := by
  have frame : RegisterFrame [bank s.cpsr.mode rd] s (s.setReg rd out.result) :=
    (RegisterFrame.refl _ s).setReg _ (by simp)
  refine ⟨fun hrd => ?_, fun hrd hsf hal => ?_, fun hrd hsf hal => ?_, fun hrd hsf => ?_⟩
  · have hb := bank_ne_pc s.cpsr.mode hrd
    refine continues_of_advance
      (u := if sf then (s.setReg rd out.result).setCpsr (out.flags shc s.cpsr) else s.setReg rd out.result) ?_ ?_ ?_
    · rw [h]
      simp [writeResult, hrd]
    · cases sf <;> simp [State.setReg_pc _ _ hrd]
    · cases sf
      · exact ⟨by simp [State.setPc_cell _ _ hb, State.setReg_cell, hr], by simp, frame.setPc _⟩
      · exact ⟨by simp [State.setPc_cell _ _ hb, State.setReg_cell, hr], by simp [hf], (frame.setCpsr _).setPc _⟩
  · exact ⟨s.setPc r, by rw [h]; simp [writeResult, hrd, hsf, branchAligned, hr, hal], rfl, rfl, (RegisterFrame.refl _ s).setPc _⟩
  · rw [h]
    simp [writeResult, hrd, hsf, branchAligned, hr, hal]
  · refine returnsTo_of_exceptionReturn (u := s) ?_ rfl rfl rfl fun q => ((RegisterFrame.refl _ s).setCpsr _).setPc _
    rw [h]
    simp [writeResult, hrd, hsf, hr]

/-- What `writeResult` does to the pc on S where the SPSR has the T bit set and there is no Thumb. -/
theorem returnsWithoutThumb_of_writeResult {i : Instr} {out : AluOut} {shc : Bool} {s : State} {r : Word} {p : Psr} {m : Mode}
    (h : exec i s = writeResult true 15 out shc s) (hr : out.result = r) (ht : s.cfg.hasThumb = false)
    (hp : s.spsrOf s.cpsr.mode = some p) (hmm : Mode.ofBits s.cfg p.m = some m) :
    ReturnsWithoutThumb i r p m s fun t => RegisterFrame [] s t :=
  returnsWithoutThumb_of_exceptionReturn (u := s) (by rw [h]; simp [writeResult, hr]) rfl rfl rfl ht hp hmm
    fun _ => ((RegisterFrame.refl _ s).setCpsr _).setPc _

/-- What a test or comparison does. -/
theorem onlyFlags_of_advance {i : Instr} {flags : Cpsr} {s : State} (h : exec i s = advance (s.setCpsr flags)) :
    OnlyFlags i flags s :=
  continues_of_advance h rfl ⟨rfl, ((RegisterFrame.refl _ s).setCpsr _).setPc _⟩

theorem dpImmediate_run {op : DpOp} {cond : Cond} {sf : Bool} {rn rd : RegNum} {rot : BitVec 4} {imm8 : BitVec 8} {s : State}
    (hc : conditionPassed cond s.cpsr = true) :
    dpImmediate op cond sf rn rd rot imm8 s = dataProcessing op sf rn rd (s.operandImm rot imm8) s :=
  conditional_passed hc _

theorem dpShiftedRegister_run {op : DpOp} {cond : Cond} {sf : Bool} {rn rd : RegNum} {amount : BitVec 5} {sh : ShiftType}
    {rm : RegNum} {s : State} (hc : conditionPassed cond s.cpsr = true) :
    dpShiftedRegister op cond sf rn rd amount sh rm s = dataProcessing op sf rn rd (s.operandReg amount sh rm) s :=
  conditional_passed hc _

theorem dpRegisterShift_run {op : DpOp} {cond : Cond} {sf : Bool} {rn rd rs : RegNum} {sh : ShiftType} {rm : RegNum} {s : State}
    (hc : conditionPassed cond s.cpsr = true) (h : rsrCheck op rn rd rs rm = none) :
    dpRegisterShift op cond sf rn rd rs sh rm s = dataProcessing op sf rn rd (s.operandRsr rs sh rm) s := by
  simp [dpRegisterShift, conditional_passed hc, h]

theorem dpRegisterShift_refused {op : DpOp} {cond : Cond} {sf : Bool} {rn rd rs : RegNum} {sh : ShiftType} {rm : RegNum}
    {s : State} (hc : conditionPassed cond s.cpsr = true)
    (h : rsrCheck op rn rd rs rm = some .r15WithRegisterShift) :
    dpRegisterShift op cond sf rn rd rs sh rm s = .refused .r15WithRegisterShift := by
  simp [dpRegisterShift, conditional_passed hc, h]

end Sys2Proof.Machine
end

