-- ==== Sys2Proof/Laws/Transfers.lean ====
section
/-! SUPPORT. What the shared single transfers do, each said once in the terms of Safety.lean. -/

namespace Sys2Proof.Machine

/-- The bytes of a word in memory order are those a word store writes. -/
theorem wordBytes_get (be : Bool) (v : Word) (k : Nat) (b : Byte) (h : (wordBytes be v)[k]? = some b) : k < 4 ∧ wordByte be v k = b := by
  cases be <;> (rcases k with _|_|_|_|k <;> simp_all [wordBytes, wordByte, field])

theorem wordBytes_length (be v) : (wordBytes be v).length = 4 := by cases be <;> rfl

/-- The bytes of a half-word in memory order are those a half-word store writes. -/
theorem halfBytes_get (be : Bool) (v : Half) (k : Nat) (b : Byte) (h : (halfBytes be v)[k]? = some b) : k < 2 ∧ halfByte be v k = b := by
  cases be <;> (rcases k with _|_|k <;> simp_all [halfBytes, halfByte])

theorem halfBytes_length (be v) : (halfBytes be v).length = 2 := by cases be <;> rfl

/-- A restricted choice of registers is refused (45_single_transfer.md R243). -/
theorem indexCheck_restricted {wb rn rd rm} (h : IndexRestricted wb rn rd rm) : ∃ r, indexCheck wb rn rd rm = some r := by
  unfold indexCheck
  unfold IndexRestricted at h
  split_ifs <;> simp_all

/-- An allowed choice of registers passes the check. -/
theorem indexCheck_allowed {wb rn rd rm} (h : ¬ IndexRestricted wb rn rd rm) : indexCheck wb rn rd rm = none := by
  unfold indexCheck
  unfold IndexRestricted at h
  split_ifs <;> simp_all

/-- A single transfer that ends in a data abort leaves the base open if it was to be written back (20_memory.md R76). -/
theorem transferAborts_of_dataAbort {i : Instr} {s : State} {rn} {x : Indexed} (h : exec i s = dataAbort (s.atAccess.abortBase rn x)) (hn : x.writeBack = true → rn ≠ 15) : TransferAborts i rn x s := by
  unfold State.abortBase at h
  cases hw : x.writeBack
  · simp only [hw, Bool.false_eq_true, if_false] at h
    unfold TransferAborts State.touched; simp only [hw]
    exact aborts_of_dataAbort h rfl rfl rfl (fun c _ _ => s.atAccess_cell c) ⟨rfl, rfl, rfl⟩ ⟨fun a => by simp, by simp⟩
  · simp only [hw, if_true] at h
    unfold TransferAborts State.touched; simp only [hw]
    have hn := hn hw
    have fr : RegisterFrame [bank s.cpsr.mode rn] s.atAccess (s.atAccess.setReg rn s.atAccess.freeWord).drawn :=
      ((RegisterFrame.refl _ s.atAccess).setReg _ (by simp)).drawn
    exact aborts_of_dataAbort h (by simp [State.drawn, State.setReg_pc _ _ hn]) (by simp [State.drawn]) fr.2.1
      (fun c hc hl => (fr.1 c hc (by simpa using hl)).trans (s.atAccess_cell c)) fr.2.2.2
      ⟨fun a => by rw [takeException_mem]; exact fr.2.2.1.1 a, by rw [takeException_written]; exact fr.2.2.1.2⟩

/-- A base that is written back is neither the pc nor the transferred register. -/
theorem base_of_allowed {x : Indexed} {rn rd rm} (h : ¬ IndexRestricted x.writeBack rn rd rm) : x.writeBack = true → rn ≠ 15 ∧ rn ≠ rd := by
  intro hw
  unfold IndexRestricted at h
  simp_all

/-- A load that ends by writing the base and then the destination. -/
theorem loadCompletes_of_advance {i : Instr} {s : State} {rn rd} {x : Indexed} {v} (h : exec i s = advance ((s.atAccess.indexBase rn x).setReg rd v)) (hrd : rd ≠ 15)
   (hn : x.writeBack = true → rn ≠ 15 ∧ rn ≠ rd) : LoadCompletes i rn rd x v s := by
  have hb := bank_ne_pc s.cpsr.mode hrd
  unfold State.indexBase at h
  cases hw : x.writeBack
  · simp only [hw, Bool.false_eq_true, if_false] at h
    refine continues_of_advance h (by simp [State.setReg_pc _ _ hrd]) ⟨?_, by simp [hw], by simp, ?_⟩
    · simp [State.setPc_cell _ _ hb, State.setReg_cell]
    · exact ((RegisterFrame.refl _ s.atAccess).setReg _ (by simp [State.touched, hw])).setPc _
  · simp only [hw, if_true] at h
    have hn := hn hw
    have hbn := bank_ne_pc s.cpsr.mode hn.1
    refine continues_of_advance h (by simp [State.setReg_pc _ _ hrd, State.setReg_pc _ _ hn.1]) ⟨?_, ?_, by simp, ?_⟩
    · simp [State.setPc_cell _ _ hb, State.setReg_cell]
    · intro _
      rw [State.setPc_cell _ _ hbn, State.setReg_cell]
      simp [State.setReg_cell, bank_injective, hn.2]
    · exact ((RegisterFrame.refl _ s.atAccess).setReg _ (by simp [State.touched, hw]) |>.setReg _ (by simp [State.touched, hw])).setPc _

/-- All that `loadWordTransfer` can do (45_single_transfer.md R244, R251). -/
theorem wordLoad_of_loadWordTransfer {i : Instr} {s : State} {cond p u w priv rn rd} {off : LsOffset} (h : exec i s = loadWordTransfer cond p u w priv rn rd off s)
   (hc : conditionPassed cond s.cpsr = true) : WordLoad i rn rd off.rm (indexed p u w (s.reg rn) (off.value s)) priv s := by
  unfold loadWordTransfer at h
  rw [conditional_passed hc] at h
  simp only at h
  generalize hx : indexed p u w (s.reg rn) (off.value s) = x at h ⊢
  constructor
  · intro hr
    obtain ⟨r, e⟩ := indexCheck_restricted hr
    exact ⟨r, by rw [h, e]; rfl⟩
  · intro hr
    rw [indexCheck_allowed hr, unlessRefused_none] at h
    have hn := base_of_allowed hr
    constructor
    · intro a b c
      rw [h]; simp [State.refusesWordLoad, a, b, c]
    · intro hal
      have hnr : s.refusesWordLoad x.addr = false := by
        unfold State.refusesWordLoad
        cases hb : s.cfg.bigEndian <;> cases ha : s.cfg.alignFault <;> simp_all
      rw [hnr] at h
      simp only [Bool.false_eq_true, if_false] at h
      constructor
      · intro hf
        rw [State.atAccess_wordFaults, if_pos hf] at h
        exact transferAborts_of_dataAbort h (fun hw => (hn hw).1)
      · intro hf
        rw [State.atAccess_wordFaults, if_neg (Bool.eq_false_iff.1 hf)] at h
        constructor
        · intro hrd
          rw [if_neg hrd] at h
          exact loadCompletes_of_advance h hrd hn
        · intro hrd ht
          rw [if_pos hrd] at h
          have key : RegisterFrame (s.touched rn x []) s.atAccess (s.atAccess.indexBase rn x) := by
            unfold State.touched State.indexBase
            cases hw : x.writeBack
            · exact RegisterFrame.refl _ _
            · exact (RegisterFrame.refl _ s.atAccess).setReg _ (by simp)
          have bs : x.writeBack = true → (s.atAccess.indexBase rn x).cell (bank s.cpsr.mode rn) = x.ea := by
            intro hw; simp [State.indexBase, hw, State.setReg_cell]
          refine loadsPc_of_loadPc h ?_ ht ?_ (fun q a => ⟨fun hw => ?_, (key.setCpsr _).setPc _⟩) (fun a => ⟨fun hw => ?_, key.setPc _⟩)
          · unfold State.indexBase; split <;> simp
          · unfold State.indexBase; split <;> simp
          · rw [State.setPc_cell _ _ (bank_ne_pc _ (hn hw).1), State.setCpsr_cell, bs hw]
          · rw [State.setPc_cell _ _ (bank_ne_pc _ (hn hw).1), bs hw]

/-- All that `loadByteTransfer` can do (45_single_transfer.md R245, R253). -/
theorem byteLoad_of_loadByteTransfer {i : Instr} {s : State} {cond p u w priv rn rd} {off : LsOffset} (h : exec i s = loadByteTransfer cond p u w priv rn rd off s)
   (hc : conditionPassed cond s.cpsr = true) : ByteLoad i rn rd off.rm (indexed p u w (s.reg rn) (off.value s)) priv s := by
  unfold loadByteTransfer at h
  rw [conditional_passed hc] at h
  simp only at h
  generalize hx : indexed p u w (s.reg rn) (off.value s) = x at h ⊢
  constructor
  · intro hr
    by_cases h2 : IndexRestricted x.writeBack rn rd off.rm
    · obtain ⟨r, e⟩ := indexCheck_restricted h2
      exact ⟨r, by rw [h, e]; rfl⟩
    · rw [indexCheck_allowed h2, unlessRefused_none] at h
      have : rd = 15 := by tauto
      exact ⟨_, by rw [h, if_pos this]⟩
  · intro hr hrd
    rw [indexCheck_allowed hr, unlessRefused_none, if_neg hrd] at h
    have hn := base_of_allowed hr
    constructor
    · intro hf
      rw [State.atAccess_byteFaults, if_pos hf] at h
      exact transferAborts_of_dataAbort h (fun hw => (hn hw).1)
    · intro hf
      rw [State.atAccess_byteFaults, if_neg (Bool.eq_false_iff.1 hf)] at h
      exact loadCompletes_of_advance h hrd hn

/-- A store that ends by writing its bytes and then the base. -/
theorem storeCompletes_of_advance {i : Instr} {s u : State} {rn} {x : Indexed} {lo : Nat} {bytes : List Byte} {a : Word} (h : exec i s = advance (u.indexBase rn x))
   (hn : x.writeBack = true → rn ≠ 15)
   (hregs : ∀ c, u.cell c = s.cell c) (hpc : u.pc = s.pc) (hcp : u.cpsr = s.cpsr) (hsp : u.spsr = s.spsr) (hpl : SamePlatform s.atAccess u)
   (hby : ∀ k b, bytes[k]? = some b → u.mem.read (lo + k) = b) (hout : SameMemoryOutside lo bytes.length s.atAccess u)
   (hw : u.written = noteWritten (alignWord a).toNat s.written) (ha : (alignWord a).toNat = lo - lo % 4) :
   StoreCompletes i rn x lo bytes s := by
  have wr : ∀ y, y ∈ u.written ↔ y = lo - lo % 4 ∨ y ∈ s.written := by intro y; rw [hw, mem_noteWritten, ha]
  unfold State.indexBase at h
  cases hwb : x.writeBack
  · simp only [hwb, Bool.false_eq_true, if_false] at h
    refine continues_of_advance h hpc ⟨hby, by simp [hwb], hcp, ⟨fun c hc _ => by rw [State.setPc_cell _ _ hc, hregs, State.atAccess_cell], hsp, hout, hpl⟩, wr⟩
  · simp only [hwb, if_true] at h
    have hn := hn hwb
    have hbn := bank_ne_pc s.cpsr.mode hn
    refine continues_of_advance h (by rw [State.setReg_pc _ _ hn, hpc]) ⟨by simpa using hby, fun _ => ?_, by simp [hcp], ⟨fun c hc hl => ?_, by simp [hsp], by simpa only [SameMemoryOutside, State.setPc_mem, State.setReg_mem] using hout, by simpa [SamePlatform] using hpl⟩, by simpa using wr⟩
    · rw [State.setPc_cell _ _ hbn, State.setReg_cell, hcp, if_pos rfl]
    · rw [State.setPc_cell _ _ hc, State.setReg_cell, hcp, if_neg (by simpa [State.touched, hwb] using hl), hregs, State.atAccess_cell]

/-- All that `storeWordTransfer` can do (45_single_transfer.md R246, R252). -/
theorem wordStore_of_storeWordTransfer {i : Instr} {s : State} {cond p u w priv rn rd} {off : LsOffset} {v} (h : exec i s = storeWordTransfer cond p u w priv rn rd off s)
   (hm : s.mem.wf = true) (hc : conditionPassed cond s.cpsr = true) (hv : v = if rd = 15 then s.pc + Config.storePcOffset else s.reg rd) : WordStore i rn rd off.rm (indexed p u w (s.reg rn) (off.value s)) priv v s := by
  unfold storeWordTransfer at h
  rw [conditional_passed hc] at h
  simp only at h
  have hv' : s.atAccess.storedReg rd = v := by
    rw [hv]; unfold State.storedReg; rw [State.atAccess_reg]; rfl
  rw [hv'] at h
  generalize hx : indexed p u w (s.reg rn) (off.value s) = x at h ⊢
  constructor
  · intro hr
    obtain ⟨r, e⟩ := indexCheck_restricted hr
    exact ⟨r, by rw [h, e]; rfl⟩
  · intro hr
    rw [indexCheck_allowed hr, unlessRefused_none] at h
    have hn := base_of_allowed hr
    constructor
    · intro hf
      rw [State.atAccess_wordFaults, if_pos hf] at h
      exact transferAborts_of_dataAbort h (fun hw => (hn hw).1)
    · intro hf
      rw [State.atAccess_wordFaults, if_neg (Bool.eq_false_iff.1 hf)] at h
      refine storeCompletes_of_advance h (fun hw => (hn hw).1) (fun c => by simp) rfl rfl rfl ⟨rfl, rfl, rfl⟩ ?_ ?_ (a := x.addr) rfl ?_
      · intro k b hk
        obtain ⟨k4, e⟩ := wordBytes_get _ _ _ _ hk
        rw [← e]; exact Memory.read_writeWord _ _ (State.atAccess_memoryWf hm) (alignWord_lt _) k4
      · intro a ha
        rw [wordBytes_length] at ha
        exact Memory.read_writeWord_outside _ _ _ ha
      · have := alignWord_mod x.addr; omega

/-- All that `storeByteTransfer` can do (45_single_transfer.md R247, R254). -/
theorem byteStore_of_storeByteTransfer {i : Instr} {s : State} {cond p u w priv rn rd} {off : LsOffset} (h : exec i s = storeByteTransfer cond p u w priv rn rd off s)
   (hm : s.mem.wf = true) (hc : conditionPassed cond s.cpsr = true) : ByteStore i rn rd off.rm (indexed p u w (s.reg rn) (off.value s)) priv s := by
  unfold storeByteTransfer at h
  rw [conditional_passed hc] at h
  simp only at h
  generalize hx : indexed p u w (s.reg rn) (off.value s) = x at h ⊢
  constructor
  · intro hr
    by_cases h2 : IndexRestricted x.writeBack rn rd off.rm
    · obtain ⟨r, e⟩ := indexCheck_restricted h2
      exact ⟨r, by rw [h, e]; rfl⟩
    · rw [indexCheck_allowed h2, unlessRefused_none] at h
      have : rd = 15 := by tauto
      exact ⟨_, by rw [h, if_pos this]⟩
  · intro hr hrd
    rw [indexCheck_allowed hr, unlessRefused_none, if_neg hrd] at h
    have hn := base_of_allowed hr
    constructor
    · intro hf
      rw [State.atAccess_byteFaults, if_pos hf] at h
      exact transferAborts_of_dataAbort h (fun hw => (hn hw).1)
    · intro hf
      rw [State.atAccess_byteFaults, if_neg (Bool.eq_false_iff.1 hf)] at h
      refine storeCompletes_of_advance h (fun hw => (hn hw).1) (fun c => by simp) rfl rfl rfl ⟨rfl, rfl, rfl⟩ ?_ ?_ (a := x.addr) rfl ?_
      · intro k b hk
        rcases k with _ | k
        · obtain rfl : ((s.atAccess.reg rd).extractLsb' 0 8) = b := by simpa using hk
          exact Memory.read_write_same _ _ (State.atAccess_memoryWf hm)
        · simp at hk
      · intro a ha
        exact Memory.read_write_ne _ _ (by simp at ha; omega)
      · exact alignWord_toNat _

/-- A restricted half-word transfer is refused (46_halfword_transfer.md R267, R268). -/
theorem halfwordCheck_restricted {p w wb rn rd rm} (h : HalfRestricted p w wb rn rd rm) : ∃ r, halfwordCheck p w wb rn rd rm = some r := by
  unfold halfwordCheck
  unfold HalfRestricted at h
  split_ifs with a b
  · simp
  · simp
  · exact indexCheck_restricted ((h.resolve_left a).resolve_left b)

/-- An allowed half-word transfer passes the check. -/
theorem halfwordCheck_allowed {p w wb rn rd rm} (h : ¬ HalfRestricted p w wb rn rd rm) : halfwordCheck p w wb rn rd rm = none := by
  unfold halfwordCheck
  unfold HalfRestricted at h
  rw [if_neg (by tauto), if_neg (by tauto)]
  exact indexCheck_allowed (by tauto)

/-- All that `loadHalfTransfer` can do (46_halfword_transfer.md R270, R272). -/
theorem halfLoad_of_loadHalfTransfer {i : Instr} {s : State} {ext : Half → Word} {cond p u w rn rd} {off : LshOffset} (h : exec i s = loadHalfTransfer ext cond p u w rn rd off s)
   (hc : conditionPassed cond s.cpsr = true) : HalfLoad i p w rn rd off.rm (indexed p u w (s.reg rn) (off.value s)) (ext (s.atAccess.loadHalf (indexed p u w (s.reg rn) (off.value s)).addr)) s := by
  unfold loadHalfTransfer at h
  rw [conditional_passed hc] at h
  simp only at h
  generalize hx : indexed p u w (s.reg rn) (off.value s) = x at h ⊢
  constructor
  · intro hr
    obtain ⟨r, e⟩ := halfwordCheck_restricted hr
    exact ⟨r, by rw [h, e]; rfl⟩
  · intro hr
    rw [halfwordCheck_allowed hr, unlessRefused_none] at h
    unfold HalfRestricted at hr
    have hn := base_of_allowed (x := x) (rn := rn) (rd := rd) (rm := off.rm) (by tauto)
    constructor
    · intro a b
      rw [h]; unfold State.refusesHalf; rw [a, b]; rfl
    · intro hal
      have hnr : s.refusesHalf x.addr = false := by
        unfold State.refusesHalf
        cases hb : x.addr.getLsbD 0 <;> simp_all
      rw [hnr] at h
      simp only [Bool.false_eq_true, if_false] at h
      constructor
      · intro hf
        rw [State.atAccess_privilege, State.atAccess_halfFaults, if_pos hf] at h
        exact transferAborts_of_dataAbort h (fun hw => (hn hw).1)
      · intro hf
        rw [State.atAccess_privilege, State.atAccess_halfFaults, if_neg (Bool.eq_false_iff.1 hf)] at h
        exact loadCompletes_of_advance h (by tauto) hn

/-- All that `loadSignedByteTransfer` can do (46_halfword_transfer.md R271). -/
theorem signedByteLoad_of_loadSignedByteTransfer {i : Instr} {s : State} {cond p u w rn rd} {off : LshOffset} (h : exec i s = loadSignedByteTransfer cond p u w rn rd off s)
   (hc : conditionPassed cond s.cpsr = true) : SignedByteLoad i p w rn rd off.rm (indexed p u w (s.reg rn) (off.value s)) s := by
  unfold loadSignedByteTransfer at h
  rw [conditional_passed hc] at h
  simp only at h
  generalize hx : indexed p u w (s.reg rn) (off.value s) = x at h ⊢
  constructor
  · intro hr
    obtain ⟨r, e⟩ := halfwordCheck_restricted hr
    exact ⟨r, by rw [h, e]; rfl⟩
  · intro hr
    rw [halfwordCheck_allowed hr, unlessRefused_none] at h
    unfold HalfRestricted at hr
    have hn := base_of_allowed (x := x) (rn := rn) (rd := rd) (rm := off.rm) (by tauto)
    constructor
    · intro hf
      rw [State.atAccess_privilege, State.atAccess_byteFaults, if_pos hf] at h
      exact transferAborts_of_dataAbort h (fun hw => (hn hw).1)
    · intro hf
      rw [State.atAccess_privilege, State.atAccess_byteFaults, if_neg (Bool.eq_false_iff.1 hf)] at h
      exact loadCompletes_of_advance h (by tauto) hn

/-- All that `storeHalfTransfer` can do (46_halfword_transfer.md R273). -/
theorem halfStore_of_storeHalfTransfer {i : Instr} {s : State} {cond p u w rn rd} {off : LshOffset} (h : exec i s = storeHalfTransfer cond p u w rn rd off s)
   (hm : s.mem.wf = true) (hc : conditionPassed cond s.cpsr = true) : HalfStore i p w rn rd off.rm (indexed p u w (s.reg rn) (off.value s)) s := by
  unfold storeHalfTransfer at h
  rw [conditional_passed hc] at h
  simp only at h
  generalize hx : indexed p u w (s.reg rn) (off.value s) = x at h ⊢
  constructor
  · intro hr
    obtain ⟨r, e⟩ := halfwordCheck_restricted hr
    exact ⟨r, by rw [h, e]; rfl⟩
  · intro hr
    rw [halfwordCheck_allowed hr, unlessRefused_none] at h
    unfold HalfRestricted at hr
    have hn := base_of_allowed (x := x) (rn := rn) (rd := rd) (rm := off.rm) (by tauto)
    constructor
    · intro a b
      rw [h]; unfold State.refusesHalf; rw [a, b]; rfl
    · intro hal
      have hnr : s.refusesHalf x.addr = false := by
        unfold State.refusesHalf
        cases hb : x.addr.getLsbD 0 <;> simp_all
      rw [hnr] at h
      simp only [Bool.false_eq_true, if_false] at h
      constructor
      · intro hf
        rw [State.atAccess_privilege, State.atAccess_halfFaults, if_pos hf] at h
        exact transferAborts_of_dataAbort h (fun hw => (hn hw).1)
      · intro hf
        rw [State.atAccess_privilege, State.atAccess_halfFaults, if_neg (Bool.eq_false_iff.1 hf)] at h
        have hev : x.addr.getLsbD 0 = false := by
          unfold State.halfFaults at hf
          cases hb : x.addr.getLsbD 0 <;> simp_all
        have hlt : x.addr.toNat + 1 < 2 ^ 32 := by
          have := x.addr.isLt
          simp [BitVec.getLsbD, Nat.testBit_zero] at hev
          omega
        refine storeCompletes_of_advance h (fun hw => (hn hw).1) (fun c => by simp) rfl rfl rfl ⟨rfl, rfl, rfl⟩ ?_ ?_ (a := x.addr) rfl ?_
        · intro k b hk
          obtain ⟨k4, e⟩ := halfBytes_get _ _ _ _ hk
          rw [← e]; exact Memory.read_writeHalf _ _ (State.atAccess_memoryWf hm) hlt k4
        · intro a ha
          rw [halfBytes_length] at ha
          exact Memory.read_writeHalf_outside _ _ _ ha
        · exact alignWord_toNat _

end Sys2Proof.Machine
end

