-- ==== Sys2Proof/Laws/Blocks.lean ====
section
/-! SUPPORT. What block transfers do: the listed registers, the addresses, several cells written or left open, the stores of an
STM, and from these what each shared operation does in the terms of Safety.lean. -/

namespace Sys2Proof.Machine

/-- A restricted block transfer is refused (47_multiple_transfer.md R283). -/
theorem blockCheck_restricted {w rn list} (h : BlockRestricted w rn list) : ∃ r, blockCheck w rn list = some r := by
  unfold blockCheck; unfold BlockRestricted at h
  split_ifs <;> simp_all

/-- An allowed block transfer passes the check. -/
theorem blockCheck_allowed {w rn list} (h : ¬ BlockRestricted w rn list) : blockCheck w rn list = none := by
  unfold blockCheck; unfold BlockRestricted at h
  split_ifs <;> simp_all

theorem listedRegs_rising (list) : (listedRegs list).Pairwise (fun a b => a < b) := List.Pairwise.filter _ (by decide)

theorem mem_listedRegs (list : BitVec 16) (r : RegNum) : r ∈ listedRegs list ↔ list.getLsbD r.val = true := by
  unfold listedRegs; simp only [List.mem_filter]
  constructor
  · exact fun h => h.2
  · intro h; exact ⟨(by decide : ∀ r : RegNum, r ∈ allRegs) r, h⟩

theorem listedRegs_length_pos {list : BitVec 16} (h : list ≠ 0#16) : 0 < (listedRegs list).length := by
  rcases Nat.eq_zero_or_pos (listedRegs list).length with h0 | h0
  · exfalso; apply h
    have hn : listedRegs list = [] := List.length_eq_zero_iff.1 h0
    ext i hi
    have := mem_listedRegs list ⟨i, hi⟩
    rw [hn] at this
    simp at this
    rw [← BitVec.getLsbD_eq_getElem, this]; simp
  · exact h0

theorem blockAddresses_get (start : Int) (n k : Nat) (h : k < n) : (blockAddresses start n)[k]? = some (BitVec.ofInt 32 (start + 4 * k)) := by
  simp [blockAddresses, h]

theorem blockAddresses_length (start n) : (blockAddresses start n).length = n := by simp [blockAddresses]

/-- A block that fits is transferred at its addresses. -/
theorem withBlock_of {p u rn list s k} (hf : s.BlockFits p u rn list) : withBlock p u rn list s k = k (blockAddresses (s.blockFrom p u rn list) (listedRegs list).length) := by
  unfold withBlock State.BlockFits State.blockFrom at *
  simp only
  rw [if_neg]
  simp only [blockLeaves, Bool.or_eq_true, decide_eq_true_eq]; omega

/-- A block that does not fit is refused. -/
theorem withBlock_refused {p u rn list s k} (hf : ¬ s.BlockFits p u rn list) : withBlock p u rn list s k = .refused .blockLeavesAddressSpace := by
  unfold withBlock State.BlockFits State.blockFrom at *
  simp only
  rw [if_pos]
  simp only [blockLeaves, Bool.or_eq_true, decide_eq_true_eq]; omega

/-- `State.blockFaults` on the addresses of a block says that some word of it faults. -/
theorem blockFaults_iff {s : State} {p u rn list kind} : s.blockFaults (blockAddresses (s.blockFrom p u rn list) (listedRegs list).length) kind = true ↔ s.BlockFaults p u rn list kind := by
  unfold State.blockFaults State.BlockFaults blockAddresses State.blockWord
  simp only [List.any_map, List.any_eq_true, List.mem_range, Function.comp]

theorem State.setCells_cell_of_not_mem (l : List (Cell × Word)) (s : State) (c) (h : c ∉ l.map Prod.fst) : (s.setCells l).cell c = s.cell c := by
  induction l generalizing s with
  | nil => rfl
  | cons x rest ih =>
    obtain ⟨d, v⟩ := x
    simp only [List.map_cons, List.mem_cons, not_or] at h
    simp only [State.setCells]
    rw [ih _ h.2, State.setCell_cell_ne _ _ h.1]

theorem State.setCells_cell_of_mem (l : List (Cell × Word)) (s : State) (c v) (hn : (l.map Prod.fst).Nodup) (h : (c, v) ∈ l) : (s.setCells l).cell c = v := by
  induction l generalizing s with
  | nil => cases h
  | cons x rest ih =>
    obtain ⟨d, w⟩ := x
    simp only [List.map_cons, List.nodup_cons] at hn
    simp only [State.setCells]
    rcases List.mem_cons.1 h with e | e
    · cases e
      rw [State.setCells_cell_of_not_mem _ _ _ hn.1, State.setCell_cell_same]
    · exact ih _ hn.2 e

theorem RegisterFrame.setCells (l : List (Cell × Word)) (cells) (s t : State) (h : RegisterFrame cells s t) (hl : ∀ x ∈ l, x.1 ∈ cells) : RegisterFrame cells s (t.setCells l) := by
  induction l generalizing t with
  | nil => exact h
  | cons x rest ih =>
    obtain ⟨d, w⟩ := x
    exact ih _ (h.setCell w (hl _ (List.mem_cons_self))) (fun y hy => hl y (List.mem_cons_of_mem _ hy))

theorem State.setCells_cpsr (l : List (Cell × Word)) (s : State) : (s.setCells l).cpsr = s.cpsr := by
  induction l generalizing s with
  | nil => rfl
  | cons x rest ih => obtain ⟨d, w⟩ := x; simp [State.setCells, ih]

theorem State.setCells_pc (l : List (Cell × Word)) (s : State) (h : ∀ x ∈ l, x.1 ≠ .pc) : (s.setCells l).pc = s.pc := by
  induction l generalizing s with
  | nil => rfl
  | cons x rest ih =>
    obtain ⟨d, w⟩ := x
    simp only [State.setCells]
    rw [ih _ (fun y hy => h y (List.mem_cons_of_mem _ hy)), State.setCell_pc _ _ (h _ (List.mem_cons_self))]

/-- The pairs that `State.loadRegs` writes. -/
def loadPairs (m : Mode) (l : List RegNum) (vs : List Word) : List (Cell × Word) := (l.zip vs).filterMap fun (r, v) => if r = 15 then none else some (bank m r, v)

/-- A pair of the list that `State.loadRegs` writes: the k-th listed register, not the pc, with the k-th value. -/
theorem mem_loadPairs {m : Mode} {l : List RegNum} {vs : List Word} {c : Cell} {v : Word} : (c, v) ∈ loadPairs m l vs ↔ ∃ (k : Nat) (r : RegNum), l[k]? = some r ∧ vs[k]? = some v ∧ r ≠ 15 ∧ c = bank m r := by
  unfold loadPairs
  simp only [List.mem_filterMap, Prod.exists]
  constructor
  · rintro ⟨r, w, hz, hh⟩
    split_ifs at hh with h15
    · cases hh
      obtain ⟨k, hk⟩ := List.mem_iff_getElem?.1 hz
      rw [List.getElem?_zip_eq_some] at hk
      exact ⟨k, r, hk.1, hk.2, h15, rfl⟩
  · rintro ⟨k, r, h1, h2, h3, rfl⟩
    refine ⟨r, v, List.mem_iff_getElem?.2 ⟨k, by rw [List.getElem?_zip_eq_some]; exact ⟨h1, h2⟩⟩, by simp [h3]⟩

theorem loadPairs_nodup (m : Mode) (l : List RegNum) (vs : List Word) (h : l.Nodup) : ((loadPairs m l vs).map Prod.fst).Nodup := by
  unfold loadPairs
  induction l generalizing vs with
  | nil => simp
  | cons r rest ih =>
    cases vs with
    | nil => simp
    | cons v vs =>
      simp only [List.nodup_cons] at h
      simp only [List.zip_cons_cons, List.filterMap_cons]
      split
      · exact ih _ h.2
      · next b hb =>
        split_ifs at hb with h15
        cases hb
        simp only [List.map_cons, List.nodup_cons]
        refine ⟨?_, ih _ h.2⟩
        intro hm
        simp only [List.mem_map, List.mem_filterMap, Prod.exists] at hm
        obtain ⟨c, w, ⟨r2, w2, hz, hh⟩, hc⟩ := hm
        split_ifs at hh with h2
        cases hh
        have := (bank_injective m).1 hc
        subst this
        exact h.1 (List.of_mem_zip hz).1

theorem listedRegs_nodup (list) : (listedRegs list).Nodup := List.Pairwise.imp (fun h => ne_of_lt h) (listedRegs_rising list)

/-! ### Loads -/

theorem State.readWords_length (l : List Word) (s : State) : (s.readWords l).length = l.length := by
  induction l generalizing s with
  | nil => rfl
  | cons a rest ih => simp [State.readWords, ih]

/-- The k-th word read is read at the k-th access. -/
theorem State.readWords_get (l : List Word) (s : State) (k : Nat) :
    (s.readWords l)[k]? = (l[k]?).map fun a => (s.atAccessNo (k + 1)).wordAt a := by
  induction l generalizing s k with
  | nil => simp [State.readWords]
  | cons a rest ih =>
    cases k with
    | zero => rfl
    | succ k =>
      simp only [State.readWords, List.getElem?_cons_succ]
      exact ih s.atAccess k

@[simp] theorem State.atBlockEnd_cell (s : State) (list : BitVec 16) (c : Cell) : (s.atBlockEnd list).cell c = s.cell c := by
  simp [State.atBlockEnd]
@[simp] theorem State.atBlockEnd_reg (s : State) (list : BitVec 16) (r : RegNum) : (s.atBlockEnd list).reg r = s.reg r := by
  simp [State.atBlockEnd]
@[simp] theorem State.atBlockEnd_cpsr (s : State) (list : BitVec 16) : (s.atBlockEnd list).cpsr = s.cpsr := by
  simp [State.atBlockEnd]
@[simp] theorem State.atBlockEnd_spsr (s : State) (list : BitVec 16) : (s.atBlockEnd list).spsr = s.spsr := by
  simp [State.atBlockEnd]
@[simp] theorem State.atBlockEnd_pc (s : State) (list : BitVec 16) : (s.atBlockEnd list).pc = s.pc := by simp [State.atBlockEnd]
@[simp] theorem State.atBlockEnd_cfg (s : State) (list : BitVec 16) : (s.atBlockEnd list).cfg = s.cfg := by
  simp [State.atBlockEnd]
@[simp] theorem State.atBlockEnd_inputs (s : State) (list : BitVec 16) : (s.atBlockEnd list).inputs = s.inputs := by
  simp [State.atBlockEnd]
@[simp] theorem State.atBlockEnd_written (s : State) (list : BitVec 16) : (s.atBlockEnd list).written = s.written := by
  simp [State.atBlockEnd]

/-- Whether a word of a block faults does not depend on what other agents write. -/
@[simp] theorem State.atBlockEnd_blockFaults (s : State) (list : BitVec 16) (l : List Word) (kind : AccessKind) :
    (s.atBlockEnd list).blockFaults l kind = s.blockFaults l kind := by
  simp [State.blockFaults, State.wordFaults, State.privilege]

/-- What a completed load leaves (R285). -/
theorem blockLoaded_of_loadRegs {m p u w rn list} {s : State} (hn : ¬ BlockRestricted w rn list) (t : State)
   (ht : t = ((s.atBlockEnd list).blockBase u w rn list).loadRegs m list (s.readWords (blockAddresses (s.blockFrom p u rn list) (listedRegs list).length))) (hw : w = true → m = s.cpsr.mode) :
   BlockLoaded m p u w rn list s t ∧ t.cpsr = s.cpsr ∧ t.pc = s.pc := by
  unfold BlockRestricted at hn
  have hrn : rn ≠ 15 := by tauto
  have hbn : bank s.cpsr.mode rn ≠ .pc := bank_ne_pc _ hrn
  have e : t = ((s.atBlockEnd list).blockBase u w rn list).setCells (loadPairs m (listedRegs list) (s.readWords (blockAddresses (s.blockFrom p u rn list) (listedRegs list).length))) := ht
  have base_frame : RegisterFrame (s.blockBaseCells w rn ++ listedCells m list) (s.atBlockEnd list) ((s.atBlockEnd list).blockBase u w rn list) := by
    unfold State.blockBase State.blockBaseCells
    cases w
    · exact RegisterFrame.refl _ _
    · exact (RegisterFrame.refl _ _).setReg _ (by simp)
  refine ⟨⟨?_, ?_, ?_⟩, ?_, ?_⟩
  · intro k r hk hr
    rw [e]
    apply State.setCells_cell_of_mem _ _ _ _ (loadPairs_nodup _ _ _ (listedRegs_nodup list))
    rw [mem_loadPairs]
    have hlt : k < (listedRegs list).length := by
      by_contra hge
      rw [List.getElem?_eq_none (by omega)] at hk; cases hk
    refine ⟨k, r, hk, ?_, hr, rfl⟩
    simp [State.readWords_get, blockAddresses_get _ _ _ hlt, State.blockWord, State.blockValue]
  · intro hw1
    rw [e, State.setCells_cell_of_not_mem]
    · subst hw1; simp [State.blockBase, State.setReg_cell]
    · intro hm
      obtain ⟨⟨c, v⟩, hx, hc⟩ := List.mem_map.1 hm
      simp only at hc; subst hc
      obtain ⟨k, r, h1, h2, h3, h4⟩ := mem_loadPairs.1 hx
      rw [hw hw1, bank_injective] at h4
      subst h4
      have : list.getLsbD rn.val = true := (mem_listedRegs _ _).1 (List.mem_of_getElem? h1)
      tauto
  · rw [e]
    apply RegisterFrame.setCells _ _ _ _ base_frame
    rintro ⟨c, v⟩ hx
    obtain ⟨k, r, h1, h2, h3, h4⟩ := mem_loadPairs.1 hx
    rw [List.mem_append]; right
    simp only [listedCells, List.mem_map, List.mem_filter]
    exact ⟨r, ⟨List.mem_of_getElem? h1, by simp [h3]⟩, h4.symm⟩
  · rw [e, State.setCells_cpsr]; unfold State.blockBase; split <;> simp
  · rw [e, State.setCells_pc]
    · unfold State.blockBase; split
      · rw [State.setReg_pc _ _ hrn, State.atBlockEnd_pc]
      · exact State.atBlockEnd_pc _ _
    · rintro ⟨c, v⟩ hx
      obtain ⟨k, r, h1, h2, h3, h4⟩ := mem_loadPairs.1 hx
      simp only; rw [h4]; exact bank_ne_pc _ h3

theorem RegisterFrame.freeCells (l : List Cell) (cells) (s t : State) (h : RegisterFrame cells s t) (hl : ∀ x ∈ l, x ∈ cells) : RegisterFrame cells s (t.freeCells l) := by
  induction l generalizing t with
  | nil => exact h
  | cons x rest ih => exact ih _ ((h.setCell _ (hl _ (List.mem_cons_self))).drawn) (fun y hy => hl y (List.mem_cons_of_mem _ hy))

theorem State.freeCells_cpsr (l : List Cell) (s : State) : (s.freeCells l).cpsr = s.cpsr := by
  induction l generalizing s with
  | nil => rfl
  | cons x rest ih => simp [State.freeCells, ih, State.drawn]

theorem State.freeCells_pc (l : List Cell) (s : State) (h : ∀ x ∈ l, x ≠ .pc) : (s.freeCells l).pc = s.pc := by
  induction l generalizing s with
  | nil => rfl
  | cons x rest ih =>
    simp only [State.freeCells]
    rw [ih _ (fun y hy => h y (List.mem_cons_of_mem _ hy)), State.drawn, State.setDraws_pc, State.setCell_pc _ _ (h _ (List.mem_cons_self))]

theorem State.freeCells_cell (l : List Cell) (s : State) (c) (h : c ∉ l) : (s.freeCells l).cell c = s.cell c := by
  induction l generalizing s with
  | nil => rfl
  | cons x rest ih =>
    simp only [List.mem_cons, not_or] at h
    simp only [State.freeCells]
    rw [ih _ h.2, State.drawn, State.setDraws_cell, State.setCell_cell_ne _ _ h.1]

/-- What a completed load leaves does not depend on the CPSR and the pc that follow. -/
theorem BlockLoaded.setPc {m : Mode} {p u w : Bool} {rn : RegNum} {list : BitVec 16} {s t : State}
    (hn : ¬ BlockRestricted w rn list) (h : BlockLoaded m p u w rn list s t) (a : Word) :
    BlockLoaded m p u w rn list s (t.setPc a) := by
  refine ⟨fun k r hk hr => ?_, fun hw => ?_, h.2.2.setPc _⟩
  · rw [State.setPc_cell _ _ (bank_ne_pc _ hr)]; exact h.1 k r hk hr
  · rw [State.setPc_cell _ _ (bank_ne_pc _ (by unfold BlockRestricted at hn; tauto))]; exact h.2.1 hw

theorem BlockLoaded.setCpsr {m : Mode} {p u w : Bool} {rn : RegNum} {list : BitVec 16} {s t : State}
    (h : BlockLoaded m p u w rn list s t) (q : Cpsr) : BlockLoaded m p u w rn list s (t.setCpsr q) :=
  ⟨fun k r hk hr => by rw [State.setCpsr_cell]; exact h.1 k r hk hr, fun hw => by rw [State.setCpsr_cell]; exact h.2.1 hw,
    h.2.2.setCpsr _⟩

/-- The state at the last access of a block, as the meanings write it. -/
theorem State.atAccessNo_block (s : State) (start : Int) (list : BitVec 16) :
    s.atAccessNo (blockAddresses start (listedRegs list).length).length = s.atBlockEnd list := by
  rw [blockAddresses_length]; rfl

/-- What an aborted load leaves (20_memory.md R76). -/
theorem aborts_of_abortedLoad {i : Instr} {m : Mode} {w : Bool} {rn : RegNum} {list : BitVec 16} {s : State} (hn : ¬ BlockRestricted w rn list) (h : exec i s = dataAbort (abortedLoad m w rn list (s.atBlockEnd list))) :
   Aborts i (s.blockBaseCells w rn ++ listedCells m list) s (s.atBlockEnd list) fun t =>
          SameMemory (s.atBlockEnd list) t
            ∧ (w = false → bank s.cpsr.mode rn ≠ .r14_abt → t.cell (bank s.cpsr.mode rn) = s.cell (bank s.cpsr.mode rn)) := by
  unfold BlockRestricted at hn
  have hrn : rn ≠ 15 := by tauto
  have hbn : bank s.cpsr.mode rn ≠ .pc := bank_ne_pc _ hrn
  unfold abortedLoad at h
  simp only [State.atBlockEnd_cpsr] at h
  set base := bank s.cpsr.mode rn with hb
  set loaded := ((listedRegs list).map (bank m)).filter fun c => decide (c ≠ .pc ∧ c ≠ base) with hl
  set cs := (if w = true then loaded ++ [base] else loaded) with hcs
  have hpcs : ∀ x ∈ cs, x ≠ .pc := by
    intro x hx
    rw [hcs] at hx
    split at hx
    · rcases List.mem_append.1 hx with h1 | h1
      · simp [hl] at h1; exact h1.2.1
      · simp at h1; rw [h1]; exact hbn
    · simp [hl] at hx; exact hx.2.1
  have hsub : ∀ x ∈ cs, x ∈ s.blockBaseCells w rn ++ listedCells m list := by
    intro x hx
    have sub1 : ∀ y ∈ loaded, y ∈ listedCells m list := by
      intro y hy
      simp only [hl, List.mem_filter, List.mem_map, decide_eq_true_eq] at hy
      obtain ⟨⟨r, hr, rfl⟩, h1, h2⟩ := hy
      simp only [listedCells, List.mem_map, List.mem_filter]
      exact ⟨r, ⟨hr, by rw [ne_eq, bank_eq_pc] at h1; simpa using h1⟩, rfl⟩
    rw [hcs] at hx
    rw [List.mem_append]
    split at hx
    · next hw =>
      rcases List.mem_append.1 hx with h1 | h1
      · exact .inr (sub1 _ h1)
      · left; simp [State.blockBaseCells, hw]; simpa using h1
    · exact .inr (sub1 _ hx)
  have fr : RegisterFrame (s.blockBaseCells w rn ++ listedCells m list) (s.atBlockEnd list) ((s.atBlockEnd list).freeCells cs) := RegisterFrame.freeCells _ _ _ _ (RegisterFrame.refl _ _) hsub
  refine aborts_of_dataAbort h (by rw [State.freeCells_pc _ _ hpcs, State.atBlockEnd_pc]) (by rw [State.freeCells_cpsr, State.atBlockEnd_cpsr])
    (by rw [fr.2.1, State.atBlockEnd_spsr]) (fun c hc hl => by rw [fr.1 c hc hl, State.atBlockEnd_cell]) fr.2.2.2
    ⟨⟨fun a => by rw [takeException_mem]; exact fr.2.2.1.1 a, by rw [takeException_written]; exact fr.2.2.1.2⟩, ?_⟩
  intro hw hne
  rw [takeException_cell _ _ _ hbn, if_neg (show ¬ base = bank Exception.dataAbort.mode 14 from hne), State.freeCells_cell, State.atBlockEnd_cell]
  rw [hcs, if_neg (by simp [hw])]
  simp [hl]

/-- The word loaded for the pc is the last word of the block. -/
theorem loadedPc_eq {p u rn list} {s : State} (hp : 0 < (listedRegs list).length) : loadedPc (s.readWords (blockAddresses (s.blockFrom p u rn list) (listedRegs list).length)) = s.blockValue p u rn list ((listedRegs list).length - 1) := by
  unfold loadedPc
  rw [List.getLastD_eq_getLast?, List.getLast?_eq_getElem?]
  rw [State.readWords_length, blockAddresses_length, State.readWords_get, blockAddresses_get _ _ _ (by omega)]
  rfl

/-! ### Stores -/

/-- A byte after the writes of other agents. -/
theorem Memory.read_afterBus (l : BusWrites) {m : Memory} (h : m.wf = true) (d : Nat) :
    (m.afterBus l).read d = byteAfterBus d (m.read d) l := by
  induction l generalizing m with
  | nil => rfl
  | cons x rest ih =>
    obtain ⟨a, v⟩ := x
    simp only [Memory.afterBus, byteAfterBus]
    rw [ih (Memory.wf_write _ h a.isLt), Memory.read_write h]
    by_cases e : d = a.toNat
    · rw [if_pos e, if_pos e.symm]
    · rw [if_neg e, if_neg (Ne.symm e)]

/-- The k-th word of `n`, at `a`, holds `v`, up to what other agents wrote later, and counts as written. -/
def HoldsWord (s t : State) (k n : Nat) (a v : Word) : Prop :=
  (∀ j, j < 4 → t.mem.read ((alignWord a).toNat + j)
    = byteAfterBus ((alignWord a).toNat + j) (wordByte s.cfg.bigEndian v j) (s.busBetween k n)) ∧ (alignWord a).toNat ∈ t.written

/-- What `storeBlock` leaves of a list of stores, `faulted` saying whether a word faulted before it. -/
structure StoredUpTo (priv : Privilege) (l : List (Word × Word)) (faulted : Bool) (s t : State) : Prop where
  cell : ∀ c, t.cell c = s.cell c
  pc : t.pc = s.pc
  cpsr : t.cpsr = s.cpsr
  spsr : t.spsr = s.spsr
  plat : SamePlatform (s.atAccessNo l.length) t
  wf : t.mem.wf = true
  out : ∀ d, (∀ x ∈ l, d < (alignWord x.1).toNat ∨ (alignWord x.1).toNat + 4 ≤ d) →
    t.mem.read d = (s.atAccessNo l.length).mem.read d
  marks : ∀ d, (∀ x ∈ l, d ≠ (alignWord x.1).toNat) → (d ∈ t.written ↔ d ∈ s.written)
  bytes : ∀ (k : Nat) (a v : Word), l[k]? = some (a, v) →
     (faulted = false → (∀ (q : Nat) (b w : Word), q ≤ k → l[q]? = some (b, w) → s.wordFaults b .write priv = false) →
       HoldsWord s t k l.length a v) ∧
     (s.wordFaults a .write priv = true → WordKept (s.atAccessNo l.length) t (alignWord a).toNat) ∧
     (HoldsWord s t k l.length a v ∨ WordKept (s.atAccessNo l.length) t (alignWord a).toNat)

/-- The word of the first store lies below that of the second. -/
def WordBelow (x y : Word × Word) : Prop := (alignWord x.1).toNat + 4 ≤ (alignWord y.1).toNat

/-- One more word in front of a list of stores: `s1` is the state after it, in which it has been written or not. -/
theorem storedUpTo_cons {priv : Privilege} {a v : Word} {rest : List (Word × Word)} {faulted f2 : Bool} {s s1 t : State}
   (h : StoredUpTo priv rest f2 s1 t) (hd : ∀ y ∈ rest, WordBelow (a, v) y) (hm : s.mem.wf = true)
   (hcell : ∀ c, s1.cell c = s.cell c) (hpc : s1.pc = s.pc) (hcp : s1.cpsr = s.cpsr) (hsp : s1.spsr = s.spsr)
   (hpl : SamePlatform s.atAccess s1)
   (hw1 : (s1.mem = s.atAccess.mem ∧ s1.written = s.written ∧ (s.wordFaults a .write priv = true ∨ faulted = true))
     ∨ (s1.mem = s.atAccess.mem.writeWord s.cfg.bigEndian (alignWord a).toNat v
       ∧ s1.written = noteWritten (alignWord a).toNat s.written ∧ s.wordFaults a .write priv = false))
   (hf2 : f2 = (faulted || s.wordFaults a .write priv)) : StoredUpTo priv ((a, v) :: rest) faulted s t := by
  have hmA : s.atAccess.mem.wf = true := State.atAccess_memoryWf hm
  have hm1 : s1.mem.wf = true := by
    rcases hw1 with ⟨e, -, -⟩ | ⟨e, -, -⟩
    · rw [e]; exact hmA
    · rw [e]; exact Memory.wf_writeWord _ _ hmA (alignWord_lt a)
  have hbus : s1.bus = s.bus.tail := hpl.2.2
  have readEnd : ∀ d, (s.atAccessNo (rest.length + 1)).mem.read d = byteAfterBus d (s.atAccess.mem.read d) (s.bus.tail.take rest.length).flatten := by
    intro d
    rw [State.atAccessNo, State.atAccessNo_mem, Memory.read_afterBus _ hmA, State.atAccess_bus]
  have readEnd1 : ∀ d, (s1.atAccessNo rest.length).mem.read d = byteAfterBus d (s1.mem.read d) (s.bus.tail.take rest.length).flatten := by
    intro d
    rw [State.atAccessNo_mem, Memory.read_afterBus _ hm1, hbus]
  have outword : ∀ d, (d < (alignWord a).toNat ∨ (alignWord a).toNat + 4 ≤ d) → s1.mem.read d = s.atAccess.mem.read d := by
    intro d hd
    rcases hw1 with ⟨e, -, -⟩ | ⟨e, -, -⟩
    · rw [e]
    · rw [e]; exact Memory.read_writeWord_outside _ _ _ hd
  have outmark : ∀ d, d ≠ (alignWord a).toNat → (d ∈ s1.written ↔ d ∈ s.written) := by
    intro d hne
    rcases hw1 with ⟨-, e, -⟩ | ⟨-, e, -⟩
    · rw [e]
    · rw [e, mem_noteWritten]; simp [hne]
  have wfeq : ∀ b, s1.wordFaults b .write priv = s.wordFaults b .write priv := by
    intro b; unfold State.wordFaults; rw [hpl.1]; rfl
  have between : ∀ k, s1.busBetween k rest.length = s.busBetween (k + 1) (rest.length + 1) := by
    intro k
    unfold State.busBetween
    rw [hbus]
    cases s.bus <;> simp
  have between0 : s.busBetween 0 (rest.length + 1) = (s.bus.tail.take rest.length).flatten := by
    unfold State.busBetween
    cases s.bus <;> simp
  refine ⟨fun c => (h.cell c).trans (hcell c), h.pc.trans hpc, h.cpsr.trans hcp, h.spsr.trans hsp, ?_, h.wf, ?_, ?_, ?_⟩
  · obtain ⟨p1, p2, p3⟩ := h.plat
    simp only [State.atAccessNo_cfg, State.atAccessNo_inputs, State.atAccessNo_bus] at p1 p2 p3
    refine ⟨?_, ?_, ?_⟩
    · rw [p1, hpl.1]; simp
    · rw [p2, hpl.2.1]; simp
    · rw [p3, hbus, State.atAccessNo_bus]; simp
  · intro d hx
    rw [h.out d (fun y hy => hx y (List.mem_cons_of_mem _ hy)), readEnd1, outword d (hx _ List.mem_cons_self), List.length_cons, readEnd]
  · intro d hx
    rw [h.marks d (fun y hy => hx y (List.mem_cons_of_mem _ hy)), outmark d (hx _ List.mem_cons_self)]
  · intro k b w hk
    rcases k with _ | k
    · simp only [List.getElem?_cons_zero, Option.some.injEq, Prod.mk.injEq] at hk
      obtain ⟨rfl, rfl⟩ := hk
      have apart : ∀ y ∈ rest, (alignWord a).toNat + 4 ≤ (alignWord y.1).toNat := fun y hy => hd y hy
      have e1 : ∀ j, j < 4 → t.mem.read ((alignWord a).toNat + j) = (s1.atAccessNo rest.length).mem.read ((alignWord a).toNat + j) := by
        intro j hj
        exact h.out _ fun y hy => by have := apart y hy; omega
      have e2 : (alignWord a).toNat ∈ t.written ↔ (alignWord a).toNat ∈ s1.written :=
        h.marks _ fun y hy => by have := apart y hy; omega
      rcases hw1 with ⟨e, ew, hh⟩ | ⟨e, ew, hh⟩
      · have wk : WordKept (s.atAccessNo (rest.length + 1)) t (alignWord a).toNat :=
          ⟨fun j hj => by rw [e1 j hj, readEnd1, e, readEnd], by rw [e2, ew]; simp⟩
        refine ⟨fun h1 h2 => ?_, fun _ => wk, .inr wk⟩
        have := h2 0 a v (le_refl _) rfl
        simp_all
      · have ww : HoldsWord s t 0 (rest.length + 1) a v :=
          ⟨fun j hj => by
            rw [e1 j hj, readEnd1, e, Memory.read_writeWord s.cfg.bigEndian v hmA (alignWord_lt a) hj, between0],
           by rw [e2, ew, mem_noteWritten]; exact .inl rfl⟩
        exact ⟨fun _ _ => ww, fun h1 => by simp_all, .inl ww⟩
    · simp only [List.getElem?_cons_succ] at hk
      have hby := h.bytes k b w hk
      have hmem := hd _ (List.mem_of_getElem? hk)
      unfold WordBelow at hmem
      simp only at hmem
      have ww : HoldsWord s1 t k rest.length b w → HoldsWord s t (k + 1) (rest.length + 1) b w := by
        unfold HoldsWord; rw [between, hpl.1]; exact id
      have wk : WordKept (s1.atAccessNo rest.length) t (alignWord b).toNat → WordKept (s.atAccessNo (rest.length + 1)) t (alignWord b).toNat := by
        rintro ⟨h1, h2⟩
        refine ⟨fun j hj => by rw [h1 j hj, readEnd1, outword _ (by omega), readEnd], ?_⟩
        rw [h2, State.atAccessNo_written, State.atAccessNo_written, outmark _ (by omega)]
      rw [wfeq] at hby
      refine ⟨fun h1 h2 => ww (hby.1 ?_ ?_), fun hh => wk (hby.2.1 hh), hby.2.2.imp ww wk⟩
      · rw [hf2, h1, h2 0 a v (by omega) rfl]; rfl
      · intro q b' w' hq hh
        rw [wfeq]
        exact h2 (q+1) b' w' (by omega) hh

/-- All that `storeBlock` can do. -/
theorem storeBlock_spec (priv : Privilege) (l : List (Word × Word)) : ∀ (faulted : Bool) (s : State), s.mem.wf = true → l.Pairwise WordBelow →
   StoredUpTo priv l faulted s (storeBlock priv l faulted s).1 ∧ ((storeBlock priv l faulted s).2 = true ↔ faulted = true ∨ ∃ x ∈ l, s.wordFaults x.1 .write priv = true) := by
  induction l with
  | nil =>
    intro f s hm _
    exact ⟨⟨fun _ => rfl, rfl, rfl, rfl, ⟨rfl, rfl, rfl⟩, hm, fun _ _ => rfl, fun _ _ => Iff.rfl, fun k a v h => by simp at h⟩,
      by simp [storeBlock]⟩
  | cons x rest ih =>
    obtain ⟨a, v⟩ := x
    intro f s hm hp
    rw [List.pairwise_cons] at hp
    simp only [storeBlock]
    have hmA : s.atAccess.mem.wf = true := State.atAccess_memoryWf hm
    have hst : ∀ s0 : State, s0.mem = s.atAccess.mem → (s0.storeWord a v).mem.wf = true := fun s0 e => by
      show (s0.mem.writeWord _ _ _).wf = true
      rw [e]
      exact Memory.wf_writeWord _ _ hmA (alignWord_lt a)
    have same : ∀ b, s.atAccess.wordFaults b .write priv = s.wordFaults b .write priv := fun _ => rfl
    by_cases h1 : s.wordFaults a .write priv = true
    · rw [if_pos (show s.atAccess.wordFaults a .write priv = true from h1)]
      obtain ⟨i1, i2⟩ := ih true s.atAccess hmA hp.2
      exact ⟨storedUpTo_cons i1 hp.1 hm (fun c => by simp) rfl rfl rfl ⟨rfl, rfl, rfl⟩ (.inl ⟨rfl, rfl, .inl h1⟩) (by simp [h1]), by simp [i2, h1]⟩
    · rw [if_neg (show ¬ s.atAccess.wordFaults a .write priv = true from h1)]
      have h1' : s.wordFaults a .write priv = false := by simpa using h1
      cases f
      · rw [if_neg (by simp)]
        obtain ⟨i1, i2⟩ := ih false (s.atAccess.storeWord a v) (hst s.atAccess rfl) hp.2
        refine ⟨storedUpTo_cons i1 hp.1 hm (fun c => by simp) rfl rfl rfl ⟨rfl, rfl, rfl⟩ (.inr ⟨rfl, rfl, h1'⟩) (by simp [h1']), ?_⟩
        have ee : ∀ b, (s.atAccess.storeWord a v).wordFaults b .write priv = s.wordFaults b .write priv := fun _ => rfl
        rw [i2]; simp only [ee]; simp [h1']
      · rw [if_pos rfl]
        by_cases hb : s.atAccess.freeBit = true
        · rw [if_pos hb]
          obtain ⟨i1, i2⟩ := ih true (s.atAccess.drawn.storeWord a v) (hst s.atAccess.drawn rfl) hp.2
          exact ⟨storedUpTo_cons i1 hp.1 hm (fun c => by simp [State.drawn]) rfl rfl rfl ⟨rfl, rfl, rfl⟩ (.inr ⟨rfl, rfl, h1'⟩) (by simp), by simp [i2]⟩
        · rw [if_neg hb]
          obtain ⟨i1, i2⟩ := ih true s.atAccess.drawn hmA hp.2
          exact ⟨storedUpTo_cons i1 hp.1 hm (fun c => by simp [State.drawn]) rfl rfl rfl ⟨rfl, rfl, rfl⟩ (.inl ⟨rfl, rfl, .inr rfl⟩) (by simp), by simp [i2]⟩

/-- The words of a block lie one above the other. -/
theorem alignWord_blockAddress {start : Int} {n k : Nat} (h0 : 0 ≤ start) (h1 : start + 4 * n ≤ 2 ^ 32) (hk : k < n) :
   (alignWord (BitVec.ofInt 32 (start + 4 * (k : Int)))).toNat = (alignWord (BitVec.ofInt 32 (start + 4 * ((0:Nat) : Int)))).toNat + 4 * k := by
  rw [alignWord_toNat, alignWord_toNat, BitVec.toNat_ofInt, BitVec.toNat_ofInt]
  have e1 : (start + 4 * (k:Int)) % ((2 ^ 32 : Nat) : Int) = start + 4 * k := Int.emod_eq_of_lt (by omega) (by omega)
  have e2 : (start + 4 * ((0:Nat):Int)) % ((2 ^ 32 : Nat) : Int) = start := by rw [Int.emod_eq_of_lt (by omega) (by omega)]; omega
  rw [e1, e2]
  omega

theorem SamePlatform.trans' {s t r : State} (h : SamePlatform t r) (h0 : SamePlatform s t) : SamePlatform s r :=
  ⟨h.1.trans h0.1, h.2.1.trans h0.2.1, h.2.2.trans h0.2.2⟩

theorem WordWritten.congr {s t r : State} {k n lo : Nat} {v : Word} (h : WordWritten s t k n lo v)
    (hm : ∀ a, r.mem.read a = t.mem.read a) (hw : r.written = t.written) : WordWritten s r k n lo v :=
  ⟨fun j b hb => (hm _).trans (h.1 j b hb), hw ▸ h.2⟩

theorem WordKept.congr {u t r : State} {lo : Nat} (h : WordKept u t lo) (hm : ∀ a, r.mem.read a = t.mem.read a)
    (hw : r.written = t.written) : WordKept u r lo :=
  ⟨fun j hj => (hm _).trans (h.1 j hj), hw ▸ h.2⟩

theorem SameOutsideBlock.congr {p u rn list} {s v t r : State} (h : SameOutsideBlock p u rn list s v t)
    (hm : ∀ a, r.mem.read a = t.mem.read a) (hw : r.written = t.written) : SameOutsideBlock p u rn list s v r :=
  ⟨fun a ha => (hm a).trans (h.1 a ha), fun a ha => hw ▸ h.2 a ha⟩

theorem WordsStored.congr {value p u rn list} {s t r : State} (h : WordsStored value p u rn list s t)
    (hm : ∀ a, r.mem.read a = t.mem.read a) (hw : r.written = t.written) : WordsStored value p u rn list s r :=
  ⟨fun k q hk => (h.1 k q hk).congr hm hw, h.2.congr hm hw⟩

theorem PartlyStored.congr {value p u rn list} {s t r : State} (h : PartlyStored value p u rn list s t)
    (hm : ∀ a, r.mem.read a = t.mem.read a) (hw : r.written = t.written) : PartlyStored value p u rn list s r :=
  ⟨fun k q lo hk hlo =>
    let x := h.1 k q lo hk hlo
    ⟨fun hq => (x.1 hq).congr hm hw, fun hf => (x.2.1 hf).congr hm hw,
      x.2.2.imp (fun y => y.congr hm hw) (fun y => y.congr hm hw)⟩, h.2.congr hm hw⟩

/-- What an STM does once its restrictions hold (R284, R288). -/
theorem blockStore_of_finishStore {i : Instr} {value : RegNum → Word} {p u w : Bool} {rn : RegNum} {list : BitVec 16} {s : State} (hm : s.mem.wf = true)
   (hrn : rn ≠ 15)
   (hx : exec i s = withBlock p u rn list s (fun addrs => finishStore u w rn list (addrs.zip ((listedRegs list).map value)) s)) :
   BlockStore i value p u w rn list s := by
  have hbn := bank_ne_pc s.cpsr.mode hrn
  refine ⟨fun hf => by rw [hx, withBlock_refused hf], ?_⟩
  have len : ((blockAddresses (s.blockFrom p u rn list) (listedRegs list).length).zip ((listedRegs list).map value)).length = (listedRegs list).length := by
    simp [blockAddresses_length]
  have main : s.BlockFits p u rn list → ∃ t, StoredUpTo s.privilege ((blockAddresses (s.blockFrom p u rn list) (listedRegs list).length).zip ((listedRegs list).map value)) false s t
     ∧ (exec i s = if s.blockFaults (blockAddresses (s.blockFrom p u rn list) (listedRegs list).length) .write then dataAbort (if w then t.freeCells [bank s.cpsr.mode rn] else t) else advance (t.blockBase u w rn list)) := by
    intro hf
    rw [withBlock_of hf] at hx
    unfold finishStore at hx
    have pw : ((blockAddresses (s.blockFrom p u rn list) (listedRegs list).length).zip ((listedRegs list).map value)).Pairwise WordBelow := by
      rw [List.pairwise_iff_getElem]
      intro i j hi hj hij
      simp only [WordBelow, List.getElem_zip]
      simp only [List.length_zip, blockAddresses_length, List.length_map, Nat.min_self] at hi hj
      simp only [blockAddresses, List.getElem_map, List.getElem_range]
      rw [alignWord_blockAddress hf.1 hf.2 hi, alignWord_blockAddress hf.1 hf.2 hj]
      omega
    have := storeBlock_spec s.privilege _ false s hm pw
    revert this hx
    generalize storeBlock s.privilege _ false s = r
    intro hx this
    obtain ⟨t, b⟩ := r
    refine ⟨t, this.1, ?_⟩
    have hb : b = s.blockFaults (blockAddresses (s.blockFrom p u rn list) (listedRegs list).length) .write := by
      have h2 := this.2
      simp only [Bool.false_eq_true, false_or] at h2
      rw [Bool.eq_iff_iff, h2]
      unfold State.blockFaults
      rw [List.any_eq_true]
      constructor
      · rintro ⟨x, hx, he⟩; exact ⟨x.1, (List.of_mem_zip hx).1, he⟩
      · rintro ⟨a, ha, he⟩
        obtain ⟨k, hk, rfl⟩ := List.getElem_of_mem ha
        rw [blockAddresses_length] at hk
        refine ⟨(_, value ((listedRegs list)[k])), List.mem_iff_getElem.2 ⟨k, by simp [blockAddresses_length, hk], ?_⟩, he⟩
        simp
    rw [← hb]
    cases b <;> simpa using hx
  have conv : s.BlockFits p u rn list → ∀ t, StoredUpTo s.privilege ((blockAddresses (s.blockFrom p u rn list) (listedRegs list).length).zip ((listedRegs list).map value)) false s t →
      PartlyStored value p u rn list s t ∧ (¬ s.BlockFaults p u rn list .write → WordsStored value p u rn list s t) := by
    intro hf t h
    have gz : ∀ k r, (listedRegs list)[k]? = some r → ((blockAddresses (s.blockFrom p u rn list) (listedRegs list).length).zip ((listedRegs list).map value))[k]? = some (s.blockWord p u rn list k, value r) := by
      intro k r hk
      have hlt : k < (listedRegs list).length := by
        by_contra hge
        rw [List.getElem?_eq_none (by omega)] at hk; cases hk
      rw [List.getElem?_zip_eq_some]
      exact ⟨blockAddresses_get _ _ _ hlt, by simp [hk]⟩
    have outm : SameMemoryOutside (alignWord (s.blockWord p u rn list 0)).toNat (4 * (listedRegs list).length) (s.atBlockEnd list) t := by
      intro a ha
      have e := h.out a
      rw [len] at e
      apply e
      intro x hx
      obtain ⟨k, hk, rfl⟩ := List.getElem_of_mem hx
      simp only [List.length_zip, blockAddresses_length, List.length_map, Nat.min_self] at hk
      simp only [List.getElem_zip, blockAddresses, List.getElem_map, List.getElem_range]
      rw [alignWord_blockAddress hf.1 hf.2 hk]
      unfold State.blockWord at ha
      omega
    have outw : ∀ a, (∀ k, k < (listedRegs list).length → a ≠ (alignWord (s.blockWord p u rn list k)).toNat) →
        (a ∈ t.written ↔ a ∈ (s.atBlockEnd list).written) := by
      intro a ha
      rw [State.atBlockEnd_written]
      apply h.marks
      intro x hx
      obtain ⟨k, hk, rfl⟩ := List.getElem_of_mem hx
      simp only [List.length_zip, blockAddresses_length, List.length_map, Nat.min_self] at hk
      simpa [blockAddresses, State.blockWord] using ha k hk
    have cv : ∀ k a v, HoldsWord s t k (listedRegs list).length a v → WordWritten s t k (listedRegs list).length (alignWord a).toNat v := by
      intro k a v hw
      refine ⟨fun j b hb => ?_, hw.2⟩
      obtain ⟨hj, rfl⟩ := wordBytes_get _ _ _ _ hb
      exact hw.1 j hj
    have hbytes := h.bytes
    rw [len] at hbytes
    refine ⟨⟨fun k r lo hk hlo => ?_, outm, outw⟩, fun hnf => ⟨fun k r hk => ?_, outm, outw⟩⟩
    · subst hlo
      have := hbytes k _ _ (gz k r hk)
      refine ⟨fun hq => cv _ _ _ (this.1 rfl ?_), this.2.1, this.2.2.imp (cv _ _ _) id⟩
      intro q b w hqk hzz
      rw [List.getElem?_zip_eq_some] at hzz
      have hl : q < (listedRegs list).length := by
        have h1 := hzz.1
        by_contra hge
        rw [List.getElem?_eq_none (by rw [blockAddresses_length]; omega)] at h1; cases h1
      have e := hzz.1
      rw [blockAddresses_get _ _ _ hl] at e
      cases e
      exact hq q hqk
    · have := hbytes k _ _ (gz k r hk)
      refine cv _ _ _ (this.1 rfl ?_)
      intro q b w hqk hzz
      rw [List.getElem?_zip_eq_some] at hzz
      have hl : q < (listedRegs list).length := by
        have h1 := hzz.1
        by_contra hge
        rw [List.getElem?_eq_none (by rw [blockAddresses_length]; omega)] at h1; cases h1
      have e := hzz.1
      rw [blockAddresses_get _ _ _ hl] at e
      cases e
      unfold State.BlockFaults at hnf
      exact Bool.eq_false_iff.2 fun hq => hnf ⟨q, hl, hq⟩
  have plat : ∀ t, StoredUpTo s.privilege ((blockAddresses (s.blockFrom p u rn list) (listedRegs list).length).zip ((listedRegs list).map value)) false s t →
      SamePlatform (s.atBlockEnd list) t := by
    intro t ht
    have := ht.plat
    rwa [len] at this
  refine ⟨fun hf hb => ?_, fun hf hb => ?_⟩
  · obtain ⟨t, ht, e⟩ := main hf
    rw [if_pos (blockFaults_iff.2 hb)] at e
    have hc := (conv hf t ht).1
    cases w
    · simp only [Bool.false_eq_true, if_false] at e
      exact aborts_of_dataAbort e ht.pc ht.cpsr ht.spsr (fun c _ _ => ht.cell c) (plat t ht)
        (hc.congr (fun a => by simp) (by simp))
    · simp only [if_true] at e
      have fr : RegisterFrame [bank s.cpsr.mode rn] t (t.freeCells [bank s.cpsr.mode rn]) := RegisterFrame.freeCells _ _ _ _ (RegisterFrame.refl _ _) (fun _ h => h)
      exact aborts_of_dataAbort e ((State.freeCells_pc _ _ (by simpa using hbn)).trans ht.pc) ((State.freeCells_cpsr _ _).trans ht.cpsr) (fr.2.1.trans ht.spsr) (fun c hc hn => (fr.1 c hc (by simpa [State.blockBaseCells] using hn)).trans (ht.cell c)) (fr.2.2.2.trans' (plat t ht))
        (hc.congr (fun a => by rw [takeException_mem]; exact fr.2.2.1.1 a) (by rw [takeException_written]; exact fr.2.2.1.2))
  · obtain ⟨t, ht, e⟩ := main hf
    rw [if_neg (by rw [blockFaults_iff]; exact hb)] at e
    have hc := (conv hf t ht).2 hb
    have hp := plat t ht
    have rr : t.reg rn = s.reg rn := by
      unfold State.reg; rw [if_neg hrn, if_neg hrn, ht.cpsr, ht.cell]
    cases w
    · simp only [State.blockBase, Bool.false_eq_true, if_false] at e
      exact continues_of_advance e ht.pc ⟨hc.congr (fun a => by simp) (by simp), by simp, ht.cpsr, fun c hc _ => by rw [State.setPc_cell _ _ hc, ht.cell], ht.spsr, hp⟩
    · simp only [State.blockBase, if_true] at e
      refine continues_of_advance e (by rw [State.setReg_pc _ _ hrn, ht.pc]) ⟨hc.congr (fun a => by simp) (by simp), ?_, by simp [ht.cpsr], fun c hc hn => ?_, by simp [ht.spsr], ?_⟩
      · intro _; rw [State.setPc_cell _ _ hbn, State.setReg_cell, ht.cpsr, if_pos rfl, rr]
      · rw [State.setPc_cell _ _ hc, State.setReg_cell, ht.cpsr, if_neg (by simpa [State.blockBaseCells] using hn), ht.cell]
      · exact ⟨by simpa using hp.1, by simpa using hp.2.1, by simpa using hp.2.2⟩

end Sys2Proof.Machine
end

