-- ==== Sys2Proof/Laws/Multiply.lean ====
section
/-! SUPPORT. How multiplies end, and the count of leading zeros. -/

namespace Sys2Proof.Machine

/-- All that `finishMultiply32` can do (44_multiply_clz.md R222). -/
theorem continues_of_finishMultiply32 {i : Instr} {s : State} {sf : Bool} {rd : RegNum} {r : Word}
    (h : exec i s = finishMultiply32 sf rd r s) (hrd : rd ≠ 15) :
    Continues i s fun t =>
      t.cell (bank s.cpsr.mode rd) = r ∧ (sf = false → t.cpsr = s.cpsr)
        ∧ (sf = true → t.cpsr = { s.cpsr with n := r.getLsbD 31, z := decide (r = 0#32), c := t.cpsr.c })
        ∧ RegisterFrame [bank s.cpsr.mode rd] s t := by
  have hb := bank_ne_pc s.cpsr.mode hrd
  unfold finishMultiply32 at h
  have fr : RegisterFrame [bank s.cpsr.mode rd] s (s.setReg rd r) := (RegisterFrame.refl _ _).setReg _ (by simp)
  cases sf
  · simp only [Bool.false_eq_true, if_false] at h
    refine continues_of_advance h (State.setReg_pc _ _ hrd) ⟨?_, by simp, by simp, fr.setPc _⟩
    rw [State.setPc_cell _ _ hb, State.setReg_cell, if_pos rfl]
  · simp only [if_true] at h
    refine continues_of_advance h (by simp [State.drawn, State.setReg_pc _ _ hrd])
      ⟨?_, by simp, fun _ => ?_, ((fr.setCpsr _).drawn).setPc _⟩
    · rw [State.setPc_cell _ _ hb, State.drawn, State.setDraws_cell, State.setCpsr_cell, State.setReg_cell, if_pos rfl]
    · simp [State.drawn, setFlagsMul32, Cpsr.withFlags, negative]

/-- The two halves of a double word, joined. -/
theorem halves_joined (r : BitVec 64) : r.extractLsb' 32 32 ++ r.extractLsb' 0 32 = r := by
  ext i hi
  simp only [BitVec.getElem_append, BitVec.getElem_extractLsb']
  split
  · simp [BitVec.getLsbD_eq_getElem, *]
  · have e : 32 + (i - 32) = i := by omega
    rw [e, BitVec.getLsbD_eq_getElem]

/-- All that `finishMultiply64` can do (44_multiply_clz.md R222). -/
theorem continues_of_finishMultiply64 {i : Instr} {s : State} {sf : Bool} {rdHi rdLo : RegNum} {r : BitVec 64} {v : Int}
    (h : exec i s = finishMultiply64 sf rdHi rdLo r s) (hr : r = BitVec.ofInt 64 v) (h1 : rdHi ≠ 15) (h2 : rdLo ≠ 15)
    (h3 : rdHi ≠ rdLo) : Continues i s (LongResult s sf rdHi rdLo v) := by
  have hb := bank_ne_pc s.cpsr.mode h1
  have hb2 := bank_ne_pc s.cpsr.mode h2
  subst hr
  generalize hr : BitVec.ofInt 64 v = r at h
  unfold finishMultiply64 at h
  set s1 := (s.setReg rdLo (r.extractLsb' 0 32)).setReg rdHi (r.extractLsb' 32 32) with hs1
  have fr : RegisterFrame [bank s.cpsr.mode rdHi, bank s.cpsr.mode rdLo] s s1 :=
    ((RegisterFrame.refl _ _).setReg _ (by simp)).setReg _ (by simp)
  have c1 : s1.cell (bank s.cpsr.mode rdHi) = r.extractLsb' 32 32 := by simp [hs1, State.setReg_cell]
  have c2 : s1.cell (bank s.cpsr.mode rdLo) = r.extractLsb' 0 32 := by
    rw [hs1, State.setReg_cell, if_neg (by simp [bank_injective]; exact fun e => h3 e.symm), State.setReg_cell, if_pos rfl]
  have pc1 : s1.pc = s.pc := by simp [hs1, State.setReg_pc _ _ h1, State.setReg_pc _ _ h2]
  have cp1 : s1.cpsr = s.cpsr := by simp [hs1]
  unfold LongResult
  rw [hr]
  cases sf
  · simp only [Bool.false_eq_true, if_false] at h
    refine continues_of_advance h pc1 ⟨?_, by simp [cp1], by simp, fr.setPc _⟩
    rw [State.setPc_cell _ _ hb, State.setPc_cell _ _ hb2, c1, c2, halves_joined]
  · simp only [if_true] at h
    refine continues_of_advance h (by simp [State.drawn, pc1]) ⟨?_, by simp, fun _ => ?_, ((fr.setCpsr _).drawn).setPc _⟩
    · rw [State.setPc_cell _ _ hb, State.setPc_cell _ _ hb2, State.drawn, State.setDraws_cell, State.setDraws_cell,
        State.setCpsr_cell, State.setCpsr_cell, c1, c2, halves_joined]
    · simp [State.drawn, setFlagsMul64, Cpsr.withFlags]

/-- What `leadingZeros` counts: at most `k`; all of them where no bit is set; the counted bits are zero; the next one is set. -/
theorem leadingZeros_spec (v : Word) (k : Nat) :
    leadingZeros v k ≤ k ∧ ((∀ j, j < k → v.getLsbD j = false) → leadingZeros v k = k)
      ∧ (∀ j, k - leadingZeros v k ≤ j → j < k → v.getLsbD j = false)
      ∧ (leadingZeros v k < k → v.getLsbD (k - 1 - leadingZeros v k) = true) := by
  induction k with
  | zero => simp [leadingZeros]
  | succ k ih =>
    simp only [leadingZeros]
    by_cases h : v.getLsbD k = true
    · rw [if_pos h]
      refine ⟨by omega, fun h2 => ?_, fun j _ _ => by omega, fun _ => by simpa using h⟩
      have := h2 k (by omega); simp_all
    · rw [if_neg h]
      refine ⟨by omega, fun h2 => ?_, fun j h1 h2 => ?_, fun h1 => ?_⟩
      · rw [ih.2.1 (fun j hj => h2 j (by omega))]
      · by_cases hjk : j = k
        · subst hjk; simpa using h
        · exact ih.2.2.1 j (by omega) (by omega)
      · have := ih.2.2.2 (by omega)
        rw [← this]; congr 1; omega

end Sys2Proof.Machine
end

