-- ==== Sys2Proof/Laws/Shifts.lean ====
section
/-! SUPPORT. The bits of shifted and rotated words, one lemma per shift. -/

namespace Sys2Proof.Machine

theorem ror32_bit (v : Word) (n i : Nat) (hn : n < 32) (hi : i < 32) : (ror32 v n).getLsbD i = v.getLsbD ((i + n) % 32) := by
  unfold ror32
  split
  · next h => subst h; congr 1; omega
  · simp only [BitVec.getLsbD_or, BitVec.getLsbD_ushiftRight, BitVec.getLsbD_shiftLeft]
    by_cases h : i + n < 32
    · have : i < 32 - n := by omega
      rw [Nat.mod_eq_of_lt h]; simp [this, Nat.add_comm]
    · have e : (i + n) % 32 = i - (32 - n) := by omega
      have : ¬ i < 32 - n := by omega
      rw [e, BitVec.getLsbD_of_ge v (n + i) (by omega)]; simp [this, hi]

theorem shiftLeft_bit (v : Word) (n i : Nat) (hi : i < 32) : (v <<< n).getLsbD i = (decide (n ≤ i) && v.getLsbD (i - n)) := by
  rw [BitVec.getLsbD_shiftLeft]
  by_cases h : i < n
  · have : ¬ n ≤ i := by omega
    simp [h, this]
  · have : n ≤ i := by omega
    simp [hi, h, this]

theorem shiftRight_bit (v : Word) (n i : Nat) : (v >>> n).getLsbD i = v.getLsbD (i + n) := by
  rw [BitVec.getLsbD_ushiftRight, Nat.add_comm]

theorem arithmeticShiftRight_bit (v : Word) (n i : Nat) (hi : i < 32) :
    (v.sshiftRight n).getLsbD i = v.getLsbD (min (i + n) 31) := by
  rw [BitVec.getLsbD_sshiftRight]
  by_cases h : n + i < 32
  · have : min (i + n) 31 = n + i := by omega
    rw [this]; simp [h, hi]
  · have : min (i + n) 31 = 31 := by omega
    rw [this]; simp [h, hi, BitVec.msb_eq_getLsbD_last]

theorem copies_bit (b : Bool) (i : Nat) (hi : i < 32) : (copies b).getLsbD i = b := by
  cases b
  · simp [copies]
  · have : ∀ j : Fin 32, (copies true).getLsbD j.val = true := by decide
    exact this ⟨i, hi⟩

end Sys2Proof.Machine
end

