-- ==== Sys2Proof/Laws/StatusRegister.lean ====
section
/-! SUPPORT. What MSR does once its operand is at hand, and the bits of the word MRS reads. -/

namespace Sys2Proof.Machine

/-- All that `moveToStatus` can do (49_status_register.md R313 to R315). -/
theorem movesToStatus_of_moveToStatus {i : Instr} {r flags control : Bool} {mask : BitVec 4} {v : Word} {s : State}
    (h : exec i s = moveToStatus r mask v s) (h3 : mask.getLsbD 3 = flags) (h0 : mask.getLsbD 0 = control) :
    MovesToStatus i r flags control v s := by
  unfold moveToStatus at h
  rw [h3, h0] at h
  refine ⟨fun hr hm => ?_, fun hr q hq => ?_, fun hr q hq => ?_⟩
  · rw [h, if_pos hr]; rcases hm with e | e <;> simp [e, State.spsrOf]
  · rw [if_pos hr, hq] at h
    refine continues_of_advance h ?_ ⟨?_, ?_, ?_, ?_, ?_, ?_⟩
    all_goals (cases hm : s.cpsr.mode <;>
      simp_all [State.setSpsrOf, State.spsrOf, Psr.merge, Psr.moved, SameRegistersBut, SameMemory, SamePlatform,
        State.setPc_cell])
    all_goals (intro m hm; cases m <;> simp_all)
  · have hpriv : s.cpsr.mode.privileged = decide (s.cpsr.mode ≠ .user) := by cases s.cpsr.mode <;> rfl
    rw [if_neg (by simp [hr]), hpriv] at h
    have e : s.cpsr.saved.merge flags (control && decide (s.cpsr.mode ≠ .user)) v = q := hq.symm
    simp only at h
    rw [e] at h
    refine ⟨fun h1 => by rw [h, if_pos h1], fun h1 h2 => ?_, fun h1 m hm => ?_⟩
    · rw [h, if_neg (by simp [h1])]; simp [Psr.restored, h2]
    · rw [if_neg (by simp [h1])] at h
      simp only [Psr.restored, hm] at h
      exact continues_of_advance h rfl ⟨rfl, ((RegisterFrame.refl _ _).setCpsr _).setPc _⟩

/-- The bits of the word MRS reads (49_status_register.md R310). -/
theorem psrWord_bits (p : Psr) (free : BitVec 20) :
    (psrWord p free).getLsbD 31 = p.n ∧ (psrWord p free).getLsbD 30 = p.z ∧ (psrWord p free).getLsbD 29 = p.c
      ∧ (psrWord p free).getLsbD 28 = p.v ∧ (psrWord p free).getLsbD 7 = p.i ∧ (psrWord p free).getLsbD 6 = p.f
      ∧ (psrWord p free).getLsbD 5 = p.t ∧ (psrWord p free).extractLsb' 0 5 = p.m := by
  have bits (j : Nat) : (psrWord p free).getLsbD j
      = @BitVec.getLsbD (1 + 1 + 1 + 1 + 20 + 1 + 1 + 1 + 5) (BitVec.ofBool p.n ++ BitVec.ofBool p.z ++ BitVec.ofBool p.c
        ++ BitVec.ofBool p.v ++ free ++ BitVec.ofBool p.i ++ BitVec.ofBool p.f ++ BitVec.ofBool p.t ++ p.m) j := rfl
  refine ⟨?_, ?_, ?_, ?_, ?_, ?_, ?_, ?field⟩
  case field =>
    ext i hi
    rw [BitVec.getElem_extractLsb', bits, BitVec.getLsbD_append]
    simp [hi, BitVec.getLsbD_eq_getElem]
  all_goals rw [bits]; simp only [BitVec.getLsbD_append]; simp

end Sys2Proof.Machine
end

