-- ==== Sys2Proof/Laws/Step.lean ====
section
/-! SUPPORT. What a step can do, said once: the environment's input, the events, the fetch. -/

namespace Sys2Proof.Machine

/-! ### The input of a step -/

@[simp] theorem State.afterInputs_regs (s : State) : s.afterInputs.regs = s.regs := rfl
@[simp] theorem State.afterInputs_pc (s : State) : s.afterInputs.pc = s.pc := rfl
@[simp] theorem State.afterInputs_cpsr (s : State) : s.afterInputs.cpsr = s.cpsr := rfl
@[simp] theorem State.afterInputs_spsr (s : State) : s.afterInputs.spsr = s.spsr := rfl
@[simp] theorem State.afterInputs_mem (s : State) : s.afterInputs.mem = s.mem := rfl
@[simp] theorem State.afterInputs_cfg (s : State) : s.afterInputs.cfg = s.cfg := rfl
@[simp] theorem State.afterInputs_bus (s : State) : s.afterInputs.bus = s.bus := rfl
@[simp] theorem State.afterInputs_written (s : State) : s.afterInputs.written = s.written := rfl
@[simp] theorem State.afterInputs_draws (s : State) : s.afterInputs.draws = s.draws := rfl
@[simp] theorem State.afterInputs_inputs (s : State) : s.afterInputs.inputs = s.inputs.tail := rfl
@[simp] theorem State.afterInputs_cell (s : State) (c : Cell) : s.afterInputs.cell c = s.cell c := by cases c <;> rfl

/-! ### Steps and instructions that go on -/

/-- What a step that goes on has done: a reset, an FIQ, an IRQ, or an instruction. -/
theorem stepEvents_next {x : Inputs} {s t : State} (h : stepEvents x s = .next t) :
    (x.resetLine = true ∧ t = resetEvent s)
      ∨ (s.cpsr.f = false ∧ t = takeException .fiq (s.pc + 4#32) s)
      ∨ (s.cpsr.i = false ∧ t = takeException .irq (s.pc + 4#32) s)
      ∨ (x.resetLine = false ∧ runInstruction s = .next t) := by
  unfold stepEvents at h
  split at h
  · next h1 => exact .inl ⟨h1, by injection h with h; exact h.symm⟩
  · next h1 =>
    split at h
    · next h2 =>
      simp only [Bool.and_eq_true, Bool.not_eq_true'] at h2
      exact .inr (.inl ⟨h2.2, by injection h with h; exact h.symm⟩)
    · split at h
      · next h3 =>
        simp only [Bool.and_eq_true, Bool.not_eq_true'] at h3
        exact .inr (.inr (.inl ⟨h3.2, by injection h with h; exact h.symm⟩))
      · exact .inr (.inr (.inr ⟨by simpa using h1, h⟩))

/-- What a fetch that goes on has done: it was refused and the prefetch abort taken, or its instruction was executed. -/
theorem fetchAndRun_next {s t : State} (h : fetchAndRun s = .next t) :
    (s.fetchFaults = true ∧ t = takeException .prefetchAbort (s.pc + 4#32) s)
      ∨ (s.fetchFaults = false ∧ s.fetchIncoherent = false
        ∧ ∃ i, decode (s.wordAt s.pc) = .ok i ∧ exec i s = .next t) := by
  unfold fetchAndRun at h
  split_ifs at h with h1 h2
  · exact .inl ⟨h1, by injection h with h; exact h.symm⟩
  · refine .inr ⟨by simpa using h1, by simpa using h2, ?_⟩
    split at h
    · cases h
    · next i hi => exact ⟨i, hi, h⟩

/-- What an instruction that goes on has done: its fetch, made after other agents' writes, went on. -/
theorem runInstruction_next {s t : State} (h : runInstruction s = .next t) :
    s.cpsr.t = false ∧ s.pc.extractLsb' 0 2 = 0#2 ∧ fetchAndRun s.atAccess = .next t := by
  unfold runInstruction at h
  split_ifs at h with h1 h2
  exact ⟨by simpa using h1, by simpa using h2, h⟩

/-- A fault is a misaligned fetch or comes from the instruction. -/
theorem runInstruction_fault {s : State} {f : Fault} (h : runInstruction s = .fault f) :
    s.cpsr.t = false
      ∧ (s.pc.extractLsb' 0 2 ≠ 0#2 ∨ ∃ i, decode (s.atAccess.wordAt s.pc) = .ok i ∧ exec i s.atAccess = .fault f) := by
  unfold runInstruction at h
  split_ifs at h with h1 h2
  · exact ⟨by simpa using h1, .inl h2⟩
  · refine ⟨by simpa using h1, .inr ?_⟩
    unfold fetchAndRun at h
    split_ifs at h
    split at h
    · cases h
    · next i hi => exact ⟨i, hi, h⟩

/-! ### The link registers -/

@[simp] theorem Exception.undefined_link : bank Exception.undefined.mode 14 = .r14_und := rfl
@[simp] theorem Exception.softwareInterrupt_link : bank Exception.softwareInterrupt.mode 14 = .r14_svc := rfl
@[simp] theorem Exception.prefetchAbort_link : bank Exception.prefetchAbort.mode 14 = .r14_abt := rfl
@[simp] theorem Exception.dataAbort_link : bank Exception.dataAbort.mode 14 = .r14_abt := rfl
@[simp] theorem Exception.irq_link : bank Exception.irq.mode 14 = .r14_irq := rfl
@[simp] theorem Exception.fiq_link : bank Exception.fiq.mode 14 = .r14_fiq := rfl

end Sys2Proof.Machine
end

