-- ==== Sys2Proof/Tests/Slice0.lean ====
section
/-! SUPPORT. Own tests: the well-formedness checks, the decoder on words written out from the encoding tables, single steps
with results from spec/95_test_vectors.md, and for every statement with hypotheses a state and operands that meet them. -/

namespace Sys2Proof.Tests

open Sys2Proof Sys2Proof.Machine

/-! ### Well-formedness (47_multiple_transfer.md R280) -/

theorem test_ldm_return_without_pc_is_ill_formed : (Instr.ldmReturn .al false true true 13 0x000F).wellFormed = false := by
  decide

theorem test_ldm_user_with_pc_is_ill_formed : (Instr.ldmUser .al false true false 0 0x8000).wellFormed = false := by
  decide

/-! ### Decoding -/

/-- Words of data processing immediate, their fields set apart, from the encoding tables (30_encoding.md R109, R110). -/
theorem test_decode_data_processing_immediate :
    decode 0b0001_0010000_1_1010_0010_1000_00011000#32 = .ok (.andImm .ne true 10 2 8 24)
      ∧ decode 0b0000_0010001_1_0011_1111_1001_01100101#32 = .ok (.eorImm .eq true 3 15 9 101)
      ∧ decode 0b0001_0010010_1_0110_0101_0000_10011110#32 = .ok (.subImm .ne true 6 5 0 158)
      ∧ decode 0b1110_0010011_0_0010_1001_1011_01110010#32 = .ok (.rsbImm .al false 2 9 11 114)
      ∧ decode 0b0111_0010100_1_1010_0101_1100_01110100#32 = .ok (.addImm .vc true 10 5 12 116)
      ∧ decode 0b1001_0010101_0_1011_0000_0111_00001111#32 = .ok (.adcImm .ls false 11 0 7 15)
      ∧ decode 0b1011_0010110_0_0100_1101_1111_01011011#32 = .ok (.sbcImm .lt false 4 13 15 91)
      ∧ decode 0b1001_0010111_0_0100_0110_1111_00100000#32 = .ok (.rscImm .ls false 4 6 15 32)
      ∧ decode 0b0101_0011000_1_0010_0011_1001_00001101#32 = .ok (.tstImm .pl 2 3 9 13)
      ∧ decode 0b0001_0011001_1_1000_0101_0001_11011001#32 = .ok (.teqImm .ne 8 5 1 217)
      ∧ decode 0b1011_0011010_1_0000_0011_1000_11101010#32 = .ok (.cmpImm .lt 0 3 8 234)
      ∧ decode 0b1100_0011011_1_1010_1111_0011_11010001#32 = .ok (.cmnImm .gt 10 15 3 209)
      ∧ decode 0b0101_0011100_0_1011_0111_0011_00011010#32 = .ok (.orrImm .pl false 11 7 3 26)
      ∧ decode 0b1100_0011101_0_0011_1110_0111_11100011#32 = .ok (.movImm .gt false 3 14 7 227)
      ∧ decode 0b1100_0011110_1_0100_0000_0010_10011100#32 = .ok (.bicImm .gt true 4 0 2 156)
      ∧ decode 0b1000_0011111_0_0110_0000_1100_10010110#32 = .ok (.mvnImm .hi false 6 0 12 150) := by
  decide

/-- Words of data processing shifted register, their fields set apart, from the encoding tables (30_encoding.md R109, R111). -/
theorem test_decode_data_processing_shifted_register :
    decode 0b0000_0000000_0_1011_1001_01101_01_0_0000#32 = .ok (.andReg .eq false 11 9 13 .lsr 0)
      ∧ decode 0b0100_0000001_0_0001_0011_00100_10_0_0000#32 = .ok (.eorReg .mi false 1 3 4 .asr 0)
      ∧ decode 0b1100_0000010_0_0110_0111_01110_10_0_1010#32 = .ok (.subReg .gt false 6 7 14 .asr 10)
      ∧ decode 0b0110_0000011_0_1001_1111_11000_01_0_0001#32 = .ok (.rsbReg .vs false 9 15 24 .lsr 1)
      ∧ decode 0b1011_0000100_1_0010_1101_00010_00_0_0001#32 = .ok (.addReg .lt true 2 13 2 .lsl 1)
      ∧ decode 0b0011_0000101_0_0110_1100_01100_11_0_0100#32 = .ok (.adcReg .cc false 6 12 12 .ror 4)
      ∧ decode 0b0010_0000110_0_1100_0011_10101_00_0_0010#32 = .ok (.sbcReg .cs false 12 3 21 .lsl 2)
      ∧ decode 0b1100_0000111_1_0001_0111_01100_01_0_1101#32 = .ok (.rscReg .gt true 1 7 12 .lsr 13)
      ∧ decode 0b0001_0001000_1_0011_0000_11110_01_0_1001#32 = .ok (.tstReg .ne 3 0 30 .lsr 9)
      ∧ decode 0b0001_0001001_1_1111_0111_00100_00_0_1110#32 = .ok (.teqReg .ne 15 7 4 .lsl 14)
      ∧ decode 0b1101_0001010_1_0000_1100_00010_10_0_1000#32 = .ok (.cmpReg .le 0 12 2 .asr 8)
      ∧ decode 0b1000_0001011_1_1100_1011_01111_01_0_1111#32 = .ok (.cmnReg .hi 12 11 15 .lsr 15)
      ∧ decode 0b0111_0001100_1_0111_1111_11111_11_0_0011#32 = .ok (.orrReg .vc true 7 15 31 .ror 3)
      ∧ decode 0b0001_0001101_1_0101_0110_11110_11_0_1100#32 = .ok (.movReg .ne true 5 6 30 .ror 12)
      ∧ decode 0b1000_0001110_0_1111_1010_00000_00_0_0101#32 = .ok (.bicReg .hi false 15 10 0 .lsl 5)
      ∧ decode 0b0000_0001111_1_1010_0100_10111_01_0_1000#32 = .ok (.mvnReg .eq true 10 4 23 .lsr 8) := by
  decide

/-- Words of data processing register shift, their fields set apart, from the encoding tables (30_encoding.md R109, R111). -/
theorem test_decode_data_processing_register_shift :
    decode 0b0000_0000000_1_0010_0011_0001_0_10_1_1000#32 = .ok (.andRsr .eq true 2 3 1 .asr 8)
      ∧ decode 0b0010_0000001_0_0011_1001_0100_0_10_1_1000#32 = .ok (.eorRsr .cs false 3 9 4 .asr 8)
      ∧ decode 0b1011_0000010_1_1110_0101_0100_0_00_1_0011#32 = .ok (.subRsr .lt true 14 5 4 .lsl 3)
      ∧ decode 0b1010_0000011_0_0100_1110_0111_0_11_1_0110#32 = .ok (.rsbRsr .ge false 4 14 7 .ror 6)
      ∧ decode 0b0100_0000100_1_1001_1010_1111_0_01_1_1110#32 = .ok (.addRsr .mi true 9 10 15 .lsr 14)
      ∧ decode 0b1000_0000101_0_1111_0001_0010_0_11_1_0111#32 = .ok (.adcRsr .hi false 15 1 2 .ror 7)
      ∧ decode 0b0100_0000110_0_0000_0111_1101_0_00_1_1001#32 = .ok (.sbcRsr .mi false 0 7 13 .lsl 9)
      ∧ decode 0b0110_0000111_0_1100_0110_0001_0_00_1_0111#32 = .ok (.rscRsr .vs false 12 6 1 .lsl 7)
      ∧ decode 0b0110_0001000_1_0000_0001_1101_0_00_1_0011#32 = .ok (.tstRsr .vs 0 1 13 .lsl 3)
      ∧ decode 0b0010_0001001_1_1010_1011_0100_0_10_1_0111#32 = .ok (.teqRsr .cs 10 11 4 .asr 7)
      ∧ decode 0b1100_0001010_1_1000_1111_0101_0_00_1_0010#32 = .ok (.cmpRsr .gt 8 15 5 .lsl 2)
      ∧ decode 0b0100_0001011_1_0000_1111_1100_0_00_1_0100#32 = .ok (.cmnRsr .mi 0 15 12 .lsl 4)
      ∧ decode 0b0001_0001100_1_0000_0111_1010_0_10_1_0101#32 = .ok (.orrRsr .ne true 0 7 10 .asr 5)
      ∧ decode 0b1011_0001101_0_1100_0111_0110_0_00_1_1011#32 = .ok (.movRsr .lt false 12 7 6 .lsl 11)
      ∧ decode 0b1101_0001110_0_0011_1000_1011_0_11_1_0010#32 = .ok (.bicRsr .le false 3 8 11 .ror 2)
      ∧ decode 0b1101_0001111_1_1110_1010_1001_0_11_1_1000#32 = .ok (.mvnRsr .le true 14 10 9 .ror 8) := by
  decide

/-- Words of branches, their fields set apart, from the encoding tables (30_encoding.md R103 to R105). -/
theorem test_decode_branches :
    decode 0b0000_1010_110111110111000000110000#32 = .ok (.b .eq 14643248)
      ∧ decode 0b1100_1011_110011001001011001101111#32 = .ok (.bl .gt 13407855)
      ∧ decode 0b1011_000100101111111111110001_0100#32 = .ok (.bx .lt 4)
      ∧ decode 0b1000_000100101111111111110011_0011#32 = .ok (.blxReg .hi 3)
      ∧ decode 0b1111101_0_001111111001110101010010#32 = .ok (.blxImm false 4169042)
      ∧ decode 0b1000_1111_011100111100000111001101#32 = .ok (.swi .hi 7586253) := by
  decide

/-- Words of multiplies, their fields set apart, from the encoding tables (30_encoding.md R112, R113). -/
theorem test_decode_multiplies :
    decode 0b1001_0000000_1_0000_0000_1100_1001_0001#32 = .ok (.mul .ls true 0 12 1)
      ∧ decode 0b1000_0000001_1_0110_1011_0100_1001_0111#32 = .ok (.mla .hi true 6 11 4 7)
      ∧ decode 0b1110_0000100_1_1111_1000_0011_1001_1011#32 = .ok (.umull .al true 15 8 3 11)
      ∧ decode 0b0010_0000101_0_1000_1110_1111_1001_0011#32 = .ok (.umlal .cs false 8 14 15 3)
      ∧ decode 0b1010_0000110_0_0011_0110_0111_1001_0101#32 = .ok (.smull .ge false 3 6 7 5)
      ∧ decode 0b1100_0000111_0_1101_0001_0011_1001_1010#32 = .ok (.smlal .gt false 13 1 3 10)
      ∧ decode 0b0010_000101101111_0100_11110001_1011#32 = .ok (.clz .cs 4 11) := by
  decide

/-- Words of word and byte immediate, their fields set apart, from the encoding tables (30_encoding.md R114). -/
theorem test_decode_word_and_byte_immediate :
    decode 0b1011_0101_1_0_0_1_1000_1110_000110000001#32 = .ok (.ldrImmPre .lt true false 8 14 385)
      ∧ decode 0b1011_0100_0_001_1111_0010_111111100111#32 = .ok (.ldrImmPost .lt false 15 2 4071)
      ∧ decode 0b1110_0100_0_011_1001_1000_000101011000#32 = .ok (.ldrtImm .al false 9 8 344)
      ∧ decode 0b0010_0101_1_1_1_1_1101_1111_111010110100#32 = .ok (.ldrbImmPre .cs true true 13 15 3764)
      ∧ decode 0b0000_0100_1_101_1111_1011_101100000010#32 = .ok (.ldrbImmPost .eq true 15 11 2818)
      ∧ decode 0b0000_0100_1_111_1101_1110_101101011010#32 = .ok (.ldrbtImm .eq true 13 14 2906)
      ∧ decode 0b0111_0101_1_0_0_0_1001_1000_101011000001#32 = .ok (.strImmPre .vc true false 9 8 2753)
      ∧ decode 0b0000_0100_0_000_1000_0101_000001001011#32 = .ok (.strImmPost .eq false 8 5 75)
      ∧ decode 0b1010_0100_0_010_0111_0101_011001111001#32 = .ok (.strtImm .ge false 7 5 1657)
      ∧ decode 0b1010_0101_1_1_1_0_1000_0110_011000011000#32 = .ok (.strbImmPre .ge true true 8 6 1560)
      ∧ decode 0b0000_0100_0_100_1001_1111_001011110111#32 = .ok (.strbImmPost .eq false 9 15 759)
      ∧ decode 0b1010_0100_0_110_1100_0001_001111111000#32 = .ok (.strbtImm .ge false 12 1 1016) := by
  decide

/-- Words of word and byte register, their fields set apart, from the encoding tables (30_encoding.md R114). -/
theorem test_decode_word_and_byte_register :
    decode 0b0101_0111_0_0_0_1_1100_0101_10111_01_0_0110#32 = .ok (.ldrRegPre .pl false false 12 5 23 .lsr 6)
      ∧ decode 0b0000_0110_0_001_1010_1000_01010_10_0_0111#32 = .ok (.ldrRegPost .eq false 10 8 10 .asr 7)
      ∧ decode 0b0100_0110_1_011_1000_0100_00100_11_0_0000#32 = .ok (.ldrtReg .mi true 8 4 4 .ror 0)
      ∧ decode 0b1010_0111_0_1_0_1_0101_0110_11001_01_0_0001#32 = .ok (.ldrbRegPre .ge false false 5 6 25 .lsr 1)
      ∧ decode 0b0000_0110_0_101_0111_0001_11111_10_0_0100#32 = .ok (.ldrbRegPost .eq false 7 1 31 .asr 4)
      ∧ decode 0b0010_0110_0_111_0111_0001_11101_01_0_0010#32 = .ok (.ldrbtReg .cs false 7 1 29 .lsr 2)
      ∧ decode 0b0001_0111_1_0_0_0_0110_1000_11010_10_0_0111#32 = .ok (.strRegPre .ne true false 6 8 26 .asr 7)
      ∧ decode 0b0100_0110_1_000_1111_1000_00110_11_0_1101#32 = .ok (.strRegPost .mi true 15 8 6 .ror 13)
      ∧ decode 0b0001_0110_1_010_1011_0000_10111_11_0_1101#32 = .ok (.strtReg .ne true 11 0 23 .ror 13)
      ∧ decode 0b0101_0111_1_1_1_0_0101_0100_01010_11_0_0111#32 = .ok (.strbRegPre .pl true true 5 4 10 .ror 7)
      ∧ decode 0b0101_0110_0_100_1010_0011_00000_01_0_0000#32 = .ok (.strbRegPost .pl false 10 3 0 .lsr 0)
      ∧ decode 0b0110_0110_1_110_0000_0001_00001_01_0_0100#32 = .ok (.strbtReg .vs true 0 1 1 .lsr 4) := by
  decide

/-- Words of halfwords, their fields set apart, from the encoding tables (30_encoding.md R115). -/
theorem test_decode_halfwords :
    decode 0b0001_000_1_1_1_1_1_0000_0100_1101_1011_1100#32 = .ok (.ldrhImm .ne true true true 0 4 220)
      ∧ decode 0b0110_000_1_0_0_1_1_0100_1010_00001011_1011#32 = .ok (.ldrhReg .vs true false true 4 10 11)
      ∧ decode 0b1010_000_0_0_1_1_1_1111_0010_1101_1101_1011#32 = .ok (.ldrsbImm .ge false false true 15 2 219)
      ∧ decode 0b0010_000_1_1_0_1_1_1101_1011_00001101_1110#32 = .ok (.ldrsbReg .cs true true true 13 11 14)
      ∧ decode 0b1010_000_1_1_1_1_1_0000_1101_0011_1111_0001#32 = .ok (.ldrshImm .ge true true true 0 13 49)
      ∧ decode 0b0001_000_0_1_0_0_1_0000_1111_00001111_0010#32 = .ok (.ldrshReg .ne false true false 0 15 2)
      ∧ decode 0b1010_000_0_0_1_0_0_0001_1010_0000_1011_0111#32 = .ok (.strhImm .ge false false false 1 10 7)
      ∧ decode 0b1010_000_1_0_0_1_0_0010_1011_00001011_1000#32 = .ok (.strhReg .ge true false true 2 11 8) := by
  decide

/-- Words of blocks, their fields set apart, from the encoding tables (30_encoding.md R116). -/
theorem test_decode_blocks :
    decode 0b0011_100_1_1_0_0_0_1111_0011101100010001#32 = .ok (.stm .cc true true false 15 15121)
      ∧ decode 0b0111_100_1_1_0_0_1_1110_1100010001011000#32 = .ok (.ldm .vc true true false 14 50264)
      ∧ decode 0b0001_100_1_0_1_0_1_0001_1100000100000010#32 = .ok (.ldmReturn .ne true false false 1 49410)
      ∧ decode 0b0111_100_0_0_1_0_1_1001_0111100011110110#32 = .ok (.ldmUser .vc false false false 9 30966)
      ∧ decode 0b0100_100_1_1_1_0_0_0011_0111011011110100#32 = .ok (.stmUser .mi true true false 3 30452) := by
  decide

/-- Words of swaps and status, their fields set apart, from the encoding tables (30_encoding.md R117 to R119). -/
theorem test_decode_swaps_and_status :
    decode 0b0011_00010000_1110_0111_00001001_1100#32 = .ok (.swp .cc 14 7 12)
      ∧ decode 0b0111_00010100_1001_0001_00001001_0111#32 = .ok (.swpb .vc 9 1 7)
      ∧ decode 0b0110_00010_0_001111_0010_000000000000#32 = .ok (.mrs .vs false 2)
      ∧ decode 0b1011_00010_1_10_0100_111100000000_0110#32 = .ok (.msrReg .lt true 4 6)
      ∧ decode 0b0100_00110_1_10_0001_1111_1011_01011101#32 = .ok (.msrImm .mi true 1 11 93) := by
  decide

/-- Words of undefined instructions, their fields set apart, from the encoding tables (30_encoding.md R125). -/
theorem test_decode_undefined_instructions :
    decode 0b0010_011_00000000111010110100_1_1111#32 = .ok (.undefinedSpace .cs 3764 15)
      ∧ decode 0b1011_110_0010010000000101011000110#32 = .ok (.coprocLdcStc .lt 4721350)
      ∧ decode 0b1101_1110_010101001101000110101100#32 = .ok (.coprocCdpMrcMcr .le 5558700) := by
  decide

/-- Words that are no instruction are rejected by name (30_encoding.md R126, R130; the vectors of 95_test_vectors.md). -/
theorem test_decode_rejects :
    decode 0xE0041293#32 = .error .unallocated ∧ decode 0xE1C100D0#32 = .error .unallocated
      ∧ decode 0xE19101B2#32 = .error .unallocated ∧ decode 0xE1020191#32 = .error .unallocated
      ∧ decode 0xF0000000#32 = .error .neverCondition ∧ decodeBytes false [0x01, 0x00, 0x50] = .error .truncated := by
  decide

/-! ### Single steps -/

/-- A machine with no input to come and nothing in memory: mode, pc, r0 to r3. -/
def machine (m : Mode) (pc r0 r1 r2 r3 : Word) : State :=
  { State.reset with
    regs := { GenRegs.zero with r0 := r0, r1 := r1, r2 := r2, r3 := r3 }
    pc := pc
    cpsr := { n := false, z := false, c := false, v := false, i := false, f := false, t := false, mode := m } }

/-- The machine of the vectors: User mode at 0x8000. -/
def user (r0 r1 r2 r3 : Word) : State := machine .user 0x8000#32 r0 r1 r2 r3

/-- The flags of a machine set. -/
def flagged (s : State) (n z c v : Bool) : State := s.setCpsr (s.cpsr.withFlags n z c v)

/-- A word stored in memory by a loader. -/
def loaded (s : State) (a : Nat) (v : Word) : State := s.setMem (s.mem.writeWord false a v)

/-- The state after one step that runs the word `w`, if the step goes on. -/
def after (w : Word) (s : State) : Option State :=
  match step (s.withFetchWord 32 w.toNat) with
  | .next t => some t
  | _ => none

/-- Why the step that runs the word `w` is refused. -/
def refusal (w : Word) (s : State) : Option Refusal :=
  match step (s.withFetchWord 32 w.toNat) with
  | .refused r => some r
  | _ => none

/-- The four flags. -/
def nzcv (t : State) : Bool × Bool × Bool × Bool := (t.cpsr.n, t.cpsr.z, t.cpsr.c, t.cpsr.v)

-- 95_test_vectors.md 2.3: ANDS r0, r1, r2 keeps C and V.
theorem test_ands : (after 0xE0110002#32 (flagged (user 0 0xF0 0x0F 0) false false true true)).map
    (fun t => (t.regs.r0, nzcv t)) = some (0#32, false, true, true, true) := by decide

-- 2.3: SUBS r0, r0, #1 on 0x80000000 overflows.
theorem test_subs_overflow : (after 0xE2500001#32 (user 0x80000000 0 0 0)).map
    (fun t => (t.regs.r0, nzcv t)) = some (0x7FFFFFFF#32, false, false, true, true) := by decide

-- 2.3: ADDS r2, r2, r0 on 0x80000000 twice.
theorem test_adds_carry_and_overflow : (after 0xE0922000#32 (user 0x80000000 0 0x80000000 0)).map
    (fun t => (t.regs.r2, nzcv t)) = some (0#32, false, true, true, true) := by decide

-- 2.3: SBC r3, r3, r1 with C = 0 subtracts one more.
theorem test_sbc_borrow : (after 0xE0C33001#32 (user 0 2 0 5)).map (fun t => t.regs.r3) = some 2#32 := by decide

-- 2.3: RSCS r1, r1, #0 on 1 with C = 1.
theorem test_rscs : (after 0xE2F11000#32 (flagged (user 0 1 0 0) false false true false)).map
    (fun t => (t.regs.r1, nzcv t)) = some (0xFFFFFFFF#32, true, false, false, false) := by decide

-- 2.3: CMN r0, #1 on 0x7FFFFFFF.
theorem test_cmn_overflow : (after 0xE3700001#32 (user 0x7FFFFFFF 0 0 0)).map
    (fun t => (t.regs.r0, nzcv t)) = some (0x7FFFFFFF#32, true, false, false, true) := by decide

-- 2.3: MOVS r1, r2, RRX.
theorem test_movs_rrx : (after 0xE1B01062#32 (flagged (user 0 0 2 0) false false true false)).map
    (fun t => (t.regs.r1, nzcv t)) = some (0x80000001#32, true, false, false, false) := by decide

-- 2.3: MOVS r1, r2, ROR r3 with r3 = 33.
theorem test_movs_ror_by_register : (after 0xE1B01372#32 (user 0 0 0x80000001 33)).map
    (fun t => (t.regs.r1, nzcv t)) = some (0xC0000000#32, true, false, true, false) := by decide

-- 2.3: ADD pc, r0, r1, LSL r2 is refused; MOV pc, r0 with a misaligned r0 is refused.
theorem test_pc_refusals : refusal 0xE080F211#32 (user 0 0 0 0) = some .r15WithRegisterShift
    ∧ refusal 0xE1A0F000#32 (user 0x8002 0 0 0) = some .misalignedPcWrite := by decide

-- E1: SUBS pc, r14, #4 returns from IRQ mode.
theorem test_return_from_irq : (after 0xE25EF004#32
    (((machine .irq 0x8000#32 0 0 0 0).setCell .r14_irq 0x9008#32).setSpsrOf .irq
      { Psr.zero with c := true, m := 0b10000#5 })).map
    (fun t => (t.pc, t.cpsr.mode, nzcv t)) = some (0x9004#32, .user, false, false, true, false) := by decide

-- 2.2: BL 0x8010, and the branch below address 0.
theorem test_bl : (after 0xEB000002#32 (user 0 0 0 0)).map (fun t => (t.pc, t.regs.r14)) = some (0x8010#32, 0x8004#32) := by
  decide

theorem test_b_below_zero : refusal 0xEA800000#32 (user 0 0 0 0) = some .branchOutOfAddressSpace := by decide

-- 2.2: BLX r0 with bit 0 set; BLX 0x8012.
theorem test_blx : (after 0xE12FFF30#32 (user 0x9001 0 0 0)).map (fun t => (t.pc, t.regs.r14, t.cpsr.t))
      = some (0x9000#32, 0x8004#32, true)
    ∧ (after 0xFB000002#32 (user 0 0 0 0)).map (fun t => (t.pc, t.regs.r14, t.cpsr.t))
      = some (0x8012#32, 0x8004#32, true) := by decide

-- 2.10: SWI from User mode.
theorem test_swi : (after 0xEF000011#32 (flagged (user 0 0 0 0) false true true false)).map
    (fun t => (t.pc, t.regs.r14_svc, t.cpsr.mode, t.cpsr.i, t.spsr.svc.z, t.spsr.svc.m))
      = some (0x8#32, 0x8004#32, .svc, true, true, 0b10000#5) := by decide

-- 2.10: a coprocessor word traps; 2.1: with a failed condition it is skipped.
theorem test_coprocessor : (after 0xEE010F10#32 (user 0 0 0 0)).map (fun t => (t.pc, t.regs.r14_und, t.cpsr.mode))
      = some (0x4#32, 0x8004#32, .undef)
    ∧ (after 0x0E010F10#32 (user 0 0 0 0)).map (fun t => (t.pc, t.cpsr.mode)) = some (0x8004#32, .user) := by decide

-- 2.4: MLA r4, r3, r2, r1 wraps; UMLAL wraps at 2^64; SMULL of -2^31 and 2.
theorem test_mla : (after 0xE0241293#32 (user 0 0xFFFFFFFF 0xFFFFFFFF 0xFFFFFFFF)).map (fun t => t.regs.r4) = some 0#32 := by
  decide

theorem test_umlal_wraps : (after 0xE0A10392#32 (user 0xFFFFFFFF 1 0xFFFFFFFF 0xFFFFFFFF)).map
    (fun t => (t.regs.r1, t.regs.r0)) = some (0#32, 0#32) := by decide

theorem test_smull : (after 0xE0C10392#32 (user 0 0 0x80000000 2)).map
    (fun t => (t.regs.r1, t.regs.r0)) = some (0xFFFFFFFF#32, 0#32) := by decide

-- E7 and 90_conflicts.md C1: CLZ r1, r0 on 0x100 gives 23.
theorem test_clz : (after 0xE16F1F10#32 (user 0x100 0 0 0)).map (fun t => t.regs.r1) = some 23#32 := by decide

-- 2.5: LDR r0, [r1] at 0x1003 rotates; LDR r0, [r1], #4 writes the base back.
theorem test_ldr_rotates : (after 0xE5910000#32 (loaded (user 0 0x1003 0 0) 0x1000 0x44332211#32)).map
    (fun t => t.regs.r0) = some 0x33221144#32 := by decide

theorem test_ldr_post_indexed : (after 0xE4910004#32 (loaded (user 0 0x1000 0 0) 0x1000 0x44332211#32)).map
    (fun t => (t.regs.r0, t.regs.r1)) = some (0x44332211#32, 0x1004#32) := by decide

-- 2.5: STRB r0, [r1] at 0x1002 writes one byte.
theorem test_strb : (after 0xE5C10000#32 (loaded (user 0xDEADBEEF 0x1002 0 0) 0x1000 0x44332211#32)).map
    (fun t => t.wordAt 0x1000#32) = some 0x44EF2211#32 := by decide

-- 2.6: LDRSH r0, [r1], #2; 2.6: the odd address.
theorem test_ldrsh : (after 0xE0D100F2#32 (loaded (user 0 0x1000 0 0) 0x1000 0x8001FF80#32)).map
    (fun t => (t.regs.r0, t.regs.r1)) = some (0xFFFFFF80#32, 0x1002#32) := by decide

theorem test_ldrh_odd : refusal 0xE1D100B0#32 (user 0 0x1001 0 0) = some .oddHalfwordAddress := by decide

-- 2.7: STMDA r0!, with r1 to r3; LDMIA r0 with r1 and r2 from an unaligned base.
theorem test_stmda : (after 0xE820000E#32 (user 0x1010 0xA1 0xA2 0xA3)).map
    (fun t => (t.wordAt 0x1008#32, t.wordAt 0x100C#32, t.wordAt 0x1010#32, t.regs.r0))
      = some (0xA1#32, 0xA2#32, 0xA3#32, 0x1004#32) := by decide

theorem test_ldmia_unaligned : (after 0xE8900006#32
    (loaded (loaded (user 0x1012 0 0 0) 0x1010 0xB4#32) 0x1014 0xB5#32)).map
    (fun t => (t.regs.r1, t.regs.r2, t.regs.r0)) = some (0xB4#32, 0xB5#32, 0x1012#32) := by decide

-- 2.7: STMIA r13, with r13 and r14, user bank form in SVC mode.
theorem test_stm_user_bank : (after 0xE8CD6000#32
    ((((machine .svc 0x8000#32 0 0 0 0).setCell .r13 0x6000#32).setCell .r14 0x8888#32).setCell .r13_svc 0x7FF0#32)).map
    (fun t => (t.wordAt 0x7FF0#32, t.wordAt 0x7FF4#32)) = some (0x6000#32, 0x8888#32) := by decide

-- 2.8: SWPB r1, r1, [r0].
theorem test_swpb : (after 0xE1401091#32 (loaded (user 0x1001 0xAAAAAA01 0 0) 0x1000 0x44332211#32)).map
    (fun t => (t.regs.r1, t.wordAt 0x1000#32)) = some (0x22#32, 0x44330111#32) := by decide

-- 2.9: MSR with both fields in User mode takes the flags only; a mode field that is no mode is refused.
theorem test_msr_user : (after 0xE129F000#32 (user 0xF00000DF 0 0 0)).map (fun t => (nzcv t, t.cpsr.mode, t.cpsr.i))
    = some ((true, true, true, true), .user, false) := by decide

theorem test_msr_no_mode : refusal 0xE121F000#32 (machine .svc 0x8000#32 0xC0 0 0 0) = some .illegalMode := by decide

-- 2.9: MSR SPSR_f, #&20000000 in IRQ mode.
theorem test_msr_spsr : (after 0xE368F202#32
    ((machine .irq 0x8000#32 0 0 0 0).setSpsrOf .irq { Psr.zero with n := true, v := true, m := 0b10000#5 })).map
    (fun t => t.spsr.irq) = some { Psr.zero with c := true, m := 0b10000#5 } := by decide

-- 2.10: FIQ goes before IRQ, and neither runs the instruction.
theorem test_fiq_first :
    (match step { user 0 0 0 0 with inputs := [{ Inputs.quiet with fiqLine := true, irqLine := true }] } with
      | .next t => some (t.pc, t.regs.r14_fiq, t.cpsr.mode, t.cpsr.i, t.cpsr.f)
      | _ => none) = some (0x1C#32, 0x8004#32, .fiq, true, true) := by decide

/-- A machine whose memory system refuses every read and write at the four addresses from `a` up. -/
def refusing (s : State) (a : Nat) : State :=
  let region : FaultRegion := ⟨a, 4, true, true, true, false, true, true, true, true⟩
  { s with cfg := { s.cfg with faultRegions := [region] } }

-- 2.5, data abort vector: LDR r0, [r1, #4]! with a refused read (its base is open and is not looked at).
theorem test_data_abort : (after 0xE5B10004#32 (refusing (user 7 0x1000 0 0) 0x1004)).map
    (fun t => (t.regs.r0, t.pc, t.regs.r14_abt, t.cpsr.mode)) = some (7#32, 0x10#32, 0x8008#32, .abort) := by decide

-- 20_memory.md R74: another agent writes between the two words of LDMIA r0, with r1 and r2, and between those of STMIA.
theorem test_ldm_sees_writes_between : (after 0xE8900006#32
    { user 0x1000 0 0 0 with bus := [[], [], [(0x1000#32, 0xAA#8), (0x1004#32, 0xBB#8)]] }).map
    (fun t => (t.regs.r1, t.regs.r2, t.wordAt 0x1000#32, t.bus.length)) = some (0#32, 0xBB#32, 0xAA#32, 0) := by decide

theorem test_stm_between_writes : (after 0xE8800006#32
    { user 0x1000 0x11 0x22 0 with bus := [[], [], [(0x1000#32, 0xAA#8), (0x1004#32, 0xBB#8)], []] }).map
    (fun t => (t.wordAt 0x1000#32, t.wordAt 0x1004#32, t.bus.length)) = some (0xAA#32, 0x22#32, 1) := by decide

-- 20_memory.md R75: a platform may refuse a word where it allows a byte at the same address.
theorem test_fault_by_size :
    let s := { user 0 0x1000 0 0 with cfg := { Config.reference with
      faultRegions := [⟨0x1000, 4, false, false, true, false, true, true, true, true⟩] } }
    (after 0xE5910000#32 s).map (fun t => t.cpsr.mode) = some .abort
      ∧ (after 0xE5D10000#32 s).map (fun t => t.cpsr.mode) = some .user := by decide

/-! ### Witnesses: for every statement with hypotheses, concrete values that meet them, at the ends of the ranges -/

/-- The last word of the address space: what advances from here is refused. -/
def top (m : Mode) : State := machine m 0xFFFFFFFC#32 0 0 0 0

/-- A machine in SVC mode whose SPSR holds `p`. -/
def handler (p : Psr) : State := (machine .svc 0x8000#32 6 3 4 5).setSpsrOf .svc p

/-- A machine with another configuration. -/
def configured (s : State) (c : Config) : State := { s with cfg := c }

/-- A processor without any optional group. -/
def bare : Config :=
  { Config.reference with hasHalfword := false, hasLongMul := false, hasThumb := false, v5tAdditions := false }

/-- A machine with one coming input. -/
def given (s : State) (x : Inputs) : State := { s with inputs := [x] }

theorem witness_DecodeOfEncodeIsTheInstruction :
    (Instr.ldmReturn .al true true true 13 0xFFFF).wellFormed = true ∧ (Instr.ldmUser .al true true false 13 0x7FFF).wellFormed = true
      ∧ (Instr.blxImm true 0xFFFFFF).wellFormed = true := by decide

theorem witness_EncodeOfDecodeIsTheWord :
    decode 0x00000000#32 = .ok (.andReg .eq false 0 0 0 .lsl 0) ∧ decode 0xEFFFFFFF#32 = .ok (.swi .al 0xFFFFFF)
      ∧ decode 0xFBFFFFFF#32 = .ok (.blxImm true 0xFFFFFF) := by decide

theorem witness_NeverConditionIsRefused :
    ((user 0 0 0 0).withFetchWord 32 0xFA000002).Fetches 0xFA000002#32 ∧ (0xFA000002#32).extractLsb' 28 4 = 15#4
      ∧ (0xFA000002#32).extractLsb' 25 3 = 5#3 ∧ ((user 0 0 0 0).withFetchWord 32 0xFA000002).cfg.hasV5T = true
      ∧ ((user 0 0 0 0).withFetchWord 32 0xF0000000).Fetches 0xF0000000#32 ∧ (0xF0000000#32).extractLsb' 28 4 = 15#4
      ∧ ¬ (0xF0000000#32).extractLsb' 25 3 = 5#3
      ∧ ((configured (user 0 0 0 0) bare).withFetchWord 32 0xFA000002).Fetches 0xFA000002#32
      ∧ ¬ ((configured (user 0 0 0 0) bare).withFetchWord 32 0xFA000002).cfg.hasV5T = true := by decide

theorem witness_StepRunsDecodedInstruction :
    ((user 0 0 0 0).withFetchWord 32 0xE2500001).Fetches 0xE2500001#32
      ∧ decode 0xE2500001#32 = .ok (.subImm .al true 0 0 0 1)
      ∧ ((user 0 0 0 0).withFetchWord 32 0xF0000000).Fetches 0xF0000000#32 ∧ decode 0xF0000000#32 = .error .neverCondition
      ∧ ((user 0 0 0 0).withFetchWord 32 0xE0041293).Fetches 0xE0041293#32
      ∧ decode 0xE0041293#32 = .error .unallocated ∧ DecodeReject.unallocated ≠ .neverCondition := by decide

theorem witness_EventsComeBeforeTheInstruction :
    (given (user 0 0 0 0) { Inputs.quiet with resetLine := true, fiqLine := true }).nextInputs.resetLine = true
      ∧ (given (user 0 0 0 0) { Inputs.quiet with fiqLine := true, irqLine := true }).nextInputs.resetLine = false
      ∧ (given (user 0 0 0 0) { Inputs.quiet with fiqLine := true, irqLine := true }).nextInputs.fiqLine = true
      ∧ (given (user 0 0 0 0) { Inputs.quiet with fiqLine := true, irqLine := true }).cpsr.f = false
      ∧ (given (user 0 0 0 0) { Inputs.quiet with irqLine := true }).nextInputs.fiqLine = false
      ∧ (given (user 0 0 0 0) { Inputs.quiet with irqLine := true }).nextInputs.irqLine = true
      ∧ (given (user 0 0 0 0) { Inputs.quiet with irqLine := true }).cpsr.i = false
      ∧ (user 0 0 0 0).NoEvent ∧ (given State.reset { Inputs.quiet with fiqLine := true, irqLine := true }).NoEvent := by decide

theorem witness_ResetEventLeavesKnownState :
    (given (user 0 0 0 0) { Inputs.quiet with resetLine := true }).nextInputs.resetLine = true
      ∧ (given (user 0 0 0 0) { Inputs.quiet with resetLine := true }).mem.wf = true := by decide

/-- A machine whose fetch is refused at 0x8000. -/
def unfetchable (m : Mode) : State :=
  let region : FaultRegion := ⟨0x8000, 1, false, false, true, true, false, false, true, true⟩
  { machine m 0x8000#32 0 0 0 0 with cfg := { Config.reference with faultRegions := [region] } }

theorem witness_RefusedFetchTakesPrefetchAbort :
    (unfetchable .user).NoEvent ∧ (unfetchable .user).cpsr.t = false ∧ (unfetchable .user).pc.extractLsb' 0 2 = 0#2
      ∧ (unfetchable .user).atFetch.fetchFaults = true ∧ (unfetchable .svc).atFetch.fetchFaults = true := by decide

/-- A machine in Thumb state. -/
def thumb : State := (user 0 0 0 0).setCpsr { (user 0 0 0 0).cpsr with t := true }

theorem witness_ThumbStateIsRefused :
    thumb.cpsr.t = true ∧ thumb.NoEvent ∧ (given thumb { Inputs.quiet with irqLine := true }).cpsr.t = true
      ∧ ¬ (given thumb { Inputs.quiet with irqLine := true }).NoEvent := by decide

/-- A machine that has written the word it is about to fetch. -/
def selfWritten (coherent : Bool) : State :=
  { user 0 0 0 0 with
    mem := (Memory.writeWord false [] 0x8000 0xE2500001#32)
    written := [0x8000]
    cfg := { Config.reference with ifetchCoherent := coherent } }

theorem witness_FetchOfAWrittenWordIsRefused :
    ∀ c, (selfWritten c).NoEvent ∧ (selfWritten c).cpsr.t = false ∧ (selfWritten c).pc.extractLsb' 0 2 = 0#2
      ∧ (selfWritten c).atFetch.fetchFaults = false ∧ (selfWritten c).pc.toNat ∈ (selfWritten c).written
      ∧ (selfWritten c).cfg.ifetchCoherent = c
      ∧ decode ((selfWritten c).atFetch.wordAt (selfWritten c).pc) = .ok (.subImm .al true 0 0 0 1) := by decide

theorem witness_StepKeepsTheInvariant :
    State.reset.Inv ∧ (∃ t, step State.reset = .next t)
      ∧ thumb.Inv ∧ ∃ t, step (given thumb { Inputs.quiet with irqLine := true }) = .next t :=
  ⟨by decide, ⟨_, rfl⟩, by decide, ⟨_, rfl⟩⟩

theorem witness_GoodStatesNeverFault : State.reset.Inv ∧ thumb.Inv := by decide

theorem witness_StepKeepsTheConfiguration :
    ∃ t, step (given (user 0 0 0 0) { Inputs.quiet with fiqLine := true }) = .next t := ⟨_, rfl⟩

theorem witness_UserModeIsLeftOnlyByExceptions :
    (user 0 0 0 0).cpsr.mode = .user
      ∧ (∃ t, step ((user 0 0 0 0).withFetchWord 32 0xEF000011) = .next t ∧ t.cpsr.mode ≠ .user)
      ∧ ∃ t, step (given (user 0 0 0 0) { Inputs.quiet with resetLine := true }) = .next t ∧ t.cpsr.mode ≠ .user :=
  ⟨rfl, ⟨_, rfl, by decide⟩, ⟨_, rfl, by decide⟩⟩

theorem witness_UserProgramsKeepPrivilegedState :
    (user 0 0 0 0).cpsr.mode = .user
      ∧ ∃ t, step ((user 0 0 0 0).withFetchWord 32 0xE129F000) = .next t ∧ t.cpsr.mode = .user :=
  ⟨rfl, ⟨_, rfl, by decide⟩⟩

theorem witness_ConditionsAfterCompare :
    (∃ t, exec (.cmpImm .al 0 0 0 5) (user 5 0 0 0) = .next t)
      ∧ (∃ t, exec (.cmpReg .al 0 0 0 .lsl 1) (user 0x80000000 0x7FFFFFFF 0 0) = .next t)
      ∧ (∃ t, exec (.cmpRsr .al 0 0 2 .lsl 1) (user 0 1 31 0) = .next t) :=
  ⟨⟨_, rfl⟩, ⟨_, rfl⟩, ⟨_, rfl⟩⟩

theorem witness_FailedConditionSkips :
    (Instr.coprocCdpMrcMcr .eq 0).condition = some .eq ∧ conditionPassed .eq (user 0 0 0 0).cpsr = false
      ∧ (Instr.coprocCdpMrcMcr .eq 0).present (user 0 0 0 0).cfg = true ∧ (user 0 0 0 0).pc ≠ 0xFFFFFFFC#32
      ∧ conditionPassed .eq (top .user).cpsr = false ∧ (top .user).pc = 0xFFFFFFFC#32
      ∧ (Instr.bx .eq 0).condition = some .eq ∧ (Instr.bx .eq 0).present bare = true := by decide

theorem witness_AbsentFeatureIsRefused :
    (Instr.umull .al false 1 0 3 2).present (configured (user 0 0 0 0) bare).cfg = false
      ∧ (Instr.clz .al 1 0).present (configured (user 0 0 0 0) bare).cfg = false
      ∧ (Instr.ldrhImm .al true true false 1 0 0).present (configured (user 0 0 0 0) bare).cfg = false
      ∧ (Instr.bx .al 0).present (configured (user 0 0 0 0) { bare with undefTrapsBx := false }).cfg = false := by decide

theorem witness_OperandShiftedByImmediate :
    (user 6 0 0 0).cell .r0 = 6#32
      ∧ (6#32 = if (0 : RegNum) = 15 then (user 6 0 0 0).pc + 8#32 else (user 6 0 0 0).cell (bank .user 0))
      ∧ (0x8008#32 = if (15 : RegNum) = 15 then (user 6 0 0 0).pc + 8#32 else (user 6 0 0 0).cell (bank .user 15))
      ∧ (1#5 ≠ 0#5) ∧ (31#5 ≠ 0#5) := by decide

theorem witness_OperandShiftedByRegister :
    (1 : RegNum) ≠ 15 ∧ (0 : RegNum) ≠ 15
      ∧ (∀ n ∈ [0, 1, 31, 32, 33, 64, 224, 255],
        n = ((user 6 (BitVec.ofNat 32 n) 0 0).cell (bank .user 1)).toNat % 256)
      ∧ ((user 6 0x100 0 0).cell (bank .user 1)).toNat % 256 = 0
      ∧ (1 ≤ 1 ∧ 31 ≤ 31 ∧ 32 ≤ 32) ∧ (224 ≠ 0 ∧ 224 % 32 = 0) ∧ 255 % 32 ≠ 0 := by decide

/-! The clauses of `ResultGoesTo` and of `EveryOperand2`. -/

/-- An SPSR of User mode, of no mode, and of User mode in Thumb state. -/
def userPsr : Psr := { Psr.zero with m := 0b10000#5 }
def thumbPsr : Psr := { userPsr with t := true }

/-- The forms of `EveryOperand2` with registers that may and that may not be used. -/
abbrev FormCases (named named15 : List RegNum) : Prop :=
  (15 : RegNum) ∉ (3 : RegNum) :: 2 :: named ∧ (15 : RegNum) ∈ (15 : RegNum) :: 2 :: named
    ∧ (15 : RegNum) ∈ (3 : RegNum) :: 15 :: named ∧ (15 : RegNum) ∈ (3 : RegNum) :: 2 :: named15

/-- A machine that can return from an exception meets every hypothesis of `ReturnsTo`, as does one that cannot. -/
abbrev ReturnCases : Prop :=
  (user 0 0 0 0).cpsr.mode = .user ∧ (machine .system 0x8000#32 0 0 0 0).cpsr.mode = .system
    ∧ (handler Psr.zero).spsrOf (handler Psr.zero).cpsr.mode = some Psr.zero
    ∧ Mode.ofBits (handler Psr.zero).cfg Psr.zero.m = none
    ∧ (handler userPsr).spsrOf (handler userPsr).cpsr.mode = some userPsr
    ∧ Mode.ofBits (handler userPsr).cfg userPsr.m = some .user ∧ userPsr.t = false
    ∧ (handler thumbPsr).spsrOf (handler thumbPsr).cpsr.mode = some thumbPsr
    ∧ Mode.ofBits (handler thumbPsr).cfg thumbPsr.m = some .user ∧ (handler thumbPsr).cfg.hasThumb = true

/-- The clauses of `ResultGoesTo`, with a result aligned for both instruction sets, for Thumb only, and for neither. -/
abbrev ResultCases (word half odd : Word) : Prop :=
  conditionPassed .al (handler userPsr).cpsr = true ∧ conditionPassed .al (top .user).cpsr = true
    ∧ (14 : RegNum) ≠ 15 ∧ (handler userPsr).pc ≠ 0xFFFFFFFC#32 ∧ (top .user).pc = 0xFFFFFFFC#32
    ∧ word.extractLsb' 0 2 = 0#2 ∧ half.extractLsb' 0 2 ≠ 0#2 ∧ odd.extractLsb' 0 2 ≠ 0#2
    ∧ alignedFor false word = true ∧ alignedFor true word = true ∧ alignedFor false half = false
    ∧ alignedFor true half = true ∧ alignedFor true odd = false
    ∧ ReturnCases

-- In `handler`, r0 = 6, r1 = 3, r2 = 4, r3 = 5; operand 2 is an immediate here.
theorem witness_LogicalOperationsResultAndFlags :
    FormCases [14, 0] [15, 0]
      ∧ ResultCases ((handler userPsr).reg 0 &&& ((handler userPsr).operandImm 0 4).value)
        ((handler userPsr).reg 0 &&& ((handler userPsr).operandImm 0 2).value)
        ((handler userPsr).reg 1 &&& ((handler userPsr).operandImm 0 1).value)
      ∧ ResultCases ((handler userPsr).reg 0 ^^^ ((handler userPsr).operandImm 0 2).value)
        ((handler userPsr).reg 0 ^^^ ((handler userPsr).operandImm 0 0).value)
        ((handler userPsr).reg 0 ^^^ ((handler userPsr).operandImm 0 1).value)
      ∧ ResultCases ((handler userPsr).reg 2 ||| ((handler userPsr).operandImm 0 8).value)
        ((handler userPsr).reg 0 ||| ((handler userPsr).operandImm 0 2).value)
        ((handler userPsr).reg 0 ||| ((handler userPsr).operandImm 0 1).value)
      ∧ ResultCases ((handler userPsr).reg 0 &&& ~~~ ((handler userPsr).operandImm 0 2).value)
        ((handler userPsr).reg 0 &&& ~~~ ((handler userPsr).operandImm 0 4).value)
        ((handler userPsr).reg 1 &&& ~~~ ((handler userPsr).operandImm 0 2).value) :=
  ⟨by decide, by decide, by decide, by decide, by decide⟩

theorem witness_MovesResultAndFlags :
    FormCases [14] [15]
      ∧ ResultCases ((handler userPsr).operandImm 0 4).value ((handler userPsr).operandImm 0 2).value
        ((handler userPsr).operandImm 0 1).value
      ∧ ResultCases (~~~ ((handler userPsr).operandImm 0 3).value) (~~~ ((handler userPsr).operandImm 0 1).value)
        (~~~ ((handler userPsr).operandImm 0 2).value) :=
  ⟨by decide, by decide, by decide⟩

theorem witness_AdditionsResultAndFlags :
    FormCases [14, 0] [15, 0]
      ∧ ResultCases ((handler userPsr).reg 0 + ((handler userPsr).operandImm 0 2).value)
        ((handler userPsr).reg 0 + ((handler userPsr).operandImm 0 4).value)
        ((handler userPsr).reg 0 + ((handler userPsr).operandImm 0 1).value)
      ∧ ResultCases
        ((handler userPsr).reg 0 + ((handler userPsr).operandImm 0 2).value
          + (BitVec.ofBool (handler userPsr).cpsr.c).setWidth 32)
        ((handler userPsr).reg 0 + ((handler userPsr).operandImm 0 4).value
          + (BitVec.ofBool (handler userPsr).cpsr.c).setWidth 32)
        ((handler userPsr).reg 0 + ((handler userPsr).operandImm 0 1).value
          + (BitVec.ofBool (handler userPsr).cpsr.c).setWidth 32) :=
  ⟨by decide, by decide, by decide⟩

theorem witness_SubtractionsResultAndFlags :
    FormCases [14, 0] [15, 0]
      ∧ ResultCases ((handler userPsr).reg 0 - ((handler userPsr).operandImm 0 2).value)
        ((handler userPsr).reg 0 - ((handler userPsr).operandImm 0 4).value)
        ((handler userPsr).reg 0 - ((handler userPsr).operandImm 0 1).value)
      ∧ ResultCases
        ((handler userPsr).reg 0 - ((handler userPsr).operandImm 0 1).value
          - (BitVec.ofBool (!(handler userPsr).cpsr.c)).setWidth 32)
        ((handler userPsr).reg 0 - ((handler userPsr).operandImm 0 3).value
          - (BitVec.ofBool (!(handler userPsr).cpsr.c)).setWidth 32)
        ((handler userPsr).reg 0 - ((handler userPsr).operandImm 0 2).value
          - (BitVec.ofBool (!(handler userPsr).cpsr.c)).setWidth 32) :=
  ⟨by decide, by decide, by decide⟩

theorem witness_ReverseSubtractionsResultAndFlags :
    FormCases [14, 0] [15, 0]
      ∧ ResultCases (((handler userPsr).operandImm 0 2).value - (handler userPsr).reg 0)
        (((handler userPsr).operandImm 0 4).value - (handler userPsr).reg 0)
        (((handler userPsr).operandImm 0 1).value - (handler userPsr).reg 0)
      ∧ ResultCases
        (((handler userPsr).operandImm 0 7).value - (handler userPsr).reg 0
          - (BitVec.ofBool (!(handler userPsr).cpsr.c)).setWidth 32)
        (((handler userPsr).operandImm 0 9).value - (handler userPsr).reg 0
          - (BitVec.ofBool (!(handler userPsr).cpsr.c)).setWidth 32)
        (((handler userPsr).operandImm 0 8).value - (handler userPsr).reg 0
          - (BitVec.ofBool (!(handler userPsr).cpsr.c)).setWidth 32) :=
  ⟨by decide, by decide, by decide⟩

theorem witness_TestsSetOnlyFlags :
    FormCases [0] [15] ∧ conditionPassed .al (user 0 0 0 0).cpsr = true ∧ (user 0 0 0 0).pc ≠ 0xFFFFFFFC#32
      ∧ conditionPassed .al (top .user).cpsr = true ∧ (top .user).pc = 0xFFFFFFFC#32 := by decide

theorem witness_ComparesSetOnlyFlags :
    FormCases [0] [15] ∧ conditionPassed .al (user 0 0 0 0).cpsr = true ∧ (user 0 0 0 0).pc ≠ 0xFFFFFFFC#32
      ∧ conditionPassed .al (top .user).cpsr = true ∧ (top .user).pc = 0xFFFFFFFC#32 := by decide

/-- A handler without Thumb whose SPSR has the T bit set; the word at 0x1008 is the one a block from 0x1000 loads into the pc. -/
def thumbless (target : Word) : State :=
  configured (loaded ((machine .svc 0x8000#32 0x1000 3 4 5).setSpsrOf .svc thumbPsr) 0x1008 target) bare

-- 10_state.md R33: without Thumb T is always 0; LDMIA r0, with r1, r2 and pc, and S.
theorem test_return_without_thumb : (after 0xE8D08006#32 (thumbless 0x9000#32)).map
    (fun t => (t.pc, t.cpsr.mode, t.cpsr.t, t.cpsr.i)) = some (0x9000#32, .user, false, false)
    ∧ refusal 0xE8D08006#32 (thumbless 0x9002#32) = some .misalignedPcWrite := by decide

theorem witness_ReturnWithoutThumbLeavesTZero :
    (thumbless 0x9000#32).cfg.hasThumb = false ∧ conditionPassed .al (thumbless 0x9000#32).cpsr = true
      ∧ (thumbless 0x9000#32).spsrOf (thumbless 0x9000#32).cpsr.mode = some thumbPsr
      ∧ Mode.ofBits (thumbless 0x9000#32).cfg thumbPsr.m = some .user ∧ thumbPsr.t = true
      ∧ (((thumbless 0x9000#32).operandImm 0 4).value.extractLsb' 0 2 = 0#2
        ∧ ((thumbless 0x9000#32).operandImm 0 2).value.extractLsb' 0 2 ≠ 0#2)
      ∧ (0x8006#16).getLsbD 15 = true ∧ ¬ BlockRestricted false 0 0x8006#16
      ∧ (thumbless 0x9000#32).BlockFits false true 0 0x8006#16
      ∧ ¬ (thumbless 0x9000#32).BlockFaults false true 0 0x8006#16 .read
      ∧ (thumbless 0x9000#32).blockValue false true 0 0x8006#16 ((listedRegs 0x8006#16).length - 1) = 0x9000#32
      ∧ (thumbless 0x9002#32).blockValue false true 0 0x8006#16 ((listedRegs 0x8006#16).length - 1) = 0x9002#32 :=
  ⟨by decide, by decide, by decide, by decide, by decide, by decide, by decide, by unfold BlockRestricted; decide,
    by unfold State.BlockFits; decide, by
      rintro ⟨k, -, hk⟩
      simp [State.wordFaults, memFault, thumbless, configured, loaded, bare, Config.reference] at hk,
    by decide, by decide⟩

theorem witness_BranchTargetAndLink :
    conditionPassed .al (user 0 0 0 0).cpsr = true
      ∧ ((0 : Int) = (machine .user 0x01FFFFF8#32 0 0 0 0).pc.toNat + 8 + 4 * (0x800000#24).toInt ∧ (0 : Int) ≤ 0)
      ∧ ((0xFFFFFFFC : Int) = (machine .user 0xFDFFFFF8#32 0 0 0 0).pc.toNat + 8 + 4 * (0x7FFFFF#24).toInt ∧ (0xFFFFFFFC : Int) < 2 ^ 32)
      ∧ ((-4 : Int) = (machine .user 0x01FFFFF4#32 0 0 0 0).pc.toNat + 8 + 4 * (0x800000#24).toInt ∧ ¬ (0 ≤ (-4 : Int) ∧ (-4 : Int) < 2 ^ 32))
      ∧ ((2 ^ 32 : Int) = (machine .user 0xFFFFFFF8#32 0 0 0 0).pc.toNat + 8 + 4 * (0#24).toInt
        ∧ ¬ (0 ≤ (2 ^ 32 : Int) ∧ (2 ^ 32 : Int) < 2 ^ 32)) := by decide

theorem witness_BranchExchangeMovesBitZeroToT :
    conditionPassed .al (user 0x9003 0x9002 0 0).cpsr = true ∧ (user 0x9003 0x9002 0 0).cfg.hasThumb = true := by decide

theorem witness_BranchLinkExchangeReadsRmFirst :
    conditionPassed .al (user 0x9003 0x9002 0 0).cpsr = true ∧ (user 0x9003 0x9002 0 0).cfg.hasV5T = true
      ∧ (14 : RegNum) ≠ 15 := by decide

theorem witness_BranchLinkExchangeImmediateEntersThumb :
    (user 0 0 0 0).cfg.hasV5T = true
      ∧ ((0x8012 : Int) = ((user 0 0 0 0).pc.toNat : Int) + 8 + 4 * (2#24).toInt + 2 * ((true.toNat : Nat) : Int))
      ∧ ((-4 : Int) = (machine .user 0x01FFFFF4#32 0 0 0 0).pc.toNat + 8 + 4 * (0x800000#24).toInt + 2 * ((false.toNat : Nat) : Int))
      ∧ ((2 ^ 32 + 2 : Int) = (machine .user 0xFFFFFFF8#32 0 0 0 0).pc.toNat + 8 + 4 * (0#24).toInt + 2 * ((true.toNat : Nat) : Int)) := by decide

theorem witness_SoftwareInterruptEntersSupervisorMode :
    conditionPassed .al (user 0 0 0 0).cpsr = true ∧ conditionPassed .al (top .svc).cpsr = true := by decide

theorem witness_UndefinedInstructionsTrap :
    conditionPassed .al (configured (user 0 0 0 0) bare).cpsr = true
      ∧ (∃ hi20 lo4, Instr.undefinedSpace .al 0xFFFFF 15 = .undefinedSpace .al hi20 lo4)
      ∧ (∃ rest, Instr.coprocLdcStc .al 0 = .coprocLdcStc .al rest)
      ∧ (∃ rest, Instr.coprocCdpMrcMcr .al 0 = .coprocCdpMrcMcr .al rest)
      ∧ (configured (user 0 0 0 0) bare).cfg.hasThumb = false ∧ (configured (user 0 0 0 0) bare).cfg.undefTrapsBx = true
      ∧ ∃ rm, Instr.bx .al 15 = .bx .al rm :=
  ⟨by decide, ⟨_, _, rfl⟩, ⟨_, rfl⟩, ⟨_, rfl⟩, rfl, rfl, ⟨_, rfl⟩⟩

-- Rd = 15, Rd = Rm and, for MLA, Rn = 15 are restricted; Rd = Rs = Rn is not.
theorem witness_MultiplyResultAndFlags :
    conditionPassed .al (user 0 7 6 5).cpsr = true
      ∧ ((15 : RegNum) = 15 ∨ (1 : RegNum) = 15 ∨ (2 : RegNum) = 15 ∨ (15 : RegNum) = 1)
      ∧ ((0 : RegNum) = 15 ∨ (0 : RegNum) = 15 ∨ (2 : RegNum) = 15 ∨ (0 : RegNum) = 0)
      ∧ ((0 : RegNum) = 15 ∨ (1 : RegNum) = 15 ∨ (2 : RegNum) = 15 ∨ (15 : RegNum) = 15 ∨ (0 : RegNum) = 1)
      ∧ ¬ ((0 : RegNum) = 15 ∨ (1 : RegNum) = 15 ∨ (0 : RegNum) = 15 ∨ (0 : RegNum) = 1)
      ∧ ¬ ((0 : RegNum) = 15 ∨ (1 : RegNum) = 15 ∨ (0 : RegNum) = 15 ∨ (0 : RegNum) = 15 ∨ (0 : RegNum) = 1)
      ∧ (user 0 7 6 5).pc ≠ 0xFFFFFFFC#32 ∧ conditionPassed .al (top .user).cpsr = true
      ∧ (top .user).pc = 0xFFFFFFFC#32 := by decide

theorem witness_LongMultiplyResultAndFlags :
    conditionPassed .al (user 1 2 3 4).cpsr = true ∧ (user 1 2 3 4).cfg.hasLongMul = true
      ∧ ((2 ^ 33 + 1 : Int) = (((user 1 2 3 4).reg 1).toNat : Int) * 2 ^ 32 + (((user 1 2 3 4).reg 0).toNat : Int))
      ∧ (False ↔ (1 : RegNum) = 15 ∨ (0 : RegNum) = 15 ∨ (2 : RegNum) = 15 ∨ (3 : RegNum) = 15 ∨ (1 : RegNum) = 0
        ∨ (1 : RegNum) = 2 ∨ (0 : RegNum) = 2)
      ∧ (True ↔ (1 : RegNum) = 15 ∨ (0 : RegNum) = 15 ∨ (0 : RegNum) = 15 ∨ (3 : RegNum) = 15 ∨ (1 : RegNum) = 0
        ∨ (1 : RegNum) = 0 ∨ (0 : RegNum) = 0)
      ∧ (user 1 2 3 4).pc ≠ 0xFFFFFFFC#32 ∧ (top .user).pc = 0xFFFFFFFC#32 ∧ (top .user).cfg.hasLongMul = true := by decide

theorem witness_CountLeadingZerosFindsTheTopBit :
    conditionPassed .al (user 0 0x80000000 1 0).cpsr = true ∧ (user 0 0x80000000 1 0).cfg.hasV5T = true
      ∧ (14 : RegNum) ≠ 15 ∧ (user 0 0x80000000 1 0).reg 0 = 0#32 ∧ (user 0 0x80000000 1 0).reg 1 ≠ 0#32
      ∧ (user 0 0x80000000 1 0).reg 2 ≠ 0#32 ∧ (user 0 0x80000000 1 0).pc ≠ 0xFFFFFFFC#32
      ∧ (top .user).pc = 0xFFFFFFFC#32 := by decide

/-! The clauses of the transfers. -/

/-- The choices of registers that restrict a single transfer, and one that does not. -/
abbrev IndexCases : Prop :=
  IndexRestricted false 1 0 (some 15) ∧ IndexRestricted true 15 0 none ∧ IndexRestricted true 0 0 none
    ∧ IndexRestricted true 1 0 (some 1) ∧ ¬ IndexRestricted false 15 15 none ∧ ¬ IndexRestricted false 1 1 (some 1)
    ∧ ¬ IndexRestricted true 1 0 (some 0)

theorem indexCases : IndexCases := by
  unfold IndexCases IndexRestricted
  decide

/-- A big-endian machine without alignment faults. -/
def bigEndian (s : State) : State := { s with cfg := { s.cfg with bigEndian := true } }

/-- A machine with alignment faults. -/
def aligning (s : State) : State := { s with cfg := { s.cfg with alignFault := true } }

/-- Machines on which a word access at r1 = 0x1000 completes, is refused by the memory system, or faults by alignment; one
where the address is unaligned for a big-endian load; one with the words to load into the pc. -/
abbrev WordCases (kind : AccessKind) (priv : Privilege) : Prop :=
  conditionPassed .al (user 0 0x1000 0 0).cpsr = true ∧ (user 0 0x1000 0 0).cpsr.t = false
    ∧ (user 0 0x1000 0 0).mem.wf = true
    ∧ (user 0 0x1000 0 0).wordFaults 0x1000#32 kind priv = false ∧ (user 0 0x1000 0 0).pc ≠ 0xFFFFFFFC#32
    ∧ (top .user).wordFaults 0x1000#32 kind priv = false ∧ (top .user).pc = 0xFFFFFFFC#32
    ∧ (refusing (user 0 0x1000 0 0) 0x1000).wordFaults 0x1000#32 kind priv = true
    ∧ (aligning (user 0 0x1001 0 0)).wordFaults 0x1001#32 kind priv = true
    ∧ (bigEndian (user 0 0x1001 0 0)).cfg.bigEndian = true ∧ (bigEndian (user 0 0x1001 0 0)).cfg.alignFault = false
    ∧ (0x1001#32).extractLsb' 0 2 ≠ 0#2 ∧ (0x1000#32).extractLsb' 0 2 = 0#2
    ∧ (bigEndian (user 0 0x1000 0 0)).wordFaults 0x1000#32 kind priv = false
    ∧ (indexed true true false ((user 0 0x1000 0 0).reg 1) 0#32).addr = 0x1000#32
    ∧ (indexed false true true ((user 0 0x1000 0 0).reg 1) 4#32).addr = 0x1000#32

theorem witness_WordLoadTransfers :
    IndexCases ∧ WordCases .read .user ∧ WordCases .read .privileged
      ∧ ((loaded (user 0 0x1000 0 0) 0x1000 0x9000#32).atAccess.loadWord 0x1000#32).extractLsb' 0 2 = 0#2
      ∧ ((loaded (user 0 0x1000 0 0) 0x1000 0x9003#32).atAccess.loadWord 0x1000#32).getLsbD 0 = true
      ∧ (loaded (user 0 0x1000 0 0) 0x1000 0x9003#32).cfg.hasV5T = true
      ∧ ((loaded (user 0 0x1000 0 0) 0x1000 0x9002#32).atAccess.loadWord 0x1000#32).extractLsb' 0 2 ≠ 0#2
      ∧ ((loaded (user 0 0x1000 0 0) 0x1000 0x9002#32).atAccess.loadWord 0x1000#32).getLsbD 0 = false :=
  ⟨indexCases, by decide, by decide, by decide⟩

/-- Machines on which a byte access at 0x1003 completes or is refused. -/
abbrev ByteCases (kind : AccessKind) (priv : Privilege) : Prop :=
  conditionPassed .al (user 0 0x1003 0 0).cpsr = true ∧ (user 0 0x1003 0 0).mem.wf = true
    ∧ (user 0 0x1003 0 0).byteFaults 0x1003#32 kind priv = false ∧ (user 0 0x1003 0 0).pc ≠ 0xFFFFFFFC#32
    ∧ (top .user).byteFaults 0x1003#32 kind priv = false ∧ (top .user).pc = 0xFFFFFFFC#32
    ∧ (refusing (user 0 0x1003 0 0) 0x1000).byteFaults 0x1003#32 kind priv = true

theorem witness_ByteLoadTransfers : IndexCases ∧ ByteCases .read .user ∧ ByteCases .read .privileged :=
  ⟨indexCases, by decide, by decide⟩

theorem witness_WordStoreTransfers :
    IndexCases ∧ WordCases .write .user ∧ WordCases .write .privileged
      ∧ (7#32 = if (0 : RegNum) = 15 then (user 7 0 0 0).pc + Config.storePcOffset else (user 7 0 0 0).reg 0)
      ∧ ((user 7 0 0 0).pc + Config.storePcOffset
        = if (15 : RegNum) = 15 then (user 7 0 0 0).pc + Config.storePcOffset else (user 7 0 0 0).reg 15) :=
  ⟨indexCases, by decide, by decide, rfl, rfl⟩

theorem witness_ByteStoreTransfers : IndexCases ∧ ByteCases .write .user ∧ ByteCases .write .privileged :=
  ⟨indexCases, by decide, by decide⟩

/-- The restrictions of half-word transfers, and a choice that meets none of them. -/
abbrev HalfCases : Prop :=
  HalfRestricted false true true 1 0 none ∧ HalfRestricted true false false 1 15 none
    ∧ HalfRestricted true true true 1 1 none ∧ ¬ HalfRestricted true false false 1 0 (some 2)
    ∧ ¬ HalfRestricted false false true 1 0 (some 2)

theorem halfCases : HalfCases := by
  unfold HalfCases HalfRestricted IndexRestricted
  decide

/-- Machines on which a half-word access completes, is refused, faults by alignment, or has an odd address. -/
abbrev HalfAccessCases (kind : AccessKind) : Prop :=
  conditionPassed .al (user 0 0x1002 0 0).cpsr = true ∧ (user 0 0x1002 0 0).cfg.hasHalfword = true
    ∧ (user 0 0x1002 0 0).mem.wf = true
    ∧ (user 0 0x1002 0 0).halfFaults 0x1002#32 kind (user 0 0x1002 0 0).privilege = false
    ∧ (refusing (user 0 0x1002 0 0) 0x1000).halfFaults 0x1002#32 kind (user 0 0x1002 0 0).privilege = true
    ∧ (aligning (user 0 0x1003 0 0)).halfFaults 0x1003#32 kind (user 0 0x1003 0 0).privilege = true
    ∧ (0x1003#32).getLsbD 0 = true ∧ (0x1002#32).getLsbD 0 = false ∧ (user 0 0x1003 0 0).cfg.alignFault = false
    ∧ (aligning (user 0 0x1003 0 0)).cfg.alignFault = true
    ∧ (indexed true true false ((user 0 0x1002 0 0).reg 1) 0#32).addr = 0x1002#32
    ∧ (user 0 0x1002 0 0).pc ≠ 0xFFFFFFFC#32 ∧ (top .user).pc = 0xFFFFFFFC#32

theorem witness_HalfwordLoadTransfers : HalfCases ∧ HalfAccessCases .read ∧ ByteCases .read .user :=
  ⟨halfCases, by decide, by decide⟩

theorem witness_HalfwordStoreTransfers : HalfCases ∧ HalfAccessCases .write := ⟨halfCases, by decide⟩

theorem witness_UnalignedWordLoadRotates :
    (user 0 0x1003 0 0).cfg.bigEndian = false ∧ 0 < 4 ∧ 3 < 4 ∧ (0xFFFFFFFC#32).extractLsb' 0 2 = 0#2
      ∧ (bigEndian (user 0 0x1003 0 0)).cfg.bigEndian = true ∧ (bigEndian (user 0 0x1003 0 0)).cfg.alignFault = false
      ∧ conditionPassed .al (bigEndian (user 0 0x1003 0 0)).cpsr = true
      ∧ ((bigEndian (user 0 0x1003 0 0)).reg 1).extractLsb' 0 2 ≠ 0#2 := by decide

theorem witness_MixedWidthViewOfAStoredWord :
    (Memory.writeWord false [] 0xFFFFFFFC 0x44332211#32).wf = true ∧ 0 % 4 = 0 ∧ 0xFFFFFFFC % 4 = 0
      ∧ 0xFFFFFFFC < 2 ^ 32 ∧ 3 < 4 ∧ 1 < 2 := by decide

/-! The clauses of block transfers: the restrictions, blocks that just fit and that do not, a block one word of which faults. -/

theorem blockRestrictions :
    BlockRestricted false 0 0#16 ∧ BlockRestricted false 15 1#16 ∧ BlockRestricted true 0 1#16
      ∧ ¬ BlockRestricted false 0 1#16 ∧ ¬ BlockRestricted true 0 0xFFFE#16 := by
  unfold BlockRestricted
  decide

/-- A block of two words up to the end of the address space fits, and from one word higher it does not; below address 0 it
does not. -/
theorem blockFits :
    (user 0xFFFFFFF8 0 0 0).BlockFits false true 0 0x0006#16 ∧ ¬ (user 0xFFFFFFFC 0 0 0).BlockFits false true 0 0x0006#16
      ∧ (user 8 0 0 0).BlockFits true false 0 0x0006#16 ∧ ¬ (user 7 0 0 0).BlockFits true false 0 0x0006#16
      ∧ (user 0x1000 0 0 0).BlockFits false true 0 0x8006#16 := by
  unfold State.BlockFits
  decide

/-- In SVC mode a block at 0x1000 fits too. -/
theorem blockFits_svc :
    (machine .svc 0x8000#32 0x1000 0 0 0).BlockFits false true 0 0x0006#16
      ∧ (handler userPsr).BlockFits false true 0 0x8006#16
      ∧ ¬ (machine .svc 0x8000#32 0xFFFFFFFC 0 0 0).BlockFits false true 0 0x0006#16 := by
  unfold State.BlockFits
  decide

/-- The second of two words faults where the memory system refuses it; nothing faults where it refuses nothing. -/
theorem blockFaults (m : Mode) (kind : AccessKind) (h : kind ≠ .fetch) :
    (refusing (machine m 0x8000#32 0x1000 0 0 0) 0x1004).BlockFaults false true 0 0x0006#16 kind
      ∧ ¬ (machine m 0x8000#32 0x1000 0 0 0).BlockFaults false true 0 0x0006#16 kind := by
  refine ⟨⟨1, by decide, ?_⟩, ?_⟩
  · cases kind with
    | fetch => exact absurd rfl h
    | read => cases m <;> decide
    | write => cases m <;> decide
  · rintro ⟨k, -, hk⟩
    simp [State.wordFaults, memFault, machine, State.reset, Config.reference] at hk

theorem witness_StoreMultipleStoresTheListedRegisters :
    (user 0x1000 0 0 0).mem.wf = true ∧ conditionPassed .al (user 0x1000 0 0 0).cpsr = true
      ∧ BlockRestricted false 0 0#16 ∧ ¬ BlockRestricted false 0 0x0006#16
      ∧ ¬ (user 0xFFFFFFFC 0 0 0).BlockFits false true 0 0x0006#16
      ∧ (user 0xFFFFFFF8 0 0 0).BlockFits false true 0 0x0006#16
      ∧ (refusing (user 0x1000 0 0 0) 0x1004).BlockFits false true 0 0x0006#16
      ∧ (refusing (user 0x1000 0 0 0) 0x1004).BlockFaults false true 0 0x0006#16 .write
      ∧ (user 0x1000 0 0 0).BlockFits false true 0 0x0006#16
      ∧ ¬ (user 0x1000 0 0 0).BlockFaults false true 0 0x0006#16 .write
      ∧ (user 0x1000 0 0 0).pc ≠ 0xFFFFFFFC#32 :=
  ⟨by decide, by decide, blockRestrictions.1, by unfold BlockRestricted; decide, blockFits.2.1, blockFits.1,
    by unfold State.BlockFits; decide, (blockFaults .user .write (by decide)).1, by unfold State.BlockFits; decide,
    (blockFaults .user .write (by decide)).2, by decide⟩

theorem witness_LoadMultipleLoadsTheListedRegisters :
    conditionPassed .al (user 0x1000 0 0 0).cpsr = true ∧ (user 0x1000 0 0 0).cpsr.t = false
      ∧ BlockRestricted false 15 1#16 ∧ ¬ BlockRestricted false 0 0x0006#16
      ∧ ¬ (user 7 0 0 0).BlockFits true false 0 0x0006#16 ∧ (user 8 0 0 0).BlockFits true false 0 0x0006#16
      ∧ (refusing (user 0x1000 0 0 0) 0x1004).BlockFits false true 0 0x0006#16
      ∧ (refusing (user 0x1000 0 0 0) 0x1004).BlockFaults false true 0 0x0006#16 .read
      ∧ ¬ (user 0x1000 0 0 0).BlockFaults false true 0 0x0006#16 .read
      ∧ (0x0006#16).getLsbD 15 = false ∧ (0x8006#16).getLsbD 15 = true
      ∧ ((loaded (user 0x1000 0 0 0) 0x1008 0x9003#32).blockValue false true 0 0x8006#16
          ((listedRegs 0x8006#16).length - 1)).getLsbD 0 = true
      ∧ ((loaded (user 0x1000 0 0 0) 0x1008 0x9000#32).blockValue false true 0 0x8006#16
          ((listedRegs 0x8006#16).length - 1)).extractLsb' 0 2 = 0#2
      ∧ ((loaded (user 0x1000 0 0 0) 0x1008 0x9002#32).blockValue false true 0 0x8006#16
          ((listedRegs 0x8006#16).length - 1)).extractLsb' 0 2 ≠ 0#2 :=
  ⟨by decide, by decide, blockRestrictions.2.1, by unfold BlockRestricted; decide, blockFits.2.2.2.1, blockFits.2.2.1,
    by unfold State.BlockFits; decide, (blockFaults .user .read (by decide)).1, (blockFaults .user .read (by decide)).2,
    by decide⟩

theorem witness_LoadMultipleReturnsFromException :
    (0x8006#16).getLsbD 15 = true ∧ conditionPassed .al (handler userPsr).cpsr = true
      ∧ BlockRestricted true 1 0x8006#16 ∧ ¬ BlockRestricted false 0 0x8006#16
      ∧ ((user 0x1000 0 0 0).cpsr.mode = .user ∨ (user 0x1000 0 0 0).cpsr.mode = .system)
      ∧ ¬ ((handler userPsr).cpsr.mode = .user ∨ (handler userPsr).cpsr.mode = .system)
      ∧ (handler userPsr).BlockFits false true 0 0x8006#16
      ∧ ¬ (handler userPsr).BlockFaults false true 0 0x8006#16 .read
      ∧ alignedFor false ((handler userPsr).blockValue false true 0 0x8006#16 ((listedRegs 0x8006#16).length - 1)) = true
      ∧ ReturnCases :=
  ⟨by decide, by decide, by unfold BlockRestricted; decide, by unfold BlockRestricted; decide, by decide, by decide,
    blockFits_svc.2.1, by
      rintro ⟨k, -, hk⟩
      simp [State.wordFaults, memFault, handler, machine, State.reset, Config.reference, State.setSpsrOf, State.setSpsrs] at hk,
    by decide, by decide⟩

theorem witness_LoadMultipleLoadsUserRegisters :
    (0x0006#16).getLsbD 15 = false ∧ conditionPassed .al (machine .svc 0x8000#32 0x1000 0 0 0).cpsr = true
      ∧ BlockRestricted false 0 0#16 ∧ (user 0x1000 0 0 0).cpsr.mode = .user
      ∧ ¬ (BlockRestricted false 0 0x0006#16 ∨ (false : Bool) = true ∨ (machine .svc 0x8000#32 0x1000 0 0 0).cpsr.mode = .user)
      ∧ (machine .svc 0x8000#32 0x1000 0 0 0).BlockFits false true 0 0x0006#16
      ∧ ¬ (machine .svc 0x8000#32 0xFFFFFFFC 0 0 0).BlockFits false true 0 0x0006#16
      ∧ (refusing (machine .svc 0x8000#32 0x1000 0 0 0) 0x1004).BlockFits false true 0 0x0006#16
      ∧ (refusing (machine .svc 0x8000#32 0x1000 0 0 0) 0x1004).BlockFaults false true 0 0x0006#16 .read
      ∧ ¬ (machine .svc 0x8000#32 0x1000 0 0 0).BlockFaults false true 0 0x0006#16 .read :=
  ⟨by decide, by decide, blockRestrictions.1, rfl, by unfold BlockRestricted; decide, blockFits_svc.1, blockFits_svc.2.2,
    by unfold State.BlockFits; decide, (blockFaults .svc .read (by decide)).1, (blockFaults .svc .read (by decide)).2⟩

theorem witness_StoreMultipleStoresUserRegisters :
    (machine .svc 0x8000#32 0x1000 0 0 0).mem.wf = true
      ∧ conditionPassed .al (machine .svc 0x8000#32 0x1000 0 0 0).cpsr = true
      ∧ (0x8000#16).getLsbD 15 = true ∧ (user 0x1000 0 0 0).cpsr.mode = .user
      ∧ ¬ (BlockRestricted false 0 0x0006#16 ∨ (0x0006#16).getLsbD 15 = true ∨ (false : Bool) = true
        ∨ (machine .svc 0x8000#32 0x1000 0 0 0).cpsr.mode = .user)
      ∧ (machine .svc 0x8000#32 0x1000 0 0 0).BlockFits false true 0 0x0006#16
      ∧ ¬ (machine .svc 0x8000#32 0xFFFFFFFC 0 0 0).BlockFits false true 0 0x0006#16
      ∧ (refusing (machine .svc 0x8000#32 0x1000 0 0 0) 0x1004).BlockFits false true 0 0x0006#16
      ∧ (refusing (machine .svc 0x8000#32 0x1000 0 0 0) 0x1004).BlockFaults false true 0 0x0006#16 .write
      ∧ ¬ (machine .svc 0x8000#32 0x1000 0 0 0).BlockFaults false true 0 0x0006#16 .write :=
  ⟨by decide, by decide, by decide, rfl, by unfold BlockRestricted; decide, blockFits_svc.1, blockFits_svc.2.2,
    by unfold State.BlockFits; decide, (blockFaults .svc .write (by decide)).1, (blockFaults .svc .write (by decide)).2⟩

theorem witness_SwapExchangesRegisterAndMemory :
    (user 0 0 0x1000 0).mem.wf = true ∧ conditionPassed .al (user 0 0 0x1000 0).cpsr = true
      ∧ (True ↔ (0 : RegNum) = 15 ∨ (2 : RegNum) = 15 ∨ (2 : RegNum) = 15 ∨ (2 : RegNum) = 2 ∨ (2 : RegNum) = 0)
      ∧ (False ↔ (1 : RegNum) = 15 ∨ (1 : RegNum) = 15 ∨ (2 : RegNum) = 15 ∨ (2 : RegNum) = 1 ∨ (2 : RegNum) = 1)
      ∧ ((bigEndian (user 0 0 0x1001 0)).cfg.bigEndian = true ∧ (bigEndian (user 0 0 0x1001 0)).cfg.alignFault = false
        ∧ ((bigEndian (user 0 0 0x1001 0)).reg 2).extractLsb' 0 2 ≠ 0#2)
      ∧ (user 0 0 0x1000 0).cfg.bigEndian = false
      ∧ (refusing (user 0 0 0x1000 0) 0x1000).wordFaults ((user 0 0 0x1000 0).reg 2) .read .user = true
      ∧ (user 0 0 0x1000 0).wordFaults ((user 0 0 0x1000 0).reg 2) .read (user 0 0 0x1000 0).privilege = false
      ∧ (user 0 0 0x1000 0).wordFaults ((user 0 0 0x1000 0).reg 2) .write (user 0 0 0x1000 0).privilege = false
      ∧ (refusing (user 0 0 0x1000 0) 0x1000).byteFaults ((user 0 0 0x1000 0).reg 2) .write .user = true
      ∧ (user 0 0 0x1000 0).byteFaults ((user 0 0 0x1000 0).reg 2) .read (user 0 0 0x1000 0).privilege = false
      ∧ (user 0 0 0x1000 0).byteFaults ((user 0 0 0x1000 0).reg 2) .write (user 0 0 0x1000 0).privilege = false
      ∧ (user 0 0 0x1000 0).pc ≠ 0xFFFFFFFC#32 := by decide

theorem witness_StatusRegisterReadGivesItsBits :
    conditionPassed .al (handler userPsr).cpsr = true ∧ (14 : RegNum) ≠ 15 ∧ (user 0 0 0 0).cpsr.mode = .user
      ∧ (machine .system 0x8000#32 0 0 0 0).cpsr.mode = .system
      ∧ (if (true : Bool) then (handler userPsr).spsrOf (handler userPsr).cpsr.mode = some userPsr
        else userPsr = (handler userPsr).cpsr.saved)
      ∧ (if (false : Bool) then (user 0 0 0 0).spsrOf (user 0 0 0 0).cpsr.mode = some (user 0 0 0 0).cpsr.saved
        else (user 0 0 0 0).cpsr.saved = (user 0 0 0 0).cpsr.saved)
      ∧ (handler userPsr).pc ≠ 0xFFFFFFFC#32 ∧ (top .user).pc = 0xFFFFFFFC#32 := by decide

-- r0 = 0xD2 selects IRQ mode, 0xF3 would set T, 0xC0 names no mode.
theorem witness_StatusRegisterWriteMovesSelectedFields :
    conditionPassed .al (machine .svc 0x8000#32 0xD2 0xF3 0xC0 0).cpsr = true ∧ (0 : RegNum) ≠ 15
      ∧ (1#4).extractLsb' 0 3 ≠ 0#3 ∧ (8#4).extractLsb' 0 3 = 0#3
      ∧ (user 0 0 0 0).cpsr.mode = .user ∧ (handler userPsr).spsrOf (handler userPsr).cpsr.mode = some userPsr
      ∧ ((machine .svc 0x8000#32 0xD2 0xF3 0xC0 0).cpsr.saved.moved true true 0xF3#32).t = true
      ∧ ((machine .svc 0x8000#32 0xD2 0xF3 0xC0 0).cpsr.saved.moved true true 0xC0#32).t = false
      ∧ Mode.ofBits Config.reference ((machine .svc 0x8000#32 0xD2 0xF3 0xC0 0).cpsr.saved.moved true true 0xC0#32).m = none
      ∧ ((machine .svc 0x8000#32 0xD2 0xF3 0xC0 0).cpsr.saved.moved true true 0xD2#32).t = false
      ∧ Mode.ofBits Config.reference ((machine .svc 0x8000#32 0xD2 0xF3 0xC0 0).cpsr.saved.moved true true 0xD2#32).m
        = some .irq
      ∧ (machine .svc 0x8000#32 0xD2 0xF3 0xC0 0).pc ≠ 0xFFFFFFFC#32 ∧ (top .svc).pc = 0xFFFFFFFC#32 := by decide

end Sys2Proof.Tests
end

section
/-! SUPPORT. Statements about the next state of a result: `EndsIn P r` says that `P` holds of the state `r` goes on in, if it
goes on. One rule per shared operation that other operations are built on. -/

namespace Sys2Proof.Machine

/-- If the result is a next state, `P` holds of it. -/
def EndsIn (P : State → Prop) (r : Result) : Prop := ∀ t, r = .next t → P t

variable {P : State → Prop} {s : State} {k : Result}

theorem EndsIn.next {t : State} (h : P t) : EndsIn P (.next t) := fun u e => by
  injection e with e
  exact e ▸ h

theorem EndsIn.refused (r : Refusal) : EndsIn P (.refused r) := fun _ h => by cases h

theorem EndsIn.ite {c : Prop} [Decidable c] {a b : Result} (ha : EndsIn P a) (hb : EndsIn P b) :
    EndsIn P (if c then a else b) := by
  split
  · exact ha
  · exact hb

theorem EndsIn.advance (h : P (s.setPc (s.pc + 4#32))) : EndsIn P (advance s) :=
  fun _ ht => (advance_next ht).2 ▸ h

/-- A conditional instruction does what it does or is skipped. -/
theorem EndsIn.conditional {cond : Cond} (hskip : EndsIn P (Machine.advance s)) (hrun : EndsIn P k) :
    EndsIn P (conditional cond s k) := by
  rcases conditional_cases cond s k with e | e
  · rwa [e]
  · rwa [e]

theorem EndsIn.unlessRefused {check : Option Refusal} (h : EndsIn P k) : EndsIn P (unlessRefused check k) :=
  fun t ht => h t (unlessRefused_next ht).2

theorem EndsIn.gated {feature : Bool} (h : EndsIn P k) : EndsIn P (gated feature k) :=
  fun t ht => h t (gated_next ht).2

theorem EndsIn.withTarget {target : Int} {f : Word → Result} (h : ∀ a, EndsIn P (f a)) : EndsIn P (withTarget target f) :=
  .ite (.refused _) (h _)

theorem EndsIn.withBlock {p u : Bool} {rn : RegNum} {list : BitVec 16} {f : List Word → Result} (h : ∀ l, EndsIn P (f l)) :
    EndsIn P (withBlock p u rn list s f) :=
  .ite (.refused _) (h _)

end Sys2Proof.Machine
end

section
/-! SUPPORT. The part of the state that a processor reads and does not write: the configuration (20_memory.md R63, log 10) and
the coming levels of the lines (log 8). One equation per update of the state. -/

namespace Sys2Proof.Machine

/-- The configuration and the coming inputs. -/
def State.environment (s : State) : Config × List Inputs := (s.cfg, s.inputs)

theorem State.environment_eq_iff {s t : State} : t.environment = s.environment ↔ t.cfg = s.cfg ∧ t.inputs = s.inputs :=
  Prod.mk_inj

@[simp] theorem State.setPc_environment (s : State) (a : Word) : (s.setPc a).environment = s.environment := rfl
@[simp] theorem State.setCpsr_environment (s : State) (p : Cpsr) : (s.setCpsr p).environment = s.environment := rfl
@[simp] theorem State.setSpsrs_environment (s : State) (p : Spsrs) : (s.setSpsrs p).environment = s.environment := rfl
@[simp] theorem State.setMem_environment (s : State) (m : Memory) : (s.setMem m).environment = s.environment := rfl
@[simp] theorem State.setBus_environment (s : State) (l : List BusWrites) : (s.setBus l).environment = s.environment := rfl
@[simp] theorem State.setWritten_environment (s : State) (l : List Nat) : (s.setWritten l).environment = s.environment := rfl
@[simp] theorem State.setDraws_environment (s : State) (n : Nat) : (s.setDraws n).environment = s.environment := rfl
@[simp] theorem State.drawn_environment (s : State) : s.drawn.environment = s.environment := rfl
@[simp] theorem State.atAccess_environment (s : State) : s.atAccess.environment = s.environment := rfl
@[simp] theorem State.storeWord_environment (s : State) (a v : Word) : (s.storeWord a v).environment = s.environment := rfl
@[simp] theorem State.storeHalf_environment (s : State) (a : Word) (v : Half) :
    (s.storeHalf a v).environment = s.environment := rfl
@[simp] theorem State.storeByte_environment (s : State) (a : Word) (v : Byte) :
    (s.storeByte a v).environment = s.environment := rfl

@[simp] theorem State.atAccessNo_environment (n : Nat) (s : State) : (s.atAccessNo n).environment = s.environment := by
  simp [State.environment]

@[simp] theorem State.setCell_environment (s : State) (c : Cell) (v : Word) : (s.setCell c v).environment = s.environment := by
  simp [State.environment]

@[simp] theorem State.setReg_environment (s : State) (r : RegNum) (v : Word) : (s.setReg r v).environment = s.environment :=
  s.setCell_environment _ v

@[simp] theorem State.link_environment (s : State) : s.link.environment = s.environment := s.setReg_environment _ _

@[simp] theorem exchange_environment (v : Word) (s : State) : (exchange v s).environment = s.environment := rfl

@[simp] theorem State.setSpsrOf_environment (s : State) (m : Mode) (p : Psr) :
    (s.setSpsrOf m p).environment = s.environment := by
  simp [State.environment]

@[simp] theorem takeException_environment (e : Exception) (link : Word) (s : State) :
    (takeException e link s).environment = s.environment := by
  simp [State.environment]

@[simp] theorem State.setCells_environment (l : List (Cell × Word)) (s : State) :
    (s.setCells l).environment = s.environment := by
  induction l generalizing s with
  | nil => rfl
  | cons x rest ih => simp [State.setCells, ih]

@[simp] theorem State.freeCells_environment (l : List Cell) (s : State) : (s.freeCells l).environment = s.environment := by
  induction l generalizing s with
  | nil => rfl
  | cons c rest ih => simp [State.freeCells, ih]

/-! ### The base and the registers of transfers -/

@[simp] theorem State.indexBase_environment (s : State) (rn : RegNum) (x : Indexed) :
    (s.indexBase rn x).environment = s.environment := by
  unfold State.indexBase
  split <;> simp

@[simp] theorem State.abortBase_environment (s : State) (rn : RegNum) (x : Indexed) :
    (s.abortBase rn x).environment = s.environment := by
  unfold State.abortBase
  split <;> simp

@[simp] theorem State.blockBase_environment (s : State) (u w : Bool) (rn : RegNum) (list : BitVec 16) :
    (s.blockBase u w rn list).environment = s.environment := by
  unfold State.blockBase
  split <;> simp

@[simp] theorem State.loadRegs_environment (s : State) (m : Mode) (list : BitVec 16) (values : List Word) :
    (s.loadRegs m list values).environment = s.environment := State.setCells_environment _ s

@[simp] theorem abortedLoad_environment (m : Mode) (w : Bool) (rn : RegNum) (list : BitVec 16) (s : State) :
    (abortedLoad m w rn list s).environment = s.environment := State.freeCells_environment _ s

@[simp] theorem storeBlock_environment (priv : Privilege) (l : List (Word × Word)) (faulted : Bool) (s : State) :
    (storeBlock priv l faulted s).1.environment = s.environment := by
  induction l generalizing faulted s with
  | nil => rfl
  | cons x rest ih =>
    unfold storeBlock
    dsimp only
    split_ifs <;> simp [ih]

/-! ### The reset event -/

@[simp] theorem mixBytes_environment (new : Memory) (l : List Nat) (s : State) :
    (mixBytes new l s).environment = s.environment := by
  induction l generalizing s with
  | nil => rfl
  | cons a rest ih =>
    unfold mixBytes
    rw [ih]
    split_ifs <;> simp

/-- Of the instruction that a reset cuts short only bytes of memory and used free values are kept, and no environment. -/
@[simp] theorem cutShort_environment (s : State) : (cutShort s).environment = s.environment := by
  unfold cutShort
  split
  · simp
  · rfl

@[simp] theorem State.freeSpsrs_environment (s : State) : s.freeSpsrs.environment = s.environment := rfl

@[simp] theorem resetEvent_environment (s : State) : (resetEvent s).environment = s.environment := by
  simp [resetEvent]

end Sys2Proof.Machine
end

section
/-! SUPPORT. No instruction changes the environment: first every shared way of ending an instruction, then every shared
operation, then the instructions. -/

namespace Sys2Proof.Machine

/-- If the result is a next state, its environment is that of `s`. -/
def KeepsEnvironment (s : State) (r : Result) : Prop := EndsIn (fun t => t.environment = s.environment) r

variable {s u : State} {k : Result} {cond : Cond}

/-! ### Ends of instructions -/

theorem advance_keepsEnvironment (h : u.environment = s.environment) : KeepsEnvironment s (advance u) := .advance h

/-- A skipped instruction only advances. -/
theorem conditional_keepsEnvironment (h : KeepsEnvironment s k) : KeepsEnvironment s (conditional cond s k) :=
  .conditional (.advance rfl) h

theorem dataAbort_keepsEnvironment (h : u.environment = s.environment) : KeepsEnvironment s (dataAbort u) :=
  .next ((takeException_environment _ _ u).trans h)

/-- The end of most transfers: the data abort of a refused access, or the advance after it. -/
theorem abortOrAdvance_keepsEnvironment {c : Prop} [Decidable c] {v : State} (hv : v.environment = s.environment)
    (hu : u.environment = s.environment) : KeepsEnvironment s (if c then dataAbort v else advance u) :=
  .ite (dataAbort_keepsEnvironment hv) (advance_keepsEnvironment hu)

theorem undefinedTrap_keepsEnvironment (s : State) : KeepsEnvironment s (undefinedTrap s) :=
  .next (takeException_environment _ _ s)

theorem branchAligned_keepsEnvironment (target : Word) : KeepsEnvironment s (branchAligned target s) :=
  .ite (.refused _) (.next rfl)

theorem loadPc_keepsEnvironment {v : Word} (h : u.environment = s.environment) : KeepsEnvironment s (loadPc v u) := by
  intro t ht
  rcases loadPc_next ht with ⟨-, rfl⟩ | ⟨-, -, rfl⟩
  · split <;> simpa using h
  · simpa using h

theorem exceptionReturn_keepsEnvironment {target : Word} (h : u.environment = s.environment) :
    KeepsEnvironment s (exceptionReturn target u) := by
  intro t ht
  obtain ⟨_, _, -, -, -, -, rfl⟩ := exceptionReturn_next ht
  simpa using h

/-! ### Data processing and multiplies -/

theorem writeResult_keepsEnvironment (sf : Bool) (rd : RegNum) (out : AluOut) (shifterCarry : Bool) :
    KeepsEnvironment s (writeResult sf rd out shifterCarry s) :=
  .ite (.ite (exceptionReturn_keepsEnvironment rfl) (branchAligned_keepsEnvironment _))
    (advance_keepsEnvironment (by split <;> simp))

theorem dataProcessing_keepsEnvironment (op : DpOp) (sf : Bool) (rn rd : RegNum) (operand : Shifted) :
    KeepsEnvironment s (dataProcessing op sf rn rd operand s) :=
  .ite (writeResult_keepsEnvironment _ _ _ _) (advance_keepsEnvironment rfl)

theorem dpImmediate_keepsEnvironment (op : DpOp) (sf : Bool) (rn rd : RegNum) (rot : BitVec 4) (imm8 : BitVec 8) :
    KeepsEnvironment s (dpImmediate op cond sf rn rd rot imm8 s) :=
  conditional_keepsEnvironment (dataProcessing_keepsEnvironment _ _ _ _ _)

theorem dpShiftedRegister_keepsEnvironment (op : DpOp) (sf : Bool) (rn rd : RegNum) (amount : BitVec 5) (sh : ShiftType)
    (rm : RegNum) : KeepsEnvironment s (dpShiftedRegister op cond sf rn rd amount sh rm s) :=
  conditional_keepsEnvironment (dataProcessing_keepsEnvironment _ _ _ _ _)

theorem dpRegisterShift_keepsEnvironment (op : DpOp) (sf : Bool) (rn rd rs : RegNum) (sh : ShiftType) (rm : RegNum) :
    KeepsEnvironment s (dpRegisterShift op cond sf rn rd rs sh rm s) :=
  conditional_keepsEnvironment (.unlessRefused (dataProcessing_keepsEnvironment _ _ _ _ _))

theorem finishMultiply32_keepsEnvironment (sf : Bool) (rd : RegNum) (result : Word) :
    KeepsEnvironment s (finishMultiply32 sf rd result s) :=
  advance_keepsEnvironment (by split <;> simp)

theorem finishMultiply64_keepsEnvironment (sf : Bool) (rdHi rdLo : RegNum) (result : BitVec 64) :
    KeepsEnvironment s (finishMultiply64 sf rdHi rdLo result s) :=
  advance_keepsEnvironment (by split <;> simp)

/-! ### Single transfers -/

theorem loadWordTransfer_keepsEnvironment (p u w : Bool) (priv : Privilege) (rn rd : RegNum) (offset : LsOffset) :
    KeepsEnvironment s (loadWordTransfer cond p u w priv rn rd offset s) :=
  conditional_keepsEnvironment <| .unlessRefused <| .ite (.refused _) <| .ite (dataAbort_keepsEnvironment (by simp)) <|
    .ite (loadPc_keepsEnvironment (by simp)) (advance_keepsEnvironment (by simp))

theorem loadByteTransfer_keepsEnvironment (p u w : Bool) (priv : Privilege) (rn rd : RegNum) (offset : LsOffset) :
    KeepsEnvironment s (loadByteTransfer cond p u w priv rn rd offset s) :=
  conditional_keepsEnvironment <| .unlessRefused <| .ite (.refused _) <| abortOrAdvance_keepsEnvironment (by simp) (by simp)

theorem storeWordTransfer_keepsEnvironment (p u w : Bool) (priv : Privilege) (rn rd : RegNum) (offset : LsOffset) :
    KeepsEnvironment s (storeWordTransfer cond p u w priv rn rd offset s) :=
  conditional_keepsEnvironment <| .unlessRefused <| abortOrAdvance_keepsEnvironment (by simp) (by simp)

theorem storeByteTransfer_keepsEnvironment (p u w : Bool) (priv : Privilege) (rn rd : RegNum) (offset : LsOffset) :
    KeepsEnvironment s (storeByteTransfer cond p u w priv rn rd offset s) :=
  conditional_keepsEnvironment <| .unlessRefused <| .ite (.refused _) <| abortOrAdvance_keepsEnvironment (by simp) (by simp)

theorem loadHalfTransfer_keepsEnvironment (extend : Half → Word) (p u w : Bool) (rn rd : RegNum) (offset : LshOffset) :
    KeepsEnvironment s (loadHalfTransfer extend cond p u w rn rd offset s) :=
  conditional_keepsEnvironment <| .unlessRefused <| .ite (.refused _) <| abortOrAdvance_keepsEnvironment (by simp) (by simp)

theorem loadSignedByteTransfer_keepsEnvironment (p u w : Bool) (rn rd : RegNum) (offset : LshOffset) :
    KeepsEnvironment s (loadSignedByteTransfer cond p u w rn rd offset s) :=
  conditional_keepsEnvironment <| .unlessRefused <| abortOrAdvance_keepsEnvironment (by simp) (by simp)

theorem storeHalfTransfer_keepsEnvironment (p u w : Bool) (rn rd : RegNum) (offset : LshOffset) :
    KeepsEnvironment s (storeHalfTransfer cond p u w rn rd offset s) :=
  conditional_keepsEnvironment <| .unlessRefused <| .ite (.refused _) <| abortOrAdvance_keepsEnvironment (by simp) (by simp)

/-! ### Block transfers and swaps -/

theorem finishStore_keepsEnvironment (u w : Bool) (rn : RegNum) (list : BitVec 16) (stores : List (Word × Word)) :
    KeepsEnvironment s (finishStore u w rn list stores s) := by
  have stored := storeBlock_environment s.privilege stores false s
  unfold finishStore
  split
  · next e =>
    rw [e] at stored
    exact dataAbort_keepsEnvironment (by split <;> simp [stored])
  · next e =>
    rw [e] at stored
    exact advance_keepsEnvironment (by simp [stored])

theorem execStm_keepsEnvironment (p u w : Bool) (rn : RegNum) (list : BitVec 16) :
    KeepsEnvironment s (execStm cond p u w rn list s) :=
  conditional_keepsEnvironment <| .unlessRefused <| .withBlock fun _ => finishStore_keepsEnvironment _ _ _ _ _

theorem execLdm_keepsEnvironment (p u w : Bool) (rn : RegNum) (list : BitVec 16) :
    KeepsEnvironment s (execLdm cond p u w rn list s) :=
  conditional_keepsEnvironment <| .unlessRefused <| .withBlock fun _ => .ite (dataAbort_keepsEnvironment (by simp)) <|
    .ite (loadPc_keepsEnvironment (by simp)) (advance_keepsEnvironment (by simp))

theorem execLdmReturn_keepsEnvironment (p u w : Bool) (rn : RegNum) (list : BitVec 16) :
    KeepsEnvironment s (execLdmReturn cond p u w rn list s) :=
  conditional_keepsEnvironment <| .unlessRefused <| .unlessRefused <| .withBlock fun _ =>
    .ite (dataAbort_keepsEnvironment (by simp)) (exceptionReturn_keepsEnvironment (by simp))

theorem execLdmUser_keepsEnvironment (p u w : Bool) (rn : RegNum) (list : BitVec 16) :
    KeepsEnvironment s (execLdmUser cond p u w rn list s) :=
  conditional_keepsEnvironment <| .unlessRefused <| .unlessRefused <| .withBlock fun _ =>
    abortOrAdvance_keepsEnvironment (by simp) (by simp)

theorem execStmUser_keepsEnvironment (p u w : Bool) (rn : RegNum) (list : BitVec 16) :
    KeepsEnvironment s (execStmUser cond p u w rn list s) :=
  conditional_keepsEnvironment <| .unlessRefused <| .ite (.refused _) <| .unlessRefused <| .withBlock fun _ =>
    finishStore_keepsEnvironment _ _ _ _ _

theorem execSwp_keepsEnvironment (rn rd rm : RegNum) : KeepsEnvironment s (execSwp cond rn rd rm s) :=
  conditional_keepsEnvironment <| .unlessRefused <| .ite (.refused _) <| abortOrAdvance_keepsEnvironment (by simp) (by simp)

theorem execSwpb_keepsEnvironment (rn rd rm : RegNum) : KeepsEnvironment s (execSwpb cond rn rd rm s) :=
  conditional_keepsEnvironment <| .unlessRefused <| abortOrAdvance_keepsEnvironment (by simp) (by simp)

/-! ### Branches and status registers -/

theorem execBx_keepsEnvironment (rm : RegNum) : KeepsEnvironment s (execBx cond rm s) :=
  .ite (conditional_keepsEnvironment (.next (by simp)))
    (.gated (conditional_keepsEnvironment (undefinedTrap_keepsEnvironment _)))

theorem execBlxReg_keepsEnvironment (rm : RegNum) : KeepsEnvironment s (execBlxReg cond rm s) :=
  .gated <| conditional_keepsEnvironment <| .ite (.refused _) (.next (by simp))

theorem execBlxImm_keepsEnvironment (h : Bool) (offset24 : BitVec 24) : KeepsEnvironment s (execBlxImm h offset24 s) :=
  .gated <| .withTarget fun _ => .next (by simp)

theorem execMrs_keepsEnvironment (r : Bool) (rd : RegNum) : KeepsEnvironment s (execMrs cond r rd s) := by
  refine conditional_keepsEnvironment (.ite (.refused _) ?_)
  split
  · exact .refused _
  · exact advance_keepsEnvironment (by simp)

theorem moveToStatus_keepsEnvironment (r : Bool) (fieldMask : BitVec 4) (operand : Word) :
    KeepsEnvironment s (moveToStatus r fieldMask operand s) := by
  refine .ite ?spsr (.ite (.refused _) ?cpsr)
  case spsr =>
    split
    · exact .refused _
    · exact advance_keepsEnvironment (by simp)
  case cpsr =>
    split
    · exact .refused _
    · exact advance_keepsEnvironment (by simp)

/-! ### Every instruction -/

/-- No instruction changes the configuration or the coming inputs. -/
theorem exec_keepsEnvironment (i : Instr) (s : State) : KeepsEnvironment s (exec i s) := by
  cases i
  case andImm | eorImm | subImm | rsbImm | addImm | adcImm | sbcImm | rscImm | tstImm | teqImm | cmpImm | cmnImm | orrImm
      | movImm | bicImm | mvnImm =>
    exact dpImmediate_keepsEnvironment _ _ _ _ _ _
  case andReg | eorReg | subReg | rsbReg | addReg | adcReg | sbcReg | rscReg | tstReg | teqReg | cmpReg | cmnReg | orrReg
      | movReg | bicReg | mvnReg =>
    exact dpShiftedRegister_keepsEnvironment _ _ _ _ _ _ _
  case andRsr | eorRsr | subRsr | rsbRsr | addRsr | adcRsr | sbcRsr | rscRsr | tstRsr | teqRsr | cmpRsr | cmnRsr | orrRsr
      | movRsr | bicRsr | mvnRsr =>
    exact dpRegisterShift_keepsEnvironment _ _ _ _ _ _ _
  case b => exact conditional_keepsEnvironment (.withTarget fun _ => .next rfl)
  case bl => exact conditional_keepsEnvironment (.withTarget fun _ => .next (by simp))
  case bx => exact execBx_keepsEnvironment _
  case blxReg => exact execBlxReg_keepsEnvironment _
  case blxImm => exact execBlxImm_keepsEnvironment _ _
  case swi => exact conditional_keepsEnvironment (.next (by simp))
  case mul | mla => exact conditional_keepsEnvironment (.unlessRefused (finishMultiply32_keepsEnvironment _ _ _))
  case umull | umlal | smull | smlal =>
    exact .gated <| conditional_keepsEnvironment <| .unlessRefused <| finishMultiply64_keepsEnvironment _ _ _ _
  case clz => exact .gated <| conditional_keepsEnvironment <| .ite (.refused _) (advance_keepsEnvironment (by simp))
  case ldrImmPre | ldrImmPost | ldrRegPre | ldrRegPost | ldrtImm | ldrtReg =>
    exact loadWordTransfer_keepsEnvironment _ _ _ _ _ _ _
  case ldrbImmPre | ldrbImmPost | ldrbRegPre | ldrbRegPost | ldrbtImm | ldrbtReg =>
    exact loadByteTransfer_keepsEnvironment _ _ _ _ _ _ _
  case strImmPre | strImmPost | strRegPre | strRegPost | strtImm | strtReg =>
    exact storeWordTransfer_keepsEnvironment _ _ _ _ _ _ _
  case strbImmPre | strbImmPost | strbRegPre | strbRegPost | strbtImm | strbtReg =>
    exact storeByteTransfer_keepsEnvironment _ _ _ _ _ _ _
  case ldrhImm | ldrhReg | ldrshImm | ldrshReg => exact .gated (loadHalfTransfer_keepsEnvironment _ _ _ _ _ _ _)
  case ldrsbImm | ldrsbReg => exact .gated (loadSignedByteTransfer_keepsEnvironment _ _ _ _ _ _)
  case strhImm | strhReg => exact .gated (storeHalfTransfer_keepsEnvironment _ _ _ _ _ _)
  case stm => exact execStm_keepsEnvironment _ _ _ _ _
  case ldm => exact execLdm_keepsEnvironment _ _ _ _ _
  case ldmReturn => exact execLdmReturn_keepsEnvironment _ _ _ _ _
  case ldmUser => exact execLdmUser_keepsEnvironment _ _ _ _ _
  case stmUser => exact execStmUser_keepsEnvironment _ _ _ _ _
  case swp => exact execSwp_keepsEnvironment _ _ _
  case swpb => exact execSwpb_keepsEnvironment _ _ _
  case mrs => exact execMrs_keepsEnvironment _ _
  case msrReg | msrImm => exact conditional_keepsEnvironment (.ite (.refused _) (moveToStatus_keepsEnvironment _ _ _))
  case undefinedSpace | coprocLdcStc | coprocCdpMrcMcr =>
    exact conditional_keepsEnvironment (undefinedTrap_keepsEnvironment _)

/-- Running the instruction at the pc keeps the environment, whether the fetch is aborted or goes on. -/
theorem runInstruction_keepsEnvironment (s : State) : KeepsEnvironment s (runInstruction s) := by
  intro t h
  obtain ⟨-, -, hfetch⟩ := runInstruction_next h
  rcases fetchAndRun_next hfetch with ⟨-, rfl⟩ | ⟨-, -, i, -, hexec⟩
  · simp
  · exact exec_keepsEnvironment i s.atAccess t hexec

/-- Once the levels of the lines have been taken, neither an event nor an instruction changes the environment. -/
theorem stepEvents_keepsEnvironment (x : Inputs) (s : State) : KeepsEnvironment s (stepEvents x s) := by
  intro t h
  rcases stepEvents_next h with ⟨-, rfl⟩ | ⟨-, rfl⟩ | ⟨-, rfl⟩ | ⟨-, hrun⟩
  · exact resetEvent_environment s
  · exact takeException_environment _ _ s
  · exact takeException_environment _ _ s
  · exact runInstruction_keepsEnvironment s t hrun

end Sys2Proof.Machine
end

section
/-! SUPPORT. A step in which no event is taken, up to its instruction (00_scope.md R11). -/

namespace Sys2Proof.Machine

/-- Where reset, FIQ and IRQ are not taken, the step is the instruction (60_exceptions.md R350). -/
theorem step_of_noEvent {s : State} (h : s.NoEvent) : step s = runInstruction s.afterInputs := by
  obtain ⟨hreset, hfiq, hirq⟩ := h
  have nofiq : (s.nextInputs.fiqLine && !s.cpsr.f) = false := by simpa using hfiq
  have noirq : (s.nextInputs.irqLine && !s.cpsr.i) = false := by simpa using hirq
  simp [step, stepEvents, hreset, nofiq, noirq]

/-- In ARM state with an aligned pc the fetch is made after what other agents write before it (20_memory.md R80). -/
theorem runInstruction_of_aligned {s : State} (ht : s.cpsr.t = false) (hpc : s.pc.extractLsb' 0 2 = 0#2) :
    runInstruction s = fetchAndRun s.atAccess := by
  simp [runInstruction, ht, hpc]

/-- A fetch that is neither aborted nor incoherent delivers the word at the pc to the decoder. -/
theorem fetchAndRun_of_fetched {s : State} (hf : s.fetchFaults = false) (hi : s.fetchIncoherent = false) :
    (∀ i, decode (s.wordAt s.pc) = .ok i → fetchAndRun s = exec i s)
      ∧ ∀ e, decode (s.wordAt s.pc) = .error e → fetchAndRun s = .refused (refusalOf e) := by
  constructor <;> intro d hd <;> simp [fetchAndRun, hf, hi, hd]

theorem State.Fetches.step_eq {s : State} {w : Word} (h : s.Fetches w) :
    (∀ i, decode w = .ok i → step s = exec i s.atFetch)
      ∧ ∀ e, decode w = .error e → step s = .refused (refusalOf e) := by
  obtain ⟨hno, ht, hpc, hfault, hincoherent, rfl⟩ := h
  rw [step_of_noEvent hno, runInstruction_of_aligned (s := s.afterInputs) ht hpc]
  exact fetchAndRun_of_fetched hfault hincoherent

/-- Every word that is no instruction for another reason than its condition counts as unallocated (30_encoding.md R130). -/
theorem refusalOf_of_ne {e : DecodeReject} (h : e ≠ .neverCondition) : refusalOf e = .unallocated := by
  cases e with
  | neverCondition => exact absurd rfl h
  | unallocated => rfl
  | truncated => rfl

end Sys2Proof.Machine
end

section
/-! The obligations about a step as a whole (00_scope.md). -/

namespace Sys2Proof.Proofs

open Sys2Proof Sys2Proof.Machine

/-- Settles O16: every end of a step keeps the environment of the state whose first input has been used up. -/
theorem stepKeepsTheConfiguration : Obligations.StepKeepsTheConfiguration := by
  intro s t h
  exact State.environment_eq_iff.1 (stepEvents_keepsEnvironment s.nextInputs s.afterInputs t h)

/-- Settles O5, by the equations of a step that fetches a word. -/
theorem stepRunsDecodedInstruction : Obligations.StepRunsDecodedInstruction := by
  intro s w hfetch
  obtain ⟨hok, herror⟩ := hfetch.step_eq
  refine ⟨hok, herror _, fun e he hne => ?_⟩
  rw [herror e he, refusalOf_of_ne hne]

end Sys2Proof.Proofs
end

section
/-! SUPPORT. What any instruction can do, said once: the updates it makes before it ends (`Effects`), the ways it ends
(`Ending`), and that every instruction of the model is of this form (`exec_ending`). What instructions keep is then proved over
the eight updates and six ends instead of over the 106 instructions. -/

namespace Sys2Proof.Machine

/-- The registers an instruction may write: those the current mode sees, and the User mode's for LDM with the user bank
(10_state.md R23, 47_multiple_transfer.md R287). The pc is written by the end of the instruction only. -/
def State.Writable (s : State) (c : Cell) : Prop := ∃ m r, (m = s.cpsr.mode ∨ m = .user) ∧ r ≠ 15 ∧ c = bank m r

/-- What an instruction that starts in `s` may have made of the state before it ends. -/
inductive Effects (s : State) : State → Prop where
  | refl : Effects s s
  | setCell {u : State} {c : Cell} (h : Effects s u) (hc : s.Writable c) (v : Word) : Effects s (u.setCell c v)
  | setFlags {u : State} (h : Effects s u) (n z c v : Bool) : Effects s (u.setCpsr (s.cpsr.withFlags n z c v))
  | setSpsr {u : State} (h : Effects s u) (p : Psr) : Effects s (u.setSpsrOf s.cpsr.mode p)
  | drawn {u : State} (h : Effects s u) : Effects s u.drawn
  | atAccess {u : State} (h : Effects s u) : Effects s u.atAccess
  | storeWord {u : State} (h : Effects s u) (a v : Word) : Effects s (u.storeWord a v)
  | storeHalf {u : State} {a : Word} (h : Effects s u) (ha : a.getLsbD 0 = false) (v : Half) : Effects s (u.storeHalf a v)
  | storeByte {u : State} (h : Effects s u) (a : Word) (v : Byte) : Effects s (u.storeByte a v)

/-- A CPSR that MSR may leave (49_status_register.md R313 to R315): T as it was, a mode of this processor, and from User mode
nothing but other flags. -/
def State.AllowsStatus (s : State) (p : Cpsr) : Prop :=
  p.t = s.cpsr.t ∧ (p.mode = .system → s.cfg.hasSystemMode = true)
    ∧ (s.cpsr.mode = .user → p.mode = .user ∧ p.i = s.cpsr.i ∧ p.f = s.cpsr.f)

/-- How an instruction that starts in `s` may end. A branch goes to a target that is aligned for the instruction set it
selects, if the instruction itself was (10_state.md R25, R28). -/
inductive Ending (s : State) : Result → Prop where
  | refused (r : Refusal) : Ending s (.refused r)
  | advance {u : State} (h : Effects s u) : Ending s (Machine.advance u)
  | status {p : Cpsr} (h : s.AllowsStatus p) : Ending s (Machine.advance (s.setCpsr p))
  | exception {u : State} (e : Exception) (link : Word) (h : Effects s u) : Ending s (.next (takeException e link u))
  | exceptionReturn {u : State} (target : Word) (h : Effects s u) : Ending s (Machine.exceptionReturn target u)
  | branch {u : State} {t : Bool} {target : Word} (h : Effects s u) (ht : t = true → s.cpsr.t = true ∨ s.cfg.hasThumb = true)
      (ha : s.pc.extractLsb' 0 2 = 0#2 → alignedFor t target = true) :
      Ending s (.next ((u.setCpsr { u.cpsr with t := t }).setPc target))

variable {s u : State} {k : Result} {cond : Cond}

/-! ### Updates -/

theorem State.writable_bank {r : RegNum} (h : r ≠ 15) : s.Writable (bank s.cpsr.mode r) := ⟨_, r, .inl rfl, h, rfl⟩

theorem Effects.cfg (h : Effects s u) : u.cfg = s.cfg := by
  induction h with
  | refl => rfl
  | setCell _ _ _ ih | setSpsr _ _ ih => simpa using ih
  | setFlags _ _ _ _ _ ih | drawn _ ih | atAccess _ ih | storeWord _ _ _ ih | storeHalf _ _ _ ih | storeByte _ _ _ ih => exact ih

/-- An instruction writes the pc by its end only. -/
theorem Effects.pc (h : Effects s u) : u.pc = s.pc := by
  induction h with
  | refl => rfl
  | setCell _ hc v ih =>
    obtain ⟨m, r, -, hr, rfl⟩ := hc
    exact (State.setCell_pc _ v (bank_ne_pc m hr)).trans ih
  | setSpsr _ _ ih => simpa using ih
  | setFlags _ _ _ _ _ ih | drawn _ ih | atAccess _ ih | storeWord _ _ _ ih | storeHalf _ _ _ ih | storeByte _ _ _ ih => exact ih

/-- Of the CPSR only the flags have changed. -/
theorem Effects.cpsr (h : Effects s u) : ∃ n z c v, u.cpsr = s.cpsr.withFlags n z c v := by
  induction h with
  | refl => exact ⟨s.cpsr.n, s.cpsr.z, s.cpsr.c, s.cpsr.v, rfl⟩
  | setFlags _ n z c v => exact ⟨n, z, c, v, rfl⟩
  | setCell _ _ _ ih | setSpsr _ _ ih => simpa using ih
  | drawn _ ih | atAccess _ ih | storeWord _ _ _ ih | storeHalf _ _ _ ih | storeByte _ _ _ ih => exact ih

theorem Effects.mode (h : Effects s u) : u.cpsr.mode = s.cpsr.mode := by
  obtain ⟨_, _, _, _, e⟩ := h.cpsr
  rw [e]; rfl

theorem Effects.thumb (h : Effects s u) : u.cpsr.t = s.cpsr.t := by
  obtain ⟨_, _, _, _, e⟩ := h.cpsr
  rw [e]; rfl

theorem Effects.masks (h : Effects s u) : u.cpsr.i = s.cpsr.i ∧ u.cpsr.f = s.cpsr.f := by
  obtain ⟨_, _, _, _, e⟩ := h.cpsr
  rw [e]; exact ⟨rfl, rfl⟩

theorem Effects.setReg (h : Effects s u) {r : RegNum} (hr : r ≠ 15) (v : Word) : Effects s (u.setReg r v) := by
  unfold State.setReg
  rw [h.mode]
  exact h.setCell (State.writable_bank hr) v

theorem Effects.ite {c : Prop} [Decidable c] {v : State} (hu : c → Effects s u) (hv : Effects s v) :
    Effects s (if c then u else v) := by
  split
  · next hc => exact hu hc
  · exact hv

theorem Effects.setCells (h : Effects s u) {l : List (Cell × Word)} (hl : ∀ x ∈ l, s.Writable x.1) : Effects s (u.setCells l) := by
  induction l generalizing u with
  | nil => exact h
  | cons x rest ih =>
    exact ih (h.setCell (hl x List.mem_cons_self) x.2) fun y hy => hl y (List.mem_cons_of_mem _ hy)

theorem Effects.freeCells (h : Effects s u) {l : List Cell} (hl : ∀ c ∈ l, s.Writable c) : Effects s (u.freeCells l) := by
  induction l generalizing u with
  | nil => exact h
  | cons c rest ih =>
    exact ih (h.setCell (hl c List.mem_cons_self) _).drawn fun d hd => hl d (List.mem_cons_of_mem _ hd)

theorem Effects.atAccessNo (h : Effects s u) (n : Nat) : Effects s (u.atAccessNo n) := by
  induction n generalizing u with
  | zero => exact h
  | succ n ih => exact ih h.atAccess

theorem Effects.link (h : Effects s u) : Effects s u.link := h.setReg (by decide) _

theorem AluOut.flags_eq (o : AluOut) (shifterCarry : Bool) (p : Cpsr) : ∃ n z c v, o.flags shifterCarry p = p.withFlags n z c v := by
  cases o with
  | logical r => exact ⟨_, _, _, _, rfl⟩
  | arith r => exact ⟨_, _, _, _, rfl⟩

theorem Effects.aluFlags (h : Effects s u) (o : AluOut) (shifterCarry : Bool) :
    Effects s (u.setCpsr (o.flags shifterCarry s.cpsr)) := by
  obtain ⟨n, z, c, v, e⟩ := o.flags_eq shifterCarry s.cpsr
  rw [e]
  exact h.setFlags n z c v

/-! ### What the checks rule out -/

/-- A base that is written back is not the pc (45_single_transfer.md R243). -/
theorem base_ne_pc_of_indexCheck {wb : Bool} {rn rd : RegNum} {rm : Option RegNum} (h : indexCheck wb rn rd rm = none)
    (hw : wb = true) : rn ≠ 15 := by
  intro hrn
  obtain ⟨r, hr⟩ := indexCheck_restricted (rd := rd) (rm := rm) (.inr ⟨hw, .inl hrn⟩)
  simp [hr] at h

/-- Neither the transferred register nor a base that is written back is the pc (46_halfword_transfer.md R268). -/
theorem ne_pc_of_halfwordCheck {p w wb : Bool} {rn rd : RegNum} {rm : Option RegNum} (h : halfwordCheck p w wb rn rd rm = none) :
    rd ≠ 15 ∧ (wb = true → rn ≠ 15) := by
  unfold halfwordCheck at h
  split_ifs at h with _ hrd
  exact ⟨hrd, base_ne_pc_of_indexCheck h⟩

/-- The base of a block transfer is not the pc (47_multiple_transfer.md R283). -/
theorem base_ne_pc_of_blockCheck {w : Bool} {rn : RegNum} {list : BitVec 16} (h : blockCheck w rn list = none) : rn ≠ 15 := by
  intro hrn
  obtain ⟨r, hr⟩ := blockCheck_restricted (w := w) (list := list) (.inr (.inl hrn))
  simp [hr] at h

theorem dest_ne_pc_of_multiplyCheck32 {rd rm rs : RegNum} {rn : Option RegNum} (h : multiplyCheck32 rd rm rs rn = none) : rd ≠ 15 := by
  unfold multiplyCheck32 at h
  split_ifs at h with hpc
  exact fun e => hpc (.inl e)

theorem dest_ne_pc_of_multiplyCheck64 {rdHi rdLo rm rs : RegNum} (h : multiplyCheck64 rdHi rdLo rm rs = none) :
    rdHi ≠ 15 ∧ rdLo ≠ 15 := by
  unfold multiplyCheck64 at h
  split_ifs at h with hpc
  exact ⟨fun e => hpc (.inl e), fun e => hpc (.inr (.inl e))⟩

theorem dest_ne_pc_of_swapCheck {rn rd rm : RegNum} (h : swapCheck rn rd rm = none) : rd ≠ 15 := by
  unfold swapCheck at h
  split_ifs at h with hpc
  exact fun e => hpc (.inl e)

/-! ### The base and the registers of transfers -/

theorem Effects.indexBase (h : Effects s u) {rn : RegNum} {x : Indexed} (hrn : x.writeBack = true → rn ≠ 15) :
    Effects s (u.indexBase rn x) := .ite (fun hw => h.setReg (hrn hw) _) h

theorem Effects.abortBase (h : Effects s u) {rn : RegNum} {x : Indexed} (hrn : x.writeBack = true → rn ≠ 15) :
    Effects s (u.abortBase rn x) := .ite (fun hw => (h.setReg (hrn hw) _).drawn) h

theorem Effects.blockBase (h : Effects s u) {rn : RegNum} (hrn : rn ≠ 15) (up w : Bool) (list : BitVec 16) :
    Effects s (u.blockBase up w rn list) := .ite (fun _ => h.setReg hrn _) h

theorem Effects.loadRegs (h : Effects s u) {m : Mode} (hm : m = s.cpsr.mode ∨ m = .user) (list : BitVec 16) (values : List Word) :
    Effects s (u.loadRegs m list values) := by
  refine h.setCells (l := loadPairs m (listedRegs list) values) ?_
  rintro ⟨c, v⟩ hx
  obtain ⟨_, r, -, -, hr, rfl⟩ := mem_loadPairs.1 hx
  exact ⟨m, r, hm, hr, rfl⟩

theorem Effects.abortedLoad (h : Effects s u) {m : Mode} (hm : m = s.cpsr.mode ∨ m = .user) {rn : RegNum} (hrn : rn ≠ 15)
    (w : Bool) (list : BitVec 16) : Effects s (abortedLoad m w rn list u) := by
  have base : s.Writable (bank u.cpsr.mode rn) := ⟨_, rn, .inl h.mode, hrn, rfl⟩
  have loaded : ∀ c ∈ ((listedRegs list).map (bank m)).filter fun c => decide (c ≠ .pc ∧ c ≠ bank u.cpsr.mode rn), s.Writable c := by
    intro c hc
    obtain ⟨hc, hne⟩ := List.mem_filter.1 hc
    obtain ⟨r, -, rfl⟩ := List.mem_map.1 hc
    have hpc : bank m r ≠ .pc := (of_decide_eq_true hne).1
    exact ⟨m, r, hm, fun e => hpc ((bank_eq_pc m r).2 e), rfl⟩
  refine h.freeCells fun c hc => ?_
  cases w with
  | false => exact loaded c hc
  | true =>
    rcases List.mem_append.1 hc with hc | hc
    · exact loaded c hc
    · exact List.mem_singleton.1 hc ▸ base

theorem Effects.storeBlock (h : Effects s u) (priv : Privilege) (l : List (Word × Word)) (faulted : Bool) :
    Effects s (storeBlock priv l faulted u).1 := by
  induction l generalizing faulted u with
  | nil => exact h
  | cons x rest ih =>
    unfold Machine.storeBlock
    dsimp only
    split_ifs
    · exact ih h.atAccess _
    · exact ih (h.atAccess.drawn.storeWord _ _) _
    · exact ih h.atAccess.drawn _
    · exact ih (h.atAccess.storeWord _ _) _

end Sys2Proof.Machine
end

section
/-! SUPPORT. Alignment of the addresses that instructions write to the pc (10_state.md R25, R28). -/

namespace Sys2Proof.Machine

theorem aligned_iff (a : Word) : a.extractLsb' 0 2 = 0#2 ↔ a.toNat % 4 = 0 := by
  rw [← low_bits_toNat, ← BitVec.toNat_inj]
  rfl

theorem even_iff (a : Word) : a.getLsbD 0 = false ↔ a.toNat % 2 = 0 := by
  simp [BitVec.getLsbD, Nat.testBit_zero]

theorem alignedFor_iff (t : Bool) (a : Word) :
    alignedFor t a = true ↔ if t then a.getLsbD 0 = false else a.extractLsb' 0 2 = 0#2 := by
  cases t <;> simp [alignedFor]

/-- A word-aligned address is one for either instruction set. -/
theorem alignedFor_of_aligned {a : Word} (t : Bool) (h : a.extractLsb' 0 2 = 0#2) : alignedFor t a = true := by
  rw [alignedFor_iff]
  cases t with
  | false => exact h
  | true =>
    rw [aligned_iff] at h
    exact (even_iff a).2 (by omega)

theorem aligned_add_four {a : Word} (h : a.extractLsb' 0 2 = 0#2) : (a + 4#32).extractLsb' 0 2 = 0#2 := by
  rw [aligned_iff] at h ⊢
  rw [BitVec.toNat_add]
  have : (4#32).toNat = 4 := rfl
  omega

theorem alignWord_aligned (a : Word) : (alignWord a).extractLsb' 0 2 = 0#2 := (aligned_iff _).2 (alignWord_mod a)

theorem alignHalf_even (a : Word) : (alignHalf a).getLsbD 0 = false := by simp [alignHalf]

/-- A branch by whole words keeps the alignment (41_branch.md R150). -/
theorem branchTarget_aligned {pc : Word} (offset24 : BitVec 24) (h : pc.extractLsb' 0 2 = 0#2) :
    (BitVec.ofInt 32 (branchTarget pc offset24 0)).extractLsb' 0 2 = 0#2 := by
  rw [aligned_iff] at h ⊢
  rw [BitVec.toNat_ofInt]
  unfold branchTarget
  omega

/-- BLX goes to a half-word of the target word (41_branch.md R154). -/
theorem branchTarget_even {pc : Word} (offset24 : BitVec 24) (b : Bool) (h : pc.extractLsb' 0 2 = 0#2) :
    (BitVec.ofInt 32 (branchTarget pc offset24 (if b then 2 else 0))).getLsbD 0 = false := by
  rw [aligned_iff] at h
  rw [even_iff, BitVec.toNat_ofInt]
  unfold branchTarget
  split <;> omega

theorem Config.hasThumb_of_hasV5T {c : Config} (h : c.hasV5T = true) : c.hasThumb = true := by
  unfold Config.hasV5T at h
  exact (Bool.and_eq_true _ _ ▸ h).1

end Sys2Proof.Machine
end

section
/-! SUPPORT. Every instruction ends in one of the six ways of `Ending`: first the shared ends, then the shared operations, then
the instructions. -/

namespace Sys2Proof.Machine

variable {s u : State} {k : Result} {cond : Cond}

/-! ### Shared ends -/

theorem Ending.ite {c : Prop} [Decidable c] {a b : Result} (ha : c → Ending s a) (hb : ¬ c → Ending s b) :
    Ending s (if c then a else b) := by
  split
  · next hc => exact ha hc
  · next hc => exact hb hc

/-- A skipped instruction only advances. -/
theorem Ending.conditional (h : Ending s k) : Ending s (conditional cond s k) := by
  rcases conditional_cases cond s k with e | e
  · rwa [e]
  · exact e ▸ .advance .refl

theorem Ending.unlessRefused {check : Option Refusal} (h : check = none → Ending s k) : Ending s (unlessRefused check k) := by
  cases check with
  | none => exact h rfl
  | some r => exact .refused r

theorem Ending.gated {feature : Bool} (h : feature = true → Ending s k) : Ending s (gated feature k) := by
  cases feature with
  | true => exact h rfl
  | false => exact .refused _

theorem Ending.withTarget {target : Int} {f : Word → Result} (h : Ending s (f (BitVec.ofInt 32 target))) :
    Ending s (withTarget target f) := .ite (fun _ => .refused _) fun _ => h

theorem Ending.withBlock {p up : Bool} {rn : RegNum} {list : BitVec 16} {f : List Word → Result} (h : ∀ l, Ending s (f l)) :
    Ending s (withBlock p up rn list s f) := .ite (fun _ => .refused _) fun _ => h _

/-- A branch in ARM state to a word-aligned target changes the pc alone. -/
theorem Ending.goto (h : Effects s u) {target : Word} (ha : s.pc.extractLsb' 0 2 = 0#2 → target.extractLsb' 0 2 = 0#2) :
    Ending s (.next (u.setPc target)) :=
  .branch (t := u.cpsr.t) h (fun ht => .inl (h.thumb ▸ ht)) fun hpc => alignedFor_of_aligned _ (ha hpc)

theorem Ending.dataAbort (h : Effects s u) : Ending s (dataAbort u) := .exception _ _ h

theorem Ending.undefinedTrap (s : State) : Ending s (undefinedTrap s) := .exception _ _ .refl

/-- The end of most transfers: the data abort of a refused access, or the advance after it. -/
theorem Ending.abortOrAdvance {c : Prop} [Decidable c] {v : State} (hv : Effects s v) (hu : ¬ c → Effects s u) :
    Ending s (if c then Machine.dataAbort v else Machine.advance u) := .ite (fun _ => .dataAbort hv) fun hc => .advance (hu hc)

theorem Ending.branchAligned (target : Word) : Ending s (branchAligned target s) :=
  .ite (fun _ => .refused _) fun h => .goto .refl fun _ => not_not.1 h

theorem Ending.loadPc (h : Effects s u) (v : Word) : Ending s (loadPc v u) := by
  unfold Machine.loadPc
  split_ifs with hv h5 hc
  · exact .branch (t := false) h nofun fun _ => alignedFor_of_aligned _ hv
  · exact .goto h fun _ => hv
  · obtain ⟨h5, -⟩ := Bool.and_eq_true _ _ ▸ hc
    exact .branch h (fun _ => .inr (Config.hasThumb_of_hasV5T (h.cfg ▸ h5))) fun _ => (alignedFor_iff _ _).2 (alignHalf_even v)
  · exact .refused _

/-- A branch and exchange goes to Thumb state only by a set bit 0, and aligns the target (41_branch.md R152). -/
theorem Ending.exchange (h : Effects s u) (ht : s.cfg.hasThumb = true) (v : Word) : Ending s (.next (exchange v u)) := by
  refine .branch h (fun _ => .inr ht) fun _ => (alignedFor_iff _ _).2 ?_
  split
  · exact alignHalf_even v
  · exact alignWord_aligned v

/-! ### Data processing and multiplies -/

theorem Ending.writeResult (sf : Bool) (rd : RegNum) (out : AluOut) (shifterCarry : Bool) :
    Ending s (writeResult sf rd out shifterCarry s) := by
  refine .ite (fun _ => .ite (fun _ => .exceptionReturn _ .refl) fun _ => .branchAligned _) fun hrd => .advance ?_
  have written : Effects s (s.setReg rd out.result) := Effects.refl.setReg hrd _
  exact .ite (fun _ => written.aluFlags out shifterCarry) written

theorem Ending.dataProcessing (op : DpOp) (sf : Bool) (rn rd : RegNum) (operand : Shifted) :
    Ending s (dataProcessing op sf rn rd operand s) :=
  .ite (fun _ => .writeResult _ _ _ _) fun _ => .advance (Effects.refl.aluFlags _ _)

theorem Ending.finishMultiply32 {rd : RegNum} (hrd : rd ≠ 15) (sf : Bool) (result : Word) :
    Ending s (finishMultiply32 sf rd result s) :=
  have written := Effects.refl.setReg hrd result
  .advance (.ite (fun _ => (written.setFlags _ _ _ _).drawn) written)

theorem Ending.finishMultiply64 {rdHi rdLo : RegNum} (hhi : rdHi ≠ 15) (hlo : rdLo ≠ 15) (sf : Bool) (result : BitVec 64) :
    Ending s (finishMultiply64 sf rdHi rdLo result s) :=
  have written := (Effects.refl.setReg hlo (result.extractLsb' 0 32)).setReg hhi (result.extractLsb' 32 32)
  .advance (.ite (fun _ => (written.setFlags _ _ _ _).drawn) written)

/-- MUL and MLA once their result is at hand. -/
theorem Ending.multiply32 (sf : Bool) (rd rm rs : RegNum) (rn : Option RegNum) (result : Word) :
    Ending s (Machine.conditional cond s
      (Machine.unlessRefused (multiplyCheck32 rd rm rs rn) (Machine.finishMultiply32 sf rd result s))) :=
  .conditional <| .unlessRefused fun h => .finishMultiply32 (dest_ne_pc_of_multiplyCheck32 h) _ _

/-- The long multiplies once their result is at hand. -/
theorem Ending.multiply64 (sf : Bool) (rdHi rdLo rm rs : RegNum) (result : BitVec 64) :
    Ending s (Machine.gated s.cfg.hasLongMul (Machine.conditional cond s
      (Machine.unlessRefused (multiplyCheck64 rdHi rdLo rm rs) (Machine.finishMultiply64 sf rdHi rdLo result s)))) := by
  refine .gated fun _ => .conditional <| .unlessRefused fun h => ?_
  obtain ⟨hhi, hlo⟩ := dest_ne_pc_of_multiplyCheck64 h
  exact .finishMultiply64 hhi hlo _ _

theorem Ending.clz (rd rm : RegNum) : Ending s (execClz cond rd rm s) :=
  .gated fun _ => .conditional <| .ite (fun _ => .refused _) fun h => .advance (Effects.refl.setReg (fun e => h (.inl e)) _)

/-! ### Single transfers -/

theorem Ending.loadWordTransfer (p up w : Bool) (priv : Privilege) (rn rd : RegNum) (offset : LsOffset) :
    Ending s (loadWordTransfer cond p up w priv rn rd offset s) := by
  refine .conditional <| .unlessRefused fun h => .ite (fun _ => .refused _) fun _ => ?_
  have hrn := base_ne_pc_of_indexCheck h
  have indexed := Effects.refl.atAccess.indexBase (s := s) hrn
  exact .ite (fun _ => .dataAbort (Effects.refl.atAccess.abortBase hrn)) fun _ =>
    .ite (fun _ => .loadPc indexed _) fun hrd => .advance (indexed.setReg hrd _)

theorem Ending.loadByteTransfer (p up w : Bool) (priv : Privilege) (rn rd : RegNum) (offset : LsOffset) :
    Ending s (loadByteTransfer cond p up w priv rn rd offset s) := by
  refine .conditional <| .unlessRefused fun h => .ite (fun _ => .refused _) fun hrd => ?_
  have hrn := base_ne_pc_of_indexCheck h
  exact .abortOrAdvance (Effects.refl.atAccess.abortBase hrn) fun _ => (Effects.refl.atAccess.indexBase hrn).setReg hrd _

theorem Ending.storeWordTransfer (p up w : Bool) (priv : Privilege) (rn rd : RegNum) (offset : LsOffset) :
    Ending s (storeWordTransfer cond p up w priv rn rd offset s) := by
  refine .conditional <| .unlessRefused fun h => ?_
  have hrn := base_ne_pc_of_indexCheck h
  exact .abortOrAdvance (Effects.refl.atAccess.abortBase hrn) fun _ => (Effects.refl.atAccess.storeWord _ _).indexBase hrn

theorem Ending.storeByteTransfer (p up w : Bool) (priv : Privilege) (rn rd : RegNum) (offset : LsOffset) :
    Ending s (storeByteTransfer cond p up w priv rn rd offset s) := by
  refine .conditional <| .unlessRefused fun h => .ite (fun _ => .refused _) fun _ => ?_
  have hrn := base_ne_pc_of_indexCheck h
  exact .abortOrAdvance (Effects.refl.atAccess.abortBase hrn) fun _ => (Effects.refl.atAccess.storeByte _ _).indexBase hrn

theorem Ending.loadHalfTransfer (extend : Half → Word) (p up w : Bool) (rn rd : RegNum) (offset : LshOffset) :
    Ending s (loadHalfTransfer extend cond p up w rn rd offset s) := by
  refine .conditional <| .unlessRefused fun h => .ite (fun _ => .refused _) fun _ => ?_
  obtain ⟨hrd, hrn⟩ := ne_pc_of_halfwordCheck h
  exact .abortOrAdvance (Effects.refl.atAccess.abortBase hrn) fun _ => (Effects.refl.atAccess.indexBase hrn).setReg hrd _

theorem Ending.loadSignedByteTransfer (p up w : Bool) (rn rd : RegNum) (offset : LshOffset) :
    Ending s (loadSignedByteTransfer cond p up w rn rd offset s) := by
  refine .conditional <| .unlessRefused fun h => ?_
  obtain ⟨hrd, hrn⟩ := ne_pc_of_halfwordCheck h
  exact .abortOrAdvance (Effects.refl.atAccess.abortBase hrn) fun _ => (Effects.refl.atAccess.indexBase hrn).setReg hrd _

/-- A half-word access that is neither refused nor faults is made at an even address (20_memory.md R68, R70). -/
theorem State.even_of_halfAccess {a : Word} {kind : AccessKind} {priv : Privilege} (hr : ¬ s.refusesHalf a = true)
    (hf : ¬ s.atAccess.halfFaults a kind priv = true) : a.getLsbD 0 = false := by
  simp only [State.refusesHalf, State.halfFaults] at hr hf
  cases hodd : a.getLsbD 0 with
  | false => rfl
  | true => cases hal : s.cfg.alignFault <;> simp [hal, hodd] at hr hf

theorem Ending.storeHalfTransfer (p up w : Bool) (rn rd : RegNum) (offset : LshOffset) :
    Ending s (storeHalfTransfer cond p up w rn rd offset s) := by
  refine .conditional <| .unlessRefused fun h => .ite (fun _ => .refused _) fun hr => ?_
  obtain ⟨-, hrn⟩ := ne_pc_of_halfwordCheck h
  exact .abortOrAdvance (Effects.refl.atAccess.abortBase hrn) fun hf =>
    (Effects.refl.atAccess.storeHalf (State.even_of_halfAccess hr hf) _).indexBase hrn

/-! ### Block transfers and swaps -/

theorem Ending.finishStore {rn : RegNum} (hrn : rn ≠ 15) (up w : Bool) (list : BitVec 16) (stores : List (Word × Word)) :
    Ending s (finishStore up w rn list stores s) := by
  have stored := Effects.refl.storeBlock (s := s) s.privilege stores false
  unfold Machine.finishStore
  split
  · next e =>
    rw [e] at stored
    exact .dataAbort (.ite (fun _ => stored.freeCells (by simpa using State.writable_bank hrn)) stored)
  · next e =>
    rw [e] at stored
    exact .advance (stored.blockBase hrn _ _ _)

theorem Ending.stm (p up w : Bool) (rn : RegNum) (list : BitVec 16) : Ending s (execStm cond p up w rn list s) :=
  .conditional <| .unlessRefused fun h => .withBlock fun _ => .finishStore (base_ne_pc_of_blockCheck h) _ _ _ _

theorem Ending.stmUser (p up w : Bool) (rn : RegNum) (list : BitVec 16) : Ending s (execStmUser cond p up w rn list s) :=
  .conditional <| .unlessRefused fun h => .ite (fun _ => .refused _) fun _ => .unlessRefused fun _ => .withBlock fun _ =>
    .finishStore (base_ne_pc_of_blockCheck h) _ _ _ _

/-- The registers an LDM of the current mode loads are that mode's. -/
theorem State.atAccessNo_mode_cases (s : State) (n : Nat) :
    (s.atAccessNo n).cpsr.mode = s.cpsr.mode ∨ (s.atAccessNo n).cpsr.mode = .user := .inl (by simp)

theorem Ending.ldm (p up w : Bool) (rn : RegNum) (list : BitVec 16) : Ending s (execLdm cond p up w rn list s) := by
  refine .conditional <| .unlessRefused fun h => .withBlock fun addrs => ?_
  have hrn := base_ne_pc_of_blockCheck h
  have accessed := Effects.refl.atAccessNo (s := s) addrs.length
  have hmode := s.atAccessNo_mode_cases addrs.length
  have loaded := (accessed.blockBase hrn up w list).loadRegs hmode list (s.readWords addrs)
  exact .ite (fun _ => .dataAbort (accessed.abortedLoad hmode hrn w list)) fun _ =>
    .ite (fun _ => .loadPc loaded _) fun _ => .advance loaded

theorem Ending.ldmReturn (p up w : Bool) (rn : RegNum) (list : BitVec 16) : Ending s (execLdmReturn cond p up w rn list s) := by
  refine .conditional <| .unlessRefused fun h => .unlessRefused fun _ => .withBlock fun addrs => ?_
  have hrn := base_ne_pc_of_blockCheck h
  have accessed := Effects.refl.atAccessNo (s := s) addrs.length
  have hmode := s.atAccessNo_mode_cases addrs.length
  exact .ite (fun _ => .dataAbort (accessed.abortedLoad hmode hrn w list)) fun _ =>
    .exceptionReturn _ ((accessed.blockBase hrn up w list).loadRegs hmode list _)

theorem Ending.ldmUser (p up w : Bool) (rn : RegNum) (list : BitVec 16) : Ending s (execLdmUser cond p up w rn list s) := by
  refine .conditional <| .unlessRefused fun h => .unlessRefused fun _ => .withBlock fun addrs => ?_
  have accessed := Effects.refl.atAccessNo (s := s) addrs.length
  exact .abortOrAdvance (accessed.abortedLoad (.inr rfl) (base_ne_pc_of_blockCheck h) false list) fun _ =>
    accessed.loadRegs (.inr rfl) list _

theorem Ending.swp (rn rd rm : RegNum) : Ending s (execSwp cond rn rd rm s) :=
  .conditional <| .unlessRefused fun h => .ite (fun _ => .refused _) fun _ =>
    .abortOrAdvance Effects.refl.atAccess fun _ =>
      (Effects.refl.atAccess.storeWord _ _).setReg (dest_ne_pc_of_swapCheck h) _

theorem Ending.swpb (rn rd rm : RegNum) : Ending s (execSwpb cond rn rd rm s) :=
  .conditional <| .unlessRefused fun h => .abortOrAdvance Effects.refl.atAccess fun _ =>
    (Effects.refl.atAccess.storeByte _ _).setReg (dest_ne_pc_of_swapCheck h) _

/-! ### Branches and status registers -/

theorem Ending.b (offset24 : BitVec 24) : Ending s (execB cond offset24 s) :=
  .conditional <| .withTarget <| .goto .refl (branchTarget_aligned offset24)

theorem Ending.bl (offset24 : BitVec 24) : Ending s (execBl cond offset24 s) :=
  .conditional <| .withTarget <| .goto Effects.refl.link (branchTarget_aligned offset24)

theorem Ending.bx (rm : RegNum) : Ending s (execBx cond rm s) :=
  .ite (fun ht => .conditional (.exchange .refl ht _)) fun _ => .gated fun _ => .conditional (.undefinedTrap s)

theorem Ending.blxReg (rm : RegNum) : Ending s (execBlxReg cond rm s) :=
  .gated fun h5 => .conditional <| .ite (fun _ => .refused _) fun _ =>
    .exchange Effects.refl.link (Config.hasThumb_of_hasV5T h5) _

theorem Ending.blxImm (b : Bool) (offset24 : BitVec 24) : Ending s (execBlxImm b offset24 s) := by
  refine .gated fun h5 => .withTarget ?_
  have hcpsr : s.link.cpsr = s.cpsr := State.setReg_cpsr s 14 _
  rw [← hcpsr]
  exact .branch Effects.refl.link (fun _ => .inr (Config.hasThumb_of_hasV5T h5)) fun hpc =>
    (alignedFor_iff _ _).2 (branchTarget_even offset24 b hpc)

theorem Ending.swi : Ending s (execSwi cond s) := .conditional (.exception _ _ .refl)

theorem Ending.mrs (r : Bool) (rd : RegNum) : Ending s (execMrs cond r rd s) := by
  refine .conditional <| .ite (fun _ => .refused _) fun hrd => ?_
  split
  · exact .refused _
  · exact .advance (Effects.refl.setReg hrd _).drawn

theorem Mode.eq_user_of_bits {m : Mode} (h : m.bits = Mode.user.bits) : m = .user := by
  revert h
  cases m <;> decide

/-- The CPSR that MSR makes of the current one is one it may leave: User mode keeps the control field (49_status_register.md R314). -/
theorem allowsStatus_of_restored {flags control : Bool} {v : Word} {p : Cpsr}
    (ht : (s.cpsr.saved.merge flags (control && s.cpsr.mode.privileged) v).t = s.cpsr.t)
    (hp : (s.cpsr.saved.merge flags (control && s.cpsr.mode.privileged) v).restored s.cfg = some p) : s.AllowsStatus p := by
  obtain ⟨m, hm, rfl⟩ := Psr.restored_cases hp
  refine ⟨ht, fun (e : m = .system) => Mode.ofBits_system (e ▸ hm), fun huser => ?_⟩
  have hcontrol : (control && s.cpsr.mode.privileged) = false := by simp [huser, Mode.privileged]
  rw [hcontrol] at hm
  refine ⟨Mode.eq_user_of_bits ?_, ?_⟩
  · rw [← huser]
    exact Mode.ofBits_bits hm
  · rw [hcontrol]
    exact ⟨rfl, rfl⟩

theorem Ending.moveToStatus (r : Bool) (fieldMask : BitVec 4) (operand : Word) : Ending s (moveToStatus r fieldMask operand s) := by
  refine .ite (fun _ => ?spsr) fun _ => .ite (fun _ => .refused _) fun ht => ?cpsr
  case spsr =>
    split
    · exact .refused _
    · exact .advance (.setSpsr .refl _)
  case cpsr =>
    split
    · exact .refused _
    · next p hp => exact .status (allowsStatus_of_restored (not_not.1 ht) hp)

/-! ### Every instruction -/

/-- Every instruction ends in one of the six ways, after updates of the eight kinds. -/
theorem exec_ending (i : Instr) (s : State) : Ending s (exec i s) := by
  cases i
  case andImm | eorImm | subImm | rsbImm | addImm | adcImm | sbcImm | rscImm | tstImm | teqImm | cmpImm | cmnImm | orrImm
      | movImm | bicImm | mvnImm | andReg | eorReg | subReg | rsbReg | addReg | adcReg | sbcReg | rscReg | tstReg | teqReg
      | cmpReg | cmnReg | orrReg | movReg | bicReg | mvnReg =>
    exact .conditional (.dataProcessing _ _ _ _ _)
  case andRsr | eorRsr | subRsr | rsbRsr | addRsr | adcRsr | sbcRsr | rscRsr | tstRsr | teqRsr | cmpRsr | cmnRsr | orrRsr
      | movRsr | bicRsr | mvnRsr =>
    exact .conditional (.unlessRefused fun _ => .dataProcessing _ _ _ _ _)
  case b => exact .b _
  case bl => exact .bl _
  case bx => exact .bx _
  case blxReg => exact .blxReg _
  case blxImm => exact .blxImm _ _
  case swi => exact .swi
  case mul | mla => exact .multiply32 _ _ _ _ _ _
  case umull | umlal | smull | smlal => exact .multiply64 _ _ _ _ _ _
  case clz => exact .clz _ _
  case ldrImmPre | ldrImmPost | ldrRegPre | ldrRegPost | ldrtImm | ldrtReg => exact .loadWordTransfer _ _ _ _ _ _ _
  case ldrbImmPre | ldrbImmPost | ldrbRegPre | ldrbRegPost | ldrbtImm | ldrbtReg => exact .loadByteTransfer _ _ _ _ _ _ _
  case strImmPre | strImmPost | strRegPre | strRegPost | strtImm | strtReg => exact .storeWordTransfer _ _ _ _ _ _ _
  case strbImmPre | strbImmPost | strbRegPre | strbRegPost | strbtImm | strbtReg => exact .storeByteTransfer _ _ _ _ _ _ _
  case ldrhImm | ldrhReg | ldrshImm | ldrshReg => exact .gated fun _ => .loadHalfTransfer _ _ _ _ _ _ _
  case ldrsbImm | ldrsbReg => exact .gated fun _ => .loadSignedByteTransfer _ _ _ _ _ _
  case strhImm | strhReg => exact .gated fun _ => .storeHalfTransfer _ _ _ _ _ _
  case stm => exact .stm _ _ _ _ _
  case ldm => exact .ldm _ _ _ _ _
  case ldmReturn => exact .ldmReturn _ _ _ _ _
  case ldmUser => exact .ldmUser _ _ _ _ _
  case stmUser => exact .stmUser _ _ _ _ _
  case swp => exact .swp _ _ _
  case swpb => exact .swpb _ _ _
  case mrs => exact .mrs _ _
  case msrReg | msrImm => exact .conditional (.ite (fun _ => .refused _) fun _ => .moveToStatus _ _ _)
  case undefinedSpace | coprocLdcStc | coprocCdpMrcMcr => exact .conditional (.undefinedTrap s)

end Sys2Proof.Machine
end

section
/-! SUPPORT. The invariant of good states (`State.Inv`): every way a step can end keeps it. -/

namespace Sys2Proof.Machine

variable {s t u : State} {r : Result}

/-! ### Memory and the list of written words -/

theorem State.atAccess_keepsMemoryWf (h : s.MemoryWf) : s.atAccess.MemoryWf := ⟨State.atAccess_memoryWf h.1, h.2⟩

/-- No update of an instruction takes memory or the list of written words out of the canonical form. -/
theorem Effects.memoryWf (h : Effects s u) (hs : s.MemoryWf) : u.MemoryWf := by
  induction h with
  | refl => exact hs
  | setCell _ _ _ ih | setSpsr _ _ ih => simpa [State.MemoryWf] using ih
  | setFlags _ _ _ _ _ ih | drawn _ ih => exact ih
  | atAccess _ ih => exact State.atAccess_keepsMemoryWf ih
  | storeWord _ _ _ ih => exact State.storeWord_memoryWf _ _ ih
  | storeHalf _ ha _ ih => exact State.storeHalf_memoryWf _ ha ih
  | storeByte _ _ _ ih => exact State.storeByte_memoryWf _ _ ih

theorem State.Inv.memoryWf (h : s.Inv) : s.MemoryWf := ⟨h.1, h.2.1⟩

/-! ### Exceptions and instructions -/

/-- A handler starts in ARM state, at an aligned vector and in no System mode (60_exceptions.md R340). -/
theorem takeException_inv (e : Exception) (link : Word) (hs : s.MemoryWf) : (takeException e link s).Inv := by
  obtain ⟨hm, hw⟩ := hs
  exact ⟨by simpa using hm, by simpa using hw, e.vector_aligned, nofun, fun h => absurd h e.mode_ne_system⟩

/-- In ARM state the sequential advance keeps the pc aligned (10_state.md R26). -/
theorem advance_inv (hm : u.MemoryWf) (ht : u.cpsr.t = false) (hpc : u.pc.extractLsb' 0 2 = 0#2)
    (hsys : u.cpsr.mode = .system → u.cfg.hasSystemMode = true) : EndsIn State.Inv (advance u) := by
  refine .advance ⟨hm.1, hm.2, ?_, fun h => ?_, hsys⟩
  · rw [State.PcAligned, State.setPc_cpsr, ht]
    exact aligned_add_four hpc
  · exact absurd (ht.symm.trans h) (by decide)

/-- The exception return leaves a T bit that the processor has, a mode it has, and a target aligned for the T bit (R178, R286). -/
theorem exceptionReturn_inv (target : Word) (hm : u.MemoryWf) : EndsIn State.Inv (exceptionReturn target u) := by
  intro t h
  obtain ⟨p, q, -, hq, harm, hthumb, rfl⟩ := exceptionReturn_next h
  obtain ⟨m, hmode, rfl⟩ := Psr.restored_cases hq
  refine ⟨hm.1, hm.2, ?_, Cpsr.limitT_t, fun (e : m = .system) => Mode.ofBits_system (e ▸ hmode)⟩
  unfold State.PcAligned
  split
  · next ht => exact hthumb ht
  · next ht => exact harm (by simpa using ht)

/-- An instruction that starts in ARM state, in a good state, ends in a good state. -/
theorem Ending.inv (h : Ending s r) (hs : s.Inv) (ht : s.cpsr.t = false) (hpc : s.pc.extractLsb' 0 2 = 0#2) : EndsIn State.Inv r := by
  obtain ⟨-, -, -, -, hsys⟩ := id hs
  cases h with
  | refused r => exact .refused r
  | advance hu =>
    exact advance_inv (hu.memoryWf hs.memoryWf) (hu.thumb.trans ht) (by rwa [hu.pc]) (by rwa [hu.mode, hu.cfg])
  | status hp =>
    obtain ⟨hpt, hpsys, -⟩ := hp
    exact advance_inv hs.memoryWf (hpt.trans ht) hpc hpsys
  | exception e link hu => exact .next (takeException_inv e link (hu.memoryWf hs.memoryWf))
  | exceptionReturn target hu => exact exceptionReturn_inv target (hu.memoryWf hs.memoryWf)
  | branch hu hthumb ha =>
    obtain ⟨hm, hw⟩ := hu.memoryWf hs.memoryWf
    refine .next ⟨hm, hw, (alignedFor_iff _ _).1 (ha hpc), fun h => ?_, fun h => ?_⟩
    · rcases hthumb h with h | h
      · exact absurd (ht.symm.trans h) (by decide)
      · exact hu.cfg ▸ h
    · exact hu.cfg ▸ hsys (hu.mode ▸ h)

/-! ### Steps -/

/-- The invariant does not speak of the levels of the lines, nor of what other agents will write. -/
theorem State.Inv.congr (h : s.Inv) (hm : t.MemoryWf) (hpc : t.pc = s.pc) (hcpsr : t.cpsr = s.cpsr) (hcfg : t.cfg = s.cfg) : t.Inv := by
  obtain ⟨-, -, hal, ht, hsys⟩ := h
  refine ⟨hm.1, hm.2, ?_, ?_, ?_⟩
  · rwa [State.PcAligned, hpc, hcpsr]
  · rwa [hcpsr, hcfg]
  · rwa [hcpsr, hcfg]

theorem State.Inv.atAccess (h : s.Inv) : s.atAccess.Inv := h.congr (State.atAccess_keepsMemoryWf h.memoryWf) rfl rfl rfl

theorem State.Inv.afterInputs (h : s.Inv) : s.afterInputs.Inv := h

/-- The instruction at the pc keeps the invariant, whether its fetch is aborted or goes on. -/
theorem runInstruction_inv (hs : s.Inv) : EndsIn State.Inv (runInstruction s) := by
  intro t h
  obtain ⟨ht, hpc, hfetch⟩ := runInstruction_next h
  rcases fetchAndRun_next hfetch with ⟨-, rfl⟩ | ⟨-, -, i, -, hexec⟩
  · exact takeException_inv _ _ hs.atAccess.memoryWf
  · exact (exec_ending i s.atAccess).inv hs.atAccess ht hpc t hexec

theorem mixBytes_memWf (new : Memory) {l : List Nat} (hl : ∀ a ∈ l, a < 2 ^ 32) (hs : s.mem.wf = true) :
    (mixBytes new l s).mem.wf = true := by
  induction l generalizing s with
  | nil => exact hs
  | cons a rest ih =>
    refine ih (fun b hb => hl b (List.mem_cons_of_mem _ hb)) ?_
    split_ifs
    · exact hs
    · exact Memory.wf_write _ hs (hl a List.mem_cons_self)
    · exact hs

/-- Bytes that the cut-short instruction was writing lie in the address space (70_reset_and_hazards.md R380). -/
theorem cutShort_memWf (hs : s.Inv) : (cutShort s).mem.wf = true := by
  unfold cutShort
  split
  · next t ht =>
    have hnew : t.Inv := runInstruction_inv (s := s.setBus []) hs t ht
    refine mixBytes_memWf t.mem ?_ hs.memoryWf.1
    simp only [List.mem_map, List.mem_append]
    rintro a ⟨x, hx | hx, rfl⟩
    · exact Memory.key_lt hs.memoryWf.1 hx
    · exact Memory.key_lt hnew.memoryWf.1 hx
  · exact hs.memoryWf.1

@[simp] theorem State.freeCells_mem (l : List Cell) (s : State) : (s.freeCells l).mem = s.mem := by
  induction l generalizing s with
  | nil => rfl
  | cons c rest ih => simp [State.freeCells, ih, State.drawn]

theorem resetEvent_mem (s : State) : (resetEvent s).mem = (cutShort s.atAccess).mem := by
  simp [resetEvent, State.freeSpsrs, State.drawn]

/-- A reset leaves SVC mode in ARM state at address 0, and nothing counts as written (10_state.md R45). -/
theorem resetEvent_inv (hs : s.Inv) : (resetEvent s).Inv := by
  refine ⟨?_, rfl, (rfl : (0x00000000#32 : Word).extractLsb' 0 2 = 0#2), nofun, nofun⟩
  rw [resetEvent_mem]
  exact cutShort_memWf hs.atAccess

/-- Events and instructions keep the invariant. -/
theorem stepEvents_inv (x : Inputs) (hs : s.Inv) : EndsIn State.Inv (stepEvents x s) := by
  intro t h
  rcases stepEvents_next h with ⟨-, rfl⟩ | ⟨-, rfl⟩ | ⟨-, rfl⟩ | ⟨-, hrun⟩
  · exact resetEvent_inv hs
  · exact takeException_inv _ _ hs.memoryWf
  · exact takeException_inv _ _ hs.memoryWf
  · exact runInstruction_inv hs t hrun

theorem step_inv (hs : s.Inv) : EndsIn State.Inv (step s) := stepEvents_inv _ hs.afterInputs

/-! ### No faults -/

/-- No instruction faults. -/
theorem Ending.not_fault (h : Ending s r) (f : Fault) : r ≠ .fault f := by
  cases h with
  | refused | exception | branch => exact nofun
  | advance | status => exact advance_not_fault _ f
  | exceptionReturn => exact exceptionReturn_not_fault _ _ f

theorem stepEvents_fault {x : Inputs} {f : Fault} (h : stepEvents x s = .fault f) : runInstruction s = .fault f := by
  unfold stepEvents at h
  split_ifs at h
  exact h

/-- A step faults only by a fetch in ARM state from a misaligned pc, which the invariant excludes (10_state.md R25). -/
theorem step_not_fault (hs : s.Inv) (f : Fault) : step s ≠ .fault f := by
  intro h
  obtain ⟨ht, hmisaligned | ⟨i, -, hexec⟩⟩ := runInstruction_fault (stepEvents_fault h)
  · obtain ⟨-, -, haligned, -, -⟩ := hs
    rw [State.PcAligned, show s.cpsr.t = false from ht] at haligned
    exact hmisaligned haligned
  · exact (exec_ending i _).not_fault f hexec

/-- A run that faults does so at its first step, or goes on from there to fault. -/
theorem run_succ_fault {M : Host.Core} {k : Nat} {s : M.State} {f : M.Fault} (h : M.run (k + 1) s = .fault f) :
    M.step s = .fault f ∨ ∃ t, M.step s = .next t ∧ M.run k t = .fault f := by
  rw [Host.Core.run] at h
  split at h
  · next t ht => exact .inr ⟨t, ht, h⟩
  · next hf => exact .inl (hf.trans (by injection h with h; rw [h]))
  · cases h

/-- A property that every step keeps and that excludes a fault at the next step excludes one for ever. -/
theorem safe_of_kept {P : State → Prop} (hstep : ∀ s, P s → EndsIn P (step s)) (hfault : ∀ s, P s → ∀ f, step s ≠ .fault f)
    (hs : P s) : s.Safe := by
  intro k f
  induction k generalizing s with
  | zero => exact nofun
  | succ k ih =>
    intro h
    rcases run_succ_fault h with hf | ⟨t, ht, hrest⟩
    · exact hfault s hs f hf
    · exact ih (hstep s hs t ht) hrest

end Sys2Proof.Machine
end

section
/-! SUPPORT. What User mode cannot change (10_state.md R23, R32, 60_exceptions.md R365): the interrupt masks, the SPSRs and the
registers it does not see. -/

namespace Sys2Proof.Machine

variable {s t u : State} {r : Result}

/-- The masks, the SPSRs and the registers that User mode does not see are those of `s`. -/
def State.KeepsPrivileged (s t : State) : Prop :=
  t.cpsr.i = s.cpsr.i ∧ t.cpsr.f = s.cpsr.f ∧ t.spsr = s.spsr ∧ ∀ c ∈ privilegedCells, t.cell c = s.cell c

theorem bank_user_not_privileged (r : RegNum) : bank .user r ∉ privilegedCells := by
  revert r
  decide

theorem ne_pc_of_privileged {c : Cell} (h : c ∈ privilegedCells) : c ≠ .pc := by
  rintro rfl
  exact absurd h (by decide)

/-- User mode writes only registers that it sees. -/
theorem State.Writable.not_privileged {c : Cell} (h : s.Writable c) (hs : s.cpsr.mode = .user) : c ∉ privilegedCells := by
  obtain ⟨m, r, hm, -, rfl⟩ := h
  have huser : m = .user := hm.elim (·.trans hs) id
  exact huser ▸ bank_user_not_privileged r

theorem Effects.spsr_of_user (h : Effects s u) (hs : s.cpsr.mode = .user) : u.spsr = s.spsr := by
  induction h with
  | refl => rfl
  | setCell _ _ _ ih => simpa using ih
  | setSpsr _ _ ih => rwa [hs]
  | setFlags _ _ _ _ _ ih | drawn _ ih | atAccess _ ih | storeWord _ _ _ ih | storeHalf _ _ _ ih | storeByte _ _ _ ih => exact ih

theorem Effects.cell_of_user (h : Effects s u) (hs : s.cpsr.mode = .user) {c : Cell} (hc : c ∈ privilegedCells) :
    u.cell c = s.cell c := by
  induction h with
  | refl => rfl
  | @setCell u d _ hd v ih =>
    have hne : c ≠ d := fun e => hd.not_privileged hs (e ▸ hc)
    exact (State.setCell_cell_ne u v hne).trans ih
  | setFlags _ _ _ _ _ ih | setSpsr _ _ ih | atAccess _ ih | storeWord _ _ _ ih | storeHalf _ _ _ ih | storeByte _ _ _ ih =>
    simpa using ih
  | drawn _ ih => simpa [State.drawn] using ih

/-- No update of an instruction that runs in User mode touches privileged state. -/
theorem Effects.keepsPrivileged (h : Effects s u) (hs : s.cpsr.mode = .user) : s.KeepsPrivileged u :=
  ⟨h.masks.1, h.masks.2, h.spsr_of_user hs, fun _ hc => h.cell_of_user hs hc⟩

theorem State.KeepsPrivileged.setPc (h : s.KeepsPrivileged u) (a : Word) : s.KeepsPrivileged (u.setPc a) := by
  obtain ⟨hi, hf, hspsr, hcell⟩ := h
  exact ⟨hi, hf, hspsr, fun c hc => (State.setPc_cell u a (ne_pc_of_privileged hc)).trans (hcell c hc)⟩

theorem State.KeepsPrivileged.setCpsr (h : s.KeepsPrivileged u) {p : Cpsr} (hi : p.i = s.cpsr.i) (hf : p.f = s.cpsr.f) :
    s.KeepsPrivileged (u.setCpsr p) := by
  obtain ⟨-, -, hspsr, hcell⟩ := h
  exact ⟨hi, hf, hspsr, fun c hc => by simpa using hcell c hc⟩

/-- An exception is the way out of User mode (60_exceptions.md R366). -/
theorem takeException_mode_ne_user (e : Exception) (link : Word) (s : State) : (takeException e link s).cpsr.mode ≠ .user :=
  e.mode_ne_user

/-- User mode has no SPSR to return from (10_state.md R36). -/
theorem exceptionReturn_of_user (target : Word) (h : u.cpsr.mode = .user) : exceptionReturn target u = .refused .noSpsr := by
  simp [exceptionReturn, h, State.spsrOf]

/-- Wherever an instruction of a User program ends in User mode, privileged state is as it was. -/
theorem Ending.keepsPrivileged (h : Ending s r) (hs : s.cpsr.mode = .user) :
    EndsIn (fun t => t.cpsr.mode = .user → s.KeepsPrivileged t) r := by
  cases h with
  | refused r => exact .refused r
  | advance hu => exact .advance fun _ => (hu.keepsPrivileged hs).setPc _
  | status hp =>
    obtain ⟨-, -, huser⟩ := hp
    obtain ⟨-, hi, hf⟩ := huser hs
    exact .advance fun _ => ((Effects.refl.keepsPrivileged hs).setCpsr hi hf).setPc _
  | exception e link _ => exact .next fun hmode => absurd hmode (takeException_mode_ne_user e link _)
  | exceptionReturn target hu =>
    rw [exceptionReturn_of_user target (hu.mode.trans hs)]
    exact .refused _
  | branch hu _ _ =>
    refine .next fun _ => State.KeepsPrivileged.setPc ?_ _
    exact (hu.keepsPrivileged hs).setCpsr hu.masks.1 hu.masks.2

theorem runInstruction_keepsPrivileged (hs : s.cpsr.mode = .user) :
    EndsIn (fun t => t.cpsr.mode = .user → s.KeepsPrivileged t) (runInstruction s) := by
  intro t h hmode
  obtain ⟨-, -, hfetch⟩ := runInstruction_next h
  rcases fetchAndRun_next hfetch with ⟨-, rfl⟩ | ⟨-, -, i, -, hexec⟩
  · exact absurd hmode (takeException_mode_ne_user _ _ _)
  · have kept : s.atAccess.KeepsPrivileged t := (exec_ending i s.atAccess).keepsPrivileged hs t hexec hmode
    simpa [State.KeepsPrivileged] using kept

/-- A step that stays in User mode was an instruction, since every event leaves it. -/
theorem stepEvents_keepsPrivileged (x : Inputs) (hs : s.cpsr.mode = .user) :
    EndsIn (fun t => t.cpsr.mode = .user → s.KeepsPrivileged t) (stepEvents x s) := by
  intro t h hmode
  rcases stepEvents_next h with ⟨-, rfl⟩ | ⟨-, rfl⟩ | ⟨-, rfl⟩ | ⟨-, hrun⟩
  · exact absurd hmode (by decide : Mode.svc ≠ .user)
  · exact absurd hmode (takeException_mode_ne_user _ _ _)
  · exact absurd hmode (takeException_mode_ne_user _ _ _)
  · exact runInstruction_keepsPrivileged hs t hrun hmode

end Sys2Proof.Machine
end

section
/-! SUPPORT. The bank table of 10_state.md R22, row by row. -/

namespace Sys2Proof.Machine

/-- The number under which the modes that see a register name it, the row of the table of R22 it stands in. -/
def Cell.number : Cell → RegNum
  | .r0 => 0
  | .r1 => 1
  | .r2 => 2
  | .r3 => 3
  | .r4 => 4
  | .r5 => 5
  | .r6 => 6
  | .r7 => 7
  | .r8 | .r8_fiq => 8
  | .r9 | .r9_fiq => 9
  | .r10 | .r10_fiq => 10
  | .r11 | .r11_fiq => 11
  | .r12 | .r12_fiq => 12
  | .r13 | .r13_fiq | .r13_irq | .r13_svc | .r13_abt | .r13_und => 13
  | .r14 | .r14_fiq | .r14_irq | .r14_svc | .r14_abt | .r14_und => 14
  | .pc => 15

theorem bank_number (m : Mode) (r : RegNum) : (bank m r).number = r := by
  cases m <;> revert r <;> decide

/-- Only one number denotes a register, whatever the modes. -/
theorem number_eq_of_bank_eq {m m' : Mode} {r q : RegNum} (h : bank m r = bank m' q) : r = q := by
  rw [← bank_number m r, h, bank_number]

variable {r : RegNum}

theorem bank_eq_of_unbanked (h : r ≤ 7 ∨ r = 15) (m m' : Mode) : bank m r = bank m' r := by
  revert r
  cases m <;> cases m' <;> decide

theorem bank_eq_iff_fiq (h : 8 ≤ r ∧ r ≤ 12) (m m' : Mode) : bank m r = bank m' r ↔ (m = .fiq ↔ m' = .fiq) := by
  revert r
  cases m <;> cases m' <;> decide

theorem bank_eq_iff_userSystem (h : 13 ≤ r ∧ r ≤ 14) (m m' : Mode) :
    bank m r = bank m' r ↔ m = m' ∨ ((m = .user ∨ m = .system) ∧ (m' = .user ∨ m' = .system)) := by
  revert r
  cases m <;> cases m' <;> decide

/-- The three kinds of rows of the table. -/
theorem regNum_rows (r : RegNum) : (r ≤ 7 ∨ r = 15) ∨ (8 ≤ r ∧ r ≤ 12) ∨ (13 ≤ r ∧ r ≤ 14) := by
  revert r
  decide

end Sys2Proof.Machine
end

section
/-! SUPPORT. The exception returns of the data processing instructions without Thumb (43_data_processing.md R178; log 16). -/

namespace Sys2Proof.Machine

/-- Both forms of an operation that may write the pc return with T = 0; `value` is the operation as arithmetic. -/
theorem returnsWithoutThumb_of_forms {op : DpOp} {cond : Cond} {rn : RegNum} {imm : BitVec 4 → BitVec 8 → Instr}
    {reg : BitVec 5 → ShiftType → RegNum → Instr} {s : State} {q : Psr} {m : Mode} {value : Word → Word}
    (ht : s.cfg.hasThumb = false) (hc : conditionPassed cond s.cpsr = true) (hq : s.spsrOf s.cpsr.mode = some q)
    (hm : Mode.ofBits s.cfg q.m = some m)
    (himm : ∀ rot imm8, exec (imm rot imm8) s = dpImmediate op cond true rn 15 rot imm8 s)
    (hreg : ∀ amount sh rm, exec (reg amount sh rm) s = dpShiftedRegister op cond true rn 15 amount sh rm s)
    (hw : writesRd op = true) (hv : ∀ b, (alu op (s.reg rn) b s.cpsr.c).result = value b) :
    BothPcForms imm reg s fun i b => ReturnsWithoutThumb i (value b) q m s fun t => RegisterFrame [] s t := by
  have result (operand : Shifted) : dataProcessing op true rn 15 operand s
      = writeResult true 15 (alu op (s.reg rn) operand.value s.cpsr.c) operand.carry s := if_pos hw
  constructor
  · intro rot imm8
    exact returnsWithoutThumb_of_writeResult ((himm rot imm8).trans ((dpImmediate_run hc).trans (result _))) (hv _) ht hq hm
  · intro amount sh rm
    exact returnsWithoutThumb_of_writeResult ((hreg amount sh rm).trans ((dpShiftedRegister_run hc).trans (result _))) (hv _) ht
      hq hm

/-- The return by LDM, once its restrictions hold and no word faults (47_multiple_transfer.md R286). -/
theorem execLdmReturn_run {s : State} {cond : Cond} {q : Psr} {p u w : Bool} {rn : RegNum} {list : BitVec 16}
    (hc : conditionPassed cond s.cpsr = true) (hq : s.spsrOf s.cpsr.mode = some q) (hn : ¬ BlockRestricted w rn list)
    (hfit : s.BlockFits p u rn list) (hf : ¬ s.BlockFaults p u rn list .read) :
    execLdmReturn cond p u w rn list s
      = exceptionReturn (s.blockValue p u rn list ((listedRegs list).length - 1))
          (((s.atBlockEnd list).blockBase u w rn list).loadRegs s.cpsr.mode list
            (s.readWords (blockAddresses (s.blockFrom p u rn list) (listedRegs list).length))) := by
  have hspsr : needsSpsr s = none := by simp [needsSpsr, hq]
  have hpos : 0 < (listedRegs list).length := listedRegs_length_pos fun e => hn (.inl e)
  have nofault : s.blockFaults (blockAddresses (s.blockFrom p u rn list) (listedRegs list).length) .read = false :=
    Bool.eq_false_iff.2 fun h => hf (blockFaults_iff.1 h)
  unfold execLdmReturn
  rw [conditional_passed hc, blockCheck_allowed hn, hspsr]
  simp only [unlessRefused_none]
  rw [withBlock_of hfit]
  simp only [State.atAccessNo_block, State.atBlockEnd_blockFaults, nofault, State.atBlockEnd_cpsr, loadedPc_eq hpos]
  rfl

theorem returnsWithoutThumb_of_ldmReturn {s : State} {cond : Cond} {q : Psr} {m : Mode} {p u w : Bool} {rn : RegNum}
    {list : BitVec 16} (ht : s.cfg.hasThumb = false) (hc : conditionPassed cond s.cpsr = true)
    (hq : s.spsrOf s.cpsr.mode = some q) (hm : Mode.ofBits s.cfg q.m = some m) (hn : ¬ BlockRestricted w rn list)
    (hfit : s.BlockFits p u rn list) (hf : ¬ s.BlockFaults p u rn list .read) :
    ReturnsWithoutThumb (.ldmReturn cond p u w rn list) (s.blockValue p u rn list ((listedRegs list).length - 1)) q m s
      fun t => BlockLoaded s.cpsr.mode p u w rn list s t := by
  obtain ⟨loaded, hcpsr, -⟩ := blockLoaded_of_loadRegs (p := p) (u := u) hn _ rfl fun _ => (rfl : s.cpsr.mode = _)
  obtain ⟨-, -, -, hspsr, -, hcfg, -⟩ := id loaded
  exact returnsWithoutThumb_of_exceptionReturn (execLdmReturn_run hc hq hn hfit hf) hcpsr
    (hspsr.trans (s.atBlockEnd_spsr list)) (hcfg.trans (s.atBlockEnd_cfg list)) ht hq hm
    fun p => (loaded.setCpsr p).setPc hn _

end Sys2Proof.Machine
end

section
/-! The obligations about the state (10_state.md). -/

namespace Sys2Proof.Proofs

open Sys2Proof Sys2Proof.Machine

/-- Settles O14: every end of a step keeps the invariant. -/
theorem stepKeepsTheInvariant : Obligations.StepKeepsTheInvariant := fun _ t hs h => step_inv hs t h

/-- Settles O15, by induction on the number of steps, with the invariant that every step keeps. -/
theorem goodStatesNeverFault : Obligations.GoodStatesNeverFault :=
  fun _ hs => safe_of_kept (fun _ => step_inv) (fun _ => step_not_fault) hs

/-- Settles O18: what stays in User mode is an instruction, and none of the ways it can end there touches privileged state. -/
theorem userProgramsKeepPrivilegedState : Obligations.UserProgramsKeepPrivilegedState := by
  intro s t hs h hmode
  have kept : s.afterInputs.KeepsPrivileged t := stepEvents_keepsPrivileged (s := s.afterInputs) s.nextInputs hs t h hmode
  simpa [State.KeepsPrivileged] using kept

/-- Settles O32: the twelve operations by what the adder gives, LDM by what a completed load leaves. -/
theorem returnWithoutThumbLeavesTZero : Obligations.ReturnWithoutThumbLeavesTZero := by
  intro s cond q m p u w rn list ht hc hq hm _
  refine ⟨?and, ?eor, ?sub, ?rsb, ?add, ?adc, ?sbc, ?rsc, ?orr, ?mov, ?bic, ?mvn, ?ldm⟩
  case ldm => exact fun _ hn hfit hf => returnsWithoutThumb_of_ldmReturn ht hc hq hm hn hfit hf
  all_goals refine returnsWithoutThumb_of_forms ht hc hq hm (fun _ _ => rfl) (fun _ _ _ => rfl) rfl ?_
  case and | eor | orr | mov | bic | mvn => exact fun _ => rfl
  case sub => exact addWithCarry_sub_result _
  case rsb => exact fun b => addWithCarry_sub_result b _
  case add => exact addWithCarry_add_result _
  case adc => exact fun b => addWithCarry_adc_result _ b _
  case sbc => exact fun b => addWithCarry_sbc_result _ b _
  case rsc => exact fun b => addWithCarry_sbc_result b _ _

/-- Settles O8: State.reset is plain data. -/
theorem resetStateHasTheSpecsValues : Obligations.ResetStateHasTheSpecsValues := ⟨rfl, rfl, rfl, rfl, rfl⟩

/-- Settles O13: the empty lists are in canonical form, address 0 is aligned, T is 0 and the mode is SVC. -/
theorem resetMeetsTheInvariant : Obligations.ResetMeetsTheInvariant := ⟨rfl, rfl, rfl, nofun, nofun⟩

/-- Settles O60: a register has one number, and each kind of row of the table says which modes share it. -/
theorem modesShareRegistersAsTheBankTableSays : Obligations.ModesShareRegistersAsTheBankTableSays := by
  intro m m' r q
  constructor
  · intro h
    obtain rfl := number_eq_of_bank_eq h
    refine ⟨rfl, ?_⟩
    rcases regNum_rows r with (hlow | hpc) | hfiq | hlink
    · exact .inl hlow
    · exact .inr (.inl hpc)
    · exact .inr (.inr (.inl ⟨hfiq.1, hfiq.2, (bank_eq_iff_fiq hfiq m m').1 h⟩))
    · exact .inr (.inr (.inr ⟨hlink.1, hlink.2, (bank_eq_iff_userSystem hlink m m').1 h⟩))
  · rintro ⟨rfl, hlow | hpc | ⟨h8, h12, hfiq⟩ | ⟨h13, h14, hmodes⟩⟩
    · exact bank_eq_of_unbanked (.inl hlow) m m'
    · exact bank_eq_of_unbanked (.inr hpc) m m'
    · exact (bank_eq_iff_fiq ⟨h8, h12⟩ m m').2 hfiq
    · exact (bank_eq_iff_userSystem ⟨h13, h14⟩ m m').2 hmodes

end Sys2Proof.Proofs
end

section
/-! SUPPORT. Words, half-words and bytes of memory in both byte orders (20_memory.md R62 to R64), and a word rotated by whole
bytes (R66). -/

namespace Sys2Proof.Machine

/-! ### A word and its bytes -/

theorem wordByte_little (v : Word) (k : Nat) : wordByte false v k = v.extractLsb' (8 * k) 8 := rfl

theorem wordByte_big (v : Word) (k : Nat) : wordByte true v k = v.extractLsb' (24 - 8 * k) 8 := rfl

/-- A word is its four bytes joined, the highest first. -/
theorem extractLsb'_bytes_append (v : Word) :
    v.extractLsb' 24 8 ++ v.extractLsb' 16 8 ++ v.extractLsb' 8 8 ++ v.extractLsb' 0 8 = v := by
  have upper : v.extractLsb' 24 8 ++ v.extractLsb' 16 8 = v.extractLsb' 16 16 :=
    BitVec.extractLsb'_append_extractLsb'_eq_extractLsb' rfl
  have upperThree : v.extractLsb' 16 16 ++ v.extractLsb' 8 8 = v.extractLsb' 8 24 :=
    BitVec.extractLsb'_append_extractLsb'_eq_extractLsb' rfl
  have whole : v.extractLsb' 8 24 ++ v.extractLsb' 0 8 = v.extractLsb' 0 32 :=
    BitVec.extractLsb'_append_extractLsb'_eq_extractLsb' rfl
  rw [upper, upperThree, whole, BitVec.extractLsb'_eq_self]

theorem joinWord_wordByte (be : Bool) (v : Word) :
    joinWord be (wordByte be v 0) (wordByte be v 1) (wordByte be v 2) (wordByte be v 3) = v := by
  cases be <;> exact extractLsb'_bytes_append v

/-- Two neighbouring bytes of a word, joined in the little-endian order. -/
theorem joinHalf_wordByte_little (v : Word) (j : Nat) :
    joinHalf false (wordByte false v (2 * j)) (wordByte false v (2 * j + 1)) = v.extractLsb' (16 * j) 16 := by
  have hlow : 8 * (2 * j) = 16 * j := by omega
  have hhigh : 8 * (2 * j + 1) = 16 * j + 8 := by omega
  rw [wordByte_little, wordByte_little, hlow, hhigh]
  exact BitVec.extractLsb'_append_extractLsb'_eq_extractLsb' rfl

/-- Two neighbouring bytes of a word, joined in the big-endian order: the first is the upper one. -/
theorem joinHalf_wordByte_big (v : Word) {j : Nat} (hj : j < 2) :
    joinHalf true (wordByte true v (2 * j)) (wordByte true v (2 * j + 1)) = v.extractLsb' (16 - 16 * j) 16 := by
  have hhigh : 24 - 8 * (2 * j) = 16 - 16 * j + 8 := by omega
  have hlow : 24 - 8 * (2 * j + 1) = 16 - 16 * j := by omega
  rw [wordByte_big, wordByte_big, hlow, hhigh]
  exact BitVec.extractLsb'_append_extractLsb'_eq_extractLsb' rfl

/-- A byte joined on below moves every other byte one place up. -/
theorem extractLsb'_append_byte {n : Nat} (high : BitVec n) (low : Byte) (k : Nat) :
    (high ++ low).extractLsb' (8 * (k + 1)) 8 = high.extractLsb' (8 * k) 8 :=
  BitVec.extractLsb'_append_eq_of_le (Nat.le_add_left 8 (8 * k))

/-- The bytes of four joined bytes, from the lowest on. -/
theorem extractLsb'_of_bytes_append (b3 b2 b1 b0 : Byte) :
    (b3 ++ b2 ++ b1 ++ b0).extractLsb' 0 8 = b0 ∧ (b3 ++ b2 ++ b1 ++ b0).extractLsb' 8 8 = b1
      ∧ (b3 ++ b2 ++ b1 ++ b0).extractLsb' 16 8 = b2 ∧ (b3 ++ b2 ++ b1 ++ b0).extractLsb' 24 8 = b3 := by
  refine ⟨BitVec.extractLsb'_append_eq_right, ?second, ?third, ?fourth⟩
  case second => exact (extractLsb'_append_byte _ _ 0).trans BitVec.extractLsb'_append_eq_right
  case third =>
    exact (extractLsb'_append_byte _ _ 1).trans <| (extractLsb'_append_byte _ _ 0).trans BitVec.extractLsb'_append_eq_right
  case fourth =>
    exact (extractLsb'_append_byte _ _ 2).trans <| (extractLsb'_append_byte _ _ 1).trans <|
      (extractLsb'_append_byte b3 b2 0).trans BitVec.extractLsb'_eq_self

/-- Byte `k` of a word that is read is the byte of memory `k` after the word's address. -/
theorem Memory.wordByte_readWord (be : Bool) (m : Memory) (a : Nat) {k : Nat} (hk : k < 4) :
    wordByte be (m.readWord be a) k = m.read (a + k) := by
  have place : k = 0 ∨ k = 1 ∨ k = 2 ∨ k = 3 := by omega
  cases be with
  | false =>
    obtain ⟨h0, h1, h2, h3⟩ := extractLsb'_of_bytes_append (m.read (a + 3)) (m.read (a + 2)) (m.read (a + 1)) (m.read a)
    rcases place with rfl | rfl | rfl | rfl
    exacts [h0, h1, h2, h3]
  | true =>
    obtain ⟨h3, h2, h1, h0⟩ := extractLsb'_of_bytes_append (m.read a) (m.read (a + 1)) (m.read (a + 2)) (m.read (a + 3))
    rcases place with rfl | rfl | rfl | rfl
    exacts [h0, h1, h2, h3]

/-! ### Reading back a stored word -/

theorem Memory.readWord_writeWord {m : Memory} (be : Bool) (v : Word) {a : Nat} (h : m.wf = true) (ha : a + 3 < 2 ^ 32) :
    (m.writeWord be a v).readWord be a = v := by
  have stored {k : Nat} (hk : k < 4) := Memory.read_writeWord be v h ha hk
  have first := stored (k := 0) (by decide)
  rw [Nat.add_zero] at first
  rw [Memory.readWord, first, stored (k := 1) (by decide), stored (k := 2) (by decide), stored (k := 3) (by decide),
    joinWord_wordByte]

/-- The half-word read back from a stored word, in the order in which the word was stored, is two of its bytes joined. -/
theorem Memory.readHalf_writeWord {m : Memory} (be : Bool) (v : Word) {a j : Nat} (h : m.wf = true) (ha : a + 3 < 2 ^ 32)
    (hj : j < 2) :
    (m.writeWord be a v).readHalf be (a + 2 * j) = joinHalf be (wordByte be v (2 * j)) (wordByte be v (2 * j + 1)) := by
  rw [Memory.readHalf, Nat.add_assoc, Memory.read_writeWord be v h ha (by omega), Memory.read_writeWord be v h ha (by omega)]

/-! ### The rotated load -/

/-- Rotating a word right by `r` bytes moves byte `r + k`, counted round the word, to place `k`. -/
theorem ror32_byte (v : Word) {r k : Nat} (hr : r < 4) (hk : k < 4) :
    (ror32 v (8 * r)).extractLsb' (8 * k) 8 = v.extractLsb' (8 * ((r + k) % 4)) 8 := by
  refine BitVec.eq_of_getLsbD_eq fun i hi => ?_
  have hplace : (8 * k + i + 8 * r) % 32 = 8 * ((r + k) % 4) + i := by omega
  simp only [BitVec.getLsbD_extractLsb', hi, decide_true, Bool.true_and]
  rw [ror32_bit v _ _ (by omega) (by omega), hplace]

/-- At an aligned address nothing is rotated. -/
theorem State.loadWord_of_aligned (s : State) {a : Word} (h : a.extractLsb' 0 2 = 0#2) : s.loadWord a = s.wordAt a := by
  rw [State.loadWord, h]
  rfl

/-- Little-endian: byte `k` of a loaded word is the one `k` bytes on from the addressed byte, round the aligned word. -/
theorem State.loadWord_byte_little {s : State} (a : Word) {k : Nat} (hbe : s.cfg.bigEndian = false) (hk : k < 4) :
    (s.loadWord a).extractLsb' (8 * k) 8 = s.mem.read ((alignWord a).toNat + (a.toNat + k) % 4) := by
  rw [State.loadWord, low_bits_toNat, ror32_byte _ (Nat.mod_lt _ (by decide)) hk, Nat.mod_add_mod, State.wordAt, hbe]
  exact Memory.wordByte_readWord false _ _ (Nat.mod_lt _ (by decide))

/-- Without an offset the transfer is made at the base. -/
theorem indexed_zero_addr (p u w : Bool) (base : Word) : (indexed p u w base 0#32).addr = base := by
  cases p <;> cases u <;> simp [indexed]

end Sys2Proof.Machine
end

section
/-! SUPPORT. What counts as written, and the fetch of a written word (20_memory.md R82; log 12). -/

namespace Sys2Proof.Machine

theorem State.mem_noteStore_written (s : State) (a : Word) (x : Nat) :
    x ∈ (s.noteStore a).written ↔ x = (alignWord a).toNat ∨ x ∈ s.written := mem_noteWritten _ _ _

/-- Whether the fetch of a written word is incoherent is up to the platform. -/
theorem State.fetchIncoherent_of_written {s : State} (h : s.pc.toNat ∈ s.written) :
    s.fetchIncoherent = !s.cfg.ifetchCoherent := by
  simp [State.fetchIncoherent, h]

theorem fetchAndRun_of_incoherent {s : State} (hf : s.fetchFaults = false) (hi : s.fetchIncoherent = true) :
    fetchAndRun s = .refused .fetchOfWrittenWord := by
  simp [fetchAndRun, hf, hi]

end Sys2Proof.Machine
end

section
/-! The obligations about memory (20_memory.md). -/

namespace Sys2Proof.Proofs

open Sys2Proof Sys2Proof.Machine

/-- Settles O12: every store notes the word it falls in and no other, and the platform decides on the fetch of a written word. -/
theorem fetchOfAWrittenWordIsRefused : Obligations.FetchOfAWrittenWordIsRefused := by
  constructor
  · intro s a v b h x
    exact ⟨State.mem_noteStore_written _ a x, State.mem_noteStore_written _ a x, State.mem_noteStore_written _ a x⟩
  · intro s hno ht hpc hfault hwritten
    have hincoherent : s.atFetch.fetchIncoherent = !s.cfg.ifetchCoherent := State.fetchIncoherent_of_written hwritten
    constructor
    · intro hcfg
      rw [hcfg] at hincoherent
      rw [step_of_noEvent hno, runInstruction_of_aligned (s := s.afterInputs) ht hpc]
      exact fetchAndRun_of_incoherent hfault hincoherent
    · intro hcfg
      rw [hcfg] at hincoherent
      have hfetch : s.Fetches (s.atFetch.wordAt s.pc) := ⟨hno, ht, hpc, hfault, hincoherent, rfl⟩
      exact hfetch.step_eq.1

/-- Settles O49: a rotation by whole bytes; the refusal is one of the cases of a word load (45_single_transfer.md R244). -/
theorem unalignedWordLoadRotates : Obligations.UnalignedWordLoadRotates := by
  refine ⟨fun s a k hbe hk => State.loadWord_byte_little a hbe hk, fun s a h => s.loadWord_of_aligned h, ?refused⟩
  intro s cond u rn rd hbe halign hcond haddr
  have hload := wordLoad_of_loadWordTransfer (i := .ldrImmPre cond u false rn rd 0) (off := .imm 0) rfl hcond
  have hallowed : ¬ IndexRestricted false rn rd none := by simp [IndexRestricted]
  obtain ⟨hrefused, -⟩ := hload.2 hallowed
  refine hrefused hbe halign ?_
  rw [show LsOffset.value (.imm 0) s = 0#32 from rfl, indexed_zero_addr]
  exact haddr

/-- Settles O50: what is read back of a stored word is its bytes, alone, in pairs, or all four joined. -/
theorem mixedWidthViewOfAStoredWord : Obligations.MixedWidthViewOfAStoredWord := by
  intro m a v hwf halign hlt
  have hend : a + 3 < 2 ^ 32 := by omega
  refine ⟨fun be => Memory.readWord_writeWord be v hwf hend, ?bytes, ?halves⟩
  case bytes =>
    intro k hk
    exact ⟨Memory.read_writeWord false v hwf hend hk, Memory.read_writeWord true v hwf hend hk⟩
  case halves =>
    intro j hj
    rw [Memory.readHalf_writeWord false v hwf hend hj, Memory.readHalf_writeWord true v hwf hend hj]
    exact ⟨joinHalf_wordByte_little v j, joinHalf_wordByte_big v hj⟩

end Sys2Proof.Proofs
end

section
/-! SUPPORT. The fields of a word (30_encoding.md R101, R102): a word is a row of fields exactly if it has them in their places,
and a field has a fixed value exactly if each of its bits has. -/

namespace Sys2Proof

variable {w : Word} {m n : Nat}

/-- A row of two bit strings is `v` exactly if they are its parts; the first part may be a row again. `no_index` lets simp use
this at widths that are numerals. -/
theorem append_eq_iff {x : BitVec m} {y : BitVec n} {v : BitVec (m + n)} :
    @Eq (BitVec (no_index (m + n))) (@HAppend.hAppend _ _ (BitVec (no_index (m + n))) _ x y) v
      ↔ x = v.extractLsb' n m ∧ v.extractLsb' 0 n = y := by
  constructor
  · rintro rfl
    exact ⟨BitVec.extractLsb'_append_eq_left.symm, BitVec.extractLsb'_append_eq_right⟩
  · rintro ⟨rfl, rfl⟩
    exact BitVec.extractLsb'_append_extractLsb'

@[simp] theorem extractLsb'_extractLsb' {lo k len : Nat} (h : k + len ≤ n) :
    (w.extractLsb' lo n).extractLsb' k len = w.extractLsb' (lo + k) len := by
  ext i hi
  simp [show k + i < n by omega, Nat.add_assoc]

/-- The highest bit of a field, and the rest of the field. -/
theorem field_succ_eq_iff {lo : Nat} {c : BitVec (n + 1)} :
    field w lo (n + 1) = c ↔ bitAt w (lo + n) = c.getLsbD n ∧ field w lo n = c.setWidth n := by
  constructor
  · rintro rfl
    constructor
    · simp [field, bitAt]
    · ext i hi
      simp [field, show i < n + 1 by omega]
  · rintro ⟨hbit, hrest⟩
    ext i hi
    obtain hi | rfl : i < n ∨ i = n := by omega
    · have := congrArg (·.getLsbD i) hrest
      simpa [field, hi, ← BitVec.getLsbD_eq_getElem, show i < n + 1 by omega] using this
    · simpa [field, bitAt] using hbit

@[simp] theorem field_zero_eq_iff {lo : Nat} (c : BitVec 0) : field w lo 0 = c ↔ True :=
  iff_true_intro (Subsingleton.elim _ _)

@[simp] theorem eq_boolBit_iff {b : Bool} {i : Nat} : w.extractLsb' i 1 = boolBit b ↔ bitAt w i = b := by
  have : w.extractLsb' i 1 = boolBit (bitAt w i) := by
    ext j hj
    obtain rfl : j = 0 := by omega
    simp [boolBit, bitAt]
  rw [this]
  cases b <;> cases bitAt w i <;> decide

@[simp] theorem eq_regBits_iff {r : RegNum} {lo : Nat} : w.extractLsb' lo 4 = regBits r ↔ regAt w lo = r := by
  unfold regBits regAt field
  constructor
  · intro h; rw [h]
  · rintro rfl; rfl

theorem regAt_eq_zero_iff {lo : Nat} : regAt w lo = 0 ↔ field w lo 4 = 0#4 := eq_regBits_iff.symm

@[simp] theorem field_getElem {lo k : Nat} (h : k < n) : (field w lo n)[k] = bitAt w (lo + k) := by
  simp [field, bitAt, BitVec.getElem_extractLsb']

@[simp] theorem Cond.bits_eq_iff {c : Cond} {b : BitVec 4} : c.bits = b ↔ Cond.ofBits b = some c := by
  constructor
  · rintro rfl
    cases c <;> rfl
  · revert b
    cases c <;> decide

/-- 0b1111 is the one condition field that names no condition (40_conditional_execution.md R143). -/
theorem Cond.ofBits_eq_none_iff {b : BitVec 4} : Cond.ofBits b = none ↔ b = 15#4 := by
  revert b
  decide

@[simp] theorem ShiftType.eq_bits_iff {sh : ShiftType} {b : BitVec 2} : b = sh.bits ↔ ShiftType.ofBits b = sh := by
  revert b
  cases sh <;> decide

@[simp] theorem DpOp.eq_bits_iff {op : DpOp} {b : BitVec 4} : b = op.bits ↔ DpOp.ofBits b = op := by
  revert b
  cases op <;> decide

/-- The tests and comparisons are the operations whose opcode begins with the bits 10 (43_data_processing.md R170, R179). -/
theorem writesRd_ofBits_eq_false_iff : Machine.writesRd (DpOp.ofBits (field w 21 4)) = false ↔ field w 23 2 = 2#2 := by
  have tests : ∀ b : BitVec 4, Machine.writesRd (DpOp.ofBits b) = false ↔ b.extractLsb' 2 2 = 2#2 := by decide
  rw [tests]
  simp [field]

/-- The words that R130 takes out of data processing (MRS, MSR and the like) are those of a test without its S bit. -/
theorem not_testWithoutS_iff : ¬ (field w 23 2 = 2#2 ∧ bitAt w 20 = false)
    ↔ (Machine.writesRd (DpOp.ofBits (field w 21 4)) = false → bitAt w 20 = true) := by
  simp [writesRd_ofBits_eq_false_iff]

/-- The eight classes of words (30_encoding.md R102). -/
theorem class_cases (b : BitVec 3) : b = 0#3 ∨ b = 1#3 ∨ b = 2#3 ∨ b = 3#3 ∨ b = 4#3 ∨ b = 5#3 ∨ b = 6#3 ∨ b = 7#3 := by
  revert b
  decide

end Sys2Proof
end

section
/-! SUPPORT. One equivalence per format (30_encoding.md R103 to R119): the word of a format is the word that has the format's
fixed bits and operands in their places. -/

namespace Sys2Proof

variable {w : Word} {cond : Cond} {op : DpOp} {sh : ShiftType} {s p u b wb l r : Bool} {rn rd rs rm : RegNum}

theorem encDpImm_eq_iff {rot : BitVec 4} {imm8 : BitVec 8} :
    encDpImm op cond s rn rd rot imm8 = w ↔ Cond.ofBits (field w 28 4) = some cond ∧ field w 25 3 = 1#3
      ∧ DpOp.ofBits (field w 21 4) = op ∧ bitAt w 20 = s ∧ regAt w 16 = rn ∧ regAt w 12 = rd ∧ field w 8 4 = rot
      ∧ field w 0 8 = imm8 := by
  simp [encDpImm, append_eq_iff, field, and_assoc]

theorem encDpReg_eq_iff {amount : BitVec 5} :
    encDpReg op cond s rn rd amount sh rm = w ↔ Cond.ofBits (field w 28 4) = some cond ∧ field w 25 3 = 0#3
      ∧ DpOp.ofBits (field w 21 4) = op ∧ bitAt w 20 = s ∧ regAt w 16 = rn ∧ regAt w 12 = rd ∧ field w 7 5 = amount
      ∧ ShiftType.ofBits (field w 5 2) = sh ∧ field w 4 1 = 0#1 ∧ regAt w 0 = rm := by
  simp [encDpReg, append_eq_iff, field, and_assoc]

theorem encDpRsr_eq_iff :
    encDpRsr op cond s rn rd rs sh rm = w ↔ Cond.ofBits (field w 28 4) = some cond ∧ field w 25 3 = 0#3
      ∧ DpOp.ofBits (field w 21 4) = op ∧ bitAt w 20 = s ∧ regAt w 16 = rn ∧ regAt w 12 = rd ∧ regAt w 8 = rs
      ∧ field w 7 1 = 0#1 ∧ ShiftType.ofBits (field w 5 2) = sh ∧ field w 4 1 = 1#1 ∧ regAt w 0 = rm := by
  simp [encDpRsr, append_eq_iff, field, and_assoc]

theorem encBranch_eq_iff {offset24 : BitVec 24} :
    encBranch cond l offset24 = w ↔ Cond.ofBits (field w 28 4) = some cond ∧ field w 25 3 = 5#3 ∧ bitAt w 24 = l
      ∧ field w 0 24 = offset24 := by
  simp [encBranch, append_eq_iff, field, and_assoc]

theorem encBx_eq_iff :
    encBx cond l rm = w ↔ Cond.ofBits (field w 28 4) = some cond ∧ field w 20 8 = 0x12#8 ∧ field w 8 12 = 0xFFF#12
      ∧ field w 6 2 = 0#2 ∧ bitAt w 5 = l ∧ field w 4 1 = 1#1 ∧ regAt w 0 = rm := by
  simp [encBx, append_eq_iff, field, and_assoc]

theorem encMul_eq_iff {mul : BitVec 3} :
    encMul mul cond s rn rd rs rm = w ↔ Cond.ofBits (field w 28 4) = some cond ∧ field w 24 4 = 0#4 ∧ field w 21 3 = mul
      ∧ bitAt w 20 = s ∧ regAt w 16 = rn ∧ regAt w 12 = rd ∧ regAt w 8 = rs ∧ field w 4 4 = 9#4 ∧ regAt w 0 = rm := by
  simp [encMul, append_eq_iff, field, and_assoc]

theorem encLsImm_eq_iff {imm12 : BitVec 12} :
    encLsImm cond p u b wb l rn rd imm12 = w ↔ Cond.ofBits (field w 28 4) = some cond ∧ field w 25 3 = 2#3 ∧ bitAt w 24 = p
      ∧ bitAt w 23 = u ∧ bitAt w 22 = b ∧ bitAt w 21 = wb ∧ bitAt w 20 = l ∧ regAt w 16 = rn ∧ regAt w 12 = rd
      ∧ field w 0 12 = imm12 := by
  simp [encLsImm, append_eq_iff, field, and_assoc]

theorem encLsReg_eq_iff {amount : BitVec 5} :
    encLsReg cond p u b wb l rn rd amount sh rm = w ↔ Cond.ofBits (field w 28 4) = some cond ∧ field w 25 3 = 3#3
      ∧ bitAt w 24 = p ∧ bitAt w 23 = u ∧ bitAt w 22 = b ∧ bitAt w 21 = wb ∧ bitAt w 20 = l ∧ regAt w 16 = rn
      ∧ regAt w 12 = rd ∧ field w 7 5 = amount ∧ ShiftType.ofBits (field w 5 2) = sh ∧ field w 4 1 = 0#1 ∧ regAt w 0 = rm := by
  simp [encLsReg, append_eq_iff, field, and_assoc]

theorem encLshImm_eq_iff {kind : BitVec 2} {imm8 : BitVec 8} :
    encLshImm cond p u wb l kind rn rd imm8 = w ↔ Cond.ofBits (field w 28 4) = some cond ∧ field w 25 3 = 0#3
      ∧ bitAt w 24 = p ∧ bitAt w 23 = u ∧ field w 22 1 = 1#1 ∧ bitAt w 21 = wb ∧ bitAt w 20 = l ∧ regAt w 16 = rn
      ∧ regAt w 12 = rd ∧ field w 7 1 = 1#1 ∧ field w 5 2 = kind ∧ field w 4 1 = 1#1 ∧ field w 8 4 ++ field w 0 4 = imm8 := by
  simp only [encLshImm, append_eq_iff, field, and_assoc]
  constructor <;> (intro h; simp_all)

theorem encLshReg_eq_iff {kind : BitVec 2} :
    encLshReg cond p u wb l kind rn rd rm = w ↔ Cond.ofBits (field w 28 4) = some cond ∧ field w 25 3 = 0#3 ∧ bitAt w 24 = p
      ∧ bitAt w 23 = u ∧ field w 22 1 = 0#1 ∧ bitAt w 21 = wb ∧ bitAt w 20 = l ∧ regAt w 16 = rn ∧ regAt w 12 = rd
      ∧ field w 8 4 = 0#4 ∧ field w 7 1 = 1#1 ∧ field w 5 2 = kind ∧ field w 4 1 = 1#1 ∧ regAt w 0 = rm := by
  simp [encLshReg, append_eq_iff, field, and_assoc]

theorem encBlock_eq_iff {list : BitVec 16} :
    encBlock cond p u s wb l rn list = w ↔ Cond.ofBits (field w 28 4) = some cond ∧ field w 25 3 = 4#3 ∧ bitAt w 24 = p
      ∧ bitAt w 23 = u ∧ bitAt w 22 = s ∧ bitAt w 21 = wb ∧ bitAt w 20 = l ∧ regAt w 16 = rn ∧ field w 0 16 = list := by
  simp [encBlock, append_eq_iff, field, and_assoc]

theorem encSwap_eq_iff :
    encSwap cond b rn rd rm = w ↔ Cond.ofBits (field w 28 4) = some cond ∧ field w 23 5 = 2#5 ∧ bitAt w 22 = b
      ∧ field w 20 2 = 0#2 ∧ regAt w 16 = rn ∧ regAt w 12 = rd ∧ field w 8 4 = 0#4 ∧ field w 4 4 = 9#4 ∧ regAt w 0 = rm := by
  simp [encSwap, append_eq_iff, field, and_assoc]

theorem encode_blxImm_eq_iff {offset24 : BitVec 24} :
    encode (.blxImm l offset24) = w ↔ field w 28 4 = 0xF#4 ∧ field w 25 3 = 5#3 ∧ bitAt w 24 = l ∧ field w 0 24 = offset24 := by
  simp [encode, append_eq_iff, field, and_assoc, -BitVec.reduceAppend, eq_comm (a := 15#4)]

theorem encode_swi_eq_iff {imm24 : BitVec 24} :
    encode (.swi cond imm24) = w ↔ Cond.ofBits (field w 28 4) = some cond ∧ field w 24 4 = 0xF#4 ∧ field w 0 24 = imm24 := by
  refine append_eq_iff.trans ?_
  simp [append_eq_iff, field, and_assoc]

theorem encode_clz_eq_iff :
    encode (.clz cond rd rm) = w ↔ Cond.ofBits (field w 28 4) = some cond ∧ field w 20 8 = 0x16#8 ∧ field w 16 4 = 0xF#4
      ∧ regAt w 12 = rd ∧ field w 8 4 = 0xF#4 ∧ field w 4 4 = 1#4 ∧ regAt w 0 = rm := by
  refine append_eq_iff.trans ?_
  simp [append_eq_iff, field, and_assoc]

theorem encode_mrs_eq_iff :
    encode (.mrs cond r rd) = w ↔ Cond.ofBits (field w 28 4) = some cond ∧ field w 23 5 = 2#5 ∧ bitAt w 22 = r
      ∧ field w 20 2 = 0#2 ∧ field w 16 4 = 0xF#4 ∧ regAt w 12 = rd ∧ field w 0 12 = 0#12 := by
  refine append_eq_iff.trans ?_
  simp [append_eq_iff, field, and_assoc]

theorem encode_msrReg_eq_iff {fieldMask : BitVec 4} :
    encode (.msrReg cond r fieldMask rm) = w ↔ Cond.ofBits (field w 28 4) = some cond ∧ field w 23 5 = 2#5 ∧ bitAt w 22 = r
      ∧ field w 20 2 = 2#2 ∧ field w 16 4 = fieldMask ∧ field w 12 4 = 0xF#4 ∧ field w 8 4 = 0#4 ∧ field w 4 4 = 0#4
      ∧ regAt w 0 = rm := by
  refine append_eq_iff.trans ?_
  simp [append_eq_iff, field, and_assoc]

theorem encode_msrImm_eq_iff {fieldMask rot : BitVec 4} {imm8 : BitVec 8} :
    encode (.msrImm cond r fieldMask rot imm8) = w ↔ Cond.ofBits (field w 28 4) = some cond ∧ field w 23 5 = 6#5
      ∧ bitAt w 22 = r ∧ field w 20 2 = 2#2 ∧ field w 16 4 = fieldMask ∧ field w 12 4 = 0xF#4 ∧ field w 8 4 = rot
      ∧ field w 0 8 = imm8 := by
  refine append_eq_iff.trans ?_
  simp [append_eq_iff, field, and_assoc]

theorem encode_undefinedSpace_eq_iff {hi20 : BitVec 20} {lo4 : BitVec 4} :
    encode (.undefinedSpace cond hi20 lo4) = w ↔ Cond.ofBits (field w 28 4) = some cond ∧ field w 25 3 = 3#3
      ∧ field w 5 20 = hi20 ∧ field w 4 1 = 1#1 ∧ field w 0 4 = lo4 := by
  refine append_eq_iff.trans ?_
  simp [append_eq_iff, field, and_assoc]

theorem encode_coprocLdcStc_eq_iff {rest : BitVec 25} :
    encode (.coprocLdcStc cond rest) = w ↔ Cond.ofBits (field w 28 4) = some cond ∧ field w 25 3 = 6#3 ∧ field w 0 25 = rest := by
  refine append_eq_iff.trans ?_
  simp [append_eq_iff, field, and_assoc]

theorem encode_coprocCdpMrcMcr_eq_iff {rest : BitVec 24} :
    encode (.coprocCdpMrcMcr cond rest) = w ↔ Cond.ofBits (field w 28 4) = some cond ∧ field w 24 4 = 0xE#4
      ∧ field w 0 24 = rest := by
  refine append_eq_iff.trans ?_
  simp [append_eq_iff, field, and_assoc]

end Sys2Proof
end

section
/-! SUPPORT. The families of instructions that share a format: what the decoder makes of the operands of such a word is well-formed
and is encoded in that format again. -/

namespace Sys2Proof

variable {op : DpOp} {cond : Cond} {s : Bool} {rn rd rs rm : RegNum} {sh : ShiftType}

/-- A test has no S bit of its own and is encoded with S set. -/
theorem encode_dpImm {rot : BitVec 4} {imm8 : BitVec 8} (hs : Machine.writesRd op = false → s = true) :
    encode (dpImm op cond s rn rd rot imm8) = encDpImm op cond s rn rd rot imm8 := by
  cases op with
  | tst | teq | cmp | cmn => rw [hs rfl]; rfl
  | _ => rfl

theorem encode_dpReg {amount : BitVec 5} (hs : Machine.writesRd op = false → s = true) :
    encode (dpReg op cond s rn rd amount sh rm) = encDpReg op cond s rn rd amount sh rm := by
  cases op with
  | tst | teq | cmp | cmn => rw [hs rfl]; rfl
  | _ => rfl

theorem encode_dpRsr (hs : Machine.writesRd op = false → s = true) :
    encode (dpRsr op cond s rn rd rs sh rm) = encDpRsr op cond s rn rd rs sh rm := by
  cases op with
  | tst | teq | cmp | cmn => rw [hs rfl]; rfl
  | _ => rfl

theorem dpImm_wellFormed {rot : BitVec 4} {imm8 : BitVec 8} : (dpImm op cond s rn rd rot imm8).wellFormed = true := by
  cases op <;> rfl

theorem dpReg_wellFormed {amount : BitVec 5} : (dpReg op cond s rn rd amount sh rm).wellFormed = true := by
  cases op <;> rfl

theorem dpRsr_wellFormed : (dpRsr op cond s rn rd rs sh rm).wellFormed = true := by
  cases op <;> rfl

theorem lsImm_isEncoded (cond : Cond) (p u b wb l : Bool) (rn rd : RegNum) (imm12 : BitVec 12) :
    encode (lsImm cond p u b wb l rn rd imm12) = encLsImm cond p u b wb l rn rd imm12
      ∧ (lsImm cond p u b wb l rn rd imm12).wellFormed = true := by
  cases l <;> cases b <;> cases p <;> cases wb <;> exact ⟨rfl, rfl⟩

theorem lsReg_isEncoded (cond : Cond) (p u b wb l : Bool) (rn rd : RegNum) (amount : BitVec 5) (sh : ShiftType) (rm : RegNum) :
    encode (lsReg cond p u b wb l rn rd amount sh rm) = encLsReg cond p u b wb l rn rd amount sh rm
      ∧ (lsReg cond p u b wb l rn rd amount sh rm).wellFormed = true := by
  cases l <;> cases b <;> cases p <;> cases wb <;> exact ⟨rfl, rfl⟩

end Sys2Proof
end

section
/-! SUPPORT. Decoding drops no bit (30_encoding.md R130): where a part of the decoder answers an instruction, the word has the fixed
bits of the instruction's format, each tested on the way there, and the instruction has the word's operands. -/

namespace Sys2Proof

variable {w : Word} {cond : Cond} {i : Instr}

theorem encode_of_decodeMultiplySwapHalf (hc : Cond.ofBits (field w 28 4) = some cond) (hclass : field w 25 3 = 0#3)
    (h7 : bitAt w 7 = true) (h4 : bitAt w 4 = true) (h : decodeMultiplySwapHalf cond w = .ok i) :
    encode i = w ∧ i.wellFormed = true := by
  unfold decodeMultiplySwapHalf at h
  simp only [field_succ_eq_iff, field_zero_eq_iff] at h hclass
  split_ifs at h
  · -- MLA
    cases h
    exact ⟨encMul_eq_iff.2 (by simp_all [field_succ_eq_iff]), rfl⟩
  · -- MUL
    cases h
    exact ⟨encMul_eq_iff.2 (by simp_all [regAt_eq_zero_iff, field_succ_eq_iff]), rfl⟩
  · -- the long multiplies
    split at h <;> cases h <;> exact ⟨encMul_eq_iff.2 (by simp_all [field_succ_eq_iff]), rfl⟩
  · -- SWPB
    cases h
    exact ⟨encSwap_eq_iff.2 (by simp_all [field_succ_eq_iff]), rfl⟩
  · -- SWP
    cases h
    exact ⟨encSwap_eq_iff.2 (by simp_all [field_succ_eq_iff]), rfl⟩
  · -- half-words and signed bytes, immediate offset
    split at h <;> cases h <;> exact ⟨encLshImm_eq_iff.2 (by simp_all [field_succ_eq_iff]), rfl⟩
  · -- half-words and signed bytes, register offset
    split at h <;> cases h <;> exact ⟨encLshReg_eq_iff.2 (by simp_all [field_succ_eq_iff]), rfl⟩

theorem encode_of_decodeMiscellaneous (hc : Cond.ofBits (field w 28 4) = some cond) (hclass : field w 25 3 = 0#3)
    (hmisc : field w 23 2 = 2#2) (h : decodeMiscellaneous cond w = .ok i) : encode i = w ∧ i.wellFormed = true := by
  unfold decodeMiscellaneous at h
  simp only [field_succ_eq_iff, field_zero_eq_iff] at h hclass hmisc
  split_ifs at h
  · -- MRS
    cases h
    exact ⟨encode_mrs_eq_iff.2 (by simp_all [field_succ_eq_iff]), rfl⟩
  · -- MSR
    cases h
    exact ⟨encode_msrReg_eq_iff.2 (by simp_all [field_succ_eq_iff]), rfl⟩
  · -- BX
    cases h
    exact ⟨encBx_eq_iff.2 (by simp_all [field_succ_eq_iff]), rfl⟩
  · -- BLX format (1)
    cases h
    exact ⟨encBx_eq_iff.2 (by simp_all [field_succ_eq_iff]), rfl⟩
  · -- CLZ
    cases h
    exact ⟨encode_clz_eq_iff.2 (by simp_all [field_succ_eq_iff]), rfl⟩

/-- Bit 15 of the list tells the two load forms with S apart, as well-formedness asks (47_multiple_transfer.md R280). -/
theorem encode_decodeBlock (hc : Cond.ofBits (field w 28 4) = some cond) (hclass : field w 25 3 = 4#3) :
    encode (decodeBlock cond w) = w ∧ (decodeBlock cond w).wellFormed = true := by
  unfold decodeBlock
  split
  all_goals exact ⟨encBlock_eq_iff.2 (by simp_all), by simp_all [Instr.wellFormed]⟩

/-- Class 000: the two parts above, and data processing with a register operand. -/
theorem encode_of_decodeConditional_class0 (hc : Cond.ofBits (field w 28 4) = some cond) (hclass : field w 25 3 = 0#3)
    (h : decodeConditional cond w = .ok i) : encode i = w ∧ i.wellFormed = true := by
  simp only [decodeConditional, hclass, BitVec.reduceToNat] at h
  split_ifs at h with h74 hmisc h4
  · obtain ⟨h7, h4⟩ := (Bool.and_eq_true _ _).mp h74
    exact encode_of_decodeMultiplySwapHalf hc hclass h7 h4 h
  · exact encode_of_decodeMiscellaneous hc hclass hmisc.1 h
  · cases h
    refine ⟨(encode_dpRsr (not_testWithoutS_iff.1 hmisc)).trans ?_, dpRsr_wellFormed⟩
    simp_all [encDpRsr_eq_iff, field_succ_eq_iff]
  · cases h
    refine ⟨(encode_dpReg (not_testWithoutS_iff.1 hmisc)).trans ?_, dpReg_wellFormed⟩
    simp_all [encDpReg_eq_iff, field_succ_eq_iff]

/-- Class 001: MSR and data processing with an immediate operand. -/
theorem encode_of_decodeConditional_class1 (hc : Cond.ofBits (field w 28 4) = some cond) (hclass : field w 25 3 = 1#3)
    (h : decodeConditional cond w = .ok i) : encode i = w ∧ i.wellFormed = true := by
  simp only [decodeConditional, hclass, BitVec.reduceToNat] at h
  split_ifs at h with hmisc hmsr
  · cases h
    exact ⟨encode_msrImm_eq_iff.2 (by simp_all [field_succ_eq_iff]), rfl⟩
  · cases h
    refine ⟨(encode_dpImm (not_testWithoutS_iff.1 hmisc)).trans ?_, dpImm_wellFormed⟩
    simp [encDpImm_eq_iff, hc, hclass]

/-- Class 011: the undefined instruction space and word and byte transfers with a register offset. -/
theorem encode_of_decodeConditional_class3 (hc : Cond.ofBits (field w 28 4) = some cond) (hclass : field w 25 3 = 3#3)
    (h : decodeConditional cond w = .ok i) : encode i = w ∧ i.wellFormed = true := by
  simp only [decodeConditional, hclass, BitVec.reduceToNat] at h
  split_ifs at h with h4
  · cases h
    exact ⟨encode_undefinedSpace_eq_iff.2 ⟨hc, hclass, rfl, by simp [field_succ_eq_iff, h4], rfl⟩, rfl⟩
  · cases h
    simp [lsReg_isEncoded, encLsReg_eq_iff, hc, hclass, field_succ_eq_iff, h4]

theorem encode_of_decodeConditional (hc : Cond.ofBits (field w 28 4) = some cond) (h : decodeConditional cond w = .ok i) :
    encode i = w ∧ i.wellFormed = true := by
  rcases class_cases (field w 25 3) with h0 | h1 | h2 | h3 | h4 | h5 | h6 | h7
  · exact encode_of_decodeConditional_class0 hc h0 h
  · exact encode_of_decodeConditional_class1 hc h1 h
  · simp only [decodeConditional, h2, BitVec.reduceToNat] at h
    cases h
    simp [lsImm_isEncoded, encLsImm_eq_iff, hc, h2]
  · exact encode_of_decodeConditional_class3 hc h3 h
  · simp only [decodeConditional, h4, BitVec.reduceToNat] at h
    cases h
    exact encode_decodeBlock hc h4
  · simp only [decodeConditional, h5, BitVec.reduceToNat] at h
    cases h
    split <;> exact ⟨encBranch_eq_iff.2 (by simp_all), rfl⟩
  · simp only [decodeConditional, h6, BitVec.reduceToNat] at h
    cases h
    exact ⟨encode_coprocLdcStc_eq_iff.2 ⟨hc, h6, rfl⟩, rfl⟩
  · simp only [decodeConditional, h7, BitVec.reduceToNat] at h
    cases h
    split
    · exact ⟨encode_swi_eq_iff.2 (by simp_all [field_succ_eq_iff]), rfl⟩
    · exact ⟨encode_coprocCdpMrcMcr_eq_iff.2 (by simp_all [field_succ_eq_iff]), rfl⟩

/-- A word that decodes is the well-formed encoding of its instruction. -/
theorem encode_of_decode (h : decode w = .ok i) : encode i = w ∧ i.wellFormed = true := by
  unfold decode at h
  split at h
  · next hnever =>
    split_ifs at h with hclass
    cases h
    exact ⟨encode_blxImm_eq_iff.2 ⟨Cond.ofBits_eq_none_iff.1 hnever, hclass, rfl, rfl⟩, rfl⟩
  · next hc => exact encode_of_decodeConditional hc h

end Sys2Proof
end

section
/-! SUPPORT. The word of every format decodes to the instruction of its operands (30_encoding.md R130). -/

namespace Sys2Proof

variable {w : Word} {cond : Cond} {op : DpOp} {sh : ShiftType} {s p u b wb l r : Bool} {rn rd rs rm : RegNum}

/-! ### The parts of the decoder -/

theorem decode_eq_decodeConditional (hc : Cond.ofBits (field w 28 4) = some cond) : decode w = decodeConditional cond w := by
  simp [decode, hc]

/-- With the condition field 0b1111 the class 101 is BLX format (2), the rest no instruction (30_encoding.md R126). -/
theorem decode_of_never_blx (hnever : field w 28 4 = 15#4) (hclass : field w 25 3 = 5#3) :
    decode w = .ok (.blxImm (bitAt w 24) (field w 0 24)) := by
  simp [decode, Cond.ofBits_eq_none_iff.2 hnever, hclass]

theorem decode_of_never (hnever : field w 28 4 = 15#4) (hclass : field w 25 3 ≠ 5#3) : decode w = .error .neverCondition := by
  simp [decode, Cond.ofBits_eq_none_iff.2 hnever, hclass]

theorem decode_eq_decodeMultiplySwapHalf (hc : Cond.ofBits (field w 28 4) = some cond) (hclass : field w 25 3 = 0#3)
    (h7 : bitAt w 7 = true) (h4 : bitAt w 4 = true) : decode w = decodeMultiplySwapHalf cond w := by
  simp [decode_eq_decodeConditional hc, decodeConditional, hclass, h7, h4]

theorem decode_eq_decodeMiscellaneous (hc : Cond.ofBits (field w 28 4) = some cond) (hclass : field w 25 3 = 0#3)
    (h74 : (bitAt w 7 && bitAt w 4) = false) (hmisc : field w 23 2 = 2#2) (h20 : bitAt w 20 = false) :
    decode w = decodeMiscellaneous cond w := by
  simp [decode_eq_decodeConditional hc, decodeConditional, hclass, h74, hmisc, h20]

/-! ### Data processing -/

theorem decode_of_encDpImm {rot : BitVec 4} {imm8 : BitVec 8} (hs : Machine.writesRd op = false → s = true)
    (hw : encDpImm op cond s rn rd rot imm8 = w) : decode w = .ok (dpImm op cond s rn rd rot imm8) := by
  obtain ⟨hc, hclass, rfl, rfl, rfl, rfl, rfl, rfl⟩ := encDpImm_eq_iff.1 hw
  rw [decode_eq_decodeConditional hc]
  simp [decodeConditional, hclass, if_neg (not_testWithoutS_iff.2 hs)]

theorem decode_of_encDpReg {amount : BitVec 5} (hs : Machine.writesRd op = false → s = true)
    (hw : encDpReg op cond s rn rd amount sh rm = w) : decode w = .ok (dpReg op cond s rn rd amount sh rm) := by
  obtain ⟨hc, hclass, rfl, rfl, rfl, rfl, rfl, rfl, h4, rfl⟩ := encDpReg_eq_iff.1 hw
  simp only [field_succ_eq_iff, field_zero_eq_iff] at h4
  rw [decode_eq_decodeConditional hc]
  simp [decodeConditional, hclass, if_neg (not_testWithoutS_iff.2 hs), h4]

theorem decode_of_encDpRsr (hs : Machine.writesRd op = false → s = true) (hw : encDpRsr op cond s rn rd rs sh rm = w) :
    decode w = .ok (dpRsr op cond s rn rd rs sh rm) := by
  obtain ⟨hc, hclass, rfl, rfl, rfl, rfl, rfl, h7, rfl, h4, rfl⟩ := encDpRsr_eq_iff.1 hw
  simp only [field_succ_eq_iff, field_zero_eq_iff] at h4 h7
  rw [decode_eq_decodeConditional hc]
  simp [decodeConditional, hclass, if_neg (not_testWithoutS_iff.2 hs), h4, h7]

/-! ### Branches, word and byte transfers, block transfers -/

theorem decode_of_encBranch {offset24 : BitVec 24} (hw : encBranch cond l offset24 = w) :
    decode w = .ok (if l then .bl cond offset24 else .b cond offset24) := by
  obtain ⟨hc, hclass, rfl, rfl⟩ := encBranch_eq_iff.1 hw
  simp [decode_eq_decodeConditional hc, decodeConditional, hclass]

theorem decode_of_encLsImm {imm12 : BitVec 12} (hw : encLsImm cond p u b wb l rn rd imm12 = w) :
    decode w = .ok (lsImm cond p u b wb l rn rd imm12) := by
  obtain ⟨hc, hclass, rfl, rfl, rfl, rfl, rfl, rfl, rfl, rfl⟩ := encLsImm_eq_iff.1 hw
  simp [decode_eq_decodeConditional hc, decodeConditional, hclass]

theorem decode_of_encLsReg {amount : BitVec 5} (hw : encLsReg cond p u b wb l rn rd amount sh rm = w) :
    decode w = .ok (lsReg cond p u b wb l rn rd amount sh rm) := by
  obtain ⟨hc, hclass, rfl, rfl, rfl, rfl, rfl, rfl, rfl, rfl, rfl, h4, rfl⟩ := encLsReg_eq_iff.1 hw
  simp only [field_succ_eq_iff, field_zero_eq_iff] at h4
  simp [decode_eq_decodeConditional hc, decodeConditional, hclass, h4]

theorem decode_of_encBlock {list : BitVec 16} (hw : encBlock cond p u s wb l rn list = w) :
    decode w = .ok (decodeBlock cond w) := by
  obtain ⟨hc, hclass, -⟩ := encBlock_eq_iff.1 hw
  simp [decode_eq_decodeConditional hc, decodeConditional, hclass]

/-! ### Multiplies, swaps, half-word and signed byte transfers -/

theorem decode_of_encMul {mul : BitVec 3} (hw : encMul mul cond s rn rd rs rm = w) :
    decode w = decodeMultiplySwapHalf cond w := by
  obtain ⟨hc, h24, -, -, -, -, -, h4, -⟩ := encMul_eq_iff.1 hw
  apply decode_eq_decodeMultiplySwapHalf hc <;> simp_all [field_succ_eq_iff]

theorem decode_of_encSwap (hw : encSwap cond b rn rd rm = w) :
    decode w = .ok (if b then .swpb cond rn rd rm else .swp cond rn rd rm) := by
  obtain ⟨hc, h23, rfl, h20, rfl, rfl, h8, h4, rfl⟩ := encSwap_eq_iff.1 hw
  simp only [field_succ_eq_iff, field_zero_eq_iff] at h23 h20 h8 h4
  rw [decode_eq_decodeMultiplySwapHalf hc (by simp [field_succ_eq_iff, h23]) (by simp [h4]) (by simp [h4])]
  cases h22 : bitAt w 22 <;> simp [decodeMultiplySwapHalf, field_succ_eq_iff, h23, h20, h8, h4, h22]

theorem decode_of_encLshImm {kind : BitVec 2} {imm8 : BitVec 8} (hw : encLshImm cond p u wb l kind rn rd imm8 = w) :
    decode w = decodeMultiplySwapHalf cond w := by
  obtain ⟨hc, hclass, -, -, -, -, -, -, -, h7, -, h4, -⟩ := encLshImm_eq_iff.1 hw
  apply decode_eq_decodeMultiplySwapHalf hc hclass <;> simp_all [field_succ_eq_iff]

theorem decode_of_encLshReg {kind : BitVec 2} (hw : encLshReg cond p u wb l kind rn rd rm = w) :
    decode w = decodeMultiplySwapHalf cond w := by
  obtain ⟨hc, hclass, -, -, -, -, -, -, -, -, h7, -, h4, -⟩ := encLshReg_eq_iff.1 hw
  apply decode_eq_decodeMultiplySwapHalf hc hclass <;> simp_all [field_succ_eq_iff]

/-! ### Branch and exchange -/

theorem decode_of_encBx (hw : encBx cond l rm = w) : decode w = .ok (if l then .blxReg cond rm else .bx cond rm) := by
  obtain ⟨hc, h20, h8, h6, rfl, h4, rfl⟩ := encBx_eq_iff.1 hw
  simp only [field_succ_eq_iff, field_zero_eq_iff] at h20 h8 h6 h4
  rw [decode_eq_decodeMiscellaneous hc (by simp [field_succ_eq_iff, h20]) (by simp [h6]) (by simp [field_succ_eq_iff, h20])
    (by simp [h20])]
  cases h5 : bitAt w 5 <;> simp [decodeMiscellaneous, field_succ_eq_iff, h20, h8, h6, h4, h5]

/-! ### Every instruction -/

/-- The encoding of a well-formed instruction decodes to it. -/
theorem decode_of_encode {i : Instr} (hwf : i.wellFormed = true) (hw : encode i = w) : decode w = .ok i := by
  cases i
  case andImm | eorImm | subImm | rsbImm | addImm | adcImm | sbcImm | rscImm | tstImm | teqImm | cmpImm | cmnImm | orrImm
      | movImm | bicImm | mvnImm =>
    exact decode_of_encDpImm (by simp [Machine.writesRd]) hw
  case andReg | eorReg | subReg | rsbReg | addReg | adcReg | sbcReg | rscReg | tstReg | teqReg | cmpReg | cmnReg | orrReg
      | movReg | bicReg | mvnReg =>
    exact decode_of_encDpReg (by simp [Machine.writesRd]) hw
  case andRsr | eorRsr | subRsr | rsbRsr | addRsr | adcRsr | sbcRsr | rscRsr | tstRsr | teqRsr | cmpRsr | cmnRsr | orrRsr
      | movRsr | bicRsr | mvnRsr =>
    exact decode_of_encDpRsr (by simp [Machine.writesRd]) hw
  case b | bl => exact decode_of_encBranch hw
  case bx | blxReg => exact decode_of_encBx hw
  case blxImm =>
    obtain ⟨hnever, hclass, rfl, rfl⟩ := encode_blxImm_eq_iff.1 hw
    exact decode_of_never_blx hnever hclass
  case swi =>
    obtain ⟨hc, h24, rfl⟩ := encode_swi_eq_iff.1 hw
    simp only [field_succ_eq_iff, field_zero_eq_iff] at h24
    have hclass : field w 25 3 = 7#3 := by simp [field_succ_eq_iff, h24]
    simp [decode_eq_decodeConditional hc, decodeConditional, hclass, h24]
  case mul =>
    rw [decode_of_encMul hw]
    obtain ⟨-, h24, h21, rfl, rfl, h12, rfl, h4, rfl⟩ := encMul_eq_iff.1 hw
    rw [regAt_eq_zero_iff] at h12
    simp_all [decodeMultiplySwapHalf, field_succ_eq_iff]
  case mla | umull | umlal | smull | smlal =>
    rw [decode_of_encMul hw]
    obtain ⟨-, h24, h21, rfl, rfl, rfl, rfl, h4, rfl⟩ := encMul_eq_iff.1 hw
    simp_all [decodeMultiplySwapHalf, field_succ_eq_iff]
  case clz =>
    obtain ⟨hc, h20, h16, rfl, h8, h4, rfl⟩ := encode_clz_eq_iff.1 hw
    rw [decode_eq_decodeMiscellaneous hc] <;> simp_all [decodeMiscellaneous, field_succ_eq_iff]
  case ldrImmPre | ldrImmPost | ldrtImm | ldrbImmPre | ldrbImmPost | ldrbtImm | strImmPre | strImmPost | strtImm | strbImmPre
      | strbImmPost | strbtImm =>
    exact decode_of_encLsImm hw
  case ldrRegPre | ldrRegPost | ldrtReg | ldrbRegPre | ldrbRegPost | ldrbtReg | strRegPre | strRegPost | strtReg | strbRegPre
      | strbRegPost | strbtReg =>
    exact decode_of_encLsReg hw
  case ldrhImm | ldrsbImm | ldrshImm | strhImm =>
    rw [decode_of_encLshImm hw]
    obtain ⟨-, hclass, rfl, rfl, h22, rfl, h20, rfl, rfl, h7, h5, h4, rfl⟩ := encLshImm_eq_iff.1 hw
    simp_all [decodeMultiplySwapHalf, field_succ_eq_iff]
  case ldrhReg | ldrsbReg | ldrshReg | strhReg =>
    rw [decode_of_encLshReg hw]
    obtain ⟨-, hclass, rfl, rfl, h22, rfl, h20, rfl, rfl, h8, h7, h5, h4, rfl⟩ := encLshReg_eq_iff.1 hw
    simp_all [decodeMultiplySwapHalf, field_succ_eq_iff]
  case stm | ldm | ldmReturn | ldmUser | stmUser =>
    rw [decode_of_encBlock hw]
    obtain ⟨-, -, rfl, rfl, h22, rfl, h20, rfl, rfl⟩ := encBlock_eq_iff.1 hw
    simp_all [decodeBlock, Instr.wellFormed]
  case swp | swpb => exact decode_of_encSwap hw
  case mrs =>
    obtain ⟨hc, h23, rfl, h20, h16, rfl, h0⟩ := encode_mrs_eq_iff.1 hw
    rw [decode_eq_decodeMiscellaneous hc] <;> simp_all [decodeMiscellaneous, field_succ_eq_iff]
  case msrReg =>
    obtain ⟨hc, h23, rfl, h20, rfl, h12, h8, h4, rfl⟩ := encode_msrReg_eq_iff.1 hw
    rw [decode_eq_decodeMiscellaneous hc] <;> simp_all [decodeMiscellaneous, field_succ_eq_iff]
  case msrImm =>
    obtain ⟨hc, h23, rfl, h20, rfl, h12, rfl, rfl⟩ := encode_msrImm_eq_iff.1 hw
    simp only [field_succ_eq_iff, field_zero_eq_iff] at h23 h20 h12
    have hclass : field w 25 3 = 1#3 := by simp [field_succ_eq_iff, h23]
    simp [decode_eq_decodeConditional hc, decodeConditional, hclass, field_succ_eq_iff, h23, h20, h12]
  case undefinedSpace =>
    obtain ⟨hc, hclass, rfl, h4, rfl⟩ := encode_undefinedSpace_eq_iff.1 hw
    simp only [field_succ_eq_iff, field_zero_eq_iff] at h4
    simp [decode_eq_decodeConditional hc, decodeConditional, hclass, h4]
  case coprocLdcStc =>
    obtain ⟨hc, hclass, rfl⟩ := encode_coprocLdcStc_eq_iff.1 hw
    simp [decode_eq_decodeConditional hc, decodeConditional, hclass]
  case coprocCdpMrcMcr =>
    obtain ⟨hc, h24, rfl⟩ := encode_coprocCdpMrcMcr_eq_iff.1 hw
    simp only [field_succ_eq_iff, field_zero_eq_iff] at h24
    have hclass : field w 25 3 = 7#3 := by simp [field_succ_eq_iff, h24]
    simp [decode_eq_decodeConditional hc, decodeConditional, hclass, h24]

end Sys2Proof
end

section
/-! SUPPORT. What a step does where an event is taken, and in Thumb state (00_scope.md R11, 30_encoding.md R106). -/

namespace Sys2Proof.Machine

variable {s : State}

/-- An event that is taken is the whole step: a reset, or an exception entry (60_exceptions.md R350). -/
theorem step_of_event (h : ¬ s.NoEvent) :
    step s = .next (resetEvent s.afterInputs) ∨ ∃ e link, step s = .next (takeException e link s.afterInputs) := by
  unfold step stepEvents
  split_ifs with hreset hfiq hirq
  · exact .inl rfl
  · exact .inr ⟨_, _, rfl⟩
  · exact .inr ⟨_, _, rfl⟩
  · refine absurd ⟨by simpa using hreset, ?_, ?_⟩ h
    · simpa using hfiq
    · simpa using hirq

theorem runInstruction_of_thumb (h : s.cpsr.t = true) : runInstruction s = .refused .thumbState := by
  simp [runInstruction, h]

theorem resetEvent_thumb (s : State) : (resetEvent s).cpsr.t = false := rfl

theorem takeException_thumb (e : Exception) (link : Word) (s : State) : (takeException e link s).cpsr.t = false := rfl

/-- The refusal of an instruction whose feature is absent comes before everything else about it (30_encoding.md R131). -/
theorem gated_of_absent {feature : Bool} (h : feature = false) (k : Result) : gated feature k = .refused .featureAbsent := by
  rw [h, gated_false]

theorem execBx_of_absent {cond : Cond} {rm : RegNum} (h : (s.cfg.hasThumb || s.cfg.undefTrapsBx) = false) :
    execBx cond rm s = .refused .featureAbsent := by
  obtain ⟨hthumb, htrap⟩ := Bool.or_eq_false_iff.1 h
  simp [execBx, hthumb, htrap]

end Sys2Proof.Machine
end

section
/-! The obligations about the encoding (30_encoding.md). -/

namespace Sys2Proof.Proofs

open Sys2Proof Sys2Proof.Machine

/-- Settles O2, format by format: the word has the format's fixed bits, which lead the decoder to the instruction. -/
theorem decodeOfEncodeIsTheInstruction : Obligations.DecodeOfEncodeIsTheInstruction :=
  fun _ hwf => decode_of_encode hwf rfl

/-- Settles O3, along the branches of the decoder: each tests all bits of the format that are no operand. -/
theorem encodeOfDecodeIsTheWord : Obligations.EncodeOfDecodeIsTheWord :=
  fun _ _ h => encode_of_decode h

/-- Settles O4: the condition field names no condition; BLX format (2) is refused by its feature, all else by the decoder. -/
theorem neverConditionIsRefused : Obligations.NeverConditionIsRefused := by
  intro s w hfetch hnever
  obtain ⟨hok, herror⟩ := hfetch.step_eq
  by_cases hclass : w.extractLsb' 25 3 = 5#3
  · have hblx := decode_of_never_blx hnever hclass
    refine ⟨fun _ => hblx, fun habsent => ⟨.featureAbsent, ?_⟩⟩
    have hv5 : s.atFetch.cfg.hasV5T = false := by simpa [hclass] using habsent
    rw [hok _ hblx]
    exact gated_of_absent hv5 _
  · exact ⟨fun h => absurd h.1 hclass, fun _ => ⟨_, herror _ (decode_of_never hnever hclass)⟩⟩

/-- Settles O11: no instruction is fetched with T set, and each of the events leaves T clear. -/
theorem thumbStateIsRefused : Obligations.ThumbStateIsRefused := by
  intro s hthumb
  constructor
  · intro hno
    rw [step_of_noEvent hno]
    exact runInstruction_of_thumb (s := s.afterInputs) hthumb
  · intro hevent
    rcases step_of_event hevent with h | ⟨e, link, h⟩
    · exact ⟨_, h, resetEvent_thumb _⟩
    · exact ⟨_, h, takeException_thumb e link _⟩

/-- Settles O22: only the instructions of the gated groups can be absent, and the gate is the first thing each of them meets. -/
theorem absentFeatureIsRefused : Obligations.AbsentFeatureIsRefused := by
  intro i s habsent
  cases i
  case bx => exact execBx_of_absent habsent
  case blxReg | blxImm | clz | umull | umlal | smull | smlal | ldrhImm | ldrhReg | ldrsbImm | ldrsbReg | ldrshImm | ldrshReg
      | strhImm | strhReg =>
    exact gated_of_absent habsent _
  all_goals exact nomatch habsent

end Sys2Proof.Proofs
end

section
/-! SUPPORT. The condition test as part of an instruction (40_conditional_execution.md R142): what an instruction present on the
processor does is its effect under its condition, whichever instruction it is. -/

namespace Sys2Proof.Machine

variable {i : Instr} {c : Cond} {s : State}

theorem gated_of_present {feature : Bool} (h : feature = true) (k : Result) : gated feature k = k := by
  rw [h, gated_true]

/-- BX is present with Thumb, where it exchanges, and without it where the processor traps it (30_encoding.md R131). -/
theorem execBx_eq_conditional {rm : RegNum} (h : (s.cfg.hasThumb || s.cfg.undefTrapsBx) = true) :
    ∃ k, execBx c rm s = conditional c s k := by
  cases hthumb : s.cfg.hasThumb with
  | true => exact ⟨.next (exchange (s.reg rm) s), by simp [execBx, hthumb]⟩
  | false =>
    have htrap : s.cfg.undefTrapsBx = true := by simpa [hthumb] using h
    exact ⟨undefinedTrap s, by simp [execBx, hthumb, htrap]⟩

/-- Every restriction on the operands lies behind the condition; only the feature test comes before it. -/
theorem exec_eq_conditional (hcond : i.condition = some c) (hpresent : i.present s.cfg = true) :
    ∃ k, exec i s = conditional c s k := by
  cases i
  case blxImm => exact nomatch hcond
  all_goals obtain rfl := Option.some.inj hcond
  case bx => exact execBx_eq_conditional hpresent
  case blxReg | clz | umull | umlal | smull | smlal | ldrhImm | ldrhReg | ldrsbImm | ldrsbReg | ldrshImm | ldrshReg | strhImm
      | strhReg =>
    exact ⟨_, gated_of_present hpresent _⟩
  all_goals exact ⟨_, rfl⟩

theorem exec_of_conditionFailed (hcond : i.condition = some c) (hfailed : conditionPassed c s.cpsr = false)
    (hpresent : i.present s.cfg = true) : exec i s = advance s := by
  obtain ⟨k, hk⟩ := exec_eq_conditional hcond hpresent
  rw [hk, conditional_failed hfailed]

end Sys2Proof.Machine
end

section
/-! SUPPORT. The flags after a comparison (43_data_processing.md R176, R177, R195) in terms of the compared values. -/

namespace Sys2Proof.Machine

variable {a b : Word} {p : Cpsr}

/-- What the flags `p` say of `a` and `b` after the flags have been set on `a - b`. -/
structure Cpsr.Compares (p : Cpsr) (a b : Word) : Prop where
  equal : p.z = true ↔ a = b
  unsigned : p.c = true ↔ b.toNat ≤ a.toNat
  signed : p.n = p.v ↔ b.toInt ≤ a.toInt
  negative : p.n = (a - b).getLsbD 31
  overflow : p.v = true ↔ ¬ (-2 ^ 31 ≤ a.toInt - b.toInt ∧ a.toInt - b.toInt < 2 ^ 31)

/-- The sign bit of a wrapped difference is wrong exactly where the exact difference does not fit in 32 bits. -/
theorem sub_negative_eq_overflow_iff (a b : Word) :
    (a - b).getLsbD 31 = decide (a.toInt - b.toInt < -2 ^ 31 ∨ 2 ^ 31 ≤ a.toInt - b.toInt) ↔ b.toInt ≤ a.toInt := by
  have hsign : (a - b).getLsbD 31 = decide ((a - b).toInt < 0) := by
    rw [← BitVec.msb_eq_toInt, BitVec.msb_eq_getLsbD_last]
  have hwrap : (a - b).toInt = (a.toInt - b.toInt).bmod (2 ^ 32) := BitVec.toInt_sub
  have ha := a.le_toInt
  have ha' := a.toInt_lt
  have hb := b.le_toInt
  have hb' := b.toInt_lt
  rw [hsign, decide_eq_decide, hwrap, Int.bmod_def]
  omega

theorem compares_arithFlags (a b : Word) (p : Cpsr) :
    (arithFlags (a - b) (decide (b.toNat ≤ a.toNat)) (a.toInt - b.toInt) p).Compares a b where
  equal := by simp [arithFlags, BitVec.sub_eq_iff_eq_add]
  unsigned := decide_eq_true_iff
  signed := sub_negative_eq_overflow_iff a b
  negative := rfl
  overflow := by
    simp only [arithFlags, decide_eq_true_iff]
    omega

theorem alu_cmp_flags (a b : Word) (c shifterCarry : Bool) (p : Cpsr) : (alu .cmp a b c).flags shifterCarry p =
    arithFlags (a - b) (decide (b.toNat ≤ a.toNat)) (a.toInt - b.toInt) p := by
  simp [alu, AluOut.flags, setFlagsArith, Cpsr.withFlags, Machine.negative, arithFlags, addWithCarry_sub_result,
    addWithCarry_sub_carry, addWithCarry_sub_overflow]

theorem dataProcessing_of_test {op : DpOp} (h : writesRd op = false) (sf : Bool) (rn rd : RegNum) (operand : Shifted)
    (s : State) :
    dataProcessing op sf rn rd operand s
      = advance (s.setCpsr ((alu op (s.reg rn) operand.value s.cpsr.c).flags operand.carry s.cpsr)) := by
  simp [dataProcessing, h]

/-- A comparison that goes on leaves the flags of its two operands. -/
theorem compares_of_dataProcessing_cmp {sf : Bool} {rn rd : RegNum} {operand : Shifted} {s t : State}
    (h : dataProcessing .cmp sf rn rd operand s = .next t) : t.cpsr.Compares (s.reg rn) operand.value := by
  rw [dataProcessing_of_test rfl, alu_cmp_flags] at h
  obtain ⟨-, rfl⟩ := advance_next h
  exact compares_arithFlags _ _ _

theorem compares_of_cmpImm {cond : Cond} {rn rd : RegNum} {rot : BitVec 4} {imm8 : BitVec 8} {s t : State}
    (hc : conditionPassed cond s.cpsr = true) (h : exec (.cmpImm cond rn rd rot imm8) s = .next t) :
    t.cpsr.Compares (s.reg rn) (s.operandImm rot imm8).value := by
  have hrun : exec (.cmpImm cond rn rd rot imm8) s = dataProcessing .cmp true rn rd (s.operandImm rot imm8) s :=
    dpImmediate_run hc
  exact compares_of_dataProcessing_cmp (hrun ▸ h)

theorem compares_of_cmpReg {cond : Cond} {rn rd rm : RegNum} {amount : BitVec 5} {sh : ShiftType} {s t : State}
    (hc : conditionPassed cond s.cpsr = true) (h : exec (.cmpReg cond rn rd amount sh rm) s = .next t) :
    t.cpsr.Compares (s.reg rn) (s.operandReg amount sh rm).value := by
  have hrun : exec (.cmpReg cond rn rd amount sh rm) s = dataProcessing .cmp true rn rd (s.operandReg amount sh rm) s :=
    dpShiftedRegister_run hc
  exact compares_of_dataProcessing_cmp (hrun ▸ h)

/-- The form that shifts by a register goes on only where the check of its registers has passed (R175). -/
theorem compares_of_cmpRsr {cond : Cond} {rn rd rs rm : RegNum} {sh : ShiftType} {s t : State}
    (hc : conditionPassed cond s.cpsr = true) (h : exec (.cmpRsr cond rn rd rs sh rm) s = .next t) :
    t.cpsr.Compares (s.reg rn) (s.operandRsr rs sh rm).value := by
  have hrun : exec (.cmpRsr cond rn rd rs sh rm) s =
      unlessRefused (rsrCheck .cmp rn rd rs rm) (dataProcessing .cmp true rn rd (s.operandRsr rs sh rm) s) :=
    conditional_passed hc _
  exact compares_of_dataProcessing_cmp (unlessRefused_next (hrun ▸ h)).2

theorem Cpsr.Compares.z_eq_false_iff (h : p.Compares a b) : p.z = false ↔ a ≠ b := by
  rw [← Bool.not_eq_true, h.equal]

theorem Cpsr.Compares.c_eq_false_iff (h : p.Compares a b) : p.c = false ↔ a.toNat < b.toNat := by
  rw [← Bool.not_eq_true, h.unsigned, not_le]

theorem Cpsr.Compares.n_ne_v_iff (h : p.Compares a b) : p.n ≠ p.v ↔ a.toInt < b.toInt := by
  rw [Ne, h.signed, not_le]

theorem Cpsr.Compares.v_eq_false_iff (h : p.Compares a b) :
    p.v = false ↔ -2 ^ 31 ≤ a.toInt - b.toInt ∧ a.toInt - b.toInt < 2 ^ 31 := by
  rw [← Bool.not_eq_true, h.overflow, not_not]

end Sys2Proof.Machine
end

section
/-! The obligations about conditional execution (40_conditional_execution.md). -/

namespace Sys2Proof.Proofs

open Sys2Proof Sys2Proof.Machine

/-- Settles O19, row by row of the table of R141. -/
theorem conditionTable : Obligations.ConditionTable := by
  intro p
  simp [conditionPassed]

/-- Settles O21: the skipped instruction is the sequential advance, which writes nothing but the pc. -/
theorem failedConditionSkips : Obligations.FailedConditionSkips := by
  intro i c s hcond hfailed hpresent
  exact continues_of_advance (exec_of_conditionFailed hcond hfailed hpresent) rfl ⟨rfl, (RegisterFrame.refl [] s).setPc _⟩

/-- Settles O20: each of the three forms leaves flags that compare its operands, which the table of R141 then tests. -/
theorem conditionsAfterCompare : Obligations.ConditionsAfterCompare := by
  intro s t rn rd i b hform hexec
  have h : t.cpsr.Compares (s.reg rn) b := by
    rcases hform with ⟨rot, imm8, rfl, rfl⟩ | ⟨amount, sh, rm, rfl, rfl⟩ | ⟨rs, sh, rm, rfl, rfl⟩
    · exact compares_of_cmpImm rfl hexec
    · exact compares_of_cmpReg rfl hexec
    · exact compares_of_cmpRsr rfl hexec
  obtain ⟨heq, hne, hcs, hcc, hmi, hpl, hvs, hvc, hhi, hls, hge, hlt, hgt, hle, -⟩ := conditionTable t.cpsr
  refine ⟨heq.trans h.equal, hne.trans h.z_eq_false_iff, hcs.trans h.unsigned, hcc.trans h.c_eq_false_iff, hhi.trans ?_,
    hls.trans ?_, hge.trans h.signed, hlt.trans h.n_ne_v_iff, hgt.trans ?_, hle.trans ?_, h.negative ▸ hmi, h.negative ▸ hpl,
    hvs.trans h.overflow, hvc.trans h.v_eq_false_iff⟩
  · rw [h.unsigned, h.z_eq_false_iff, ← BitVec.toNat_ne_iff_ne]
    omega
  · rw [h.c_eq_false_iff, h.equal, ← BitVec.toNat_inj]
    omega
  · rw [h.z_eq_false_iff, h.signed, Ne, ← BitVec.toInt_inj]
    omega
  · rw [h.equal, h.n_ne_v_iff, ← BitVec.toInt_inj]
    omega

end Sys2Proof.Proofs
end

section
/-! SUPPORT. What a branch is made of (41_branch.md): the target in the address space, the link and the exchange, each with what
it writes and what it leaves alone. -/

namespace Sys2Proof.Machine

variable {s u : State} {target : Int} {cells : List Cell}

/-! ### The target (R150, R154) -/

theorem withTarget_of_inRange (h0 : 0 ≤ target) (h32 : target < 2 ^ 32) (k : Word → Result) :
    withTarget target k = k (BitVec.ofInt 32 target) := if_neg (by omega)

theorem withTarget_of_outOfRange (h : ¬ (0 ≤ target ∧ target < 2 ^ 32)) (k : Word → Result) :
    withTarget target k = .refused .branchOutOfAddressSpace := if_pos (by omega)

/-- A target in the address space is not wrapped. -/
theorem toNat_ofInt_of_inRange (h0 : 0 ≤ target) (h32 : target < 2 ^ 32) : ((BitVec.ofInt 32 target).toNat : Int) = target := by
  rw [BitVec.toNat_ofInt]
  omega

theorem branchTarget_zero (pc : Word) (offset24 : BitVec 24) :
    branchTarget pc offset24 0 = (pc.toNat : Int) + 8 + 4 * offset24.toInt := Int.add_zero _

theorem branchTarget_half (pc : Word) (offset24 : BitVec 24) (h : Bool) :
    branchTarget pc offset24 (if h then 2 else 0) = (pc.toNat : Int) + 8 + 4 * offset24.toInt + 2 * (h.toNat : Int) := by
  cases h <;> rfl

/-! ### The link (R151) -/

theorem bank_r14_ne_pc (m : Mode) : bank m 14 ≠ .pc := bank_ne_pc m (by decide)

@[simp] theorem State.link_cpsr (s : State) : s.link.cpsr = s.cpsr := s.setReg_cpsr 14 _

theorem State.link_cell_r14 (s : State) : s.link.cell (bank s.cpsr.mode 14) = s.pc + 4#32 := s.setCell_cell_same _ _

theorem State.setPc_cell_r14 (s : State) (a : Word) (m : Mode) : (s.setPc a).cell (bank m 14) = s.cell (bank m 14) :=
  s.setPc_cell a (bank_r14_ne_pc m)

theorem RegisterFrame.link (s : State) : RegisterFrame [bank s.cpsr.mode 14] s s.link :=
  (RegisterFrame.refl _ s).setReg _ (List.mem_singleton.2 rfl)

/-! ### The exchange (R152) -/

theorem exchange_cpsr (v : Word) (s : State) : (exchange v s).cpsr = { s.cpsr with t := v.getLsbD 0 } := rfl

theorem exchange_pc (v : Word) (s : State) :
    (exchange v s).pc = if v.getLsbD 0 then v &&& 0xFFFFFFFE#32 else v &&& 0xFFFFFFFC#32 := rfl

theorem exchange_cell_r14 (v : Word) (s : State) (m : Mode) : (exchange v s).cell (bank m 14) = s.cell (bank m 14) := by
  rw [exchange, State.setPc_cell_r14, State.setCpsr_cell]

theorem RegisterFrame.exchange (h : RegisterFrame cells s u) (v : Word) : RegisterFrame cells s (exchange v u) :=
  (h.setCpsr _).setPc _

/-! ### The instructions, once the condition has passed and the feature is there -/

section Instructions

variable {cond : Cond}

theorem exec_b_of_passed (hc : conditionPassed cond s.cpsr = true) (offset24 : BitVec 24) :
    exec (.b cond offset24) s = withTarget ((s.pc.toNat : Int) + 8 + 4 * offset24.toInt) fun a => .next (s.setPc a) := by
  rw [← branchTarget_zero]
  exact conditional_passed hc _

theorem exec_bl_of_passed (hc : conditionPassed cond s.cpsr = true) (offset24 : BitVec 24) :
    exec (.bl cond offset24) s = withTarget ((s.pc.toNat : Int) + 8 + 4 * offset24.toInt) fun a => .next (s.link.setPc a) := by
  rw [← branchTarget_zero]
  exact conditional_passed hc _

theorem exec_bx_of_passed (hc : conditionPassed cond s.cpsr = true) (hthumb : s.cfg.hasThumb = true) (rm : RegNum) :
    exec (.bx cond rm) s = .next (exchange (s.reg rm) s) :=
  calc exec (.bx cond rm) s
    _ = conditional cond s (.next (exchange (s.reg rm) s)) := if_pos hthumb
    _ = .next (exchange (s.reg rm) s) := conditional_passed hc _

theorem exec_blxReg_of_passed (hc : conditionPassed cond s.cpsr = true) (hv5 : s.cfg.hasV5T = true) (rm : RegNum) :
    exec (.blxReg cond rm) s = if rm = 15 then .refused .blxOfPc else .next (exchange (s.reg rm) s.link) :=
  (gated_of_present hv5 _).trans (conditional_passed hc _)

theorem exec_blxImm_of_present (hv5 : s.cfg.hasV5T = true) (h : Bool) (offset24 : BitVec 24) :
    exec (.blxImm h offset24) s = withTarget ((s.pc.toNat : Int) + 8 + 4 * offset24.toInt + 2 * (h.toNat : Int)) fun a =>
      .next ((s.link.setCpsr { s.cpsr with t := true }).setPc a) := by
  rw [← branchTarget_half]
  exact gated_of_present hv5 _

end Instructions

end Sys2Proof.Machine
end

section
/-! The obligations about branches (41_branch.md). -/

namespace Sys2Proof.Proofs

open Sys2Proof Sys2Proof.Machine

/-- Settles O33: where the exact target is in the address space it is the pc, and only BL writes the link register before it. -/
theorem branchTargetAndLink : Obligations.BranchTargetAndLink := by
  rintro s cond offset24 _ hc rfl
  rw [exec_b_of_passed hc, exec_bl_of_passed hc]
  constructor
  · intro h0 h32
    rw [withTarget_of_inRange h0 h32, withTarget_of_inRange h0 h32]
    have hpc := toNat_ofInt_of_inRange h0 h32
    exact ⟨⟨_, rfl, hpc, rfl, (RegisterFrame.refl _ s).setPc _⟩,
      _, rfl, hpc, (s.link.setPc_cell_r14 _ _).trans s.link_cell_r14, s.link_cpsr, (RegisterFrame.link s).setPc _⟩
  · exact fun hout => ⟨withTarget_of_outOfRange hout _, withTarget_of_outOfRange hout _⟩

/-- Settles O34: the whole effect is the exchange to the value that Rm reads as. -/
theorem branchExchangeMovesBitZeroToT : Obligations.BranchExchangeMovesBitZeroToT :=
  fun s _ rm hc hthumb =>
    ⟨_, exec_bx_of_passed hc hthumb rm, exchange_cpsr _ s, exchange_pc _ s, (RegisterFrame.refl _ s).exchange _⟩

/-- Settles O35: the exchange takes the value of Rm from the state before the link, also where Rm is r14. -/
theorem branchLinkExchangeReadsRmFirst : Obligations.BranchLinkExchangeReadsRmFirst := by
  intro s cond rm hc hv5
  rw [exec_blxReg_of_passed hc hv5]
  refine ⟨fun hpc => if_pos hpc, fun hne => ⟨_, if_neg hne, ?link, ?cpsr, exchange_pc _ _, (RegisterFrame.link s).exchange _⟩⟩
  case link => rw [exchange_cell_r14, s.link_cell_r14]
  case cpsr => rw [exchange_cpsr, s.link_cpsr]

/-- Settles O36: there is no condition to test; in the address space the link, the T bit and the pc are written. -/
theorem branchLinkExchangeImmediateEntersThumb : Obligations.BranchLinkExchangeImmediateEntersThumb := by
  rintro s h offset24 _ hv5 rfl
  rw [exec_blxImm_of_present hv5]
  constructor
  · intro h0 h32
    refine ⟨_, withTarget_of_inRange h0 h32 _, toNat_ofInt_of_inRange h0 h32, ?link, rfl, ((RegisterFrame.link s).setCpsr _).setPc _⟩
    case link => rw [State.setPc_cell_r14, State.setCpsr_cell, s.link_cell_r14]
  · exact fun hout => withTarget_of_outOfRange hout _

end Sys2Proof.Proofs
end

section
/-! SUPPORT. What the exception entry writes and leaves alone as a whole (60_exceptions.md R340), the handler's CPSR of an
exception other than FIQ, and SWI once its condition has passed (42_software_interrupt.md R165). -/

namespace Sys2Proof.Machine

/-! ### The exception entry and its frame (R340) -/

theorem takeException_cell_link (e : Exception) (link : Word) (s : State) :
    (takeException e link s).cell (bank e.mode 14) = link := by
  rw [takeException_cell e link s e.link_ne_pc, if_pos rfl]

/-- Of the SPSRs the entry writes the one of the new mode, and to it the CPSR of before. -/
theorem takeException_spsr (e : Exception) (link : Word) (s : State) :
    (takeException e link s).spsr = (s.setSpsrOf e.mode s.cpsr.saved).spsr := by
  cases e <;> rfl

theorem takeException_sameRegistersBut_link (e : Exception) (link : Word) (s : State) :
    SameRegistersBut [bank e.mode 14] s (takeException e link s) := by
  intro c hpc hlink
  rw [takeException_cell e link s hpc, if_neg (List.ne_of_not_mem_cons hlink)]

theorem takeException_sameMemory (e : Exception) (link : Word) (s : State) : SameMemory s (takeException e link s) :=
  ⟨fun a => by rw [takeException_mem], takeException_written e link s⟩

theorem takeException_samePlatform (e : Exception) (link : Word) (s : State) : SamePlatform s (takeException e link s) :=
  ⟨takeException_cfg e link s, takeException_inputs e link s, takeException_bus e link s⟩

/-- Only FIQ touches F (R331): the handler of any other exception has it as it was. -/
theorem handlerCpsr_of_not_masksFiq {e : Exception} (he : e.masksFiq = false) (p : Cpsr) :
    handlerCpsr e p = { p with i := true, t := false, mode := e.mode } := by
  rw [handlerCpsr, he, Bool.or_false]

/-! ### The instruction (R165) -/

theorem exec_swi_of_passed {s : State} {cond : Cond} (hc : conditionPassed cond s.cpsr = true) (imm24 : BitVec 24) :
    exec (.swi cond imm24) s = .next (takeException .softwareInterrupt (s.pc + 4#32) s) :=
  conditional_passed hc _

end Sys2Proof.Machine
end

section
/-! The obligation about the software interrupt (42_software_interrupt.md). -/

namespace Sys2Proof.Proofs

open Sys2Proof Sys2Proof.Machine

/-- Settles O37: SWI is the entry of the software interrupt exception with link pc + 4, and the immediate is not read. -/
theorem softwareInterruptEntersSupervisorMode : Obligations.SoftwareInterruptEntersSupervisorMode := by
  intro s cond imm24 hc
  refine ⟨_, exec_swi_of_passed hc imm24, ?link, ?spsr, ?cpsr, ?vector, ?registers, ?memory, ?platform⟩
  case link => exact takeException_cell_link .softwareInterrupt _ s
  case spsr => exact takeException_spsr .softwareInterrupt _ s
  case cpsr => exact handlerCpsr_of_not_masksFiq rfl s.cpsr
  case vector => exact takeException_pc .softwareInterrupt _ s
  case registers => exact takeException_sameRegistersBut_link .softwareInterrupt _ s
  case memory => exact takeException_sameMemory _ _ s
  case platform => exact takeException_samePlatform _ _ s

end Sys2Proof.Proofs
end

section
/-! SUPPORT. The shifter of data processing (43_data_processing.md R173, R174): one equation per row of its tables. -/

namespace Sys2Proof.Machine

variable {v : Word} {c : Bool} {n : Nat}

/-! ### The special rows of an immediate amount of 0 (R173) -/

theorem shiftByImmediate_lsl_zero (v : Word) (c : Bool) : shiftByImmediate .lsl 0 v c = { value := v, carry := c } := rfl

theorem shiftByImmediate_lsr_zero (v : Word) (c : Bool) :
    shiftByImmediate .lsr 0 v c = { value := 0#32, carry := v.getLsbD 31 } := rfl

theorem shiftByImmediate_asr_zero (v : Word) (c : Bool) :
    shiftByImmediate .asr 0 v c = { value := copies (v.getLsbD 31), carry := v.getLsbD 31 } := rfl

theorem shiftByImmediate_ror_zero (v : Word) (c : Bool) :
    shiftByImmediate .ror 0 v c = { value := (v >>> 1) ||| (if c then 0x80000000#32 else 0#32), carry := v.getLsbD 0 } := rfl

/-- RRX: the word moves down by one bit and the carry flag comes in at the top. -/
theorem rotateExtended_bit (v : Word) (c : Bool) {i : Nat} (hi : i < 32) :
    ((v >>> 1) ||| (if c then 0x80000000#32 else 0#32)).getLsbD i = if i = 31 then c else v.getLsbD (i + 1) := by
  have htop : 0x80000000#32 = BitVec.twoPow 32 31 := rfl
  rw [BitVec.getLsbD_or, shiftRight_bit, htop]
  by_cases h31 : i = 31
  · subst h31
    cases c <;> simp
  · cases c <;> simp [BitVec.getLsbD_twoPow, h31, Ne.symm h31]

/-! ### The ordinary rows, shared by both kinds of amount (R173, R174) -/

/-- An immediate amount other than 0 shifts as the same amount in a register does. -/
theorem shiftByImmediate_eq_shiftByRegister {amount : BitVec 5} (h : amount ≠ 0#5) (sh : ShiftType) (v : Word) (c : Bool) :
    shiftByImmediate sh amount v c = shiftByRegister sh amount.toNat v c := by
  have hpos : amount.toNat ≠ 0 := fun e => h (BitVec.eq_of_toNat_eq e)
  have hlt : amount.toNat < 32 := amount.isLt
  cases sh <;> simp [shiftByImmediate, shiftByRegister, hpos, hlt, Nat.mod_eq_of_lt hlt]

theorem shiftByRegister_zero (sh : ShiftType) (v : Word) (c : Bool) :
    shiftByRegister sh 0 v c = { value := v, carry := c } := rfl

theorem shiftByRegister_lsl (hpos : n ≠ 0) (hlt : n < 32) :
    shiftByRegister .lsl n v c = { value := v <<< n, carry := v.getLsbD (32 - n) } := by
  simp [shiftByRegister, hpos, hlt]

theorem shiftByRegister_lsr (hpos : n ≠ 0) (hlt : n < 32) :
    shiftByRegister .lsr n v c = { value := v >>> n, carry := v.getLsbD (n - 1) } := by
  simp [shiftByRegister, hpos, hlt]

theorem shiftByRegister_asr (hpos : n ≠ 0) (hlt : n < 32) :
    shiftByRegister .asr n v c = { value := v.sshiftRight n, carry := v.getLsbD (n - 1) } := by
  simp [shiftByRegister, hpos, hlt]

theorem shiftByRegister_ror (hmod : n % 32 ≠ 0) :
    shiftByRegister .ror n v c = { value := ror32 v (n % 32), carry := v.getLsbD (n % 32 - 1) } := by
  have hpos : n ≠ 0 := by
    rintro rfl
    exact hmod rfl
  simp [shiftByRegister, hpos, hmod]

/-! ### The amounts from 32 up (R174) -/

theorem shiftByRegister_lsl_of_le (h : 32 ≤ n) :
    shiftByRegister .lsl n v c = { value := 0#32, carry := decide (n = 32) && v.getLsbD 0 } := by
  have hpos : n ≠ 0 := by omega
  have hlt : ¬ n < 32 := by omega
  by_cases h32 : n = 32 <;> simp [shiftByRegister, hpos, hlt, h32]

theorem shiftByRegister_lsr_of_le (h : 32 ≤ n) :
    shiftByRegister .lsr n v c = { value := 0#32, carry := decide (n = 32) && v.getLsbD 31 } := by
  have hpos : n ≠ 0 := by omega
  have hlt : ¬ n < 32 := by omega
  by_cases h32 : n = 32 <;> simp [shiftByRegister, hpos, hlt, h32]

theorem shiftByRegister_asr_of_le (h : 32 ≤ n) :
    shiftByRegister .asr n v c = { value := copies (v.getLsbD 31), carry := v.getLsbD 31 } := by
  have hpos : n ≠ 0 := by omega
  have hlt : ¬ n < 32 := by omega
  simp [shiftByRegister, hpos, hlt]

/-- A rotation by a multiple of 32 gives the word back, and its bit 31 as the last bit rotated out. -/
theorem shiftByRegister_ror_of_mod (hpos : n ≠ 0) (hmod : n % 32 = 0) :
    shiftByRegister .ror n v c = { value := v, carry := v.getLsbD 31 } := by
  simp [shiftByRegister, hpos, hmod]

/-! ### The operands in a state -/

theorem rotatedImmediate_bit (rot : BitVec 4) (imm8 : BitVec 8) {i : Nat} (hi : i < 32) :
    (rotatedImmediate rot imm8).getLsbD i = (imm8.setWidth 32).getLsbD ((i + 2 * rot.toNat) % 32) :=
  ror32_bit _ _ i (by have := rot.isLt; omega) hi

/-- Only the bottom byte of Rs is used. -/
theorem State.operandRsr_eq (s : State) {rs rm : RegNum} (hrs : rs ≠ 15) (hrm : rm ≠ 15) (sh : ShiftType) :
    s.operandRsr rs sh rm = shiftByRegister sh ((s.cell (bank s.cpsr.mode rs)).toNat % 256) (s.cell (bank s.cpsr.mode rm))
      s.cpsr.c := by
  rw [State.operandRsr, s.reg_of_ne hrs, s.reg_of_ne hrm, BitVec.extractLsb'_toNat, Nat.shiftRight_zero]

end Sys2Proof.Machine
end

section
/-! SUPPORT. Data processing (43_data_processing.md R175 to R179) for all sixteen operations at once: the three forms of an
operation run the shared `dataProcessing`, the form that shifts by a register once its registers pass the check. -/

namespace Sys2Proof.Machine

variable {op : DpOp} {cond : Cond} {sf : Bool} {rn rd : RegNum} {s : State}

/-! ### The three forms -/

theorem exec_dpImm (hs : writesRd op = false → sf = true) (rot : BitVec 4) (imm8 : BitVec 8) :
    exec (dpImm op cond sf rn rd rot imm8) s = dpImmediate op cond sf rn rd rot imm8 s := by
  cases op
  case tst | teq | cmp | cmn => obtain rfl := hs rfl; rfl
  all_goals rfl

theorem exec_dpReg (hs : writesRd op = false → sf = true) (amount : BitVec 5) (sh : ShiftType) (rm : RegNum) :
    exec (dpReg op cond sf rn rd amount sh rm) s = dpShiftedRegister op cond sf rn rd amount sh rm s := by
  cases op
  case tst | teq | cmp | cmn => obtain rfl := hs rfl; rfl
  all_goals rfl

theorem exec_dpRsr (hs : writesRd op = false → sf = true) (rs : RegNum) (sh : ShiftType) (rm : RegNum) :
    exec (dpRsr op cond sf rn rd rs sh rm) s = dpRegisterShift op cond sf rn rd rs sh rm s := by
  cases op
  case tst | teq | cmp | cmn => obtain rfl := hs rfl; rfl
  all_goals rfl

/-- The registers an operation names beside those of operand 2: no field that it ignores (R127; log 15). -/
def namedRegs (op : DpOp) (rn rd : RegNum) : List RegNum :=
  (if writesRd op then [rd] else []) ++ if readsRn op then [rn] else []

theorem mem_namedRegs {r : RegNum} :
    r ∈ namedRegs op rn rd ↔ (readsRn op = true ∧ rn = r) ∨ (writesRd op = true ∧ rd = r) := by
  cases hw : writesRd op <;> cases hr : readsRn op <;> simp [namedRegs, hw, hr, eq_comm, or_comm]

theorem rsrCheck_eq (op : DpOp) (rn rd rs rm : RegNum) :
    rsrCheck op rn rd rs rm = if 15 ∈ rs :: rm :: namedRegs op rn rd then some .r15WithRegisterShift else none := by
  refine if_congr ?_ rfl rfl
  rw [List.mem_cons, List.mem_cons, mem_namedRegs, eq_comm (a := rm), eq_comm (a := rs)]
  tauto

/-- What holds wherever an instruction runs the shared operation on its operand 2 holds for every form. -/
theorem everyOperand2_of_dataProcessing {P : Instr → Shifted → Prop} (hc : conditionPassed cond s.cpsr = true)
    (hs : writesRd op = false → sf = true) (hP : ∀ i b, exec i s = dataProcessing op sf rn rd b s → P i b) :
    EveryOperand2 (dpImm op cond sf rn rd) (dpReg op cond sf rn rd) (dpRsr op cond sf rn rd) (namedRegs op rn rd) s P := by
  refine ⟨fun rot imm8 => hP _ _ ?imm, fun amount sh rm => hP _ _ ?reg, fun rs sh rm h => hP _ _ ?rsr, fun rs sh rm h => ?refused⟩
  case imm => exact (exec_dpImm hs rot imm8).trans (dpImmediate_run hc)
  case reg => exact (exec_dpReg hs amount sh rm).trans (dpShiftedRegister_run hc)
  case rsr => exact (exec_dpRsr hs rs sh rm).trans (dpRegisterShift_run hc ((rsrCheck_eq op rn rd rs rm).trans (if_neg h)))
  case refused =>
    exact (exec_dpRsr hs rs sh rm).trans (dpRegisterShift_refused hc ((rsrCheck_eq op rn rd rs rm).trans (if_pos h)))

/-! ### What the ALU gives (R176, R177) -/

/-- The ALU gives `result` and, with the shifter's carry and the flags `p` before the instruction, the flags `flags`. -/
def AluOut.Gives (out : AluOut) (shifterCarry : Bool) (p : Cpsr) (result : Word) (flags : Cpsr) : Prop :=
  out.result = result ∧ out.flags shifterCarry p = flags

section Gives

variable (a b : Word) (c shifterCarry : Bool) (p : Cpsr)

theorem gives_logical (r : Word) : (AluOut.logical r).Gives shifterCarry p r (logicalFlags r shifterCarry p) := ⟨rfl, rfl⟩

/-- The flags of an adder whose result, carry and overflow are known. -/
theorem gives_arith {sum : Sum} {r : Word} {carry : Bool} {value : Int} (hr : sum.result = r) (hc : sum.carry = carry)
    (hv : sum.overflow = decide (value < -2 ^ 31 ∨ 2 ^ 31 ≤ value)) :
    (AluOut.arith sum).Gives shifterCarry p r (arithFlags r carry value p) := by
  refine ⟨hr, ?_⟩
  simp only [AluOut.flags, setFlagsArith, Cpsr.withFlags, negative, arithFlags, hr, hc, hv]

theorem gives_add : (AluOut.arith (addWithCarry a b false)).Gives shifterCarry p (a + b)
    (arithFlags (a + b) (decide (2 ^ 32 ≤ a.toNat + b.toNat)) (a.toInt + b.toInt) p) :=
  gives_arith _ _ (addWithCarry_add_result a b) (addWithCarry_add_carry a b) (addWithCarry_add_overflow a b)

theorem gives_adc : (AluOut.arith (addWithCarry a b c)).Gives shifterCarry p (a + b + (BitVec.ofBool c).setWidth 32)
    (arithFlags (a + b + (BitVec.ofBool c).setWidth 32) (decide (2 ^ 32 ≤ a.toNat + b.toNat + c.toNat))
      (a.toInt + b.toInt + (c.toNat : Int)) p) :=
  gives_arith _ _ (addWithCarry_adc_result a b c) (addWithCarry_carry a b c) (addWithCarry_overflow a b c)

theorem gives_sub : (AluOut.arith (addWithCarry a (~~~b) true)).Gives shifterCarry p (a - b)
    (arithFlags (a - b) (decide (b.toNat ≤ a.toNat)) (a.toInt - b.toInt) p) :=
  gives_arith _ _ (addWithCarry_sub_result a b) (addWithCarry_sub_carry a b) (addWithCarry_sub_overflow a b)

theorem gives_sbc : (AluOut.arith (addWithCarry a (~~~b) c)).Gives shifterCarry p (a - b - (BitVec.ofBool (!c)).setWidth 32)
    (arithFlags (a - b - (BitVec.ofBool (!c)).setWidth 32) (decide (b.toNat + (!c).toNat ≤ a.toNat))
      (a.toInt - b.toInt - ((!c).toNat : Int)) p) :=
  gives_arith _ _ (addWithCarry_sbc_result a b c) (addWithCarry_sbc_carry a b c) (addWithCarry_sbc_overflow a b c)

end Gives

/-! ### Where the result goes (R178, R179) -/

theorem dataProcessing_of_writes (h : writesRd op = true) (sf : Bool) (rn rd : RegNum) (operand : Shifted) (s : State) :
    dataProcessing op sf rn rd operand s
      = writeResult sf rd (alu op (s.reg rn) operand.value s.cpsr.c) operand.carry s := if_pos h

/-- An operation that writes Rd, in all its forms. -/
theorem everyOperand2_resultGoesTo (op : DpOp) {result : Shifted → Word} {flags : Shifted → Cpsr}
    (hw : writesRd op = true) (hc : conditionPassed cond s.cpsr = true)
    (h : ∀ b, (alu op (s.reg rn) b.value s.cpsr.c).Gives b.carry s.cpsr (result b) (flags b)) :
    EveryOperand2 (dpImm op cond sf rn rd) (dpReg op cond sf rn rd) (dpRsr op cond sf rn rd) (namedRegs op rn rd) s fun i b =>
      ResultGoesTo i sf rd (result b) (flags b) s := by
  refine everyOperand2_of_dataProcessing hc (by simp [hw]) fun i b hi => ?_
  obtain ⟨hresult, hflags⟩ := h b
  exact resultGoesTo_of_writeResult (hi.trans (dataProcessing_of_writes hw sf rn rd b s)) hresult hflags

/-- A test or comparison, in all its forms. -/
theorem everyOperand2_onlyFlags (op : DpOp) {result : Shifted → Word} {flags : Shifted → Cpsr}
    (hw : writesRd op = false) (hc : conditionPassed cond s.cpsr = true)
    (h : ∀ b, (alu op (s.reg rn) b.value s.cpsr.c).Gives b.carry s.cpsr (result b) (flags b)) :
    EveryOperand2 (dpImm op cond true rn rd) (dpReg op cond true rn rd) (dpRsr op cond true rn rd) (namedRegs op rn rd) s
      fun i b => OnlyFlags i (flags b) s := by
  refine everyOperand2_of_dataProcessing hc (fun _ => rfl) fun i b hi => onlyFlags_of_advance ?_
  obtain ⟨-, hflags⟩ := h b
  rw [hi, dataProcessing_of_test hw, hflags]

end Sys2Proof.Machine
end

section
/-! The obligations about data processing (43_data_processing.md). -/

namespace Sys2Proof.Proofs

open Sys2Proof Sys2Proof.Machine

/-- Settles O23: the rows of the amount 0 one by one, then the rows of a positive amount, each read bit by bit. -/
theorem operandShiftedByImmediate : Obligations.OperandShiftedByImmediate := by
  constructor
  · exact fun s rot imm8 => ⟨fun i hi => rotatedImmediate_bit rot imm8 hi, rfl⟩
  · intro s rm v hv
    have hreg : s.reg rm = v := hv.symm
    simp only [State.operandReg, hreg]
    rw [shiftByImmediate_asr_zero, shiftByImmediate_ror_zero]
    refine ⟨shiftByImmediate_lsl_zero v _, shiftByImmediate_lsr_zero v _, ⟨fun i hi => copies_bit _ i hi, rfl⟩,
      ⟨fun i hi => rotateExtended_bit v _ hi, rfl⟩, fun n hn => ?_⟩
    have hpos : n.toNat ≠ 0 := fun e => hn (BitVec.eq_of_toNat_eq e)
    have hlt : n.toNat < 32 := n.isLt
    have hmod : n.toNat % 32 = n.toNat := Nat.mod_eq_of_lt hlt
    simp only [shiftByImmediate_eq_shiftByRegister hn]
    rw [shiftByRegister_lsl hpos hlt, shiftByRegister_lsr hpos hlt, shiftByRegister_asr hpos hlt,
      shiftByRegister_ror (by rwa [hmod]), hmod]
    exact ⟨⟨shiftLeft_bit v _, rfl⟩, ⟨fun i _ => shiftRight_bit v _ i, rfl⟩, ⟨arithmeticShiftRight_bit v _, rfl⟩,
      fun i hi => ror32_bit v _ i hlt hi, rfl⟩

/-- Settles O24, along the ranges of the amount in the table of R174. -/
theorem operandShiftedByRegister : Obligations.OperandShiftedByRegister := by
  intro s rs rm v n hrs hrm hv hn
  simp only [s.operandRsr_eq hrs hrm, ← hv, ← hn]
  refine ⟨?zero, ?ordinary, ?beyond, shiftByRegister_ror_of_mod, ?rotated⟩
  case zero =>
    rintro rfl sh
    exact shiftByRegister_zero sh v _
  case ordinary =>
    intro h1 h31
    have hpos : n ≠ 0 := by omega
    have hlt : n < 32 := by omega
    rw [shiftByRegister_lsl hpos hlt, shiftByRegister_lsr hpos hlt, shiftByRegister_asr hpos hlt]
    exact ⟨shiftLeft_bit v n, rfl, fun i _ => shiftRight_bit v n i, rfl, arithmeticShiftRight_bit v n, rfl⟩
  case beyond =>
    intro h32
    rw [shiftByRegister_asr_of_le h32]
    exact ⟨shiftByRegister_lsl_of_le h32, shiftByRegister_lsr_of_le h32, copies_bit _, rfl⟩
  case rotated =>
    intro hmod
    rw [shiftByRegister_ror hmod]
    exact ⟨fun i hi => ror32_bit v _ i (Nat.mod_lt n (by decide)) hi, rfl⟩

/-- Settles O25: each of the four is a logical operation of the ALU. -/
theorem logicalOperationsResultAndFlags : Obligations.LogicalOperationsResultAndFlags := by
  intro s cond sf rn rd hc
  refine ⟨everyOperand2_resultGoesTo .and rfl hc ?_, everyOperand2_resultGoesTo .eor rfl hc ?_,
    everyOperand2_resultGoesTo .orr rfl hc ?_, everyOperand2_resultGoesTo .bic rfl hc ?_⟩
  all_goals exact fun b => gives_logical b.carry s.cpsr _

/-- Settles O26: the ALU gives operand 2 or its complement, and Rn is not among the registers named. -/
theorem movesResultAndFlags : Obligations.MovesResultAndFlags := by
  intro s cond sf rn rd hc
  refine ⟨everyOperand2_resultGoesTo .mov rfl hc ?_, everyOperand2_resultGoesTo .mvn rfl hc ?_⟩
  all_goals exact fun b => gives_logical b.carry s.cpsr _

/-- Settles O27: the adder without and with the C flag. -/
theorem additionsResultAndFlags : Obligations.AdditionsResultAndFlags := by
  intro s cond sf rn rd hc
  exact ⟨everyOperand2_resultGoesTo .add rfl hc fun b => gives_add (s.reg rn) b.value b.carry s.cpsr,
    everyOperand2_resultGoesTo .adc rfl hc fun b => gives_adc (s.reg rn) b.value s.cpsr.c b.carry s.cpsr⟩

/-- Settles O28: the adder on Rn and the complement of operand 2. -/
theorem subtractionsResultAndFlags : Obligations.SubtractionsResultAndFlags := by
  intro s cond sf rn rd hc
  exact ⟨everyOperand2_resultGoesTo .sub rfl hc fun b => gives_sub (s.reg rn) b.value b.carry s.cpsr,
    everyOperand2_resultGoesTo .sbc rfl hc fun b => gives_sbc (s.reg rn) b.value s.cpsr.c b.carry s.cpsr⟩

/-- Settles O29: the adder on operand 2 and the complement of Rn. -/
theorem reverseSubtractionsResultAndFlags : Obligations.ReverseSubtractionsResultAndFlags := by
  intro s cond sf rn rd hc
  exact ⟨everyOperand2_resultGoesTo .rsb rfl hc fun b => gives_sub b.value (s.reg rn) b.carry s.cpsr,
    everyOperand2_resultGoesTo .rsc rfl hc fun b => gives_sbc b.value (s.reg rn) s.cpsr.c b.carry s.cpsr⟩

/-- Settles O30: the flags of AND and EOR, and Rd is not among the registers named. -/
theorem testsSetOnlyFlags : Obligations.TestsSetOnlyFlags := by
  intro s cond rn rd hc
  exact ⟨everyOperand2_onlyFlags .tst rfl hc fun b => gives_logical b.carry s.cpsr _,
    everyOperand2_onlyFlags .teq rfl hc fun b => gives_logical b.carry s.cpsr _⟩

/-- Settles O31: the flags of SUB and ADD, and Rd is not among the registers named. -/
theorem comparesSetOnlyFlags : Obligations.ComparesSetOnlyFlags := by
  intro s cond rn rd hc
  exact ⟨everyOperand2_onlyFlags .cmp rfl hc fun b => gives_sub (s.reg rn) b.value b.carry s.cpsr,
    everyOperand2_onlyFlags .cmn rfl hc fun b => gives_add (s.reg rn) b.value b.carry s.cpsr⟩

/-- Settles O1: each of the words is the encoding of the instruction it is said to be. -/
theorem decodeKnownWords : Obligations.DecodeKnownWords := by
  refine ⟨?_, ?_, ?_, ?_, ?_, ?_, ?_, ?_, ?_, ?_, ?_⟩
  all_goals exact decode_of_encode rfl rfl

end Sys2Proof.Proofs
end

section
/-! SUPPORT. Multiplies and count leading zeros (44_multiply_clz.md R220 to R230): the instructions once the condition has passed,
the restrictions on their registers, and the value each leaves in its destination. -/

namespace Sys2Proof.Machine

variable {i : Instr} {s : State} {cond : Cond} {sf : Bool} {rd rn rs rm rdHi rdLo : RegNum}

/-! ### Endings -/

theorem Continues.mono {P Q : State → Prop} (h : Continues i s P) (hPQ : ∀ t, P t → Q t) : Continues i s Q := by
  obtain ⟨hgo, hend⟩ := h
  refine ⟨fun hpc => ?_, hend⟩
  obtain ⟨t, hexec, htpc, hP⟩ := hgo hpc
  exact ⟨t, hexec, htpc, hPQ t hP⟩

/-- An instruction whose whole effect is one register. -/
theorem continues_of_advance_setReg {r : Word} (h : exec i s = advance (s.setReg rd r)) (hrd : rd ≠ 15) :
    Continues i s fun t =>
      t.cell (bank s.cpsr.mode rd) = r ∧ t.cpsr = s.cpsr ∧ RegisterFrame [bank s.cpsr.mode rd] s t := by
  refine continues_of_advance h (s.setReg_pc r hrd) ⟨?cell, s.setReg_cpsr rd r, ?frame⟩
  case cell => rw [State.setPc_cell _ _ (bank_ne_pc _ hrd), State.setReg_cell, if_pos rfl]
  case frame => exact ((RegisterFrame.refl _ s).setReg _ (List.mem_singleton.2 rfl)).setPc _

/-- An instruction behind a check is refused where the check finds a restriction, and otherwise does what stands behind it. -/
theorem refused_or_continues_of_unlessRefused {check : Option Refusal} {k : Result} {restricted : Prop} {P : State → Prop}
    (h : exec i s = unlessRefused check k) (hcheck : check = none ↔ ¬ restricted)
    (hk : check = none → exec i s = k → Continues i s P) :
    (restricted → ∃ r, exec i s = .refused r) ∧ (¬ restricted → Continues i s P) := by
  cases check with
  | none =>
    exact ⟨fun hr => absurd hr (hcheck.1 rfl), fun _ => hk rfl h⟩
  | some r =>
    have hrestricted : restricted := not_not.1 fun hn => nomatch hcheck.2 hn
    exact ⟨fun _ => ⟨r, h⟩, fun hn => absurd hrestricted hn⟩

/-! ### The restrictions on the registers (R223) -/

theorem multiplyCheck32_eq_none_iff {acc : Option RegNum} :
    multiplyCheck32 rd rm rs acc = none ↔ ¬ (rd = 15 ∨ rm = 15 ∨ rs = 15 ∨ acc = some 15 ∨ rd = rm) := by
  unfold multiplyCheck32
  split_ifs with hpc hoverlap
  · exact iff_of_false nofun (by tauto)
  · exact iff_of_false nofun (by tauto)
  · exact iff_of_true rfl (by tauto)

theorem multiplyCheck32_mul_eq_none_iff :
    multiplyCheck32 rd rm rs none = none ↔ ¬ (rd = 15 ∨ rm = 15 ∨ rs = 15 ∨ rd = rm) := by
  simp [multiplyCheck32_eq_none_iff]

theorem multiplyCheck32_mla_eq_none_iff :
    multiplyCheck32 rd rm rs (some rn) = none ↔ ¬ (rd = 15 ∨ rm = 15 ∨ rs = 15 ∨ rn = 15 ∨ rd = rm) := by
  simp [multiplyCheck32_eq_none_iff]

theorem multiplyCheck64_eq_none_iff : multiplyCheck64 rdHi rdLo rm rs = none ↔
    ¬ (rdHi = 15 ∨ rdLo = 15 ∨ rm = 15 ∨ rs = 15 ∨ rdHi = rdLo ∨ rdHi = rm ∨ rdLo = rm) := by
  unfold multiplyCheck64
  split_ifs with hpc hoverlap
  · exact iff_of_false nofun (by tauto)
  · exact iff_of_false nofun (by tauto)
  · exact iff_of_true rfl (by tauto)

/-! ### MUL and MLA (R222, R224, R225) -/

/-- What MUL and MLA leave behind: `value` modulo 2^32 in Rd and, on S, its N and Z with V unchanged and any C. -/
def WordResult (s : State) (sf : Bool) (rd : RegNum) (value : Nat) (t : State) : Prop :=
  (t.cell (bank s.cpsr.mode rd)).toNat = value % 2 ^ 32
    ∧ (sf = false → t.cpsr = s.cpsr)
    ∧ (sf = true → t.cpsr = { s.cpsr with
        n := (t.cell (bank s.cpsr.mode rd)).getLsbD 31
        z := decide (t.cell (bank s.cpsr.mode rd) = 0#32)
        c := t.cpsr.c })
    ∧ RegisterFrame [bank s.cpsr.mode rd] s t

theorem wordResult_of_finishMultiply32 {value : Nat} (h : exec i s = finishMultiply32 sf rd (BitVec.ofNat 32 value) s)
    (hrd : rd ≠ 15) : Continues i s (WordResult s sf rd value) := by
  refine (continues_of_finishMultiply32 h hrd).mono fun t ⟨hcell, hkept, hflags, hframe⟩ => ?_
  rw [← hcell] at hflags
  refine ⟨?value, hkept, hflags, hframe⟩
  case value => rw [hcell, BitVec.toNat_ofNat]

/-- MUL and MLA, whichever value they compute: the restricted registers are refused, and all others get the value. -/
theorem refused_or_wordResult {restricted : Prop} {acc : Option RegNum} {value : Nat}
    (h : exec i s = unlessRefused (multiplyCheck32 rd rm rs acc) (finishMultiply32 sf rd (BitVec.ofNat 32 value) s))
    (hrestricted : multiplyCheck32 rd rm rs acc = none ↔ ¬ restricted) :
    (restricted → ∃ e, exec i s = .refused e) ∧ (¬ restricted → Continues i s (WordResult s sf rd value)) :=
  refused_or_continues_of_unlessRefused h hrestricted fun hnone hexec =>
    wordResult_of_finishMultiply32 hexec (dest_ne_pc_of_multiplyCheck32 hnone)

theorem exec_mul_of_passed (hc : conditionPassed cond s.cpsr = true) (sf : Bool) (rd rs rm : RegNum) :
    exec (.mul cond sf rd rs rm) s = unlessRefused (multiplyCheck32 rd rm rs none)
      (finishMultiply32 sf rd (BitVec.ofNat 32 ((s.reg rm).toNat * (s.reg rs).toNat)) s) :=
  conditional_passed hc _

theorem exec_mla_of_passed (hc : conditionPassed cond s.cpsr = true) (sf : Bool) (rd rn rs rm : RegNum) :
    exec (.mla cond sf rd rn rs rm) s = unlessRefused (multiplyCheck32 rd rm rs (some rn))
      (finishMultiply32 sf rd (BitVec.ofNat 32 ((s.reg rm).toNat * (s.reg rs).toNat + (s.reg rn).toNat)) s) :=
  conditional_passed hc _

/-! ### The long multiplies (R222, R226 to R229) -/

/-- A long multiply, whichever value it computes: the restricted registers are refused, and all others get the value. -/
theorem refused_or_longResult {restricted : Prop} {r : BitVec 64} {value : Int}
    (h : exec i s = unlessRefused (multiplyCheck64 rdHi rdLo rm rs) (finishMultiply64 sf rdHi rdLo r s))
    (hrestricted : restricted ↔
      rdHi = 15 ∨ rdLo = 15 ∨ rm = 15 ∨ rs = 15 ∨ rdHi = rdLo ∨ rdHi = rm ∨ rdLo = rm)
    (hr : r = BitVec.ofInt 64 value) :
    (restricted → ∃ e, exec i s = .refused e) ∧ (¬ restricted → Continues i s (LongResult s sf rdHi rdLo value)) := by
  refine refused_or_continues_of_unlessRefused h (multiplyCheck64_eq_none_iff.trans (not_congr hrestricted.symm))
    fun hnone hexec => ?_
  have hfree := multiplyCheck64_eq_none_iff.1 hnone
  simp only [not_or] at hfree
  obtain ⟨hhi, hlo, -, -, hne, -, -⟩ := hfree
  exact continues_of_finishMultiply64 hexec hr hhi hlo hne

/-- A value computed without signs is the integer of the same size. -/
theorem ofNat_eq_ofInt {w n : Nat} {value : Int} (h : (n : Int) = value) : BitVec.ofNat w n = BitVec.ofInt w value := by
  rw [← h, BitVec.ofInt_natCast]

theorem State.accumulator_cast (s : State) (rdHi rdLo : RegNum) :
    (s.accumulator rdHi rdLo : Int) = ((s.reg rdHi).toNat : Int) * 2 ^ 32 + ((s.reg rdLo).toNat : Int) := by
  simp [State.accumulator]

section Instructions

variable (hc : conditionPassed cond s.cpsr = true) (hlong : s.cfg.hasLongMul = true) (sf : Bool) (rdHi rdLo rs rm : RegNum)

include hc hlong

theorem exec_umull_of_passed :
    exec (.umull cond sf rdHi rdLo rs rm) s = unlessRefused (multiplyCheck64 rdHi rdLo rm rs)
      (finishMultiply64 sf rdHi rdLo (BitVec.ofNat 64 ((s.reg rm).toNat * (s.reg rs).toNat)) s) :=
  (gated_of_present hlong _).trans (conditional_passed hc _)

theorem exec_umlal_of_passed :
    exec (.umlal cond sf rdHi rdLo rs rm) s = unlessRefused (multiplyCheck64 rdHi rdLo rm rs)
      (finishMultiply64 sf rdHi rdLo
        (BitVec.ofNat 64 ((s.reg rm).toNat * (s.reg rs).toNat + s.accumulator rdHi rdLo)) s) :=
  (gated_of_present hlong _).trans (conditional_passed hc _)

theorem exec_smull_of_passed :
    exec (.smull cond sf rdHi rdLo rs rm) s = unlessRefused (multiplyCheck64 rdHi rdLo rm rs)
      (finishMultiply64 sf rdHi rdLo (BitVec.ofInt 64 ((s.reg rm).toInt * (s.reg rs).toInt)) s) :=
  (gated_of_present hlong _).trans (conditional_passed hc _)

theorem exec_smlal_of_passed :
    exec (.smlal cond sf rdHi rdLo rs rm) s = unlessRefused (multiplyCheck64 rdHi rdLo rm rs)
      (finishMultiply64 sf rdHi rdLo
        (BitVec.ofInt 64 ((s.reg rm).toInt * (s.reg rs).toInt + (s.accumulator rdHi rdLo : Int))) s) :=
  (gated_of_present hlong _).trans (conditional_passed hc _)

end Instructions

/-! ### CLZ (R230) -/

theorem exec_clz_of_passed (hc : conditionPassed cond s.cpsr = true) (hv5 : s.cfg.hasV5T = true) (rd rm : RegNum) :
    exec (.clz cond rd rm) s = if rd = 15 ∨ rm = 15 then .refused .r15InClz
      else advance (s.setReg rd (BitVec.ofNat 32 (countLeadingZeros (s.reg rm)))) :=
  (gated_of_present hv5 _).trans (conditional_passed hc _)

theorem countLeadingZeros_le (v : Word) : countLeadingZeros v ≤ 32 := (leadingZeros_spec v 32).1

theorem countLeadingZeros_zero : countLeadingZeros 0#32 = 32 := by decide

theorem getLsbD_eq_false_above_countLeadingZeros (v : Word) {j : Nat} (h : 32 - countLeadingZeros v ≤ j) :
    v.getLsbD j = false := by
  obtain ⟨-, -, hzeros, -⟩ := leadingZeros_spec v 32
  by_cases hj : j < 32
  · exact hzeros j h hj
  · exact v.getLsbD_of_ge j (Nat.le_of_not_lt hj)

/-- A word with all 32 bits counted as zero is the word 0. -/
theorem countLeadingZeros_lt {v : Word} (h : v ≠ 0#32) : countLeadingZeros v < 32 := by
  refine lt_of_le_of_ne (countLeadingZeros_le v) fun h32 => h (BitVec.eq_of_getLsbD_eq fun j _ => ?_)
  rw [getLsbD_eq_false_above_countLeadingZeros v (by omega), BitVec.getLsbD_zero]

theorem getLsbD_countLeadingZeros {v : Word} (h : v ≠ 0#32) : v.getLsbD (31 - countLeadingZeros v) = true := by
  obtain ⟨-, -, -, htop⟩ := leadingZeros_spec v 32
  exact htop (countLeadingZeros_lt h)

theorem toNat_ofNat_countLeadingZeros (v : Word) : (BitVec.ofNat 32 (countLeadingZeros v)).toNat = countLeadingZeros v :=
  Nat.mod_eq_of_lt (by have := countLeadingZeros_le v; omega)

end Sys2Proof.Machine
end

section
/-! The obligations about multiplies and count leading zeros (44_multiply_clz.md). -/

namespace Sys2Proof.Proofs

open Sys2Proof Sys2Proof.Machine

/-- Settles O39: behind the check of the registers both end alike, each with its own exact value. -/
theorem multiplyResultAndFlags : Obligations.MultiplyResultAndFlags := by
  intro s cond sf rd rn rs rm hc
  obtain ⟨hmulRefused, hmul⟩ := refused_or_wordResult (exec_mul_of_passed hc sf rd rs rm) multiplyCheck32_mul_eq_none_iff
  obtain ⟨hmlaRefused, hmla⟩ := refused_or_wordResult (exec_mla_of_passed hc sf rd rn rs rm) multiplyCheck32_mla_eq_none_iff
  exact ⟨hmulRefused, hmul, hmlaRefused, hmla⟩

/-- Settles O40: the four differ in the exact value only, which the model has as a natural number where it is unsigned. -/
theorem longMultiplyResultAndFlags : Obligations.LongMultiplyResultAndFlags := by
  rintro s cond sf rdHi rdLo rs rm _ restricted hc hlong rfl hrestricted
  rw [← s.accumulator_cast]
  obtain ⟨humullRefused, humull⟩ := refused_or_longResult (exec_umull_of_passed hc hlong sf rdHi rdLo rs rm) hrestricted
    (ofNat_eq_ofInt (Nat.cast_mul _ _))
  obtain ⟨humlalRefused, humlal⟩ := refused_or_longResult (exec_umlal_of_passed hc hlong sf rdHi rdLo rs rm) hrestricted
    (ofNat_eq_ofInt (by rw [Nat.cast_add, Nat.cast_mul]))
  obtain ⟨hsmullRefused, hsmull⟩ := refused_or_longResult (exec_smull_of_passed hc hlong sf rdHi rdLo rs rm) hrestricted rfl
  obtain ⟨hsmlalRefused, hsmlal⟩ := refused_or_longResult (exec_smlal_of_passed hc hlong sf rdHi rdLo rs rm) hrestricted rfl
  exact ⟨humullRefused, humull, humlalRefused, humlal, hsmullRefused, hsmull, hsmlalRefused, hsmlal⟩

/-- Settles O41: Rd is the only register written, and the count that it holds is never wrapped. -/
theorem countLeadingZerosFindsTheTopBit : Obligations.CountLeadingZerosFindsTheTopBit := by
  intro s cond rd rm hc hv5
  have hexec := exec_clz_of_passed hc hv5 rd rm
  refine ⟨fun hpc => hexec.trans (if_pos hpc), fun hrd hrm => ?_⟩
  rw [if_neg (not_or.2 ⟨hrd, hrm⟩)] at hexec
  refine (continues_of_advance_setReg hexec hrd).mono fun t ⟨hcell, hcpsr, hframe⟩ => ?_
  rw [hcell, toNat_ofNat_countLeadingZeros]
  refine ⟨fun hzero => ?zero, fun hne => ⟨countLeadingZeros_lt hne, getLsbD_countLeadingZeros hne, fun j hj => ?above⟩,
    hcpsr, hframe⟩
  case zero => rw [hzero, countLeadingZeros_zero]
  case above => exact getLsbD_eq_false_above_countLeadingZeros _ (by omega)

end Sys2Proof.Proofs
end

section
/-! SUPPORT. What the implementation fixes of the word and byte transfers (45_single_transfer.md). -/

namespace Sys2Proof.Machine

/-- The one bit the parameter leaves open chooses between the two values of decision D4. -/
theorem storePcOffset_eq_eight_or_twelve : Config.storePcOffset = 8#32 ∨ Config.storePcOffset = 12#32 := by
  unfold Config.storePcOffset
  cases Config.storesPcPlusTwelve with
  | false => exact .inl rfl
  | true => exact .inr rfl

end Sys2Proof.Machine
end

section
/-! The obligations about word and byte transfers (45_single_transfer.md): an immediate and a shifted register offset, each
pre-indexed, post-indexed and post-indexed as User, are one shared transfer with other arguments. -/

namespace Sys2Proof.Proofs

open Sys2Proof Sys2Proof.Machine

/-- Settles O42: with P and U fixed, `indexed` is the row of the table itself. -/
theorem addressingModeTable : Obligations.AddressingModeTable := by
  intro w base offset
  exact ⟨rfl, rfl, rfl, rfl⟩

/-- Settles O43: each form is a shared word load. -/
theorem wordLoadTransfers : Obligations.WordLoadTransfers := by
  intro s cond u w rn rd rm imm12 amount sh hc
  refine ⟨?immPre, ?immPost, ?regPre, ?regPost, ?immUser, ?regUser⟩
  case immPre | immPost | immUser => exact wordLoad_of_loadWordTransfer (off := .imm imm12) rfl hc
  case regPre | regPost | regUser => exact wordLoad_of_loadWordTransfer (off := .reg amount sh rm) rfl hc

/-- Settles O44: each form is a shared byte load. -/
theorem byteLoadTransfers : Obligations.ByteLoadTransfers := by
  intro s cond u w rn rd rm imm12 amount sh hc
  refine ⟨?immPre, ?immPost, ?regPre, ?regPost, ?immUser, ?regUser⟩
  case immPre | immPost | immUser => exact byteLoad_of_loadByteTransfer (off := .imm imm12) rfl hc
  case regPre | regPost | regUser => exact byteLoad_of_loadByteTransfer (off := .reg amount sh rm) rfl hc

/-- Settles O45: each form is a shared word store; what is stored for r15 is one of two values. -/
theorem wordStoreTransfers : Obligations.WordStoreTransfers := by
  refine ⟨?forms, storePcOffset_eq_eight_or_twelve⟩
  intro s cond u w rn rd rm imm12 amount sh v hm hc hv
  refine ⟨?immPre, ?immPost, ?regPre, ?regPost, ?immUser, ?regUser⟩
  case immPre | immPost | immUser => exact wordStore_of_storeWordTransfer (off := .imm imm12) rfl hm hc hv
  case regPre | regPost | regUser => exact wordStore_of_storeWordTransfer (off := .reg amount sh rm) rfl hm hc hv

/-- Settles O46: each form is a shared byte store. -/
theorem byteStoreTransfers : Obligations.ByteStoreTransfers := by
  intro s cond u w rn rd rm imm12 amount sh hm hc
  refine ⟨?immPre, ?immPost, ?regPre, ?regPost, ?immUser, ?regUser⟩
  case immPre | immPost | immUser => exact byteStore_of_storeByteTransfer (off := .imm imm12) rfl hm hc
  case regPre | regPost | regUser => exact byteStore_of_storeByteTransfer (off := .reg amount sh rm) rfl hm hc

end Sys2Proof.Proofs
end

section
/-! The obligations about half-word and signed byte transfers (46_halfword_transfer.md): on a processor that has them, the
immediate and the register form of each are one shared transfer, which differs between the loads in the extension only. -/

namespace Sys2Proof.Proofs

open Sys2Proof Sys2Proof.Machine

/-- Settles O47: each form is a shared half-word load with its extension, or the shared signed byte load. -/
theorem halfwordLoadTransfers : Obligations.HalfwordLoadTransfers := by
  intro s cond p u w rn rd rm imm8 hc hpresent
  refine ⟨?ldrhImm, ?ldrhReg, ?ldrshImm, ?ldrshReg, ?ldrsbImm, ?ldrsbReg⟩
  case ldrhImm =>
    exact halfLoad_of_loadHalfTransfer (ext := (·.setWidth 32)) (off := .imm imm8) (gated_of_present hpresent _) hc
  case ldrhReg =>
    exact halfLoad_of_loadHalfTransfer (ext := (·.setWidth 32)) (off := .reg rm) (gated_of_present hpresent _) hc
  case ldrshImm =>
    exact halfLoad_of_loadHalfTransfer (ext := (·.signExtend 32)) (off := .imm imm8) (gated_of_present hpresent _) hc
  case ldrshReg =>
    exact halfLoad_of_loadHalfTransfer (ext := (·.signExtend 32)) (off := .reg rm) (gated_of_present hpresent _) hc
  case ldrsbImm => exact signedByteLoad_of_loadSignedByteTransfer (off := .imm imm8) (gated_of_present hpresent _) hc
  case ldrsbReg => exact signedByteLoad_of_loadSignedByteTransfer (off := .reg rm) (gated_of_present hpresent _) hc

/-- Settles O48: both forms are the shared half-word store. -/
theorem halfwordStoreTransfers : Obligations.HalfwordStoreTransfers := by
  intro s cond p u w rn rd rm imm8 hm hc hpresent
  refine ⟨?imm, ?reg⟩
  case imm => exact halfStore_of_storeHalfTransfer (off := .imm imm8) (gated_of_present hpresent _) hm hc
  case reg => exact halfStore_of_storeHalfTransfer (off := .reg rm) (gated_of_present hpresent _) hm hc

end Sys2Proof.Proofs
end

section
/-! SUPPORT. How a User program leaves User mode (60_exceptions.md R366): every instruction that starts in User mode ends there,
or takes an exception while the CPSR is still the program's. -/

namespace Sys2Proof.Machine

variable {s u v : State} {k : Result} {cond : Cond}

/-- The state is in User mode, or it is the entry of an exception from a state with the CPSR of `s`. -/
def State.UserOrEntered (s t : State) : Prop :=
  t.cpsr.mode = .user ∨ ∃ e link u, u.cpsr = s.cpsr ∧ t = takeException e link u

/-- If the result is a next state, User mode has been left by an exception only. -/
def ExitsByException (s : State) (r : Result) : Prop := EndsIn s.UserOrEntered r

/-! ### The CPSR while a transfer is made -/

@[simp] theorem State.drawn_cpsr (s : State) : s.drawn.cpsr = s.cpsr := rfl

@[simp] theorem State.indexBase_cpsr (s : State) (rn : RegNum) (x : Indexed) : (s.indexBase rn x).cpsr = s.cpsr := by
  unfold State.indexBase
  split <;> simp

@[simp] theorem State.abortBase_cpsr (s : State) (rn : RegNum) (x : Indexed) : (s.abortBase rn x).cpsr = s.cpsr := by
  unfold State.abortBase
  split <;> simp

@[simp] theorem State.blockBase_cpsr (s : State) (up w : Bool) (rn : RegNum) (list : BitVec 16) :
    (s.blockBase up w rn list).cpsr = s.cpsr := by
  unfold State.blockBase
  split <;> simp

@[simp] theorem State.loadRegs_cpsr (s : State) (m : Mode) (list : BitVec 16) (values : List Word) :
    (s.loadRegs m list values).cpsr = s.cpsr := State.setCells_cpsr _ s

@[simp] theorem abortedLoad_cpsr (m : Mode) (w : Bool) (rn : RegNum) (list : BitVec 16) (s : State) :
    (abortedLoad m w rn list s).cpsr = s.cpsr := State.freeCells_cpsr _ s

@[simp] theorem storeBlock_cpsr (priv : Privilege) (l : List (Word × Word)) (faulted : Bool) (s : State) :
    (storeBlock priv l faulted s).1.cpsr = s.cpsr := by
  induction l generalizing faulted s with
  | nil => rfl
  | cons x rest ih =>
    unfold storeBlock
    dsimp only
    split_ifs <;> simp [ih]

@[simp] theorem AluOut.flags_mode (o : AluOut) (shifterCarry : Bool) (p : Cpsr) : (o.flags shifterCarry p).mode = p.mode := by
  cases o <;> rfl

/-! ### Shared ends -/

theorem next_exits (h : u.cpsr.mode = .user) : ExitsByException s (.next u) := EndsIn.next (.inl h)

theorem advance_exits (h : u.cpsr.mode = .user) : ExitsByException s (advance u) := EndsIn.advance (.inl h)

theorem entry_exits (e : Exception) (link : Word) (h : u.cpsr = s.cpsr) : ExitsByException s (.next (takeException e link u)) :=
  EndsIn.next (.inr ⟨e, link, u, h, rfl⟩)

theorem dataAbort_exits (h : u.cpsr = s.cpsr) : ExitsByException s (dataAbort u) := entry_exits _ _ h

theorem undefinedTrap_exits (s : State) : ExitsByException s (undefinedTrap s) := entry_exits _ _ rfl

theorem abortOrAdvance_exits {c : Prop} [Decidable c] (hv : v.cpsr = s.cpsr) (hu : u.cpsr.mode = .user) :
    ExitsByException s (if c then dataAbort v else advance u) :=
  .ite (dataAbort_exits hv) (advance_exits hu)

/-- A load of the pc changes T at most. -/
theorem loadPc_exits (h : u.cpsr.mode = .user) (w : Word) : ExitsByException s (loadPc w u) := by
  refine .ite (next_exits ?_) (.ite (next_exits h) (.refused _))
  split <;> exact h

/-- User mode has no exception to return from. -/
theorem exceptionReturn_exits (h : u.cpsr.mode = .user) (target : Word) : ExitsByException s (exceptionReturn target u) := by
  rw [exceptionReturn_of_user target h]
  exact .refused _

section UserPrograms

variable (hs : s.cpsr.mode = .user)

include hs

/-- A skipped instruction stays in User mode. -/
theorem conditional_exits (h : ExitsByException s k) : ExitsByException s (conditional cond s k) :=
  EndsIn.conditional (advance_exits hs) h

/-! ### Instructions that take no exception -/

theorem dataProcessing_exits (op : DpOp) (sf : Bool) (rn rd : RegNum) (operand : Shifted) :
    ExitsByException s (dataProcessing op sf rn rd operand s) := by
  refine .ite (.ite (.ite ?returns ?branches) ?writes) ?tests
  case returns => exact exceptionReturn_exits hs _
  case branches => exact .ite (.refused _) (next_exits hs)
  case writes => exact advance_exits (by split <;> simpa using hs)
  case tests => exact advance_exits (by simpa using hs)

theorem finishMultiply32_exits (sf : Bool) (rd : RegNum) (result : Word) :
    ExitsByException s (finishMultiply32 sf rd result s) :=
  advance_exits (by split <;> simpa [setFlagsMul32, Cpsr.withFlags] using hs)

theorem finishMultiply64_exits (sf : Bool) (rdHi rdLo : RegNum) (result : BitVec 64) :
    ExitsByException s (finishMultiply64 sf rdHi rdLo result s) :=
  advance_exits (by split <;> simpa [setFlagsMul64, Cpsr.withFlags] using hs)

theorem execMrs_exits (r : Bool) (rd : RegNum) : ExitsByException s (execMrs cond r rd s) := by
  refine conditional_exits hs (.ite (.refused _) ?_)
  split
  · exact .refused _
  · exact advance_exits (by simpa using hs)

/-- MSR in User mode leaves the mode field as it is (49_status_register.md R314). -/
theorem moveToStatus_exits (r : Bool) (fieldMask : BitVec 4) (operand : Word) :
    ExitsByException s (moveToStatus r fieldMask operand s) := by
  refine .ite ?spsr ?cpsr
  case spsr =>
    split
    · exact .refused _
    · exact advance_exits (by simpa using hs)
  case cpsr =>
    dsimp only
    split_ifs with ht
    · exact .refused _
    · split
      · exact .refused _
      · next p hp =>
        obtain ⟨-, -, huser⟩ := allowsStatus_of_restored (not_not.1 ht) hp
        exact advance_exits (huser hs).1

/-! ### Single transfers and swaps -/

theorem loadWordTransfer_exits (p up w : Bool) (priv : Privilege) (rn rd : RegNum) (offset : LsOffset) :
    ExitsByException s (loadWordTransfer cond p up w priv rn rd offset s) :=
  conditional_exits hs <| .unlessRefused <| .ite (.refused _) <| .ite (dataAbort_exits (by simp)) <|
    .ite (loadPc_exits (by simpa using hs) _) (advance_exits (by simpa using hs))

theorem loadByteTransfer_exits (p up w : Bool) (priv : Privilege) (rn rd : RegNum) (offset : LsOffset) :
    ExitsByException s (loadByteTransfer cond p up w priv rn rd offset s) :=
  conditional_exits hs <| .unlessRefused <| .ite (.refused _) <| abortOrAdvance_exits (by simp) (by simpa using hs)

theorem storeWordTransfer_exits (p up w : Bool) (priv : Privilege) (rn rd : RegNum) (offset : LsOffset) :
    ExitsByException s (storeWordTransfer cond p up w priv rn rd offset s) :=
  conditional_exits hs <| .unlessRefused <| abortOrAdvance_exits (by simp) (by simpa using hs)

theorem storeByteTransfer_exits (p up w : Bool) (priv : Privilege) (rn rd : RegNum) (offset : LsOffset) :
    ExitsByException s (storeByteTransfer cond p up w priv rn rd offset s) :=
  conditional_exits hs <| .unlessRefused <| .ite (.refused _) <| abortOrAdvance_exits (by simp) (by simpa using hs)

theorem loadHalfTransfer_exits (extend : Half → Word) (p up w : Bool) (rn rd : RegNum) (offset : LshOffset) :
    ExitsByException s (loadHalfTransfer extend cond p up w rn rd offset s) :=
  conditional_exits hs <| .unlessRefused <| .ite (.refused _) <| abortOrAdvance_exits (by simp) (by simpa using hs)

theorem loadSignedByteTransfer_exits (p up w : Bool) (rn rd : RegNum) (offset : LshOffset) :
    ExitsByException s (loadSignedByteTransfer cond p up w rn rd offset s) :=
  conditional_exits hs <| .unlessRefused <| abortOrAdvance_exits (by simp) (by simpa using hs)

theorem storeHalfTransfer_exits (p up w : Bool) (rn rd : RegNum) (offset : LshOffset) :
    ExitsByException s (storeHalfTransfer cond p up w rn rd offset s) :=
  conditional_exits hs <| .unlessRefused <| .ite (.refused _) <| abortOrAdvance_exits (by simp) (by simpa using hs)

theorem execSwp_exits (rn rd rm : RegNum) : ExitsByException s (execSwp cond rn rd rm s) :=
  conditional_exits hs <| .unlessRefused <| .ite (.refused _) <| abortOrAdvance_exits (by simp) (by simpa using hs)

theorem execSwpb_exits (rn rd rm : RegNum) : ExitsByException s (execSwpb cond rn rd rm s) :=
  conditional_exits hs <| .unlessRefused <| abortOrAdvance_exits (by simp) (by simpa using hs)

/-! ### Block transfers -/

theorem finishStore_exits (up w : Bool) (rn : RegNum) (list : BitVec 16) (stores : List (Word × Word)) :
    ExitsByException s (finishStore up w rn list stores s) := by
  have stored := storeBlock_cpsr s.privilege stores false s
  unfold finishStore
  split
  · next e =>
    rw [e] at stored
    exact dataAbort_exits (by split <;> simpa [State.freeCells_cpsr] using stored)
  · next e =>
    rw [e] at stored
    exact advance_exits (by simpa using (congrArg Cpsr.mode stored).trans hs)

theorem execStm_exits (p up w : Bool) (rn : RegNum) (list : BitVec 16) : ExitsByException s (execStm cond p up w rn list s) :=
  conditional_exits hs <| .unlessRefused <| .withBlock fun _ => finishStore_exits hs _ _ _ _ _

theorem execStmUser_exits (p up w : Bool) (rn : RegNum) (list : BitVec 16) :
    ExitsByException s (execStmUser cond p up w rn list s) :=
  conditional_exits hs <| .unlessRefused <| .ite (.refused _) <| .unlessRefused <|
    .withBlock fun _ => finishStore_exits hs _ _ _ _ _

theorem execLdm_exits (p up w : Bool) (rn : RegNum) (list : BitVec 16) : ExitsByException s (execLdm cond p up w rn list s) :=
  conditional_exits hs <| .unlessRefused <| .withBlock fun _ => .ite (dataAbort_exits (by simp)) <|
    .ite (loadPc_exits (by simpa using hs) _) (advance_exits (by simpa using hs))

theorem execLdmReturn_exits (p up w : Bool) (rn : RegNum) (list : BitVec 16) :
    ExitsByException s (execLdmReturn cond p up w rn list s) :=
  conditional_exits hs <| .unlessRefused <| .unlessRefused <| .withBlock fun _ =>
    .ite (dataAbort_exits (by simp)) (exceptionReturn_exits (by simpa using hs) _)

theorem execLdmUser_exits (p up w : Bool) (rn : RegNum) (list : BitVec 16) :
    ExitsByException s (execLdmUser cond p up w rn list s) :=
  conditional_exits hs <| .unlessRefused <| .unlessRefused <| .withBlock fun _ =>
    abortOrAdvance_exits (by simp) (by simpa using hs)

/-! ### Branches -/

theorem execBx_exits (rm : RegNum) : ExitsByException s (execBx cond rm s) :=
  .ite (conditional_exits hs (next_exits hs)) (.gated (conditional_exits hs (undefinedTrap_exits s)))

theorem execBlxReg_exits (rm : RegNum) : ExitsByException s (execBlxReg cond rm s) :=
  .gated <| conditional_exits hs <| .ite (.refused _) (next_exits (by simpa [exchange_cpsr] using hs))

theorem execBlxImm_exits (h : Bool) (offset24 : BitVec 24) : ExitsByException s (execBlxImm h offset24 s) :=
  .gated <| .withTarget fun _ => next_exits hs

/-! ### Every instruction -/

/-- An instruction of a User program leaves User mode by an exception only. -/
theorem exec_exits (i : Instr) : ExitsByException s (exec i s) := by
  cases i
  case andImm | eorImm | subImm | rsbImm | addImm | adcImm | sbcImm | rscImm | tstImm | teqImm | cmpImm | cmnImm | orrImm
      | movImm | bicImm | mvnImm | andReg | eorReg | subReg | rsbReg | addReg | adcReg | sbcReg | rscReg | tstReg | teqReg
      | cmpReg | cmnReg | orrReg | movReg | bicReg | mvnReg =>
    exact conditional_exits hs (dataProcessing_exits hs _ _ _ _ _)
  case andRsr | eorRsr | subRsr | rsbRsr | addRsr | adcRsr | sbcRsr | rscRsr | tstRsr | teqRsr | cmpRsr | cmnRsr | orrRsr
      | movRsr | bicRsr | mvnRsr =>
    exact conditional_exits hs (.unlessRefused (dataProcessing_exits hs _ _ _ _ _))
  case b => exact conditional_exits hs (.withTarget fun _ => next_exits hs)
  case bl => exact conditional_exits hs (.withTarget fun _ => next_exits (by simpa using hs))
  case bx => exact execBx_exits hs _
  case blxReg => exact execBlxReg_exits hs _
  case blxImm => exact execBlxImm_exits hs _ _
  case swi => exact conditional_exits hs (entry_exits _ _ rfl)
  case mul | mla => exact conditional_exits hs (.unlessRefused (finishMultiply32_exits hs _ _ _))
  case umull | umlal | smull | smlal =>
    exact .gated <| conditional_exits hs <| .unlessRefused <| finishMultiply64_exits hs _ _ _ _
  case clz => exact .gated <| conditional_exits hs <| .ite (.refused _) (advance_exits (by simpa using hs))
  case ldrImmPre | ldrImmPost | ldrRegPre | ldrRegPost | ldrtImm | ldrtReg => exact loadWordTransfer_exits hs _ _ _ _ _ _ _
  case ldrbImmPre | ldrbImmPost | ldrbRegPre | ldrbRegPost | ldrbtImm | ldrbtReg =>
    exact loadByteTransfer_exits hs _ _ _ _ _ _ _
  case strImmPre | strImmPost | strRegPre | strRegPost | strtImm | strtReg => exact storeWordTransfer_exits hs _ _ _ _ _ _ _
  case strbImmPre | strbImmPost | strbRegPre | strbRegPost | strbtImm | strbtReg =>
    exact storeByteTransfer_exits hs _ _ _ _ _ _ _
  case ldrhImm | ldrhReg | ldrshImm | ldrshReg => exact .gated (loadHalfTransfer_exits hs _ _ _ _ _ _ _)
  case ldrsbImm | ldrsbReg => exact .gated (loadSignedByteTransfer_exits hs _ _ _ _ _ _)
  case strhImm | strhReg => exact .gated (storeHalfTransfer_exits hs _ _ _ _ _ _)
  case stm => exact execStm_exits hs _ _ _ _ _
  case ldm => exact execLdm_exits hs _ _ _ _ _
  case ldmReturn => exact execLdmReturn_exits hs _ _ _ _ _
  case ldmUser => exact execLdmUser_exits hs _ _ _ _ _
  case stmUser => exact execStmUser_exits hs _ _ _ _ _
  case swp => exact execSwp_exits hs _ _ _
  case swpb => exact execSwpb_exits hs _ _ _
  case mrs => exact execMrs_exits hs _ _
  case msrReg | msrImm => exact conditional_exits hs (.ite (.refused _) (moveToStatus_exits hs _ _ _))
  case undefinedSpace | coprocLdcStc | coprocCdpMrcMcr => exact conditional_exits hs (undefinedTrap_exits s)

end UserPrograms

/-! ### Steps -/

/-- The SPSR of the handler's mode holds the CPSR of before. -/
theorem takeException_spsrOf_same (e : Exception) (link : Word) (s : State) :
    (takeException e link s).spsrOf e.mode = some s.cpsr.saved := by
  cases e <;> rfl

theorem runInstruction_exits (hs : s.cpsr.mode = .user) : ExitsByException s (runInstruction s) := by
  intro t h
  obtain ⟨-, -, hfetch⟩ := runInstruction_next h
  rcases fetchAndRun_next hfetch with ⟨-, rfl⟩ | ⟨-, -, i, -, hexec⟩
  · exact .inr ⟨_, _, s.atAccess, rfl, rfl⟩
  · exact exec_exits (s := s.atAccess) hs i t hexec

/-- A step of a User program is a reset, or leaves User mode by an exception only. -/
theorem stepEvents_leavesUser {x : Inputs} {t : State} (hs : s.cpsr.mode = .user) (h : stepEvents x s = .next t) :
    (x.resetLine = true ∧ t = resetEvent s) ∨ s.UserOrEntered t := by
  rcases stepEvents_next h with hreset | ⟨-, rfl⟩ | ⟨-, rfl⟩ | ⟨-, hrun⟩
  · exact .inl hreset
  · exact .inr (.inr ⟨_, _, s, rfl, rfl⟩)
  · exact .inr (.inr ⟨_, _, s, rfl, rfl⟩)
  · exact .inr (runInstruction_exits hs t hrun)

end Sys2Proof.Machine
end

section
/-! The obligation about leaving User mode (60_exceptions.md R366). -/

namespace Sys2Proof.Proofs

open Sys2Proof Sys2Proof.Machine

/-- Settles O17: of what a step of a User program can be, only the reset and the exception entries leave User mode. -/
theorem userModeIsLeftOnlyByExceptions : Obligations.UserModeIsLeftOnlyByExceptions := by
  intro s t hs h hleft
  rcases stepEvents_leavesUser (s := s.afterInputs) hs h with ⟨hreset, rfl⟩ | huser | ⟨e, link, u, hu, rfl⟩
  · exact .inl ⟨hreset, rfl, rfl⟩
  · exact absurd huser hleft
  · exact .inr ⟨e, rfl, rfl, rfl, rfl, by rw [takeException_spsrOf_same, hu, State.afterInputs_cpsr]⟩

end Sys2Proof.Proofs
end

section
/-! SUPPORT. The exception entry as the statements about exceptions give it (60_exceptions.md R340), and the steps and
instructions that are one. -/

namespace Sys2Proof.Machine

variable {s : State} {r : Result} {cond : Cond}

/-- A result that is the entry of an exception: what the handler finds, and what the entry leaves alone. -/
theorem exceptionEntered {e : Exception} {link : Word} {p : Cpsr} (h : r = .next (takeException e link s))
    (hp : handlerCpsr e s.cpsr = p) :
    ∃ t, r = .next t ∧ t.cell (bank e.mode 14) = link ∧ t.spsr = (s.setSpsrOf e.mode s.cpsr.saved).spsr ∧ t.cpsr = p
      ∧ t.pc = e.vector ∧ SameRegistersBut [bank e.mode 14] s t ∧ SameMemory s t ∧ SamePlatform s t :=
  ⟨_, h, takeException_cell_link e link s, takeException_spsr e link s, hp, takeException_pc e link s,
    takeException_sameRegistersBut_link e link s, takeException_sameMemory e link s, takeException_samePlatform e link s⟩

/-- FIQ disables itself as well as IRQ (R346). -/
theorem handlerCpsr_fiq (p : Cpsr) : handlerCpsr .fiq p = { p with i := true, f := true, t := false, mode := .fiq } := by
  rw [handlerCpsr, show Exception.fiq.masksFiq = true from rfl, Bool.or_true]
  rfl

theorem handlerCpsr_f (e : Exception) (p : Cpsr) : (handlerCpsr e p).f = true ↔ p.f = true ∨ e = .fiq := by
  cases e <;> simp [handlerCpsr, Exception.masksFiq]

/-- Of the SPSRs only the one of the handler's mode changes. -/
theorem takeException_spsrOf_ne (e : Exception) (link : Word) (s : State) {m : Mode} (h : m ≠ e.mode) :
    (takeException e link s).spsrOf m = s.spsrOf m := by
  cases e <;> cases m <;> simp_all [takeException, Exception.mode, State.setSpsrOf, State.spsrOf]

/-! ### Steps that are an event (R350) -/

theorem step_of_reset (h : s.nextInputs.resetLine = true) : step s = .next (resetEvent s.afterInputs) := by
  simp [step, stepEvents, h]

theorem step_of_fiq (hreset : s.nextInputs.resetLine = false) (hfiq : s.nextInputs.fiqLine = true) (hf : s.cpsr.f = false) :
    step s = .next (takeException .fiq (s.pc + 4#32) s.afterInputs) := by
  simp [step, stepEvents, hreset, hfiq, hf]

theorem step_of_irq (hreset : s.nextInputs.resetLine = false) (hnofiq : s.nextInputs.fiqLine = true → s.cpsr.f = true)
    (hirq : s.nextInputs.irqLine = true) (hi : s.cpsr.i = false) :
    step s = .next (takeException .irq (s.pc + 4#32) s.afterInputs) := by
  have nofiq : (s.nextInputs.fiqLine && !s.cpsr.f) = false := by simpa using hnofiq
  simp [step, stepEvents, hreset, nofiq, hirq, hi]

/-- A fetch that the memory system refuses is the whole of the instruction (R342). -/
theorem step_of_fetchFaults (hno : s.NoEvent) (ht : s.cpsr.t = false) (hpc : s.pc.extractLsb' 0 2 = 0#2)
    (hfault : s.atFetch.fetchFaults = true) : step s = .next (takeException .prefetchAbort (s.pc + 4#32) s.atFetch) := by
  rw [step_of_noEvent hno, runInstruction_of_aligned (s := s.afterInputs) ht hpc, fetchAndRun, if_pos hfault]
  rfl

/-! ### Instructions that trap (R343) -/

theorem exec_undefinedSpace_of_passed (hc : conditionPassed cond s.cpsr = true) (hi20 : BitVec 20) (lo4 : BitVec 4) :
    exec (.undefinedSpace cond hi20 lo4) s = undefinedTrap s := conditional_passed hc _

theorem exec_coprocLdcStc_of_passed (hc : conditionPassed cond s.cpsr = true) (rest : BitVec 25) :
    exec (.coprocLdcStc cond rest) s = undefinedTrap s := conditional_passed hc _

theorem exec_coprocCdpMrcMcr_of_passed (hc : conditionPassed cond s.cpsr = true) (rest : BitVec 24) :
    exec (.coprocCdpMrcMcr cond rest) s = undefinedTrap s := conditional_passed hc _

theorem exec_bx_of_trapped (hc : conditionPassed cond s.cpsr = true) (hthumb : s.cfg.hasThumb = false)
    (htrap : s.cfg.undefTrapsBx = true) (rm : RegNum) : exec (.bx cond rm) s = undefinedTrap s := by
  have hgated : exec (.bx cond rm) s = gated s.cfg.undefTrapsBx (conditional cond s (undefinedTrap s)) :=
    if_neg (Bool.eq_false_iff.1 hthumb)
  rw [hgated, gated_of_present htrap, conditional_passed hc]

end Sys2Proof.Machine
end

section
/-! The obligations about exceptions (60_exceptions.md). -/

namespace Sys2Proof.Proofs

open Sys2Proof Sys2Proof.Machine

/-- Settles O6: each event is the whole step, a reset or the entry of its exception. -/
theorem eventsComeBeforeTheInstruction : Obligations.EventsComeBeforeTheInstruction := by
  intro s
  refine ⟨?reset, ?fiq, ?irq, step_of_noEvent⟩
  case reset => exact fun hreset => ⟨_, step_of_reset hreset, rfl, rfl⟩
  case fiq =>
    intro hreset hfiq hf
    exact exceptionEntered (step_of_fiq hreset hfiq hf) (handlerCpsr_fiq s.cpsr)
  case irq =>
    intro hreset hnofiq hirq hi
    exact exceptionEntered (step_of_irq hreset hnofiq hirq hi) (handlerCpsr_of_not_masksFiq rfl s.cpsr)

/-- Settles O9: the entry by what it writes and leaves alone, the table by computation. -/
theorem exceptionEntrySavesAndSwitches : Obligations.ExceptionEntrySavesAndSwitches := by
  refine ⟨fun e link s => ?entry, ?table⟩
  case table => decide
  case entry =>
    refine ⟨takeException_cell_link e link s, takeException_spsrOf_same e link s, rfl, rfl, rfl, handlerCpsr_f e s.cpsr,
      rfl, rfl, rfl, rfl, rfl, takeException_sameRegistersBut_link e link s, ?_, takeException_sameMemory e link s,
      takeException_samePlatform e link s⟩
    exact fun m hm => takeException_spsrOf_ne e link s hm

/-- Settles O10: the step is the entry of the prefetch abort in the state of the fetch. -/
theorem refusedFetchTakesPrefetchAbort : Obligations.RefusedFetchTakesPrefetchAbort := by
  intro s hno ht hpc hfault
  exact exceptionEntered (step_of_fetchFaults hno ht hpc hfault) (handlerCpsr_of_not_masksFiq rfl s.cpsr)

/-- Settles O38: all four instructions are the undefined instruction trap once their condition has passed. -/
theorem undefinedInstructionsTrap : Obligations.UndefinedInstructionsTrap := by
  intro s cond i hc hi
  have htrap : exec i s = undefinedTrap s := by
    rcases hi with ⟨hi20, lo4, rfl⟩ | ⟨rest, rfl⟩ | ⟨rest, rfl⟩ | ⟨hthumb, hundef, rm, rfl⟩
    · exact exec_undefinedSpace_of_passed hc hi20 lo4
    · exact exec_coprocLdcStc_of_passed hc rest
    · exact exec_coprocCdpMrcMcr_of_passed hc rest
    · exact exec_bx_of_trapped hc hthumb hundef rm
  exact exceptionEntered htrap (handlerCpsr_of_not_masksFiq rfl s.cpsr)

end Sys2Proof.Proofs
end

section
/-! SUPPORT. Memory over an instruction that is cut short by a reset (70_reset_and_hazards.md R380; log 13): each byte is as it
was or as the instruction would have left it. -/

namespace Sys2Proof.Machine

variable {s u : State} {r : Result}

/-- No update of an instruction takes memory out of the canonical form. -/
theorem Effects.memWf (h : Effects s u) (hs : s.mem.wf = true) : u.mem.wf = true := by
  induction h with
  | refl => exact hs
  | setCell _ _ _ ih | setSpsr _ _ ih => simpa using ih
  | setFlags _ _ _ _ _ ih | drawn _ ih => exact ih
  | atAccess _ ih => exact State.atAccess_memoryWf ih
  | storeWord _ a _ ih => exact Memory.wf_writeWord _ _ ih (alignWord_lt a)
  | @storeHalf _ a _ ha v ih =>
    have hlt : a.toNat + 1 < 2 ^ 32 := by
      rw [even_iff] at ha
      have := a.isLt
      omega
    exact Memory.wf_writeHalf _ v ih hlt
  | storeByte _ a _ ih => exact Memory.wf_write _ ih a.isLt

theorem Ending.memWf (h : Ending s r) (hs : s.mem.wf = true) : EndsIn (fun t => t.mem.wf = true) r := by
  cases h with
  | refused r => exact .refused r
  | advance hu => exact .advance (hu.memWf hs)
  | status => exact .advance hs
  | exception e link hu => exact .next (by simpa using hu.memWf hs)
  | exceptionReturn target hu =>
    intro t h
    obtain ⟨_, _, -, -, -, -, rfl⟩ := exceptionReturn_next h
    exact hu.memWf hs
  | branch hu => exact .next (hu.memWf hs)

theorem runInstruction_memWf (hs : s.mem.wf = true) : EndsIn (fun t => t.mem.wf = true) (runInstruction s) := by
  intro t h
  obtain ⟨-, -, hfetch⟩ := runInstruction_next h
  have hs' : s.atAccess.mem.wf = true := State.atAccess_memoryWf hs
  rcases fetchAndRun_next hfetch with ⟨-, rfl⟩ | ⟨-, -, i, -, hexec⟩
  · simpa using hs'
  · exact (exec_ending i s.atAccess).memWf hs' t hexec

/-- Mixing in bytes of another memory leaves each byte as it was or as it is there. -/
theorem mixBytes_read (new : Memory) {l : List Nat} (hl : ∀ a ∈ l, a < 2 ^ 32) (hs : s.mem.wf = true) (d : Nat) :
    (mixBytes new l s).mem.read d = s.mem.read d ∨ (mixBytes new l s).mem.read d = new.read d := by
  induction l generalizing s with
  | nil => exact .inl rfl
  | cons a rest ih =>
    have hrest : ∀ b ∈ rest, b < 2 ^ 32 := fun b hb => hl b (List.mem_cons_of_mem _ hb)
    unfold mixBytes
    split_ifs
    · exact ih hrest hs
    · have mixed := ih (s := s.drawn.setMem (s.mem.write a (new.read a))) hrest
        (Memory.wf_write _ hs (hl a List.mem_cons_self))
      rw [State.setMem_mem, Memory.read_write hs] at mixed
      by_cases hd : d = a
      · subst hd
        rw [if_pos rfl, or_self] at mixed
        exact .inr mixed
      · rwa [if_neg hd] at mixed
    · exact ih (s := s.drawn) hrest hs

theorem cutShort_read (hs : s.mem.wf = true) (d : Nat) :
    (cutShort s).mem.read d = s.mem.read d ∨ ∃ u, runAlone s = .next u ∧ (cutShort s).mem.read d = u.mem.read d := by
  unfold cutShort
  split
  · next u hu =>
    have hnew : u.mem.wf = true := runInstruction_memWf (s := s.setBus []) hs u hu
    have hl : ∀ a ∈ (s.mem ++ u.mem).map Prod.fst, a < 2 ^ 32 := by
      simp only [List.mem_map, List.mem_append]
      rintro a ⟨x, hx | hx, rfl⟩
      · exact Memory.key_lt hs hx
      · exact Memory.key_lt hnew hx
    exact (mixBytes_read u.mem (s := s.setDraws u.draws) hl hs d).imp_right fun h => ⟨u, hu, h⟩
  · exact .inl rfl

end Sys2Proof.Machine
end

section
/-! The obligation about the reset event (70_reset_and_hazards.md). -/

namespace Sys2Proof.Proofs

open Sys2Proof Sys2Proof.Machine

/-- Settles O7: of what was, a reset keeps memory only, with the bytes that the instruction it cuts short was writing open. -/
theorem resetEventLeavesKnownState : Obligations.ResetEventLeavesKnownState := by
  intro s hreset hm
  refine ⟨_, step_of_reset hreset, rfl, rfl, rfl, rfl, rfl, rfl, ?cfg, fun a => ?memory⟩
  case cfg => exact (State.environment_eq_iff.1 (resetEvent_environment s.afterInputs)).1
  case memory =>
    rw [resetEvent_mem]
    exact cutShort_read (State.atAccess_memoryWf (s := s.afterInputs) hm) a

end Sys2Proof.Proofs
end

section
/-! SUPPORT. Block transfers as a whole (47_multiple_transfer.md R282 to R288): the write-back value as arithmetic, the checks,
and the loads once their restrictions hold. -/

namespace Sys2Proof.Machine

variable {s : State} {i : Instr} {cond : Cond} {m : Mode} {p u w : Bool} {rn : RegNum} {list : BitVec 16}

/-- The base written back is exact but for the wrap at 2^32. -/
theorem blockWriteBack_eq (base : Word) (n : Nat) :
    blockWriteBack true base n = BitVec.ofInt 32 (base.toNat + 4 * n)
      ∧ blockWriteBack false base n = BitVec.ofInt 32 (base.toNat - 4 * n) := by
  have hbase : BitVec.ofInt 32 base.toNat = base := by simp
  have hsize : BitVec.ofNat 32 (4 * n) = BitVec.ofInt 32 (4 * n) := ofNat_eq_ofInt (by push_cast; rfl)
  constructor
  · rw [BitVec.ofInt_add, hbase, ← hsize]
    rfl
  · rw [Int.sub_eq_add_neg, BitVec.ofInt_add, BitVec.ofInt_neg, ← BitVec.sub_eq_add_neg, hbase, ← hsize]
    rfl

/-- The value stored for a register is its own, and for the pc the implementation's (R284; log 7). -/
theorem State.storedReg_eq (s : State) :
    s.storedReg = fun r => if r = 15 then s.pc + Config.storePcOffset else s.cell (bank s.cpsr.mode r) := by
  funext r
  unfold State.storedReg
  split
  · rfl
  · next hr => exact s.reg_of_ne hr

/-! ### Checks -/

/-- A check that finds something refuses, whatever stands behind it. -/
theorem refused_of_check {check : Option Refusal} {k : Result} (h : exec i s = unlessRefused check k)
    (hcheck : check ≠ none) : ∃ r, exec i s = .refused r := by
  obtain ⟨r, rfl⟩ := Option.ne_none_iff_exists'.1 hcheck
  exact ⟨r, h⟩

theorem blockCheck_ne_none (h : BlockRestricted w rn list) : blockCheck w rn list ≠ none := by
  obtain ⟨r, hr⟩ := blockCheck_restricted h
  simp [hr]

theorem userBankCheck_ne_none (h : w = true ∨ s.cpsr.mode = .user) : userBankCheck w s ≠ none := by
  unfold userBankCheck
  split_ifs <;> simp_all

theorem userBankCheck_of_allowed (h : s.cpsr.mode ≠ .user) : userBankCheck false s = none := by
  simp [userBankCheck, h]

theorem needsSpsr_of_none (h : s.cpsr.mode = .user ∨ s.cpsr.mode = .system) : needsSpsr s = some .noSpsr := by
  rcases h with h | h <;> simp [needsSpsr, State.spsrOf, h]

theorem needsSpsr_of_some (h : ¬ (s.cpsr.mode = .user ∨ s.cpsr.mode = .system)) : needsSpsr s = none := by
  unfold needsSpsr
  cases hm : s.cpsr.mode <;> simp_all [State.spsrOf]

/-! ### Loads -/

/-- The addresses of the words of a block that fits. -/
abbrev State.blockAddrs (s : State) (p u : Bool) (rn : RegNum) (list : BitVec 16) : List Word :=
  blockAddresses (s.blockFrom p u rn list) (listedRegs list).length

/-- The state after an LDM has read the words at some addresses, written the base back and loaded the registers. -/
def State.loadedFrom (s : State) (m : Mode) (u w : Bool) (rn : RegNum) (list : BitVec 16) (addrs : List Word) : State :=
  ((s.atAccessNo addrs.length).blockBase u w rn list).loadRegs m list (s.readWords addrs)

/-- What every LDM does behind its checks, `finish` being its end after the words have been read. -/
def loadBlock (m : Mode) (p u w : Bool) (rn : RegNum) (list : BitVec 16) (s : State) (finish : List Word → Result) : Result :=
  withBlock p u rn list s fun addrs =>
    if (s.atAccessNo addrs.length).blockFaults addrs .read then
      dataAbort (abortedLoad m w rn list (s.atAccessNo addrs.length))
    else finish addrs

theorem blockLoad_of_loadBlock {finish : List Word → Result} {P : Prop} (hn : ¬ BlockRestricted w rn list)
    (h : exec i s = loadBlock m p u w rn list s finish)
    (hP : exec i s = finish (s.blockAddrs p u rn list) → P) : BlockLoad i m p u w rn list s P := by
  unfold loadBlock at h
  refine ⟨fun hfit => by rw [h, withBlock_refused hfit], fun hfit hfault => ?aborts, fun hfit hfault => ?completes⟩
  all_goals rw [withBlock_of hfit, State.atAccessNo_block, State.atBlockEnd_blockFaults] at h
  case aborts =>
    rw [if_pos (blockFaults_iff.2 hfault)] at h
    exact aborts_of_abortedLoad hn h
  case completes =>
    rw [if_neg fun hf => hfault (blockFaults_iff.1 hf)] at h
    exact hP h

/-- What has been loaded once all words of the block have been read. -/
theorem State.loadedFrom_blockLoaded (s : State) (p u : Bool) (hn : ¬ BlockRestricted w rn list)
    (hw : w = true → m = s.cpsr.mode) :
    ∃ t, s.loadedFrom m u w rn list (s.blockAddrs p u rn list) = t
      ∧ BlockLoaded m p u w rn list s t ∧ t.cpsr = s.cpsr ∧ t.pc = s.pc := by
  refine ⟨_, ?_, blockLoaded_of_loadRegs hn _ rfl hw⟩
  rw [State.loadedFrom, State.atAccessNo_block]

/-- An LDM that ends with the advance. -/
theorem continues_of_loadedFrom (hn : ¬ BlockRestricted w rn list) (hw : w = true → m = s.cpsr.mode)
    (h : exec i s = advance (s.loadedFrom m u w rn list (s.blockAddrs p u rn list))) :
    Continues i s fun t => t.cpsr = s.cpsr ∧ BlockLoaded m p u w rn list s t := by
  obtain ⟨t, ht, loaded, hcpsr, hpc⟩ := s.loadedFrom_blockLoaded p u hn hw
  rw [ht] at h
  exact continues_of_advance h hpc ⟨hcpsr, loaded.setPc hn _⟩

theorem loadedPc_of_allowed (hn : ¬ BlockRestricted w rn list) :
    loadedPc (s.readWords (s.blockAddrs p u rn list)) = s.blockValue p u rn list ((listedRegs list).length - 1) :=
  loadedPc_eq (listedRegs_length_pos fun e => hn (.inl e))

/-- An LDM that ends with the load of the pc (R285). -/
theorem loadsPc_of_loadedFrom (hn : ¬ BlockRestricted w rn list) (hw : w = true → m = s.cpsr.mode) (ht : s.cpsr.t = false)
    (h : exec i s = loadPc (loadedPc (s.readWords (s.blockAddrs p u rn list)))
      (s.loadedFrom m u w rn list (s.blockAddrs p u rn list))) :
    LoadsPc i (s.blockValue p u rn list ((listedRegs list).length - 1)) s fun t => BlockLoaded m p u w rn list s t := by
  obtain ⟨t, hloaded, loaded, hcpsr, -⟩ := s.loadedFrom_blockLoaded p u hn hw
  rw [hloaded, loadedPc_of_allowed hn] at h
  obtain ⟨-, -, -, -, -, hcfg, -⟩ := id loaded
  exact loadsPc_of_loadPc h hcpsr ht (hcfg.trans (s.atBlockEnd_cfg list)) (fun q a => (loaded.setCpsr q).setPc hn a)
    fun a => loaded.setPc hn a

/-- An LDM that ends with the exception return (R286). -/
theorem returnsTo_of_loadedFrom (hn : ¬ BlockRestricted w rn list) (hw : w = true → m = s.cpsr.mode)
    (h : exec i s = exceptionReturn (loadedPc (s.readWords (s.blockAddrs p u rn list)))
      (s.loadedFrom m u w rn list (s.blockAddrs p u rn list))) :
    ReturnsTo i (s.blockValue p u rn list ((listedRegs list).length - 1)) s fun t => BlockLoaded m p u w rn list s t := by
  obtain ⟨t, hloaded, loaded, hcpsr, -⟩ := s.loadedFrom_blockLoaded p u hn hw
  rw [hloaded, loadedPc_of_allowed hn] at h
  obtain ⟨-, -, -, hspsr, -, hcfg, -⟩ := id loaded
  exact returnsTo_of_exceptionReturn h hcpsr (hspsr.trans (s.atBlockEnd_spsr list)) (hcfg.trans (s.atBlockEnd_cfg list))
    fun q => (loaded.setCpsr q).setPc hn _

/-! ### The instructions once their condition has passed -/

theorem exec_stm_of_passed (hc : conditionPassed cond s.cpsr = true) :
    exec (.stm cond p u w rn list) s = unlessRefused (blockCheck w rn list) (withBlock p u rn list s fun addrs =>
      finishStore u w rn list (addrs.zip ((listedRegs list).map s.storedReg)) s) :=
  conditional_passed hc _

theorem exec_ldm_of_passed (hc : conditionPassed cond s.cpsr = true) :
    exec (.ldm cond p u w rn list) s = unlessRefused (blockCheck w rn list)
      (loadBlock s.cpsr.mode p u w rn list s fun addrs =>
        if list.getLsbD 15 then loadPc (loadedPc (s.readWords addrs)) (s.loadedFrom s.cpsr.mode u w rn list addrs)
        else advance (s.loadedFrom s.cpsr.mode u w rn list addrs)) := by
  refine (conditional_passed hc _).trans ?_
  simp only [State.atAccessNo_cpsr, loadBlock, State.loadedFrom]

theorem exec_ldmReturn_of_passed (hc : conditionPassed cond s.cpsr = true) :
    exec (.ldmReturn cond p u w rn list) s = unlessRefused (blockCheck w rn list) (unlessRefused (needsSpsr s)
      (loadBlock s.cpsr.mode p u w rn list s fun addrs =>
        exceptionReturn (loadedPc (s.readWords addrs)) (s.loadedFrom s.cpsr.mode u w rn list addrs))) := by
  refine (conditional_passed hc _).trans ?_
  simp only [State.atAccessNo_cpsr, loadBlock, State.loadedFrom]

/-- The user bank form has no write-back, whatever W says. -/
theorem exec_ldmUser_of_passed (hc : conditionPassed cond s.cpsr = true) :
    exec (.ldmUser cond p u w rn list) s = unlessRefused (blockCheck w rn list) (unlessRefused (userBankCheck w s)
      (loadBlock .user p u false rn list s fun addrs => advance (s.loadedFrom .user u false rn list addrs))) :=
  conditional_passed hc _

theorem exec_stmUser_of_passed (hc : conditionPassed cond s.cpsr = true) :
    exec (.stmUser cond p u w rn list) s = unlessRefused (blockCheck w rn list)
      (if list.getLsbD 15 then .refused .userBankStoreOfPc
       else unlessRefused (userBankCheck w s) (withBlock p u rn list s fun addrs =>
        finishStore u false rn list (addrs.zip ((listedRegs list).map fun r => s.cell (bank .user r))) s)) :=
  conditional_passed hc _

end Sys2Proof.Machine
end

section
/-! The obligations about block transfers (47_multiple_transfer.md). -/

namespace Sys2Proof.Proofs

open Sys2Proof Sys2Proof.Machine

/-- Settles O51: the list is a filter of the rising register numbers, the start is a table, the write-back wraps. -/
theorem blockLayout : Obligations.BlockLayout := by
  refine ⟨mem_listedRegs, listedRegs_rising, fun base n => ⟨rfl, rfl, rfl, rfl, ?_⟩⟩
  exact blockWriteBack_eq base n

/-- Settles O52: the stores of a block, with the values of the current mode's registers. -/
theorem storeMultipleStoresTheListedRegisters : Obligations.StoreMultipleStoresTheListedRegisters := by
  intro s cond p u w rn list hm hc
  have hexec := exec_stm_of_passed (s := s) (p := p) (u := u) (w := w) (rn := rn) (list := list) hc
  refine ⟨fun hr => refused_of_check hexec (blockCheck_ne_none hr), fun hn => ?_⟩
  rw [blockCheck_allowed hn, unlessRefused_none, s.storedReg_eq] at hexec
  exact blockStore_of_finishStore hm (fun e => hn (.inr (.inl e))) hexec

/-- Settles O53: the loads of a block, ended by the advance or by the load of the pc. -/
theorem loadMultipleLoadsTheListedRegisters : Obligations.LoadMultipleLoadsTheListedRegisters := by
  intro s cond p u w rn list hc ht
  have hexec := exec_ldm_of_passed (s := s) (p := p) (u := u) (w := w) (rn := rn) (list := list) hc
  refine ⟨fun hr => refused_of_check hexec (blockCheck_ne_none hr), fun hn => ?_⟩
  rw [blockCheck_allowed hn, unlessRefused_none] at hexec
  refine blockLoad_of_loadBlock hn hexec fun hend => ⟨fun hpc => ?advances, fun hpc => ?branches⟩
  case advances =>
    rw [hpc] at hend
    exact continues_of_loadedFrom hn (fun _ => rfl) hend
  case branches =>
    rw [hpc] at hend
    exact loadsPc_of_loadedFrom hn (fun _ => rfl) ht hend

/-- Settles O54: the loads of a block, ended by the exception return. -/
theorem loadMultipleReturnsFromException : Obligations.LoadMultipleReturnsFromException := by
  intro s cond p u w rn list _ hc
  have hexec := exec_ldmReturn_of_passed (s := s) (p := p) (u := u) (w := w) (rn := rn) (list := list) hc
  refine ⟨fun hr => refused_of_check hexec (blockCheck_ne_none hr), fun hn hmode => ?none, fun hn hmode => ?returns⟩
  all_goals rw [blockCheck_allowed hn, unlessRefused_none] at hexec
  case none => rw [hexec, needsSpsr_of_none hmode, unlessRefused_some]
  case returns =>
    rw [needsSpsr_of_some hmode, unlessRefused_none] at hexec
    exact blockLoad_of_loadBlock hn hexec fun hend => returnsTo_of_loadedFrom hn (fun _ => rfl) hend

/-- Settles O55: the loads of a block into the User mode registers, without write-back. -/
theorem loadMultipleLoadsUserRegisters : Obligations.LoadMultipleLoadsUserRegisters := by
  intro s cond p u w rn list _ hc
  have hexec := exec_ldmUser_of_passed (s := s) (p := p) (u := u) (w := w) (rn := rn) (list := list) hc
  by_cases hn : BlockRestricted w rn list
  · exact ⟨fun _ => refused_of_check hexec (blockCheck_ne_none hn), fun h => absurd (.inl hn) h⟩
  rw [blockCheck_allowed hn, unlessRefused_none] at hexec
  refine ⟨fun h => refused_of_check hexec (userBankCheck_ne_none (h.resolve_left hn)), fun h => ?_⟩
  simp only [not_or, Bool.not_eq_true] at h
  obtain ⟨-, rfl, huser⟩ := h
  rw [userBankCheck_of_allowed huser, unlessRefused_none] at hexec
  exact blockLoad_of_loadBlock hn hexec fun hend => continues_of_loadedFrom hn nofun hend

/-- Settles O56: the stores of a block, with the values of the User mode registers and without write-back. -/
theorem storeMultipleStoresUserRegisters : Obligations.StoreMultipleStoresUserRegisters := by
  intro s cond p u w rn list hm hc
  have hexec := exec_stmUser_of_passed (s := s) (p := p) (u := u) (w := w) (rn := rn) (list := list) hc
  by_cases hn : BlockRestricted w rn list
  · exact ⟨fun _ => refused_of_check hexec (blockCheck_ne_none hn), fun h => absurd (.inl hn) h⟩
  rw [blockCheck_allowed hn, unlessRefused_none] at hexec
  by_cases hpc : list.getLsbD 15 = true
  · rw [if_pos hpc] at hexec
    exact ⟨fun _ => ⟨_, hexec⟩, fun h => absurd (.inr (.inl hpc)) h⟩
  rw [if_neg hpc] at hexec
  refine ⟨fun h => refused_of_check hexec (userBankCheck_ne_none ((h.resolve_left hn).resolve_left hpc)), fun h => ?_⟩
  simp only [not_or, Bool.not_eq_true] at h
  obtain ⟨-, -, rfl, huser⟩ := h
  rw [userBankCheck_of_allowed huser, unlessRefused_none] at hexec
  exact blockStore_of_finishStore hm (fun e => hn (.inr (.inl e))) hexec

end Sys2Proof.Proofs
end
section
/-! SUPPORT. The frame of a store with a register written after it, and the swaps once their restrictions hold
(48_swap.md R300 to R302). -/

namespace Sys2Proof.Machine

variable {s t u : State} {i : Instr} {cond : Cond} {rn rd rm : RegNum} {lo n : Nat} {cells : List Cell}

/-! ### Frames of stores -/

theorem StoreFrame.setReg (h : StoreFrame lo n cells s t) {r : RegNum} (v : Word) (hm : bank t.cpsr.mode r ∈ cells) :
    StoreFrame lo n cells s (t.setReg r v) := by
  obtain ⟨hregs, hspsr, hmem, hplat⟩ := h
  refine ⟨fun c hc hl => ?registers, by simpa using hspsr, by simpa [SameMemoryOutside] using hmem,
    by simpa [SamePlatform] using hplat⟩
  case registers =>
    have hne : c ≠ bank t.cpsr.mode r := fun e => hl (e ▸ hm)
    rw [State.setReg_cell, if_neg hne, hregs c hc hl]

theorem StoreFrame.setPc (h : StoreFrame lo n cells s t) (a : Word) : StoreFrame lo n cells s (t.setPc a) := by
  obtain ⟨hregs, hspsr, hmem, hplat⟩ := h
  exact ⟨fun c hc hl => by rw [State.setPc_cell _ _ hc, hregs c hc hl], hspsr, hmem, hplat⟩

theorem StoreFrame.storeWord (u : State) (a v : Word) : StoreFrame (alignWord a).toNat 4 cells u (u.storeWord a v) :=
  ⟨fun c _ _ => u.storeWord_cell a v c, rfl, fun _ hd => Memory.read_writeWord_outside _ _ _ hd, rfl, rfl, rfl⟩

theorem StoreFrame.storeByte (u : State) (a : Word) (v : Byte) : StoreFrame a.toNat 1 cells u (u.storeByte a v) :=
  ⟨fun c _ _ => u.storeByte_cell a v c, rfl, fun _ hd => Memory.read_write_ne _ _ (by omega), rfl, rfl, rfl⟩

/-! ### The ends of a swap -/

/-- A swap that is abandoned has changed nothing (20_memory.md R76). -/
theorem aborts_of_swap (h : exec i s = dataAbort s.atAccess) : Aborts i [] s s.atAccess (SameMemory s.atAccess) :=
  aborts_of_dataAbort h rfl rfl rfl (fun c _ _ => s.atAccess_cell c) ⟨rfl, rfl, rfl⟩ (takeException_sameMemory _ _ _)

/-- A swap that completes: `u` is the state after its store. -/
theorem continues_of_swap {v : Word} (h : exec i s = advance (u.setReg rd v)) (hrd : rd ≠ 15) (hpc : u.pc = s.pc)
    (hcpsr : u.cpsr = s.cpsr) (hframe : StoreFrame lo n [bank s.cpsr.mode rd] s.atAccess u) :
    Continues i s fun t =>
      t.cell (bank s.cpsr.mode rd) = v ∧ t.cpsr = s.cpsr ∧ StoreFrame lo n [bank s.cpsr.mode rd] s.atAccess t
        ∧ t.mem = u.mem ∧ t.written = u.written := by
  refine continues_of_advance h ((u.setReg_pc v hrd).trans hpc) ⟨?cell, ?cpsr, ?frame, ?memory, ?written⟩
  case cell => rw [State.setPc_cell _ _ (bank_ne_pc _ hrd), State.setReg_cell, hcpsr, if_pos rfl]
  case cpsr => exact (u.setReg_cpsr rd v).trans hcpsr
  case frame => exact (hframe.setReg v (by simp [hcpsr])).setPc _
  case memory => exact u.setReg_mem rd v
  case written => exact u.setReg_written rd v

/-! ### The instructions -/

theorem swapCheck_eq_none_iff : swapCheck rn rd rm = none ↔ ¬ (rd = 15 ∨ rm = 15 ∨ rn = 15 ∨ rn = rm ∨ rn = rd) := by
  unfold swapCheck
  split_ifs <;> simp only [false_iff, true_iff, not_not] <;> tauto

theorem exec_swp_of_passed (hc : conditionPassed cond s.cpsr = true) :
    exec (.swp cond rn rd rm) s = unlessRefused (swapCheck rn rd rm)
      (if s.refusesWordLoad (s.reg rn) then .refused .bigEndianUnalignedLoad
       else if s.wordFaults (s.reg rn) .read s.privilege || s.wordFaults (s.reg rn) .write s.privilege then
        dataAbort s.atAccess
       else advance ((s.atAccess.storeWord (s.reg rn) (s.reg rm)).setReg rd (s.atAccess.loadWord (s.reg rn)))) := by
  refine (conditional_passed hc _).trans ?_
  simp only [State.atAccess_wordFaults, State.atAccess_privilege, State.atAccess_reg]

theorem exec_swpb_of_passed (hc : conditionPassed cond s.cpsr = true) :
    exec (.swpb cond rn rd rm) s = unlessRefused (swapCheck rn rd rm)
      (if s.byteFaults (s.reg rn) .read s.privilege || s.byteFaults (s.reg rn) .write s.privilege then
        dataAbort s.atAccess
       else advance ((s.atAccess.storeByte (s.reg rn) ((s.reg rm).extractLsb' 0 8)).setReg rd
        ((s.atAccess.loadByte (s.reg rn)).setWidth 32))) := by
  refine (conditional_passed hc _).trans ?_
  simp only [State.atAccess_byteFaults, State.atAccess_privilege, State.atAccess_reg]

/-- The unaligned word load that is refused (20_memory.md R66). -/
theorem State.refusesWordLoad_iff (s : State) (a : Word) :
    s.refusesWordLoad a = true ↔ s.cfg.bigEndian = true ∧ s.cfg.alignFault = false ∧ a.extractLsb' 0 2 ≠ 0#2 := by
  simp [State.refusesWordLoad, and_assoc]

theorem State.not_refusesWordLoad (s : State) {a : Word}
    (h : s.cfg.bigEndian = true → s.cfg.alignFault = false → a.extractLsb' 0 2 = 0#2) : ¬ s.refusesWordLoad a = true := by
  rw [State.refusesWordLoad_iff]
  exact fun ⟨hbe, halign, hunaligned⟩ => hunaligned (h hbe halign)

end Sys2Proof.Machine
end

section
/-! The obligation about the swaps (48_swap.md). -/

namespace Sys2Proof.Proofs

open Sys2Proof Sys2Proof.Machine

/-- Settles O57: behind the same check, either swap is a fault of one of the two accesses, or a store and a register. -/
theorem swapExchangesRegisterAndMemory : Obligations.SwapExchangesRegisterAndMemory := by
  intro s cond rn rd rm bad hm hc hbad
  have hswp := exec_swp_of_passed (s := s) (rn := rn) (rd := rd) (rm := rm) hc
  have hswpb := exec_swpb_of_passed (s := s) (rn := rn) (rd := rd) (rm := rm) hc
  have hcheck : swapCheck rn rd rm = none ↔ ¬ bad := by rw [swapCheck_eq_none_iff, hbad]
  have hmA : s.atAccess.mem.wf = true := State.atAccess_memoryWf hm
  refine ⟨fun h => ?refused, fun h =>
    ⟨⟨fun hbe hal hun => ?unaligned, fun hal => ⟨fun hf => ?wordAborts, fun hf => ?word⟩⟩,
      ⟨fun hf => ?byteAborts, fun hf => ?byte⟩⟩⟩
  case refused =>
    have hfound : swapCheck rn rd rm ≠ none := fun e => hcheck.1 e h
    exact ⟨refused_of_check hswp hfound, refused_of_check hswpb hfound⟩
  all_goals
    have hrd : rd ≠ 15 := fun e => h (hbad.2 (.inl e))
    rw [hcheck.2 h, unlessRefused_none] at hswp hswpb
  case unaligned => rw [hswp, if_pos ((s.refusesWordLoad_iff _).2 ⟨hbe, hal, hun⟩)]
  case wordAborts =>
    rw [if_neg (s.not_refusesWordLoad hal), if_pos (by simpa using hf)] at hswp
    exact aborts_of_swap hswp
  case word =>
    rw [if_neg (s.not_refusesWordLoad hal), if_neg (by simpa using hf)] at hswp
    refine (continues_of_swap hswp hrd rfl rfl (.storeWord _ _ _)).mono fun t ht => ?_
    obtain ⟨hcell, hcpsr, hframe, hmem, hwritten⟩ := ht
    refine ⟨hcell, fun k b hk => ?_, hcpsr, hframe, fun a => ?_⟩
    · obtain ⟨hk4, rfl⟩ := wordBytes_get _ _ _ _ hk
      rw [hmem]
      exact Memory.read_writeWord _ _ hmA (alignWord_lt _) hk4
    · rw [hwritten]
      exact mem_noteWritten _ _ _
  case byteAborts =>
    rw [if_pos (by simpa using hf)] at hswpb
    exact aborts_of_swap hswpb
  case byte =>
    rw [if_neg (by simpa using hf)] at hswpb
    refine (continues_of_swap hswpb hrd rfl rfl (.storeByte _ _ _)).mono fun t ht => ?_
    obtain ⟨hcell, hcpsr, hframe, hmem, hwritten⟩ := ht
    refine ⟨hcell, ?_, hcpsr, hframe, fun a => ?_⟩
    · rw [hmem]
      exact Memory.read_write_same _ _ hmA
    · rw [hwritten]
      exact mem_noteWritten _ _ _

end Sys2Proof.Proofs
end

section
/-! SUPPORT. MRS and MSR once their condition has passed (49_status_register.md R310, R313). -/

namespace Sys2Proof.Machine

variable {s : State} {cond : Cond} {r : Bool} {rd rm : RegNum} {fieldMask rot : BitVec 4} {imm8 : BitVec 8}

/-- The word MRS puts into its destination, the twenty unused bits free. -/
def State.readStatus (s : State) (p : Psr) : Word := psrWord p (s.freeWord.extractLsb' 0 20)

theorem exec_mrs_into_pc (hc : conditionPassed cond s.cpsr = true) : exec (.mrs cond r 15) s = .refused .mrsIntoPc :=
  conditional_passed hc _

theorem exec_mrs_of_none (hc : conditionPassed cond s.cpsr = true) (hrd : rd ≠ 15) (hq : s.statusSource r = none) :
    exec (.mrs cond r rd) s = .refused .noSpsr := by
  refine (conditional_passed hc _).trans ?_
  rw [if_neg hrd, hq]

theorem exec_mrs_of_some {q : Psr} (hc : conditionPassed cond s.cpsr = true) (hrd : rd ≠ 15)
    (hq : s.statusSource r = some q) : exec (.mrs cond r rd) s = advance (s.setReg rd (s.readStatus q)).drawn := by
  refine (conditional_passed hc _).trans ?_
  rw [if_neg hrd, hq]
  rfl

/-- MRS changes its destination and uses up a free value. -/
theorem continues_of_mrs {i : Instr} {v : Word} (h : exec i s = advance (s.setReg rd v).drawn) (hrd : rd ≠ 15) :
    Continues i s fun t =>
      t.cell (bank s.cpsr.mode rd) = v ∧ t.cpsr = s.cpsr ∧ RegisterFrame [bank s.cpsr.mode rd] s t := by
  refine continues_of_advance h (s.setReg_pc v hrd) ⟨?cell, s.setReg_cpsr rd v, ?frame⟩
  case cell => rw [State.setPc_cell _ _ (bank_ne_pc _ hrd), State.drawn, State.setDraws_cell, State.setReg_cell, if_pos rfl]
  case frame => exact (((RegisterFrame.refl _ s).setReg v (List.mem_singleton.2 rfl)).drawn).setPc _

theorem exec_msrReg_from_pc (hc : conditionPassed cond s.cpsr = true) :
    exec (.msrReg cond r fieldMask 15) s = .refused .msrFromPc :=
  conditional_passed hc _

theorem exec_msrReg_of_passed (hc : conditionPassed cond s.cpsr = true) (hrm : rm ≠ 15) :
    exec (.msrReg cond r fieldMask rm) s = moveToStatus r fieldMask (s.reg rm) s :=
  (conditional_passed hc _).trans (if_neg hrm)

theorem exec_msrImm_of_otherField (hc : conditionPassed cond s.cpsr = true) (h : fieldMask.extractLsb' 0 3 ≠ 0#3) :
    exec (.msrImm cond r fieldMask rot imm8) s = .refused .msrImmediateField :=
  (conditional_passed hc _).trans (if_pos h)

theorem exec_msrImm_of_passed (hc : conditionPassed cond s.cpsr = true) (h : fieldMask.extractLsb' 0 3 = 0#3) :
    exec (.msrImm cond r fieldMask rot imm8) s = moveToStatus r fieldMask (rotatedImmediate rot imm8) s :=
  (conditional_passed hc _).trans (if_neg (not_not.2 h))

/-- An immediate MSR does not select the control field. -/
theorem getLsbD_zero_of_flagsOnly (h : fieldMask.extractLsb' 0 3 = 0#3) : fieldMask.getLsbD 0 = false := by
  have hbit := congrArg (·.getLsbD 0) h
  simpa [BitVec.getLsbD_extractLsb'] using hbit

end Sys2Proof.Machine
end

section
/-! The obligations about status register transfers (49_status_register.md). -/

namespace Sys2Proof.Proofs

open Sys2Proof Sys2Proof.Machine

/-- Settles O58: MRS writes one register, with a word whose twelve bits are those of its source. -/
theorem statusRegisterReadGivesItsBits : Obligations.StatusRegisterReadGivesItsBits := by
  intro s cond r rd hc
  refine ⟨fun hrd => ?pc, fun hrd hr hmode => ?none, fun hrd q hq => ?reads⟩
  case pc =>
    subst hrd
    exact exec_mrs_into_pc hc
  case none =>
    refine exec_mrs_of_none hc hrd ?_
    rcases hmode with hmode | hmode <;> simp [State.statusSource, hr, hmode, State.spsrOf]
  case reads =>
    have hsource : s.statusSource r = some q := by
      cases r with
      | false => exact congrArg some (Eq.symm hq)
      | true => exact hq
    refine (continues_of_mrs (exec_mrs_of_some hc hrd hsource) hrd).mono fun t ht => ?_
    obtain ⟨hcell, hcpsr, hframe⟩ := ht
    rw [hcell]
    exact ⟨psrWord_bits q _, hcpsr, hframe⟩

/-- Settles O59: both forms are the same move once their operand is at hand, and the immediate one selects only the flags. -/
theorem statusRegisterWriteMovesSelectedFields : Obligations.StatusRegisterWriteMovesSelectedFields := by
  intro s cond r fieldMask rot imm8 rm hc
  refine ⟨fun hrm => ?pc, exec_msrImm_of_otherField hc, fun hrm => ?register, fun hflags => ?immediate⟩
  case pc =>
    subst hrm
    exact exec_msrReg_from_pc hc
  case register => exact movesToStatus_of_moveToStatus (exec_msrReg_of_passed hc hrm) rfl rfl
  case immediate =>
    exact movesToStatus_of_moveToStatus (exec_msrImm_of_passed hc hflags) rfl (getLsbD_zero_of_flagsOnly hflags)

end Sys2Proof.Proofs
end
